-- ==== Sys2Proof/Word.lean ====
section
/-! DEFINITION. Word.lean: the bit-vector types of the engine. Rule numbers R<n> are those of spec/.
Only what the spec treats as bits is a bit vector: bytes, codes held in an element of fixed width, hash
indices, and the three-byte window of BitCursor. Positions, counters and sizes are naturals (R10, R11). -/

namespace Sys2Proof

/-- A byte (R12). -/
abbrev Byte := BitVec 8

/-- A code as the memories and the code registers hold it: 16 bits (R33, R42, R47, R53). -/
abbrev Code := BitVec 16

/-- An index of `hslot`: 17 bits (R42, R151). -/
abbrev HIdx := BitVec 17

/-- BitCursor's window of three bytes, read little-endian (R63). -/
abbrev Window := BitVec 24

end Sys2Proof
end

