-- ==== Sys2Proof/Config.lean ====
section
/-! DEFINITION. Config.lean: the constants the source fixes (R6), the sizes the spec decides (R9), the three
parameters the source leaves open (R8) and the free values of hardware reset. A parameter or a free value is an
`opaque` constant without a body: no proof sees what it is, so every theorem holds for every legal choice. -/

namespace Sys2Proof.Config

/-! Constants of R6. -/

/-- Header byte 0. -/
@[simp] abbrev magic1 : Byte := 0x1F#8
/-- Header byte 1. -/
@[simp] abbrev magic2 : Byte := 0x9D#8
/-- Code width at stream start and after CLEAR. -/
@[simp] abbrev initBits : Nat := 9
/-- The engine's ceiling for `maxbits`. -/
@[simp] abbrev bitsCeil : Nat := 16
/-- The control code CLEAR. -/
@[simp] abbrev clearCode : Code := 256#16
/-- First dictionary code when block mode is on. -/
@[simp] abbrev first : Nat := 257
/-- Input bytes between ratio checks. -/
@[simp] abbrev checkGap : Nat := 10000

/-! Sizes (R6 for `hslot`, R9 for the others; none changes a result as long as R9's lower bound holds). -/

/-- `HSIZE`, the slots of `hslot`. -/
@[simp] abbrev hSize : Nat := 131072
/-- `OBUF_BYTES`. -/
@[simp] abbrev obufBytes : Nat := 32
/-- `IBUF_BYTES`. -/
@[simp] abbrev ibufBytes : Nat := 4
/-- `STACK_DEPTH`. -/
@[simp] abbrev stackDepth : Nat := 65536
/-- `TAB_DEPTH`. -/
@[simp] abbrev tabDepth : Nat := 65536
/-- `2 ^ LENW`: `in_len` and `out_cap` are below it on the hardware's port (R9). -/
@[simp] abbrev lenLimit : Nat := 4294967296

/-! The open parameters of R8. -/

/-- The two alignment origins (R8, R29). -/
inductive AlignOrigin where
  | epoch
  | run
deriving DecidableEq, Repr, Inhabited

/-- Parameter `ALIGN_ORIGIN` (D12): left open by the spec, whose default is `EPOCH`. DESIGN CHOICE (log 1). -/
opaque alignOrigin : AlignOrigin

/-- Half of `STRIDE[b] - 1`. Every table of odd integers is `2 * strideHalf b + 1` for some `strideHalf`, and
`STRIDE[b] mod 2^17` is odd exactly when `STRIDE[b]` is, so this is every legal table and nothing else. DESIGN CHOICE (log 2). -/
opaque strideHalf : Byte → Int

/-- Parameter `STRIDE` (R8, R152, D10). -/
def stride (b : Byte) : Int := 2 * strideHalf b + 1

/-- `RatioT` of R8: a totally ordered set with a least element `RATIO_ZERO`. The non-zero values are rationals:
every countable total order embeds in them, so every legal `RATIO` has this form up to order. DESIGN CHOICE (log 3). -/
inductive RatioT where
  | zero
  | val (q : Rat)
deriving DecidableEq, Repr, Inhabited

/-- The order of `RatioT`, the `<=` of R190. -/
def RatioT.le : RatioT → RatioT → Bool
  | .zero, _ => true
  | .val _, .zero => false
  | .val p, .val q => decide (p ≤ q)

/-- A monotone map of the rationals: what a legal `RATIO` does to the exact quotient (R8: equal quotients have
equal ratios, since each is `<=` the other). DESIGN CHOICE (log 3). -/
opaque ratioMap : Rat →o Rat

/-- What RATIO answers outside its domain of two positive naturals (R8): a free value of the operands. DESIGN CHOICE (log 3). -/
opaque ratioOutside : Nat → Nat → RatioT

/-- Parameter `RATIO` (R8, R191, D11): `bytes_in / bytes_out` through the open monotone map; above `RATIO_ZERO`. -/
def ratio (a b : Nat) : RatioT :=
  if 0 < a ∧ 0 < b then .val (ratioMap ((a : Rat) / (b : Rat))) else ratioOutside a b

/-- How far past `pos` REALIGN goes outside its domain, with `pos < base` or a width of zero, where R135 states no result:
a free value of the operands. DESIGN CHOICE (log 22). -/
opaque realignOutside : Nat → Nat → Nat → Nat

/-- The code INSERT stores when `free_ent` is no 16-bit code, outside R155's precondition: a free value of `free_ent`.
DESIGN CHOICE (log 23). -/
opaque codeOutside : Nat → Code

/-! Free values: what hardware reset leaves in every register but `mode` and `err` (R58, R300, U7). DESIGN CHOICE (log 9). -/

/-- The `n`-th free natural; a register takes it modulo its own range. -/
opaque freeNat : Nat → Nat

/-- The `n`-th free `RatioT`. -/
opaque freeRatio : Nat → RatioT

end Sys2Proof.Config
end

