-- ==== Sys2Proof/Syntax.lean ====
section
/-! DEFINITION. Syntax.lean: the names the spec gives its modes, phases, statuses and error kinds, the host's
requests, and the ONE inductive of instructions, with one constructor per row of spec/opcode_table.json. -/

namespace Sys2Proof

/-- The four error kinds (R270, R271). -/
inductive ErrKind where
  /-- UsageError: the caller violated the contract. -/
  | usage
  /-- FormatError: bad magic bytes, or fewer than three bytes in all. -/
  | format
  /-- UnsupportedWidthError: the declared `maxbits` is outside 9 to 16. -/
  | width
  /-- CorruptStreamError: an illegal code reference. -/
  | corrupt
deriving DecidableEq, Repr

/-- The statuses a command returns (R98). `Error` carries its kind (R99). -/
inductive Status where
  /-- `Continue`. -/
  | cont
  /-- `NeedMoreInput`. -/
  | needMoreInput
  /-- `OutputFull`. -/
  | outputFull
  /-- `StreamEnd`. -/
  | streamEnd
  /-- `Error(kind)`. -/
  | error (kind : ErrKind)
deriving DecidableEq, Repr

/-- `mode`, which kind of session is open (R21). The value 3 is never written and has no constructor (U6). -/
inductive Mode where
  | idle
  | comp
  | decomp
deriving DecidableEq, Repr

/-- `cphase` (R32). -/
inductive CPhase where
  /-- `C_FIRST`: session open, no input byte consumed. -/
  | first
  /-- `C_RUN`: `prefix` holds the pending prefix. -/
  | run
  /-- `C_FINISHING`: whole bytes remain in `obuf` after FINISH. -/
  | finishing
  /-- `C_DONE`: terminal. -/
  | done
deriving DecidableEq, Repr

/-- `dphase` (R46). The values 5 to 7 are never written and have no constructor (U6). -/
inductive DPhase where
  /-- `D_HEADER`. -/
  | header
  /-- `D_STREAM_FIRST`: header accepted, no code consumed. -/
  | streamFirst
  /-- `D_EPOCH_FIRST`: the last code consumed was a CLEAR. -/
  | epochFirst
  /-- `D_RUN`: a previous code exists in this epoch. -/
  | run
  /-- `D_DONE`: terminal. -/
  | done
deriving DecidableEq, Repr

/-- The two staging buffers BitCursor works on (R41, R51, D27). -/
inductive BufSel where
  | obuf
  | ibuf
deriving DecidableEq, Repr

/-- A host command as it crosses the port: the 3-bit command word with the operands that travel beside it
(R96, R97). An operand the command does not have is not looked at. -/
structure Request where
  cmd    : BitVec 3
  cfg    : Byte
  inData : List Byte
  outCap : Nat
deriving DecidableEq, Repr

/-- What the outside world can do to the engine: issue a command (R96) or assert the reset line (R300). -/
inductive PortEvent where
  | command (r : Request)
  | resetLine
deriving DecidableEq, Repr

/-- The instructions: one constructor per row of spec/opcode_table.json. -/
inductive Instr where
  -- format CMD: host commands (R96, R97)
  | beginCompress (cfg : Byte)
  | beginDecompress
  | advanceC (inData : List Byte) (outCap : Nat)
  | advanceD (inData : List Byte) (outCap : Nat)
  | finish (outCap : Nat)
  | cmdReserved0
  | cmdReserved6
  | cmdReserved7
  -- format HDR: the stream header (R92, R93): `k` is bit 23, `r` bits 22:21, `m` bits 20:16
  | hdrWrite (k : Bool) (m : BitVec 5)
  | hdrRead (k : Bool) (r : BitVec 2) (m : BitVec 5)
  -- format CODE: the code classes, in the order of R101
  | literalFirst (b : Byte)
  | badcodeFirst (c : Code)
  | clear
  | literalEpochFirst (b : Byte)
  | badcodeEpochFirst (c : Code)
  | badcodeRange (c : Code)
  | kwkwk (c : Code)
  | literal (b : Byte)
  | dictref (c : Code)
  -- format UOP: BitCursor (40_bitcursor.md)
  | putCode (buffer : BufSel) (bitOffset : Nat) (code : Code) (width : Nat)
  | getCode (buffer : BufSel) (bitOffset : Nat) (width : Nat)
  | realign (pos base w : Nat)
  | cRealign (w : Nat)
  | dRealign (w : Nat)
  | cPut (code : Code) (w : Nat)
  | dGet
  | ibufCompact
  | dSkip
  | dTake (b : Byte)
  -- format UOP: Dictionary (41_dictionary.md)
  | hash (pfx : Code) (byte : Byte)
  | probeNext (h : HIdx) (byte : Byte)
  | lookupOrInsert (pfx : Code) (byte : Byte)
  | insert (h : HIdx) (pfx : Code) (byte : Byte)
  | dictClear
  | tabSeed
  | tabDefine (p : Code) (b : Byte)
  | push (b : Byte)
  | unroll (code : Code)
  -- format UOP: the compress state machine (42_compress.md)
  | cLoop (inData : List Byte) (outCap : Nat)
  | cByte (c : Byte)
  | cGrow
  | cRatio
  | ratio (a b : Nat)
  | cDrain
  | finishC (outCap : Nat)
  -- format UOP: the decompress state machine (43_decompress.md)
  | dLoop (inData : List Byte) (outCap : Nat)
  | dHeader
  | dCode
  | dFirst (c : Code)
  | dClear
  | dExpand (c : Code)
  | dGrow
  | dDrain
  | finishD (outCap : Nat)
  -- format UOP: errors (60_exceptions.md)
  | raise (kind : ErrKind)
  -- format PSEUDO (R118): the room offered to each command is "any value >= 1", here an operand
  | compressAll (cfg : Byte) (s : List Byte) (outCap : Nat)
  | decompressAll (z : List Byte) (outCap : Nat)
  -- format EVENT (R300)
  | reset
deriving DecidableEq, Repr

end Sys2Proof
end

