-- ==== Sys2Proof/WellFormed.lean ====
section
/-! DEFINITION. WellFormed.lean: which terms of `Instr` are operands the spec gives the instruction. A command's
operands must fit the port (R9 `LENW`); a width is 9 to 16 and a code fits its width (R130); a realignment has
`pos >= base` (R135); a ratio has positive operands (R191); a code class has a code of its class (R101); a header the
compressor writes declares 9 to 16 bits (R92); a pseudo-command offers some room and a legal `cfg` (R118, R180). The
machine's meanings do not rest on these checks. -/

namespace Sys2Proof

/-- A code width (R130, R25). -/
def widthOk (w : Nat) : Bool := decide (9 ≤ w) && decide (w ≤ 16)

/-- A `cfg` that BEGIN_COMPRESS accepts (R180): `cfg[6:5] = 0` and `cfg[4:0]` in 9..16. -/
def cfgOk (cfg : Byte) : Bool :=
  decide (cfg.extractLsb' 5 2 = 0#2) && widthOk (cfg.extractLsb' 0 5).toNat

/-- An `in_len` or `out_cap` that the port can carry (R9). -/
def lenOk (n : Nat) : Bool := decide (n < Config.lenLimit)

/-- The well-formedness check of an instruction. -/
def wellFormed : Instr → Bool
  | .beginCompress _ => true
  | .beginDecompress => true
  | .advanceC inData outCap => lenOk inData.length && lenOk outCap
  | .advanceD inData outCap => lenOk inData.length && lenOk outCap
  | .finish outCap => lenOk outCap
  | .cmdReserved0 => true
  | .cmdReserved6 => true
  | .cmdReserved7 => true
  | .hdrWrite _ m => widthOk m.toNat
  | .hdrRead _ _ _ => true
  | .literalFirst _ => true
  | .badcodeFirst c => decide (256 ≤ c.toNat)
  | .clear => true
  | .literalEpochFirst _ => true
  | .badcodeEpochFirst c => decide (256 ≤ c.toNat)
  | .badcodeRange _ => true
  | .kwkwk _ => true
  | .literal _ => true
  | .dictref c => decide (256 ≤ c.toNat)
  | .putCode _ _ code width => widthOk width && decide (code.toNat < 2 ^ width)
  | .getCode _ _ width => widthOk width
  | .realign pos base w => decide (base ≤ pos) && widthOk w
  | .cRealign w => widthOk w
  | .dRealign w => widthOk w
  | .cPut code w => widthOk w && decide (code.toNat < 2 ^ w)
  | .dGet => true
  | .ibufCompact => true
  | .dSkip => true
  | .dTake _ => true
  | .hash _ _ => true
  | .probeNext _ _ => true
  | .lookupOrInsert _ _ => true
  | .insert _ _ _ => true
  | .dictClear => true
  | .tabSeed => true
  | .tabDefine _ _ => true
  | .push _ => true
  | .unroll _ => true
  | .cLoop inData outCap => lenOk inData.length && lenOk outCap
  | .cByte _ => true
  | .cGrow => true
  | .cRatio => true
  | .ratio a b => decide (1 ≤ a) && decide (1 ≤ b)
  | .cDrain => true
  | .finishC outCap => lenOk outCap
  | .dLoop inData outCap => lenOk inData.length && lenOk outCap
  | .dHeader => true
  | .dCode => true
  | .dFirst _ => true
  | .dClear => true
  | .dExpand _ => true
  | .dGrow => true
  | .dDrain => true
  | .finishD outCap => lenOk outCap
  | .raise _ => true
  | .compressAll cfg s outCap => cfgOk cfg && lenOk s.length && decide (1 ≤ outCap) && lenOk outCap
  | .decompressAll z outCap => lenOk z.length && decide (1 ≤ outCap) && lenOk outCap
  | .reset => true

end Sys2Proof
end

