-- ==== Sys2Proof/Decode.lean ====
section
/-! DEFINITION. Decode.lean: the engine's three decoders (the host's command word, R97; the stream header, R93; the
code classes, R101), the encoder written from the same tables, and the numeric encodings of what the host reads back
(R98, R99). Micro-operations, pseudo-commands and the reset event have no encoding (R119). Every decoder is total and
rejects by name. -/

namespace Sys2Proof

/-- Why a word is no instruction. -/
inductive Reject where
  /-- The word has more bits than the format gives it. -/
  | wordTooWide
  /-- No format of spec/opcode_table.json has this many bits. -/
  | noSuchFormat
  /-- The low 16 bits of a header are not the magic bytes (R91). D_HEADER turns this into FormatError (R228). -/
  | badMagic
  /-- A header the compressor would write has bits 22:21 zero (R93). -/
  | reservedBits
  /-- A header the compressor would write declares 9 to 16 bits (R92). -/
  | widthOutOfRange
  /-- A header or code belongs to an open session (R21). -/
  | noSession
  /-- No class of R101 applies before the header was accepted or after the end of the stream. -/
  | notAwaitingCode
deriving DecidableEq, Repr

/-- The session state that decides what a stream word is (R101; the direction of a header is the session's kind). -/
structure DecodeCtx where
  mode      : Mode
  dphase    : DPhase
  blockMode : Bool
  freeEnt   : Nat
deriving DecidableEq, Repr

/-- An encoded instruction: a host request, a header value (R93), or a code zero-extended to 16 bits (R119). -/
inductive EncWord where
  | cmd (r : Request)
  | hdr (h : BitVec 24)
  | code (c : Code)
deriving DecidableEq, Repr

/-! ## Format CMD -/

/-- The command of a request, by its 3-bit command word (R97). -/
def decodeRequest (r : Request) : Instr :=
  if r.cmd = 1#3 then .beginCompress r.cfg
  else if r.cmd = 2#3 then .beginDecompress
  else if r.cmd = 3#3 then .advanceC r.inData r.outCap
  else if r.cmd = 4#3 then .advanceD r.inData r.outCap
  else if r.cmd = 5#3 then .finish r.outCap
  else if r.cmd = 6#3 then .cmdReserved6
  else if r.cmd = 7#3 then .cmdReserved7
  else .cmdReserved0

/-! ## Format HDR: `k r r m m m m m 10011101 00011111`, bit 23 first (R93) -/

/-- `MAGIC_1`'s field, bits 7:0. -/
def hdrMagic1 (h : BitVec 24) : Byte := h.extractLsb' 0 8
/-- `MAGIC_2`'s field, bits 15:8. -/
def hdrMagic2 (h : BitVec 24) : Byte := h.extractLsb' 8 8
/-- `maxbits`, bits 20:16. -/
def hdrMaxbits (h : BitVec 24) : BitVec 5 := h.extractLsb' 16 5
/-- The reserved field, bits 22:21. -/
def hdrReserved (h : BitVec 24) : BitVec 2 := h.extractLsb' 21 2
/-- `block_mode`, bit 23. -/
def hdrBlock (h : BitVec 24) : Bool := h.extractLsb' 23 1 == 1#1

/-- The magic test of R228: `MAGIC_1` in byte 0 and `MAGIC_2` in byte 1. -/
def hdrMagicOk (h : BitVec 24) : Bool := hdrMagic1 h == Config.magic1 && hdrMagic2 h == Config.magic2

/-- The header as the decompressor accepts it: only the magic is tested here; `r` is ignored, and the width is
HDR_READ's own test (R228). -/
def decodeHdrRead (h : BitVec 24) : Except Reject Instr :=
  if hdrMagicOk h then .ok (.hdrRead (hdrBlock h) (hdrReserved h) (hdrMaxbits h)) else .error .badMagic

/-- The header as the compressor writes it: mask `0x60FFFF`, match `0x009D1F` (R93), and a width of 9 to 16. -/
def decodeHdrWrite (h : BitVec 24) : Except Reject Instr :=
  if hdrMagicOk h then
    if hdrReserved h = 0#2 then
      if widthOk (hdrMaxbits h).toNat then .ok (.hdrWrite (hdrBlock h) (hdrMaxbits h))
      else .error .widthOutOfRange
    else .error .reservedBits
  else .error .badMagic

/-- A header by the direction of the session: a compress session writes it, a decompress session reads it. -/
def decodeHdr (mode : Mode) (h : BitVec 24) : Except Reject Instr :=
  match mode with
  | .comp => decodeHdrWrite h
  | .decomp => decodeHdrRead h
  | .idle => .error .noSession

/-! ## Format CODE: the classes of R101, tried in the order of its rows -/

/-- The class of the code `c`: the first row of R101's table whose condition holds. -/
def classify (ctx : DecodeCtx) (c : Code) : Except Reject Instr :=
  if ctx.dphase = .streamFirst ∧ c.toNat < 256 then .ok (.literalFirst (c.setWidth 8))
  else if ctx.dphase = .streamFirst ∧ 256 ≤ c.toNat then .ok (.badcodeFirst c)
  else if ctx.dphase = .header ∨ ctx.dphase = .done then .error .notAwaitingCode
  else if c = Config.clearCode ∧ ctx.blockMode = true then .ok .clear
  else if ctx.dphase = .epochFirst ∧ c.toNat < 256 then .ok (.literalEpochFirst (c.setWidth 8))
  else if ctx.dphase = .epochFirst ∧ 256 ≤ c.toNat then .ok (.badcodeEpochFirst c)
  else if ctx.freeEnt < c.toNat then .ok (.badcodeRange c)
  else if c.toNat = ctx.freeEnt then .ok (.kwkwk c)
  else if c.toNat < 256 then .ok (.literal (c.setWidth 8))
  else .ok (.dictref c)

/-! ## All formats -/

/-- The instruction a word stands for in a session. -/
def decode (ctx : DecodeCtx) : EncWord → Except Reject Instr
  | .cmd r => .ok (decodeRequest r)
  | .hdr h => decodeHdr ctx.mode h
  | .code c => classify ctx c

/-- The request of a command word with no operands (operand words of zeros). -/
def bareRequest (cmd : BitVec 3) : Request := { cmd := cmd, cfg := 0#8, inData := [], outCap := 0 }

/-- The header value of its fields (R93). -/
def packHdr (k : Bool) (r : BitVec 2) (m : BitVec 5) : BitVec 24 :=
  (BitVec.ofBool k ++ r ++ m ++ Config.magic2 ++ Config.magic1 : BitVec (1 + 2 + 5 + 8 + 8))

/-- The word of an instruction, from R93, R97 and R101's `encoding` strings; `none` for the formats UOP, PSEUDO and
EVENT, which have no encoding (R119). -/
def encode : Instr → Option EncWord
  | .beginCompress cfg => some (.cmd { bareRequest 1#3 with cfg := cfg })
  | .beginDecompress => some (.cmd (bareRequest 2#3))
  | .advanceC inData outCap => some (.cmd { bareRequest 3#3 with inData := inData, outCap := outCap })
  | .advanceD inData outCap => some (.cmd { bareRequest 4#3 with inData := inData, outCap := outCap })
  | .finish outCap => some (.cmd { bareRequest 5#3 with outCap := outCap })
  | .cmdReserved0 => some (.cmd (bareRequest 0#3))
  | .cmdReserved6 => some (.cmd (bareRequest 6#3))
  | .cmdReserved7 => some (.cmd (bareRequest 7#3))
  | .hdrWrite k m => some (.hdr (packHdr k 0#2 m))
  | .hdrRead k r m => some (.hdr (packHdr k r m))
  | .literalFirst b => some (.code (b.setWidth 16))
  | .badcodeFirst c => some (.code c)
  | .clear => some (.code 0x0100#16)
  | .literalEpochFirst b => some (.code (b.setWidth 16))
  | .badcodeEpochFirst c => some (.code c)
  | .badcodeRange c => some (.code c)
  | .kwkwk c => some (.code c)
  | .literal b => some (.code (b.setWidth 16))
  | .dictref c => some (.code c)
  | .putCode _ _ _ _ => none
  | .getCode _ _ _ => none
  | .realign _ _ _ => none
  | .cRealign _ => none
  | .dRealign _ => none
  | .cPut _ _ => none
  | .dGet => none
  | .ibufCompact => none
  | .dSkip => none
  | .dTake _ => none
  | .hash _ _ => none
  | .probeNext _ _ => none
  | .lookupOrInsert _ _ => none
  | .insert _ _ _ => none
  | .dictClear => none
  | .tabSeed => none
  | .tabDefine _ _ => none
  | .push _ => none
  | .unroll _ => none
  | .cLoop _ _ => none
  | .cByte _ => none
  | .cGrow => none
  | .cRatio => none
  | .ratio _ _ => none
  | .cDrain => none
  | .finishC _ => none
  | .dLoop _ _ => none
  | .dHeader => none
  | .dCode => none
  | .dFirst _ => none
  | .dClear => none
  | .dExpand _ => none
  | .dGrow => none
  | .dDrain => none
  | .finishD _ => none
  | .raise _ => none
  | .compressAll _ _ _ => none
  | .decompressAll _ _ => none
  | .reset => none

/-- The session in which a bare 16-bit word is read (log 15): block mode on, one code of the epoch consumed. -/
def tableCtx : DecodeCtx := { mode := .decomp, dphase := .run, blockMode := true, freeEnt := 257 }

/-- A header word read with no session to say its direction (log 15): the stricter pattern, HDR_WRITE, first. -/
def decodeHdrAny (h : BitVec 24) : Except Reject Instr :=
  match decodeHdrWrite h with
  | .ok i => .ok i
  | .error _ => decodeHdrRead h

/-- A word of the opcode table by its length: a command word in a byte, a code, a header (log 15). -/
def decodeTable (nbits w : Nat) : Except Reject Instr :=
  if nbits = 8 then
    if w < 8 then .ok (decodeRequest (bareRequest (BitVec.ofNat 3 w))) else .error .wordTooWide
  else if nbits = 16 then
    if w < 65536 then classify tableCtx (BitVec.ofNat 16 w) else .error .wordTooWide
  else if nbits = 24 then
    if w < 16777216 then decodeHdrAny (BitVec.ofNat 24 w) else .error .wordTooWide
  else .error .noSuchFormat

/-- The instruction this decoder reads from a word numbered as spec/opcode_table.json numbers it. -/
def decodeTableWord (nbits w : Nat) : Option Instr :=
  match decodeTable nbits w with
  | .ok i => some i
  | .error _ => none

/-! ## What the host reads back, as numbers -/

/-- `kind`, 3 bits (R99), which is also the value of `err` (R22). -/
def kindCode : Option ErrKind → BitVec 3
  | none => 0#3
  | some .usage => 1#3
  | some .format => 2#3
  | some .width => 3#3
  | some .corrupt => 4#3

/-- `status`, 3 bits (R98). -/
def statusCode : Status → BitVec 3
  | .cont => 0#3
  | .needMoreInput => 1#3
  | .outputFull => 2#3
  | .streamEnd => 3#3
  | .error _ => 4#3

/-- The `kind` field of a status: 0 unless the status is `Error` (R99). -/
def statusKind : Status → BitVec 3
  | .error k => kindCode (some k)
  | .cont => 0#3
  | .needMoreInput => 0#3
  | .outputFull => 0#3
  | .streamEnd => 0#3

/-- `mode` as a number (R21). -/
def modeCode : Mode → BitVec 2
  | .idle => 0#2
  | .comp => 1#2
  | .decomp => 2#2

/-- `cphase` as a number (R32). -/
def cphaseCode : CPhase → BitVec 2
  | .first => 0#2
  | .run => 1#2
  | .finishing => 2#2
  | .done => 3#2

/-- `dphase` as a number (R46). -/
def dphaseCode : DPhase → BitVec 3
  | .header => 0#3
  | .streamFirst => 1#3
  | .epochFirst => 2#3
  | .run => 3#3
  | .done => 4#3

end Sys2Proof
end

