-- ==== Sys2Proof/Machine/State.lean ====
section
/-! DEFINITION. Machine/State.lean: the state of the engine as plain data (10_state.md), its reset value, and the
named reasons a step can stop. -/

namespace Sys2Proof.Machine

/-- A memory: the elements written so far as (address, value) pairs, addresses strictly rising. An address not
listed holds no value (R58: "unspecified" is "holds no value"); reading it is a fault (log 5). -/
abbrev Mem (α : Type) := List (Nat × α)

/-- A non-empty slot of `hslot` (R42). -/
structure Slot where
  kprefix : Code
  kbyte   : Byte
  code    : Code
deriving DecidableEq, Repr

/-- `hslot` (R42): the non-empty slots, addresses strictly rising, and whether the table has been emptied since reset:
an unlisted slot is EMPTY if it has, and holds no value if it has not (R58, U9; log 5). -/
structure HashMem where
  cleared : Bool
  cells   : Mem Slot
deriving DecidableEq, Repr

/-- What reading a slot of `hslot` finds. -/
inductive SlotRead where
  | unwritten
  | empty
  | entry (e : Slot)
deriving DecidableEq, Repr

/-- The result of LOOKUP_OR_INSERT (R154). -/
inductive Lookup where
  | hit (code : Code)
  | miss
deriving DecidableEq, Repr

/-- The results of a command (R96): `consumed`, `out_data`, `status` (with `kind`, R99). -/
structure Resp where
  consumed : Nat
  out      : List Byte
  status   : Status
deriving DecidableEq, Repr

/-- The results of a work loop (R184, R224): those of a command, and how many micro-operations ran. -/
structure LoopOut where
  consumed : Nat
  out      : List Byte
  status   : Status
  steps    : Nat
deriving DecidableEq, Repr

/-- What the last instruction returned (log 7). -/
inductive Result where
  /-- Nothing. -/
  | unit
  /-- A command's results (R96). -/
  | response (r : Resp)
  /-- A bit position: PUT_CODE's new offset (R131), REALIGN's (R135). -/
  | position (p : Nat)
  /-- A code: GET_CODE (R133), D_GET (R140). -/
  | code (c : Code)
  /-- A probe index: HASH (R151), PROBE_NEXT (R152). -/
  | index (h : HIdx)
  /-- LOOKUP_OR_INSERT (R154). -/
  | lookup (l : Lookup)
  /-- A byte: UNROLL (R169), C_DRAIN (R192), D_DRAIN (R248). -/
  | byte (b : Byte)
  /-- RATIO (R191). -/
  | ratio (r : Config.RatioT)
  /-- C_LOOP (R184), D_LOOP (R224). -/
  | loop (l : LoopOut)
  /-- A pseudo-command's whole result: the bytes, and the status it ended with (R118). -/
  | stream (z : List Byte) (status : Status)
deriving DecidableEq, Repr

/-- The state of the engine. -/
structure State where
  -- common registers
  /-- R21 -/
  mode : Mode
  /-- R22: `none` is the spec's value `NONE`. -/
  err : Option ErrKind
  /-- R23 -/
  maxbits : Nat
  /-- R24 -/
  blockMode : Bool
  /-- R25 -/
  nBits : Nat
  /-- R26 -/
  freeEnt : Nat
  /-- R28 -/
  bitPosition : Nat
  /-- R29 -/
  alignBase : Nat
  -- compress-only registers and memories
  /-- R32 -/
  cphase : CPhase
  /-- R33, the spec's `prefix`. -/
  pfx : Code
  /-- R34 -/
  full : Bool
  /-- R35 -/
  bytesIn : Nat
  /-- R36 -/
  checkpoint : Nat
  /-- R37 -/
  ratioPrev : Config.RatioT
  /-- R39 -/
  obits : Nat
  /-- R41 -/
  obuf : Mem Byte
  /-- R42 -/
  hslot : HashMem
  -- decompress-only registers and memories
  /-- R46 -/
  dphase : DPhase
  /-- R47 -/
  oldCode : Code
  /-- R48 -/
  lastChar : Byte
  /-- R49 -/
  ibits : Nat
  /-- R49 -/
  ipos : Nat
  /-- R50 -/
  iskip : Nat
  /-- R51 -/
  ibuf : Mem Byte
  /-- R53 -/
  tabPrefix : Mem Code
  /-- R53 -/
  tabSuffix : Mem Byte
  /-- R55 -/
  stack : Mem Byte
  /-- R56 -/
  sp : Nat
  -- the host interface
  /-- What the host has issued and the engine has not served (R80, R96; log 7). -/
  port : List PortEvent
  /-- What the last instruction returned (R96; log 7). -/
  result : Result
  -- the model's own
  /-- The index of the next free value (log 9). -/
  freeCount : Nat
deriving DecidableEq, Repr

/-- The six memories (R44), for the names of faults. -/
inductive MemName where
  | hslot
  | obuf
  | ibuf
  | tabPrefix
  | tabSuffix
  | stack
deriving DecidableEq, Repr

/-- The reasons the model stops. The spec proves that a session never comes to one (R58, R73, R153, R247): each is
reached only from a state no session reaches, or by a micro-operation run outside its precondition. -/
inductive Fault where
  /-- A read of an element nothing has written: raised by every memory read (R58, log 5). Safe. -/
  | unwritten (m : MemName) (a : Nat)
  /-- An access outside a memory: raised by every memory access (R73, log 6). Safe. -/
  | outOfRange (m : MemName) (a : Nat)
  /-- A natural would fall below zero: raised by IBUF_COMPACT, C_DRAIN and D_DRAIN outside their preconditions
  (R141, R192, R248; log 12). Safe. -/
  | underflow
  /-- The probe loop has read all 131072 slots of its sequence and would go on forever (R153, log 13). Safe. -/
  | probeForever
  /-- A work loop ran longer than its bound: raised by D_LOOP and the pseudo-commands, whose bounds are never reached
  (R224, R247; log 13). Safe. -/
  | loopBound
deriving DecidableEq, Repr

/-- Why an instruction has no meaning. -/
inductive Refusal where
  /-- Not modelled yet: raised only by `exec`'s own arms. Safe. -/
  | notModelled (mnemonic : String)
deriving DecidableEq, Repr

/-- The machine right after hardware reset (R58, R300): `mode = IDLE`, `err = NONE`, and no memory element holds a
value. Every other register is unspecified by the spec and stands at a named value. DESIGN CHOICE (log 4). -/
def State.reset : State where
  mode := .idle
  err := none
  maxbits := 0
  blockMode := false
  nBits := 0
  freeEnt := 0
  bitPosition := 0
  alignBase := 0
  cphase := .first
  pfx := 0#16
  full := false
  bytesIn := 0
  checkpoint := 0
  ratioPrev := .zero
  obits := 0
  obuf := []
  hslot := { cleared := false, cells := [] }
  dphase := .header
  oldCode := 0#16
  lastChar := 0#8
  ibits := 0
  ipos := 0
  iskip := 0
  ibuf := []
  tabPrefix := []
  tabSuffix := []
  stack := []
  sp := 0
  port := []
  result := .unit
  freeCount := 0

end Sys2Proof.Machine
end

