-- ==== Sys2Proof/Machine/Ops.lean ====
section
/-! DEFINITION. Machine/Ops.lean: the shared operations: how an operation ends, the one operation that raises an error
(R276), the six memories, and how a meaning hands its result on. -/

namespace Sys2Proof.Machine

/-! ## How an operation ends -/

/-- An operation that does not complete: it raises one of the four error kinds in the state reached so far (R276), or
the model stops. -/
inductive Stop where
  | raised (k : ErrKind) (s : State)
  | fault (f : Fault)
deriving DecidableEq, Repr

/-- The end of an operation. -/
abbrev Res (α : Type) := Except Stop α

/-- The model stops. -/
def stopWith {α : Type} (f : Fault) : Res α := .error (.fault f)

/-- `raise K` inside a micro-operation (R276): everything done so far stays, nothing more happens. -/
def raiseHere {α : Type} (k : ErrKind) (s : State) : Res α := .error (.raised k s)

/-- TAKING AN ERROR, the entry sequence of R276: `err <- K`, and the command returns at once with `Error(K)`, what it
has consumed and what it has drained so far. Nothing else is written. There is no return from an error (R278): only
the BEGIN commands clear `err`. A raise also writes over an error that already stands, which only a reserved command or a
micro-operation run by itself can meet: R272, R275 and R276 against R22's "the first error". DEDUCED (log 25). -/
def raiseError (k : ErrKind) (consumed : Nat) (out : List Byte) (s : State) : Resp × State :=
  ({ consumed := consumed, out := out, status := .error k }, { s with err := some k })

/-- The state in which the host reads the results `r` (R96). -/
def State.withResult (s : State) (r : Result) : State := { s with result := r }

/-- The end of a command's meaning: its response is handed to the host. -/
def respond (r : Resp × State) : Host.Outcome State Fault Refusal :=
  .next (r.2.withResult (.response r.1))

/-- The end of a meaning that may have been stopped: a raise that nothing has caught is taken with nothing consumed
and nothing drained (R276). -/
def finishWith {α : Type} (f : α → State) : Res α → Host.Outcome State Fault Refusal
  | .ok a => .next (f a)
  | .error (.raised k s) => respond (raiseError k 0 [] s)
  | .error (.fault f) => .fault f

/-- A micro-operation that returns nothing. -/
def doneUnit (r : Res State) : Host.Outcome State Fault Refusal :=
  finishWith (fun s => s.withResult .unit) r

/-- A micro-operation that returns a value, shown through `f`. -/
def doneVal {α : Type} (f : α → Result) (r : Res (α × State)) : Host.Outcome State Fault Refusal :=
  finishWith (fun p => p.2.withResult (f p.1)) r

/-- A command. -/
def doneCmd (r : Res (Resp × State)) : Host.Outcome State Fault Refusal := doneVal .response r

/-! ## Memories -/

/-- The element at address `a`, if one was written. -/
def Mem.get {α : Type} : Mem α → Nat → Option α
  | [], _ => none
  | (k, v) :: m, a => if k = a then some v else Mem.get m a

/-- Write the element at address `a`, keeping the addresses rising. -/
def Mem.put {α : Type} : Mem α → Nat → α → Mem α
  | [], a, v => [(a, v)]
  | (k, w) :: m, a, v =>
    if a < k then (a, v) :: (k, w) :: m
    else if a = k then (a, v) :: m
    else (k, w) :: Mem.put m a v

/-- The cells of the values `vs` from address `base` up. -/
def Mem.cellsFrom {α : Type} : Nat → List α → Mem α
  | _, [] => []
  | base, v :: vs => (base, v) :: Mem.cellsFrom (base + 1) vs

/-- Write the values `vs` to the addresses `base`, `base + 1`, ... -/
def Mem.putBlock {α : Type} (m : Mem α) (base : Nat) (vs : List α) : Mem α :=
  m.filter (fun c => c.1 < base) ++ (Mem.cellsFrom base vs ++ m.filter (fun c => base + vs.length ≤ c.1))

/-- Element `i` takes element `i + 1`'s value for `i < n - 1`, and element `n - 1` takes `fill`; an element that holds
no value leaves none where it is copied to (R141, R192; log 19). -/
def Mem.shiftDown {α : Type} (n : Nat) (fill : α) (m : Mem α) : Mem α :=
  (m.filter (fun c => 1 ≤ c.1 ∧ c.1 < n)).map (fun c => (c.1 - 1, c.2)) ++ [(n - 1, fill)]

/-- The canonical form of a memory of `size` elements: addresses strictly rising and below `size`. -/
def Mem.wf {α : Type} (size : Nat) (m : Mem α) : Bool :=
  match m with
  | [] => true
  | [(k, _)] => decide (k < size)
  | (k, _) :: (l, v) :: m => decide (k < l) && Mem.wf size ((l, v) :: m)

/-- Read one element of a memory of `size` elements. -/
def readMem {α : Type} (name : MemName) (size : Nat) (m : Mem α) (a : Nat) : Res α :=
  if a < size then
    match Mem.get m a with
    | some v => .ok v
    | none => stopWith (.unwritten name a)
  else stopWith (.outOfRange name a)

/-- Write one element of a memory of `size` elements. -/
def writeMem {α : Type} (name : MemName) (size : Nat) (m : Mem α) (a : Nat) (v : α) : Res (Mem α) :=
  if a < size then .ok (Mem.put m a v) else stopWith (.outOfRange name a)

/-- Read one slot of `hslot` (R68). -/
def HashMem.read (t : HashMem) (h : HIdx) : SlotRead :=
  match Mem.get t.cells h.toNat with
  | some e => .entry e
  | none => if t.cleared then .empty else .unwritten

/-- Fill one slot of `hslot` (R68, R155). -/
def HashMem.fill (t : HashMem) (h : HIdx) (e : Slot) : HashMem :=
  { t with cells := Mem.put t.cells h.toNat e }

/-- Every slot EMPTY (R157, R180). -/
def HashMem.allEmpty : HashMem := { cleared := true, cells := [] }

/-- The canonical form of all six memories. -/
def State.memWf (s : State) : Bool :=
  Mem.wf Config.obufBytes s.obuf && Mem.wf Config.hSize s.hslot.cells && Mem.wf Config.ibufBytes s.ibuf &&
  Mem.wf Config.tabDepth s.tabPrefix && Mem.wf Config.tabDepth s.tabSuffix && Mem.wf Config.stackDepth s.stack

end Sys2Proof.Machine
end

