-- ==== Sys2Proof/Machine/Operands.lean ====
section
/-! DEFINITION. Machine/Operands.lean: the operand forms: the fields of `cfg` and of header byte 2 (R92), BitCursor's
window, its offset split and its mask (R63, R100, R130), and the operand that names a staging buffer. -/

namespace Sys2Proof.Machine

/-! ## `cfg` and header byte 2 (R92, R40) -/

/-- `cfg[4:0]`, `maxbits`. -/
def cfgMaxbits (cfg : Byte) : Nat := (cfg.extractLsb' 0 5).toNat

/-- `cfg[6:5]`, reserved. -/
def cfgReserved (cfg : Byte) : BitVec 2 := cfg.extractLsb' 5 2

/-- `cfg[7]`, `block_mode`. -/
def cfgBlock (cfg : Byte) : Bool := cfg.extractLsb' 7 1 == 1#1

/-- What BEGIN_COMPRESS accepts (R180). -/
def cfgLegal (cfg : Byte) : Bool :=
  cfgReserved cfg == 0#2 && decide (9 ≤ cfgMaxbits cfg) && decide (cfgMaxbits cfg ≤ 16)

/-- What D_HEADER accepts as `maxbits` (R228). -/
def maxbitsLegal (m : Nat) : Bool := decide (9 ≤ m) && decide (m ≤ 16)

/-- Header byte 2 of its fields (R92). -/
def headerByte2 (k : Bool) (r : BitVec 2) (m : BitVec 5) : Byte := (BitVec.ofBool k ++ r ++ m : BitVec (1 + 2 + 5))

/-- The first free code of an epoch that starts a stream (R26): 257 with block mode, 256 without. -/
def firstFree (blockMode : Bool) : Nat := if blockMode then 257 else 256

/-! ## BitCursor's window (R130) -/

/-- `k = bit_offset >> 3`. -/
def byteIndex (off : Nat) : Nat := off >>> 3

/-- `s = bit_offset & 7`. -/
def bitShift (off : Nat) : Nat := off &&& 7

/-- Three bytes read little-endian (R63, R100). -/
def windowOf (b0 b1 b2 : Byte) : Window := (b2 ++ b1 ++ b0 : BitVec (8 + 8 + 8))

/-- `v = code << s`, in 24 bits (R131). -/
def shiftedCode (code : Code) (s : Nat) : Window := (code.setWidth 24) <<< s

/-- Byte `i` of a window. -/
def windowByte (v : Window) (i : Nat) : Byte := v.extractLsb' (8 * i) 8

/-- `2^width - 1` (R133, N27). -/
def widthMask (width : Nat) : Window := BitVec.ofNat 24 (2 ^ width - 1)

/-- `(v >> s) & (2^width - 1)` (R133). -/
def windowCode (v : Window) (s width : Nat) : Code := ((v >>> s) &&& widthMask width).setWidth 16

/-! ## The staging buffer an operand names -/

/-- The buffer's name in a fault. -/
def bufName : BufSel → MemName
  | .obuf => .obuf
  | .ibuf => .ibuf

/-- The buffer's size (R9). -/
def bufSize : BufSel → Nat
  | .obuf => Config.obufBytes
  | .ibuf => Config.ibufBytes

/-- The buffer's contents. -/
def State.buffer (s : State) : BufSel → Mem Byte
  | .obuf => s.obuf
  | .ibuf => s.ibuf

/-- The state with the buffer's contents replaced. -/
def State.setBuffer (s : State) (b : BufSel) (m : Mem Byte) : State :=
  match b with
  | .obuf => { s with obuf := m }
  | .ibuf => { s with ibuf := m }

/-! ## The stream in front of the decompressor -/

/-- `avail = ibits - ipos` (R52). With `ipos > ibits`, outside the range of R49 and unsaid by the spec, it is 0: D_SKIP
(R142) then skips nothing. DESIGN CHOICE (log 12). -/
def State.avail (s : State) : Nat := s.ibits - s.ipos

/-- The part of the state that decides the class of a code (R101). -/
def State.ctx (s : State) : DecodeCtx :=
  { mode := s.mode, dphase := s.dphase, blockMode := s.blockMode, freeEnt := s.freeEnt }

end Sys2Proof.Machine
end

