-- ==== Sys2Proof/Machine/Flags.lean ====
section
/-! DEFINITION. Machine/Flags.lean: the one-bit conditions the state machines test and the flag they write: `full`
(R34, R155), the growth tests (R188, R240), the ratio check's conditions (R190), when a code can be fetched (R52, R224)
and the no-progress test (R194, R198, R250, R254). -/

namespace Sys2Proof.Machine

/-- `free_ent = 2^maxbits`: the code space is exhausted (R26, R34). -/
def exhausted (maxbits freeEnt : Nat) : Bool := decide (freeEnt = 2 ^ maxbits)

/-- The compress side widens (R188): `n_bits < maxbits and free_ent > 2^n_bits`. -/
def cWidens (s : State) : Bool := decide (s.nBits < s.maxbits) && decide (2 ^ s.nBits < s.freeEnt)

/-- The decompress side widens (R240): `free_ent > 2^n_bits - 1 and n_bits < maxbits`. -/
def dWidens (s : State) : Bool := decide (2 ^ s.nBits - 1 < s.freeEnt) && decide (s.nBits < s.maxbits)

/-- The ratio check is due (R190): `full = 1 and block_mode = 1 and bytes_in >= checkpoint`. -/
def ratioDue (s : State) : Bool := s.full && s.blockMode && decide (s.checkpoint ≤ s.bytesIn)

/-- `bytes_out = bit_position div 8` (R38). -/
def bytesOut (s : State) : Nat := s.bitPosition / 8

/-- The ratio has not improved (R190): `rn <= ratio_prev`. -/
def notImproved (rn prev : Config.RatioT) : Bool := Config.RatioT.le rn prev

/-- A whole header is buffered and awaited (R224). -/
def headerReady (s : State) : Bool := decide (s.dphase = .header) && decide (24 ≤ s.ibits)

/-- A whole code is buffered and awaited (R52, R224). -/
def codeReady (s : State) : Bool :=
  !decide (s.dphase = .header) && decide (s.iskip = 0) && decide (s.nBits ≤ s.avail)

/-- A zero-capacity call that did nothing at all (R194, R198, R250, R254; D22). -/
def noProgress (steps outCap : Nat) : Bool := decide (steps = 0) && decide (outCap = 0)

/-- The alignment origin after a growth step (R29, R188, R240): moved to the cursor only if `ALIGN_ORIGIN = RUN`. -/
def originAfterGrowth (bitPosition alignBase : Nat) : Nat :=
  match Config.alignOrigin with
  | .run => bitPosition
  | .epoch => alignBase

end Sys2Proof.Machine
end

