-- ==== Sys2Proof/Machine/BitCursor.lean ====
section
/-! DEFINITION. Machine/BitCursor.lean: BitCursor (40_bitcursor.md) and the meanings of its micro-operations. -/

namespace Sys2Proof.Machine

/-! ## The operations -/

/-- PUT_CODE on a buffer (R131): OR the shifted code into the three bytes at `bit_offset >> 3`. -/
def putCodeIn (name : MemName) (size : Nat) (m : Mem Byte) (off : Nat) (code : Code) : Res (Mem Byte) := do
  let v := shiftedCode code (bitShift off)
  let k := byteIndex off
  let b0 ← readMem name size m k
  let m0 ← writeMem name size m k (b0 ||| windowByte v 0)
  let b1 ← readMem name size m0 (k + 1)
  let m1 ← writeMem name size m0 (k + 1) (b1 ||| windowByte v 1)
  let b2 ← readMem name size m1 (k + 2)
  writeMem name size m1 (k + 2) (b2 ||| windowByte v 2)

/-- GET_CODE on a buffer (R133). -/
def getCodeIn (name : MemName) (size : Nat) (m : Mem Byte) (off width : Nat) : Res Code := do
  let k := byteIndex off
  let b0 ← readMem name size m k
  let b1 ← readMem name size m (k + 1)
  let b2 ← readMem name size m (k + 2)
  .ok (windowCode (windowOf b0 b1 b2) (bitShift off) width)

/-- REALIGN (R135): `base + ceil((pos - base) / g) * g` with `g = 8 * w`. -/
def realignTo (pos base w : Nat) : Nat := base + ((pos - base + (8 * w - 1)) / (8 * w)) * (8 * w)

/-- REALIGN on every operand: the formula where R135's condition `pos >= base` holds and there is a width, and elsewhere
a free position, no lower than `pos`. DESIGN CHOICE (log 22). -/
def realign (pos base w : Nat) : Nat :=
  if base ≤ pos ∧ 0 < w then realignTo pos base w else pos + Config.realignOutside pos base w

/-- C_REALIGN (R136). -/
def cRealign (w : Nat) (s : State) : State :=
  let t := realign s.bitPosition s.alignBase w
  { s with obits := s.obits + (t - s.bitPosition), bitPosition := t }

/-- C_PUT (R139). -/
def cPut (code : Code) (w : Nat) (s : State) : Res State := do
  let m ← putCodeIn .obuf Config.obufBytes s.obuf s.obits code
  .ok { s with obuf := m, obits := s.obits + w, bitPosition := s.bitPosition + w }

/-- One round of IBUF_COMPACT's loop (R141): drop `ibuf[0]`. -/
def dropByte (s : State) : Res State :=
  if 8 ≤ s.ibits ∧ 8 ≤ s.ipos then
    .ok { s with ibuf := Mem.shiftDown Config.ibufBytes 0#8 s.ibuf, ipos := s.ipos - 8, ibits := s.ibits - 8 }
  else stopWith .underflow

/-- `n` rounds of IBUF_COMPACT's loop. -/
def dropBytes : Nat → State → Res State
  | 0, s => .ok s
  | n + 1, s => do
    let s1 ← dropByte s
    dropBytes n s1

/-- IBUF_COMPACT (R141): `while ipos >= 8`, that is `ipos div 8` rounds. -/
def ibufCompact (s : State) : Res State := dropBytes (s.ipos / 8) s

/-- D_SKIP (R142); with `ipos > ibits`, outside R49's range, `State.avail` is 0 and nothing is skipped (log 12). -/
def dSkip (s : State) : Res State :=
  let k := min s.iskip s.avail
  ibufCompact { s with ipos := s.ipos + k, iskip := s.iskip - k }

/-- D_REALIGN (R137). -/
def dRealign (w : Nat) (s : State) : Res State := do
  let t := realign s.bitPosition s.alignBase w
  dSkip { s with bitPosition := t, iskip := s.iskip + (t - s.bitPosition) }

/-- D_GET (R140). -/
def dGet (s : State) : Res (Code × State) := do
  let c ← getCodeIn .ibuf Config.ibufBytes s.ibuf s.ipos s.nBits
  let s1 ← ibufCompact { s with ipos := s.ipos + s.nBits, bitPosition := s.bitPosition + s.nBits }
  .ok (c, s1)

/-- D_TAKE (R143). -/
def dTake (b : Byte) (s : State) : Res State := do
  let m ← writeMem .ibuf Config.ibufBytes s.ibuf (s.ibits / 8) b
  dSkip { s with ibuf := m, ibits := s.ibits + 8 }

/-! ## The meanings -/

/-- PUT_CODE (R131): the result is the new offset. -/
def execPutCode (buffer : BufSel) (off : Nat) (code : Code) (width : Nat) (s : State) :
    Host.Outcome State Fault Refusal :=
  doneVal .position (do
    let m ← putCodeIn (bufName buffer) (bufSize buffer) (s.buffer buffer) off code
    .ok (off + width, s.setBuffer buffer m))

/-- GET_CODE (R133): the buffer and every offset stay. -/
def execGetCode (buffer : BufSel) (off width : Nat) (s : State) : Host.Outcome State Fault Refusal :=
  doneVal .code (do
    let c ← getCodeIn (bufName buffer) (bufSize buffer) (s.buffer buffer) off width
    .ok (c, s))

/-- REALIGN (R135): pure arithmetic. -/
def execRealign (pos base w : Nat) (s : State) : Host.Outcome State Fault Refusal :=
  .next (s.withResult (.position (realign pos base w)))

/-- C_REALIGN (R136). -/
def execCRealign (w : Nat) (s : State) : Host.Outcome State Fault Refusal :=
  .next ((cRealign w s).withResult .unit)

/-- D_REALIGN (R137). -/
def execDRealign (w : Nat) (s : State) : Host.Outcome State Fault Refusal := doneUnit (dRealign w s)

/-- C_PUT (R139). -/
def execCPut (code : Code) (w : Nat) (s : State) : Host.Outcome State Fault Refusal := doneUnit (cPut code w s)

/-- D_GET (R140): the result is the code. -/
def execDGet (s : State) : Host.Outcome State Fault Refusal := doneVal .code (dGet s)

/-- IBUF_COMPACT (R141). -/
def execIbufCompact (s : State) : Host.Outcome State Fault Refusal := doneUnit (ibufCompact s)

/-- D_SKIP (R142). -/
def execDSkip (s : State) : Host.Outcome State Fault Refusal := doneUnit (dSkip s)

/-- D_TAKE (R143). -/
def execDTake (b : Byte) (s : State) : Host.Outcome State Fault Refusal := doneUnit (dTake b s)

end Sys2Proof.Machine
end

