-- ==== Sys2Proof/Machine/Dictionary.lean ====
section
/-! DEFINITION. Machine/Dictionary.lean: the hash table of the compressor, the prefix/suffix table and the reversal
stack of the decompressor (41_dictionary.md), and the meanings of their micro-operations. -/

namespace Sys2Proof.Machine

/-! ## Compress side -/

/-- HASH (R151): `((byte << 9) ^ prefix) & 0x1FFFF`. -/
def hashIndex (pfx : Code) (byte : Byte) : HIdx :=
  (((byte.setWidth 17) <<< 9) ^^^ pfx.setWidth 17) &&& 0x1FFFF#17

/-- PROBE_NEXT (R152): `(h + STRIDE[byte]) mod 2^17`, the non-negative remainder. -/
def probeNext (h : HIdx) (byte : Byte) : HIdx := h + BitVec.ofInt 17 (Config.stride byte)

/-- Where the probe loop of R154 leaves: at a matching slot, or at an EMPTY one. -/
inductive ProbeEnd where
  | found (code : Code)
  | emptyAt (h : HIdx)
deriving DecidableEq, Repr

/-- The probe loop of R154 from index `h`. The sequence visits every slot once in 131072 probes (R153), so after that
many the loop would never end. -/
def probeFrom (t : HashMem) (pfx : Code) (byte : Byte) : Nat → HIdx → Res ProbeEnd
  | 0, _ => stopWith .probeForever
  | n + 1, h =>
    match t.read h with
    | .unwritten => stopWith (.unwritten .hslot h.toNat)
    | .empty => .ok (.emptyAt h)
    | .entry e =>
      if e.kprefix = pfx ∧ e.kbyte = byte then .ok (.found e.code)
      else probeFrom t pfx byte n (probeNext h byte)

/-- `code = free_ent` (R155), in the 16 bits of a slot (R42). A `free_ent` of 65536 or more, outside R155's precondition,
is no code: the slot gets a free value. DESIGN CHOICE (log 23). -/
def codeOf (freeEnt : Nat) : Code := if freeEnt < 65536 then BitVec.ofNat 16 freeEnt else Config.codeOutside freeEnt

/-- INSERT (R155): assign `free_ent` to the pair at slot `h`; mark the table full when that was the last code. -/
def insertAt (h : HIdx) (pfx : Code) (byte : Byte) (s : State) : State :=
  { s with
    hslot := s.hslot.fill h { kprefix := pfx, kbyte := byte, code := codeOf s.freeEnt }
    freeEnt := s.freeEnt + 1
    full := if exhausted s.maxbits (s.freeEnt + 1) then true else s.full }

/-- What LOOKUP_OR_INSERT does where its probe loop ends (R154, R156). -/
def lookupEnd (pfx : Code) (byte : Byte) (s : State) : ProbeEnd → Lookup × State
  | .found code => (.hit code, s)
  | .emptyAt h => (.miss, if s.full then s else insertAt h pfx byte s)

/-- LOOKUP_OR_INSERT (R154). -/
def lookupOrInsert (pfx : Code) (byte : Byte) (s : State) : Res (Lookup × State) := do
  let e ← probeFrom s.hslot pfx byte Config.hSize (hashIndex pfx byte)
  .ok (lookupEnd pfx byte s e)

/-- DICT_CLEAR (R157). -/
def dictClear (s : State) : State :=
  { s with hslot := HashMem.allEmpty, freeEnt := Config.first, full := false }

/-! ## Decompress side -/

/-- The 256 bytes `0, 1, ... 255`. -/
def allBytes : List Byte := (List.range 256).map (BitVec.ofNat 8)

/-- TAB_SEED (R167): `tab_suffix[i] <- i` and `tab_prefix[i] <- 0` for `i` in 0..255. -/
def tabSeed (s : State) : State :=
  { s with
    tabSuffix := Mem.putBlock s.tabSuffix 0 allBytes
    tabPrefix := Mem.putBlock s.tabPrefix 0 (List.replicate 256 0#16) }

/-- TAB_DEFINE (R168). -/
def tabDefine (p : Code) (b : Byte) (s : State) : Res State :=
  if s.freeEnt < 2 ^ s.maxbits then do
    let mp ← writeMem .tabPrefix Config.tabDepth s.tabPrefix s.freeEnt p
    let ms ← writeMem .tabSuffix Config.tabDepth s.tabSuffix s.freeEnt b
    .ok { s with tabPrefix := mp, tabSuffix := ms, freeEnt := s.freeEnt + 1 }
  else .ok s

/-- PUSH (R169). -/
def push (b : Byte) (s : State) : Res State := do
  let m ← writeMem .stack Config.stackDepth s.stack s.sp b
  .ok { s with stack := m, sp := s.sp + 1 }

/-- UNROLL (R169) with room for `room` more bytes on the stack. Every round pushes one byte, so with no room left the
round's own PUSH is the access outside the stack that ends it. -/
def unrollIn : Nat → Code → State → Res (Byte × State)
  | room, code, s =>
    if code.toNat < 256 then do
      let s1 ← push (code.setWidth 8) s
      .ok (code.setWidth 8, s1)
    else do
      let b ← readMem .tabSuffix Config.tabDepth s.tabSuffix code.toNat
      let s1 ← push b s
      let p ← readMem .tabPrefix Config.tabDepth s1.tabPrefix code.toNat
      match room with
      | 0 => stopWith (.outOfRange .stack s1.sp)
      | n + 1 => unrollIn n p s1

/-- UNROLL (R169). -/
def unroll (code : Code) (s : State) : Res (Byte × State) := unrollIn (Config.stackDepth - s.sp) code s

/-! ## The meanings -/

/-- HASH (R151). -/
def execHash (pfx : Code) (byte : Byte) (s : State) : Host.Outcome State Fault Refusal :=
  .next (s.withResult (.index (hashIndex pfx byte)))

/-- PROBE_NEXT (R152). -/
def execProbeNext (h : HIdx) (byte : Byte) (s : State) : Host.Outcome State Fault Refusal :=
  .next (s.withResult (.index (probeNext h byte)))

/-- LOOKUP_OR_INSERT (R154). -/
def execLookupOrInsert (pfx : Code) (byte : Byte) (s : State) : Host.Outcome State Fault Refusal :=
  doneVal .lookup (lookupOrInsert pfx byte s)

/-- INSERT (R155). -/
def execInsert (h : HIdx) (pfx : Code) (byte : Byte) (s : State) : Host.Outcome State Fault Refusal :=
  .next ((insertAt h pfx byte s).withResult .unit)

/-- DICT_CLEAR (R157). -/
def execDictClear (s : State) : Host.Outcome State Fault Refusal := .next ((dictClear s).withResult .unit)

/-- TAB_SEED (R167). -/
def execTabSeed (s : State) : Host.Outcome State Fault Refusal := .next ((tabSeed s).withResult .unit)

/-- TAB_DEFINE (R168). -/
def execTabDefine (p : Code) (b : Byte) (s : State) : Host.Outcome State Fault Refusal := doneUnit (tabDefine p b s)

/-- PUSH (R169). -/
def execPush (b : Byte) (s : State) : Host.Outcome State Fault Refusal := doneUnit (push b s)

/-- UNROLL (R169): the result is the final literal. -/
def execUnroll (code : Code) (s : State) : Host.Outcome State Fault Refusal := doneVal .byte (unroll code s)

end Sys2Proof.Machine
end

