-- ==== Sys2Proof/Machine/Compress.lean ====
section
/-! DEFINITION. Machine/Compress.lean: the compress state machine (42_compress.md) and the meanings of its
micro-operations and of the header it writes. -/

namespace Sys2Proof.Machine

/-! ## The operations -/

/-- The header in `obuf[0..2]` (R180, R182). -/
def placeHeader (byte2 : Byte) (s : State) : State :=
  { s with obuf := Mem.putBlock s.obuf 0 [Config.magic1, Config.magic2, byte2] }

/-- C_DRAIN (R192). -/
def cDrain (s : State) : Res (Byte × State) := do
  let b ← readMem .obuf Config.obufBytes s.obuf 0
  if 8 ≤ s.obits then
    .ok (b, { s with obuf := Mem.shiftDown Config.obufBytes 0#8 s.obuf, obits := s.obits - 8 })
  else stopWith .underflow

/-- `n` C_DRAINs, the bytes in order. -/
def cDrains : Nat → State → Res (List Byte × State)
  | 0, s => .ok ([], s)
  | n + 1, s => do
    let (b, s1) ← cDrain s
    let (bs, s2) ← cDrains n s1
    .ok (b :: bs, s2)

/-- `while obits >= 8 and length(out) < out_cap: out <- out ++ [C_DRAIN()]` with room for `room` bytes (R184, R198):
one byte per 8 bits of `obits`, up to the room. -/
def cDrainWhile (room : Nat) (s : State) : Res (List Byte × State) := cDrains (min (s.obits / 8) room) s

/-- C_GROW (R188). -/
def cGrow (s : State) : Res State :=
  if cWidens s then
    let s1 := cRealign s.nBits s
    .ok { s1 with nBits := s1.nBits + 1, alignBase := originAfterGrowth s1.bitPosition s1.alignBase }
  else .ok s

/-- The CLEAR branch of C_RATIO (R190): emit the code, realign, start a new epoch. -/
def emitClear (s : State) : Res State := do
  let s1 ← cPut Config.clearCode s.nBits s
  let s2 := cRealign s1.nBits s1
  let s3 := dictClear { s2 with alignBase := s2.bitPosition }
  .ok { s3 with nBits := Config.initBits, ratioPrev := .zero }

/-- C_RATIO (R190). -/
def cRatio (s : State) : Res State :=
  if ratioDue s then
    let rn := Config.ratio s.bytesIn (bytesOut s)
    let s1 := { s with checkpoint := s.bytesIn + Config.checkGap }
    if notImproved rn s.ratioPrev then emitClear s1 else .ok { s1 with ratioPrev := rn }
  else .ok s

/-- The miss path of C_BYTE (R186): emit, start a new prefix, grow, check the ratio. -/
def cMiss (c : Byte) (s : State) : Res State := do
  let s1 ← cPut s.pfx s.nBits s
  let s2 ← cGrow { s1 with pfx := c.setWidth 16 }
  cRatio s2

/-- C_BYTE (R186). -/
def cByte (c : Byte) (s : State) : Res State :=
  let s0 := { s with bytesIn := s.bytesIn + 1 }
  if s0.cphase = .first then .ok { s0 with pfx := c.setWidth 16, cphase := .run }
  else do
    let (l, s1) ← lookupOrInsert s0.pfx c s0
    match l with
    | .hit code => .ok { s1 with pfx := code }
    | .miss => cMiss c s1

/-- C_LOOP (R184), on the input still to be consumed and what the loop has done so far. -/
def cLoopFrom (outCap : Nat) : List Byte → LoopOut → State → Res (LoopOut × State)
  | inp, l, s => do
    let (bs, s1) ← cDrainWhile (outCap - l.out.length) s
    let l1 := { l with out := l.out ++ bs, steps := l.steps + bs.length }
    if 8 ≤ s1.obits then .ok ({ l1 with status := .outputFull }, s1)
    else
      match inp with
      | [] => .ok ({ l1 with status := .needMoreInput }, s1)
      | c :: rest => do
        let s2 ← cByte c s1
        cLoopFrom outCap rest { l1 with consumed := l1.consumed + 1, steps := l1.steps + 1 } s2

/-- A work loop that has done nothing yet. -/
def loopStart : LoopOut := { consumed := 0, out := [], status := .needMoreInput, steps := 0 }

/-- C_LOOP (R184). -/
def cLoop (inData : List Byte) (outCap : Nat) (s : State) : Res (LoopOut × State) :=
  cLoopFrom outCap inData loopStart s

/-- The bits that round `obits` up to a whole byte (R198). -/
def padBits (obits : Nat) : Nat := (8 - obits % 8) % 8

/-- FINISH_C's first step, in `C_FIRST` and `C_RUN` (R198): the final code, if there is a pending prefix, and the padding. -/
def cFinal (s : State) : Res State := do
  let s1 ← if s.cphase = .run then cPut s.pfx s.nBits s else .ok s
  .ok { s1 with
    obits := s1.obits + padBits s1.obits
    bitPosition := s1.bitPosition + padBits s1.obits
    cphase := .finishing }

/-- FINISH_C's delivery, after `steps` micro-operations (R198). -/
def cDeliver (outCap steps : Nat) (s : State) : Res (Resp × State) := do
  let (out, s1) ← cDrainWhile outCap s
  if noProgress (steps + out.length) outCap then .ok (raiseError .usage 0 [] s1)
  else if s1.obits = 0 then
    .ok ({ consumed := 0, out := out, status := .streamEnd }, { s1 with cphase := .done })
  else .ok ({ consumed := 0, out := out, status := .outputFull }, s1)

/-- FINISH_C (R198). -/
def finishC (outCap : Nat) (s : State) : Res (Resp × State) :=
  match s.cphase with
  | .done => .ok ({ consumed := 0, out := [], status := .streamEnd }, s)
  | .finishing => cDeliver outCap 0 s
  | .first => do
    let s1 ← cFinal s
    cDeliver outCap 1 s1
  | .run => do
    let s1 ← cFinal s
    cDeliver outCap 1 s1

/-! ## The meanings -/

/-- HDR_WRITE (R92, R93, R180): the three bytes in `obuf[0..2]`, the reserved bits zero (log 17). -/
def execHdrWrite (k : Bool) (m : BitVec 5) (s : State) : Host.Outcome State Fault Refusal :=
  .next ((placeHeader (headerByte2 k 0#2 m) s).withResult .unit)

/-- C_LOOP (R184). -/
def execCLoop (inData : List Byte) (outCap : Nat) (s : State) : Host.Outcome State Fault Refusal :=
  doneVal .loop (cLoop inData outCap s)

/-- C_BYTE (R186). -/
def execCByte (c : Byte) (s : State) : Host.Outcome State Fault Refusal := doneUnit (cByte c s)

/-- C_GROW (R188). -/
def execCGrow (s : State) : Host.Outcome State Fault Refusal := doneUnit (cGrow s)

/-- C_RATIO (R190). -/
def execCRatio (s : State) : Host.Outcome State Fault Refusal := doneUnit (cRatio s)

/-- RATIO (R191). -/
def execRatio (a b : Nat) (s : State) : Host.Outcome State Fault Refusal :=
  .next (s.withResult (.ratio (Config.ratio a b)))

/-- C_DRAIN (R192): the result is the byte. -/
def execCDrain (s : State) : Host.Outcome State Fault Refusal := doneVal .byte (cDrain s)

/-- FINISH_C (R198). -/
def execFinishC (outCap : Nat) (s : State) : Host.Outcome State Fault Refusal := doneCmd (finishC outCap s)

end Sys2Proof.Machine
end

