-- ==== Sys2Proof/Machine/Decompress.lean ====
section
/-! DEFINITION. Machine/Decompress.lean: the decompress state machine (43_decompress.md) and the meanings of its
micro-operations, of the header it reads and of the code classes. -/

namespace Sys2Proof.Machine

/-! ## The operations -/

/-- D_HEADER once the magic is right (R228): the width test, then the session's first values. -/
def acceptHeader (k : Bool) (m : Nat) (s : State) : Res State :=
  if maxbitsLegal m then do
    let s1 := tabSeed { s with maxbits := m, blockMode := k, nBits := Config.initBits, freeEnt := firstFree k }
    let s2 ← ibufCompact { s1 with ipos := 24 }
    .ok { s2 with bitPosition := 24, alignBase := 24, dphase := .streamFirst }
  else raiseHere .width s

/-- D_HEADER (R228): the three bytes of `ibuf` are one header value (R93); the magic is tested before the width. -/
def dHeader (s : State) : Res State := do
  let b0 ← readMem .ibuf Config.ibufBytes s.ibuf 0
  let b1 ← readMem .ibuf Config.ibufBytes s.ibuf 1
  let b2 ← readMem .ibuf Config.ibufBytes s.ibuf 2
  if hdrMagicOk (windowOf b0 b1 b2) then
    acceptHeader (hdrBlock (windowOf b0 b1 b2)) (hdrMaxbits (windowOf b0 b1 b2)).toNat s
  else raiseHere .format s

/-- D_GROW (R240). -/
def dGrow (s : State) : Res State :=
  if dWidens s then do
    let s1 ← dRealign s.nBits s
    .ok { s1 with nBits := s1.nBits + 1, alignBase := originAfterGrowth s1.bitPosition s1.alignBase }
  else .ok s

/-- The first literal of a stream or an epoch (R232, R234): output it, create no entry. -/
def firstLiteral (c : Code) (s : State) : Res State := do
  let s1 ← push (c.setWidth 8) s
  .ok { s1 with oldCode := c, lastChar := c.setWidth 8, dphase := .run }

/-- D_FIRST (R232, R234). -/
def dFirst (c : Code) (s : State) : Res State :=
  if 256 ≤ c.toNat then raiseHere .corrupt s else firstLiteral c s

/-- D_CLEAR (R233). -/
def dClear (s : State) : Res State := do
  let s1 ← dRealign s.nBits s
  .ok { s1 with
    alignBase := s1.bitPosition
    freeEnt := Config.first
    nBits := Config.initBits
    dphase := .epochFirst }

/-- D_EXPAND from its UNROLL on (R235): expand `code`, create the entry, grow, remember the consumed code `incoming`. -/
def expandCode (incoming code : Code) (s : State) : Res State := do
  let (lit, s1) ← unroll code s
  let s2 ← tabDefine s1.oldCode lit { s1 with lastChar := lit }
  let s3 ← dGrow s2
  .ok { s3 with oldCode := incoming }

/-- The KwKwK case of D_EXPAND (R236). -/
def expandKwkwk (incoming : Code) (s : State) : Res State := do
  let s1 ← push s.lastChar s
  expandCode incoming s1.oldCode s1

/-- D_EXPAND (R235). -/
def dExpand (c : Code) (s : State) : Res State :=
  if s.freeEnt ≤ c.toNat then
    if s.freeEnt < c.toNat then raiseHere .corrupt s else expandKwkwk c s
  else expandCode c c s

/-- D_CODE once the code is fetched (R230). -/
def interpret (c : Code) (s : State) : Res State :=
  if s.dphase = .streamFirst then dFirst c s
  else if c = Config.clearCode ∧ s.blockMode = true then dClear s
  else if s.dphase = .epochFirst then dFirst c s
  else dExpand c s

/-- D_CODE (R230). -/
def dCode (s : State) : Res State := do
  let (c, s1) ← dGet s
  interpret c s1

/-- D_DRAIN (R248). -/
def dDrain (s : State) : Res (Byte × State) :=
  match s.sp with
  | 0 => stopWith .underflow
  | n + 1 => do
    let b ← readMem .stack Config.stackDepth s.stack n
    .ok (b, { s with sp := n })

/-- `n` D_DRAINs, the bytes in order. -/
def dDrains : Nat → State → Res (List Byte × State)
  | 0, s => .ok ([], s)
  | n + 1, s => do
    let (b, s1) ← dDrain s
    let (bs, s2) ← dDrains n s1
    .ok (b :: bs, s2)

/-- `while sp > 0 and length(out) < out_cap: out <- out ++ [D_DRAIN()]` with room for `room` bytes (R224). -/
def dDrainWhile (room : Nat) (s : State) : Res (List Byte × State) := dDrains (min s.sp room) s

/-- A work loop ended by a raise keeps what it consumed and drained (R224, R276). -/
def loopRaised (l : LoopOut) (k : ErrKind) (s : State) : LoopOut × State :=
  let r := raiseError k l.consumed l.out s
  ({ l with consumed := r.1.consumed, out := r.1.out, status := r.1.status }, r.2)

/-- D_LOOP (R224) for at most `n` rounds, on the input still to be consumed and what the loop has done so far. -/
def dLoopFrom (outCap : Nat) : Nat → List Byte → LoopOut → State → Res (LoopOut × State)
  | 0, _, _, _ => stopWith .loopBound
  | n + 1, inp, l, s => do
    let (bs, s1) ← dDrainWhile (outCap - l.out.length) s
    let l1 := { l with out := l.out ++ bs, steps := l.steps + bs.length }
    if 0 < s1.sp then .ok ({ l1 with status := .outputFull }, s1)
    else if headerReady s1 then
      match dHeader s1 with
      | .ok s2 => dLoopFrom outCap n inp { l1 with steps := l1.steps + 1 } s2
      | .error (.raised k s2) => .ok (loopRaised l1 k s2)
      | .error (.fault f) => stopWith f
    else if codeReady s1 then
      match dCode s1 with
      | .ok s2 => dLoopFrom outCap n inp { l1 with steps := l1.steps + 1 } s2
      | .error (.raised k s2) => .ok (loopRaised l1 k s2)
      | .error (.fault f) => stopWith f
    else
      match inp with
      | [] => .ok ({ l1 with status := .needMoreInput }, s1)
      | b :: rest => do
        let s2 ← dTake b s1
        dLoopFrom outCap n rest { l1 with consumed := l1.consumed + 1, steps := l1.steps + 1 } s2

/-- A bound no run of D_LOOP reaches (R247): one header; at most one D_CODE per buffered bit, or per byte of room if
`n_bits` were 0; one D_TAKE per input byte (log 13). -/
def dLoopBound (inLen outCap ibits : Nat) : Nat := ibits + 9 * inLen + outCap + 4

/-- D_LOOP (R224). -/
def dLoop (inData : List Byte) (outCap : Nat) (s : State) : Res (LoopOut × State) :=
  dLoopFrom outCap (dLoopBound inData.length outCap s.ibits) inData loopStart s

/-- FINISH_D when the stack is empty and the buffered bits do not make a code (R254). -/
def dAtEnd (out : List Byte) (s : State) : Resp × State :=
  if s.dphase = .header then raiseError .format 0 out s
  else ({ consumed := 0, out := out, status := .streamEnd }, { s with dphase := .done })

/-- FINISH_D (R254). -/
def finishD (outCap : Nat) (s : State) : Res (Resp × State) :=
  if s.dphase = .done then .ok ({ consumed := 0, out := [], status := .streamEnd }, s)
  else do
    let (l, s1) ← dLoop [] outCap s
    if l.status = .outputFull then
      if noProgress l.steps outCap then .ok (raiseError .usage 0 [] s1)
      else .ok ({ consumed := 0, out := l.out, status := .outputFull }, s1)
    else if l.status = .needMoreInput then .ok (dAtEnd l.out s1)
    else .ok ({ consumed := l.consumed, out := l.out, status := l.status }, s1)

/-! ## The meanings -/

/-- HDR_READ (R92, R93, R228): the header as the decompressor accepts it; `r` is ignored. Run by itself it takes `k` and `m`
from its operands: it tests neither `dphase` nor the bytes of `ibuf`, and drops 24 buffered bits. DESIGN CHOICE (log 24). -/
def execHdrRead (k : Bool) (_r : BitVec 2) (m : BitVec 5) (s : State) : Host.Outcome State Fault Refusal :=
  doneUnit (acceptHeader k m.toNat s)

/-- LITERAL_FIRST (R101 row 1, R232). -/
def execLiteralFirst (b : Byte) (s : State) : Host.Outcome State Fault Refusal :=
  doneUnit (firstLiteral (b.setWidth 16) s)

/-- BADCODE_FIRST (R101 row 2, R232): CorruptStreamError. -/
def execBadcodeFirst (_c : Code) (s : State) : Host.Outcome State Fault Refusal := doneUnit (raiseHere .corrupt s)

/-- CLEAR (R101 row 3, R233). -/
def execClear (s : State) : Host.Outcome State Fault Refusal := doneUnit (dClear s)

/-- LITERAL_EPOCH_FIRST (R101 row 4, R234). -/
def execLiteralEpochFirst (b : Byte) (s : State) : Host.Outcome State Fault Refusal :=
  doneUnit (firstLiteral (b.setWidth 16) s)

/-- BADCODE_EPOCH_FIRST (R101 row 5, R234): CorruptStreamError. -/
def execBadcodeEpochFirst (_c : Code) (s : State) : Host.Outcome State Fault Refusal :=
  doneUnit (raiseHere .corrupt s)

/-- BADCODE_RANGE (R101 row 6, R236): CorruptStreamError. -/
def execBadcodeRange (_c : Code) (s : State) : Host.Outcome State Fault Refusal := doneUnit (raiseHere .corrupt s)

/-- KWKWK (R101 row 7, R235, R236). -/
def execKwkwk (c : Code) (s : State) : Host.Outcome State Fault Refusal := doneUnit (expandKwkwk c s)

/-- LITERAL (R101 row 8, R235). -/
def execLiteral (b : Byte) (s : State) : Host.Outcome State Fault Refusal :=
  doneUnit (expandCode (b.setWidth 16) (b.setWidth 16) s)

/-- DICTREF (R101 row 9, R235). -/
def execDictref (c : Code) (s : State) : Host.Outcome State Fault Refusal := doneUnit (expandCode c c s)

/-- D_LOOP (R224). -/
def execDLoop (inData : List Byte) (outCap : Nat) (s : State) : Host.Outcome State Fault Refusal :=
  doneVal .loop (dLoop inData outCap s)

/-- D_HEADER (R228). -/
def execDHeader (s : State) : Host.Outcome State Fault Refusal := doneUnit (dHeader s)

/-- D_CODE (R230). -/
def execDCode (s : State) : Host.Outcome State Fault Refusal := doneUnit (dCode s)

/-- D_FIRST (R232, R234). -/
def execDFirst (c : Code) (s : State) : Host.Outcome State Fault Refusal := doneUnit (dFirst c s)

/-- D_CLEAR (R233). -/
def execDClear (s : State) : Host.Outcome State Fault Refusal := doneUnit (dClear s)

/-- D_EXPAND (R235). -/
def execDExpand (c : Code) (s : State) : Host.Outcome State Fault Refusal := doneUnit (dExpand c s)

/-- D_GROW (R240). -/
def execDGrow (s : State) : Host.Outcome State Fault Refusal := doneUnit (dGrow s)

/-- D_DRAIN (R248): the result is the byte. -/
def execDDrain (s : State) : Host.Outcome State Fault Refusal := doneVal .byte (dDrain s)

/-- FINISH_D (R254). -/
def execFinishD (outCap : Nat) (s : State) : Host.Outcome State Fault Refusal := doneCmd (finishD outCap s)

end Sys2Proof.Machine
end

