-- ==== Sys2Proof/Machine/Commands.lean ====
section
/-! DEFINITION. Machine/Commands.lean: the host's commands (R180, R194, R220, R250, R272, R274), the raise (R276), the
pseudo-commands (R118), the reset event (R300), and their meanings. -/

namespace Sys2Proof.Machine

/-! ## The commands -/

/-- BEGIN_COMPRESS's writes for a legal `cfg` (R180, R59). All 32 elements of `obuf` are written. -/
def openCompress (cfg : Byte) (s : State) : State :=
  { s with
    mode := .comp
    err := none
    maxbits := cfgMaxbits cfg
    blockMode := cfgBlock cfg
    nBits := Config.initBits
    freeEnt := firstFree (cfgBlock cfg)
    full := false
    hslot := HashMem.allEmpty
    obuf := Mem.cellsFrom 0 ([Config.magic1, Config.magic2, cfg] ++ List.replicate 29 0#8)
    obits := 24
    bitPosition := 24
    alignBase := 24
    bytesIn := 0
    checkpoint := Config.checkGap
    ratioPrev := .zero
    pfx := 0#16
    cphase := .first }

/-- BEGIN_COMPRESS (R180). -/
def beginCompress (cfg : Byte) (s : State) : Resp × State :=
  if cfgLegal cfg then ({ consumed := 0, out := [], status := .cont }, openCompress cfg s)
  else raiseError .usage 0 [] { s with mode := .idle }

/-- BEGIN_DECOMPRESS (R220). All four elements of `ibuf` are written. -/
def beginDecompress (s : State) : Resp × State :=
  ({ consumed := 0, out := [], status := .cont },
   { s with
     mode := .decomp
     err := none
     dphase := .header
     ibuf := Mem.cellsFrom 0 (List.replicate 4 0#8)
     ibits := 0
     ipos := 0
     iskip := 0
     bitPosition := 0
     sp := 0 })

/-- The end of an ADVANCE command (R194, R250): the no-progress test, then the loop's results. A loop that ended in a
raise has already ended the command (R276). -/
def advanceEnd (outCap : Nat) (l : LoopOut) (s : State) : Resp × State :=
  match l.status with
  | .error k => ({ consumed := l.consumed, out := l.out, status := .error k }, s)
  | st =>
    if noProgress l.steps outCap then raiseError .usage 0 [] s
    else ({ consumed := l.consumed, out := l.out, status := st }, s)

/-- ADVANCE_C (R194). -/
def advanceC (inData : List Byte) (outCap : Nat) (s : State) : Res (Resp × State) :=
  match s.err with
  | some k => .ok ({ consumed := 0, out := [], status := .error k }, s)
  | none =>
    if s.mode ≠ .comp then .ok (raiseError .usage 0 [] s)
    else if s.cphase = .done then .ok ({ consumed := 0, out := [], status := .streamEnd }, s)
    else if s.cphase = .finishing then .ok (raiseError .usage 0 [] s)
    else do
      let (l, s1) ← cLoop inData outCap s
      .ok (advanceEnd outCap l s1)

/-- ADVANCE_D (R250). -/
def advanceD (inData : List Byte) (outCap : Nat) (s : State) : Res (Resp × State) :=
  match s.err with
  | some k => .ok ({ consumed := 0, out := [], status := .error k }, s)
  | none =>
    if s.mode ≠ .decomp then .ok (raiseError .usage 0 [] s)
    else if s.dphase = .done then .ok ({ consumed := 0, out := [], status := .streamEnd }, s)
    else do
      let (l, s1) ← dLoop inData outCap s
      .ok (advanceEnd outCap l s1)

/-- FINISH, the common entry (R274). -/
def finishCmd (outCap : Nat) (s : State) : Res (Resp × State) :=
  match s.err with
  | some k => .ok ({ consumed := 0, out := [], status := .error k }, s)
  | none =>
    match s.mode with
    | .idle => .ok (raiseError .usage 0 [] s)
    | .comp => finishC outCap s
    | .decomp => finishD outCap s

/-! ## The pseudo-commands (R118) -/

/-- The loop of ADVANCE commands, for at most `n` of them: `adv` is the ADVANCE command on the input not yet consumed;
it ends when all input is consumed with NeedMoreInput, or with an error. The result is the bytes so far, the error if
one ended it, and the state. -/
def advanceAll (adv : List Byte → State → Res (Resp × State)) :
    Nat → List Byte → List Byte → State → Res (List Byte × Option ErrKind × State)
  | 0, _, _, _ => stopWith .loopBound
  | n + 1, inp, z, s => do
    let (r, s1) ← adv inp s
    match r.status with
    | .error k => .ok (z ++ r.out, some k, s1)
    | st =>
      if r.consumed = inp.length ∧ st = .needMoreInput then .ok (z ++ r.out, none, s1)
      else advanceAll adv n (inp.drop r.consumed) (z ++ r.out) s1

/-- The loop of FINISH commands, for at most `n` of them: it ends with StreamEnd or an error. -/
def finishAll (outCap : Nat) : Nat → List Byte → State → Res ((List Byte × Status) × State)
  | 0, _, _ => stopWith .loopBound
  | n + 1, z, s => do
    let (r, s1) ← finishCmd outCap s
    match r.status with
    | .streamEnd => .ok ((z ++ r.out, .streamEnd), s1)
    | .error k => .ok ((z ++ r.out, .error k), s1)
    | _ => finishAll outCap n (z ++ r.out) s1

/-- ADVANCE commands until the input is consumed, then FINISH commands until StreamEnd (R118). -/
def wholeStream (adv : List Byte → State → Res (Resp × State)) (bound : Nat) (inp : List Byte) (outCap : Nat)
    (s : State) : Res ((List Byte × Status) × State) := do
  let (z, e, s1) ← advanceAll adv bound inp [] s
  match e with
  | some k => .ok ((z, .error k), s1)
  | none => finishAll outCap bound z s1

/-- COMPRESS_ALL (R118). With an illegal `cfg` the first ADVANCE_C returns the sticky UsageError, which ends it (log 14).
The bound on the number of commands is above the bytes the stream can have: at most 20 per input byte, and 26 more
(log 13). -/
def compressAll (cfg : Byte) (inp : List Byte) (outCap : Nat) (s : State) : Res ((List Byte × Status) × State) :=
  wholeStream (fun i => advanceC i outCap) (20 * inp.length + 64) inp outCap (beginCompress cfg s).2

/-- DECOMPRESS_ALL (R118). The bound on the number of commands is above the bytes the stream can expand to: fewer than
65536 for each code, and fewer codes than input bytes (log 13). -/
def decompressAll (inp : List Byte) (outCap : Nat) (s : State) : Res ((List Byte × Status) × State) :=
  wholeStream (fun i => advanceD i outCap) (65536 * (inp.length + 1)) inp outCap (beginDecompress s).2

/-! ## Hardware reset (R300) -/

/-- The `i`-th free value of this reset, in the range of a register with `n` values (log 9). -/
def State.free (s : State) (i n : Nat) : Nat := Config.freeNat (s.freeCount + i) % n

/-- A free `cphase`. -/
def freeCPhase (n : Nat) : CPhase :=
  match n with
  | 0 => .first
  | 1 => .run
  | 2 => .finishing
  | _ => .done

/-- A free `dphase`. -/
def freeDPhase (n : Nat) : DPhase :=
  match n with
  | 0 => .header
  | 1 => .streamFirst
  | 2 => .epochFirst
  | 3 => .run
  | _ => .done

/-- `2 ^ POSW` (R9). -/
def posLimit : Nat := 2 ^ 64

/-- Hardware reset (R300): `mode <- IDLE`, `err <- NONE`. Every other register is unspecified afterwards, so each takes
a free value of its width; no memory element holds a value any more (R58, R301; log 9). -/
def hardwareReset (s : State) : State where
  mode := .idle
  err := none
  maxbits := s.free 0 32
  blockMode := decide (s.free 1 2 = 1)
  nBits := s.free 2 32
  freeEnt := s.free 3 131072
  bitPosition := s.free 4 posLimit
  alignBase := s.free 5 posLimit
  cphase := freeCPhase (s.free 6 4)
  pfx := BitVec.ofNat 16 (s.free 7 65536)
  full := decide (s.free 8 2 = 1)
  bytesIn := s.free 9 posLimit
  checkpoint := s.free 10 posLimit
  ratioPrev := Config.freeRatio s.freeCount
  obits := s.free 11 256
  obuf := []
  hslot := { cleared := false, cells := [] }
  dphase := freeDPhase (s.free 12 5)
  oldCode := BitVec.ofNat 16 (s.free 13 65536)
  lastChar := BitVec.ofNat 8 (s.free 14 256)
  ibits := s.free 15 64
  ipos := s.free 16 32
  iskip := s.free 17 posLimit
  ibuf := []
  tabPrefix := []
  tabSuffix := []
  stack := []
  sp := s.free 18 131072
  port := s.port
  result := .unit
  freeCount := s.freeCount + 19

/-! ## The meanings -/

/-- BEGIN_COMPRESS (R180). -/
def execBeginCompress (cfg : Byte) (s : State) : Host.Outcome State Fault Refusal := respond (beginCompress cfg s)

/-- BEGIN_DECOMPRESS (R220). -/
def execBeginDecompress (s : State) : Host.Outcome State Fault Refusal := respond (beginDecompress s)

/-- ADVANCE_C (R194). -/
def execAdvanceC (inData : List Byte) (outCap : Nat) (s : State) : Host.Outcome State Fault Refusal :=
  doneCmd (advanceC inData outCap s)

/-- ADVANCE_D (R250). -/
def execAdvanceD (inData : List Byte) (outCap : Nat) (s : State) : Host.Outcome State Fault Refusal :=
  doneCmd (advanceD inData outCap s)

/-- FINISH (R274). -/
def execFinish (outCap : Nat) (s : State) : Host.Outcome State Fault Refusal := doneCmd (finishCmd outCap s)

/-- `cmd` = 0 (R272): UsageError whatever the state. -/
def execCmdReserved0 (s : State) : Host.Outcome State Fault Refusal := respond (raiseError .usage 0 [] s)

/-- `cmd` = 6 (R272): UsageError whatever the state. -/
def execCmdReserved6 (s : State) : Host.Outcome State Fault Refusal := respond (raiseError .usage 0 [] s)

/-- `cmd` = 7 (R272): UsageError whatever the state. -/
def execCmdReserved7 (s : State) : Host.Outcome State Fault Refusal := respond (raiseError .usage 0 [] s)

/-- RAISE (R276), on its own: nothing consumed, nothing drained. -/
def execRaise (kind : ErrKind) (s : State) : Host.Outcome State Fault Refusal := doneUnit (raiseHere kind s)

/-- COMPRESS_ALL (R118): the result is the compressed stream and the status it ended with. -/
def execCompressAll (cfg : Byte) (inp : List Byte) (outCap : Nat) (s : State) : Host.Outcome State Fault Refusal :=
  doneVal (fun r => .stream r.1 r.2) (compressAll cfg inp outCap s)

/-- DECOMPRESS_ALL (R118): the result is the decompressed stream and the status it ended with. -/
def execDecompressAll (inp : List Byte) (outCap : Nat) (s : State) : Host.Outcome State Fault Refusal :=
  doneVal (fun r => .stream r.1 r.2) (decompressAll inp outCap s)

/-- RESET (R300). -/
def execReset (s : State) : Host.Outcome State Fault Refusal := .next (hardwareReset s)

end Sys2Proof.Machine
end

