-- ==== Sys2Proof/Machine/Dispatch.lean ====
section
/-! DEFINITION. Machine/Dispatch.lean: one arm per constructor of Instr, each a direct call of its meaning. -/

namespace Sys2Proof.Machine

def exec (i : Instr) (s : State) : Host.Outcome State Fault Refusal :=
  match i with
  -- format CMD: host commands (R96, R97)
  | .beginCompress cfg => Sys2Proof.Machine.execBeginCompress cfg s
  | .beginDecompress => Sys2Proof.Machine.execBeginDecompress s
  | .advanceC inData outCap => Sys2Proof.Machine.execAdvanceC inData outCap s
  | .advanceD inData outCap => Sys2Proof.Machine.execAdvanceD inData outCap s
  | .finish outCap => Sys2Proof.Machine.execFinish outCap s
  | .cmdReserved0 => Sys2Proof.Machine.execCmdReserved0 s
  | .cmdReserved6 => Sys2Proof.Machine.execCmdReserved6 s
  | .cmdReserved7 => Sys2Proof.Machine.execCmdReserved7 s
  -- format HDR: the stream header (R92, R93): `k` is bit 23, `r` bits 22:21, `m` bits 20:16
  | .hdrWrite k m => Sys2Proof.Machine.execHdrWrite k m s
  | .hdrRead k r m => Sys2Proof.Machine.execHdrRead k r m s
  -- format CODE: the code classes, in the order of R101
  | .literalFirst b => Sys2Proof.Machine.execLiteralFirst b s
  | .badcodeFirst c => Sys2Proof.Machine.execBadcodeFirst c s
  | .clear => Sys2Proof.Machine.execClear s
  | .literalEpochFirst b => Sys2Proof.Machine.execLiteralEpochFirst b s
  | .badcodeEpochFirst c => Sys2Proof.Machine.execBadcodeEpochFirst c s
  | .badcodeRange c => Sys2Proof.Machine.execBadcodeRange c s
  | .kwkwk c => Sys2Proof.Machine.execKwkwk c s
  | .literal b => Sys2Proof.Machine.execLiteral b s
  | .dictref c => Sys2Proof.Machine.execDictref c s
  -- format UOP: BitCursor (40_bitcursor.md)
  | .putCode buffer bitOffset code width => Sys2Proof.Machine.execPutCode buffer bitOffset code width s
  | .getCode buffer bitOffset width => Sys2Proof.Machine.execGetCode buffer bitOffset width s
  | .realign pos base w => Sys2Proof.Machine.execRealign pos base w s
  | .cRealign w => Sys2Proof.Machine.execCRealign w s
  | .dRealign w => Sys2Proof.Machine.execDRealign w s
  | .cPut code w => Sys2Proof.Machine.execCPut code w s
  | .dGet => Sys2Proof.Machine.execDGet s
  | .ibufCompact => Sys2Proof.Machine.execIbufCompact s
  | .dSkip => Sys2Proof.Machine.execDSkip s
  | .dTake b => Sys2Proof.Machine.execDTake b s
  -- format UOP: Dictionary (41_dictionary.md)
  | .hash pfx byte => Sys2Proof.Machine.execHash pfx byte s
  | .probeNext h byte => Sys2Proof.Machine.execProbeNext h byte s
  | .lookupOrInsert pfx byte => Sys2Proof.Machine.execLookupOrInsert pfx byte s
  | .insert h pfx byte => Sys2Proof.Machine.execInsert h pfx byte s
  | .dictClear => Sys2Proof.Machine.execDictClear s
  | .tabSeed => Sys2Proof.Machine.execTabSeed s
  | .tabDefine p b => Sys2Proof.Machine.execTabDefine p b s
  | .push b => Sys2Proof.Machine.execPush b s
  | .unroll code => Sys2Proof.Machine.execUnroll code s
  -- format UOP: the compress state machine (42_compress.md)
  | .cLoop inData outCap => Sys2Proof.Machine.execCLoop inData outCap s
  | .cByte c => Sys2Proof.Machine.execCByte c s
  | .cGrow => Sys2Proof.Machine.execCGrow s
  | .cRatio => Sys2Proof.Machine.execCRatio s
  | .ratio a b => Sys2Proof.Machine.execRatio a b s
  | .cDrain => Sys2Proof.Machine.execCDrain s
  | .finishC outCap => Sys2Proof.Machine.execFinishC outCap s
  -- format UOP: the decompress state machine (43_decompress.md)
  | .dLoop inData outCap => Sys2Proof.Machine.execDLoop inData outCap s
  | .dHeader => Sys2Proof.Machine.execDHeader s
  | .dCode => Sys2Proof.Machine.execDCode s
  | .dFirst c => Sys2Proof.Machine.execDFirst c s
  | .dClear => Sys2Proof.Machine.execDClear s
  | .dExpand c => Sys2Proof.Machine.execDExpand c s
  | .dGrow => Sys2Proof.Machine.execDGrow s
  | .dDrain => Sys2Proof.Machine.execDDrain s
  | .finishD outCap => Sys2Proof.Machine.execFinishD outCap s
  -- format UOP: errors (60_exceptions.md)
  | .raise kind => Sys2Proof.Machine.execRaise kind s
  -- format PSEUDO (R118): the room offered to each command is "any value >= 1", here an operand
  | .compressAll cfg inp outCap => Sys2Proof.Machine.execCompressAll cfg inp outCap s
  | .decompressAll z outCap => Sys2Proof.Machine.execDecompressAll z outCap s
  -- format EVENT (R300)
  | .reset => Sys2Proof.Machine.execReset s

end Sys2Proof.Machine
end

