-- ==== Sys2Proof/Machine/Fetch.lean ====
section
/-! DEFINITION. Machine/Fetch.lean: where the next instruction comes from: the host's port (R80, R96), and how a word of
the opcode table is laid where the next step runs it (log 15). -/

namespace Sys2Proof.Machine

/-- The instruction at the head of the port and the state in which it runs, the event taken off the port. -/
def fetch (s : State) : Option (Instr × State) :=
  match s.port with
  | [] => none
  | .command r :: rest => some (decodeRequest r, { s with port := rest })
  | .resetLine :: rest => some (.reset, { s with port := rest })

/-- The state with a host command in front of all others. -/
def State.issue (s : State) (r : Request) : State := { s with port := .command r :: s.port }

/-- The three bytes of a header value, and the zero byte of `ibuf` above them (R63, R93). -/
def headerBytes (h : BitVec 24) : List Byte := [windowByte h 0, windowByte h 1, windowByte h 2, 0#8]

/-- ADVANCE_D with no input and no room: its work loop runs what is buffered. -/
def runBuffered : Request := { cmd := 4#3, cfg := 0#8, inData := [], outCap := 0 }

/-- A decompress session that has buffered a whole header and awaits it (R224, R228). -/
def placeHeaderWord (s : State) (h : BitVec 24) : State :=
  { s with
    mode := .decomp
    err := none
    dphase := .header
    ibuf := Mem.putBlock s.ibuf 0 (headerBytes h)
    ibits := 24
    ipos := 0
    iskip := 0
    sp := 0 }.issue runBuffered

/-- A decompress session in the context `tableCtx` that has buffered a 16-bit code and awaits it (R224, R230). -/
def placeCodeWord (s : State) (c : Code) : State :=
  { s with
    mode := .decomp
    err := none
    maxbits := 16
    nBits := 16
    blockMode := tableCtx.blockMode
    freeEnt := tableCtx.freeEnt
    dphase := tableCtx.dphase
    ibuf := Mem.putBlock s.ibuf 0 [c.extractLsb' 0 8, c.extractLsb' 8 8, 0#8, 0#8]
    ibits := 16
    ipos := 0
    iskip := 0
    sp := 0 }.issue runBuffered

/-- A word of the opcode table where the next step runs it: a command word on the port; a header the compressor writes
as the BEGIN_COMPRESS that writes it; any other header, and a code, in the staging buffer of a decompress session. -/
def placeWord (s : State) (nbits w : Nat) : State :=
  if nbits = 8 then s.issue (bareRequest (BitVec.ofNat 3 w))
  else if nbits = 16 then placeCodeWord s (BitVec.ofNat 16 w)
  else if nbits = 24 then
    match decodeHdrAny (BitVec.ofNat 24 w) with
    | .ok (.hdrWrite k m) => s.issue { bareRequest 1#3 with cfg := headerByte2 k 0#2 m }
    | _ => placeHeaderWord s (BitVec.ofNat 24 w)
  else s

end Sys2Proof.Machine
end

