-- ==== Sys2Proof/Machine/Step.lean ====
section
/-! DEFINITION. Machine/Step.lean: one step of the engine: it serves the event at the head of the port, or waits. -/

namespace Sys2Proof.Machine

/-- One step: the next command (or the reset line) is taken off the port and executed to completion (R15, R69, R80);
with nothing on the port the engine waits for a command (R300). -/
def step (s : State) : Host.Outcome State Fault Refusal :=
  match fetch s with
  | none => .next s
  | some (i, s1) => exec i s1

/-- `s` with a word of the opcode table laid where the next step runs it (log 15). -/
def State.withFetchWord (s : State) (nbits w : Nat) : State := placeWord s nbits w

end Sys2Proof.Machine
end

