-- ==== Sys2Proof/Safety.lean ====
section
/-! DEFINITION. Safety.lean: the terms claims are stated in: what is readable, the bits of a stream buffer, the probe
sequence, what a code spells, the invariants of a compress and of a decompress session (R43, R54, R158, R202, R244 and
the ranges of 10_state.md), and the state of the machine between two steps. -/

namespace Sys2Proof.Machine

/-! ## Buffers -/

/-- Every element of a memory of `size` elements holds a value. -/
def Written {α : Type} (size : Nat) (m : Mem α) : Prop := ∀ a, a < size → (Mem.get m a).isSome = true

/-- Bit `i` of a byte buffer (R62); an element that holds no value counts as zeros. -/
def bufBit (m : Mem Byte) (i : Nat) : Bool :=
  match Mem.get m (i / 8) with
  | some b => b.getLsbD (i % 8)
  | none => false

/-- The natural whose bit `j` is `f j`, for `w` bits (R100). -/
def bitsValue (f : Nat → Bool) : Nat → Nat
  | 0 => 0
  | w + 1 => bitsValue f w + (if f w then 2 ^ w else 0)

/-- The `w`-bit code at bit `off` of a byte buffer: `sum over j < w of bit(off + j) * 2^j` (R64, R100). -/
def streamValue (m : Mem Byte) (off w : Nat) : Nat := bitsValue (fun j => bufBit m (off + j)) w

/-- R43 (d): every bit of `obuf` at position `>= obits` is zero. -/
def TailZero (s : State) : Prop := ∀ i, s.obits ≤ i → bufBit s.obuf i = false

/-! ## The hash table -/

/-- The probe sequence of a pair (R153). -/
def probeAt (p : Code) (b : Byte) : Nat → HIdx
  | 0 => hashIndex p b
  | n + 1 => probeNext (probeAt p b n) b

/-- The pair `(p, b)` is stored, with code `c` (the set `D` of R159). -/
def Stored (t : HashMem) (p : Code) (b : Byte) (c : Code) : Prop :=
  ∃ h, Mem.get t.cells h = some { kprefix := p, kbyte := b, code := c }

/-- The invariants of the hash table: R43 (a), (b), (c), R158 (f) and its last sentence. -/
structure HashInv (s : State) : Prop where
  /-- Every slot holds an entry or is EMPTY. -/
  cleared : s.hslot.cleared = true
  /-- R43 (a). -/
  unique : ∀ h₁ h₂ e₁ e₂, Mem.get s.hslot.cells h₁ = some e₁ → Mem.get s.hslot.cells h₂ = some e₂ →
    e₁.kprefix = e₂.kprefix → e₁.kbyte = e₂.kbyte → h₁ = h₂
  /-- R43 (b): the codes stored are codes from the first free one up to `free_ent`, ... -/
  codeRange : ∀ h e, Mem.get s.hslot.cells h = some e →
    firstFree s.blockMode ≤ e.code.toNat ∧ e.code.toNat < s.freeEnt
  /-- ... each of them once at most, ... -/
  codeOnce : ∀ h₁ h₂ e₁ e₂, Mem.get s.hslot.cells h₁ = some e₁ → Mem.get s.hslot.cells h₂ = some e₂ →
    e₁.code = e₂.code → h₁ = h₂
  /-- ... and each of them once at least. -/
  codeAll : ∀ c : Nat, firstFree s.blockMode ≤ c → c < s.freeEnt →
    ∃ h e, Mem.get s.hslot.cells h = some e ∧ e.code.toNat = c
  /-- R43 (c): as many slots are filled as codes were assigned. -/
  count : s.hslot.cells.length + firstFree s.blockMode = s.freeEnt
  /-- R158 (f). -/
  reach : ∀ h e, Mem.get s.hslot.cells h = some e →
    ∃ n, n < Config.hSize ∧ (probeAt e.kprefix e.kbyte n).toNat = h ∧
      ∀ m, m < n → (Mem.get s.hslot.cells (probeAt e.kprefix e.kbyte m).toNat).isSome = true
  /-- R158: the prefix of an entry is a code that existed before it. -/
  older : ∀ h e, Mem.get s.hslot.cells h = some e → e.kprefix.toNat < e.code.toNat

/-- The session ranges both sides keep (R23, R25, R26). -/
structure Ranges (s : State) : Prop where
  maxLo : 9 ≤ s.maxbits
  maxHi : s.maxbits ≤ 16
  bitsLo : 9 ≤ s.nBits
  bitsHi : s.nBits ≤ s.maxbits
  freeLo : firstFree s.blockMode ≤ s.freeEnt
  freeHi : s.freeEnt ≤ 2 ^ s.maxbits
  /-- `align_base` is a current or past `bit_position` (R135). -/
  origin : s.alignBase ≤ s.bitPosition
  /-- Every `align_base` the engine uses is a multiple of 8 (R135). -/
  originByte : s.alignBase % 8 = 0

/-- The invariants of a compress session between two micro-operations. -/
structure CompInv (s : State) : Prop where
  ranges : Ranges s
  hash : HashInv s
  /-- R34. -/
  fullIff : s.full = exhausted s.maxbits s.freeEnt
  /-- R202. -/
  fits : s.freeEnt ≤ 2 ^ s.nBits ∨ s.nBits = s.maxbits
  /-- R33: a code below `free_ent`. -/
  pending : s.cphase = .run → s.pfx.toNat < s.freeEnt
  /-- Every element of `obuf` holds a value. -/
  outWritten : Written Config.obufBytes s.obuf
  /-- R43 (d). -/
  tail : TailZero s
  /-- R28: the header is part of the stream. -/
  headerIn : 24 ≤ s.bitPosition
  /-- R139: the room one more code needs, in the phases that can emit one. -/
  room : s.cphase = .first ∨ s.cphase = .run → s.obits + s.nBits ≤ 175
  /-- R198: after the padding `obits` is a multiple of 8 and stays one; R39: at most 176. -/
  padded : s.cphase = .finishing → s.obits ≤ 176 ∧ s.obits % 8 = 0

/-! ## The prefix/suffix table -/

/-- R54: the code `e` is defined. -/
def Defined (s : State) (e : Nat) : Prop := e < 256 ∨ (firstFree s.blockMode ≤ e ∧ e < s.freeEnt)

/-- R166: the byte string a code denotes, read from the tables. -/
inductive Spells (s : State) : Code → List Byte → Prop where
  | literal (c : Code) (h : c.toNat < 256) : Spells s c [c.setWidth 8]
  | entry (c p : Code) (b : Byte) (str : List Byte) (h : 256 ≤ c.toNat)
      (hp : Mem.get s.tabPrefix c.toNat = some p) (hb : Mem.get s.tabSuffix c.toNat = some b)
      (hs : Spells s p str) : Spells s c (str ++ [b])

/-- What a decompress session keeps once its header was accepted. -/
structure OpenInv (s : State) : Prop where
  ranges : Ranges s
  /-- R54: the prefix of a defined entry is a defined, smaller code. -/
  table : ∀ e, 256 ≤ e → Defined s e → ∃ p b, Mem.get s.tabPrefix e = some p ∧ Mem.get s.tabSuffix e = some b ∧
    p.toNat < e ∧ Defined s p.toNat
  /-- R244: in `D_RUN`, `old_code` is defined. -/
  old : s.dphase = .run → Defined s s.oldCode.toNat
  /-- R244: in `D_RUN`, `last_char` is the first byte of `old_code`'s string. -/
  lastFirst : s.dphase = .run → ∃ str, Spells s s.oldCode str ∧ str.head? = some s.lastChar
  /-- R101: `D_EPOCH_FIRST` arises only in block mode. -/
  epoch : s.dphase = .epochFirst → s.blockMode = true

/-- The invariants of a decompress session between two micro-operations. -/
structure DecompInv (s : State) : Prop where
  /-- Every element of `ibuf` holds a value. -/
  inWritten : Written Config.ibufBytes s.ibuf
  /-- R49. -/
  ibitsByte : s.ibits % 8 = 0
  ibitsHi : s.ibits ≤ 24
  iposLe : s.ipos ≤ s.ibits
  iposLt : s.ipos < 8
  /-- R50: `iskip > 0` implies nothing is buffered. -/
  skip : 0 < s.iskip → s.ipos = s.ibits
  /-- R55: every byte below `sp` holds a value. -/
  stackWritten : ∀ i, i < s.sp → (Mem.get s.stack i).isSome = true
  /-- R170. -/
  spHi : s.sp ≤ 65281
  /-- Before the header nothing is on the stack and nothing was consumed. -/
  header : s.dphase = .header → s.sp = 0 ∧ s.iskip = 0 ∧ s.ipos = 0
  opened : s.dphase ≠ .header → OpenInv s

/-! ## The machine between two steps -/

/-- The invariant of the machine: the memories are canonical, and a live session keeps its invariants. After an error
the session is dead and nothing of it is read again (R277). -/
structure Inv (s : State) : Prop where
  memory : s.memWf = true
  comp : s.err = none → s.mode = .comp → CompInv s
  decomp : s.err = none → s.mode = .decomp → DecompInv s

/-- A compress session that can still take input. -/
structure LiveComp (s : State) : Prop where
  err : s.err = none
  mode : s.mode = .comp
  phase : s.cphase = .first ∨ s.cphase = .run
  inv : CompInv s

/-- A decompress session that has not ended. -/
structure LiveDecomp (s : State) : Prop where
  err : s.err = none
  mode : s.mode = .decomp
  phase : s.dphase ≠ .done
  inv : DecompInv s

/-! ## Results a claim names -/

/-- The state a raise of `k` leaves when nothing was consumed or drained in the same command (R276). -/
def raisedState (k : ErrKind) (s : State) : State :=
  ({ s with err := some k }).withResult (.response { consumed := 0, out := [], status := .error k })

/-- The state in which a command has answered with nothing consumed, nothing produced and nothing else changed. -/
def answered (st : Status) (s : State) : State :=
  s.withResult (.response { consumed := 0, out := [], status := st })

/-- `n` bits were appended to the staged output, bit `j` of them being `bit j`; what was staged before stays, and
everything above stays zero (R132, R43 (d)). -/
def Appended (n : Nat) (bit : Nat → Bool) (s t : State) : Prop :=
  t.obits = s.obits + n ∧
  ∀ i, bufBit t.obuf i =
    if i < s.obits then bufBit s.obuf i else if i < s.obits + n then bit (i - s.obits) else false

/-- The padding REALIGN leaves in front of the next code when `pos` is the cursor (R106). -/
def padding (pos base w : Nat) : Nat := realignTo pos base w - pos

/-- The input cursor moved on by `k` bits and the consumed bytes were dropped (R141). -/
def Advanced (k : Nat) (s t : State) : Prop :=
  t.ipos = (s.ipos + k) % 8 ∧ t.ibits = s.ibits - 8 * ((s.ipos + k) / 8) ∧
  ∀ a, a < 4 → Mem.get t.ibuf a =
    if a + (s.ipos + k) / 8 < 4 then Mem.get s.ibuf (a + (s.ipos + k) / 8) else some 0#8

/-- What D_REALIGN does with width `w`: the cursor moves to the boundary, and as much of the padding as is buffered is
dropped, the rest left to `iskip` (R137, R142). -/
def DRealigned (w : Nat) (s t : State) : Prop :=
  t.bitPosition = realignTo s.bitPosition s.alignBase w ∧
  t.iskip = s.iskip + padding s.bitPosition s.alignBase w - min (s.iskip + padding s.bitPosition s.alignBase w) s.avail ∧
  Advanced (min (s.iskip + padding s.bitPosition s.alignBase w) s.avail) s t

/-- The registers D_REALIGN and D_GROW work on are as they were. -/
def CursorKept (s t : State) : Prop :=
  t.nBits = s.nBits ∧ t.bitPosition = s.bitPosition ∧ t.alignBase = s.alignBase ∧
  t.iskip = s.iskip ∧ t.ipos = s.ipos ∧ t.ibits = s.ibits ∧ t.ibuf = s.ibuf

/-- `t` is `s` after D_HEADER accepted a header with block-mode flag `k` and `maxbits = m` (R228): the registers of the
third column of R59, the 24 header bits consumed, the table seeded (R167), and nothing else changed. -/
def HeaderAccepted (k : Bool) (m : Nat) (s t : State) : Prop :=
  t = ({ s with
      maxbits := m, blockMode := k, nBits := 9, freeEnt := if k then 257 else 256,
      bitPosition := 24, alignBase := 24, dphase := .streamFirst,
      ipos := 0, ibits := s.ibits - 24, ibuf := t.ibuf, tabPrefix := t.tabPrefix,
      tabSuffix := t.tabSuffix }).withResult .unit ∧
  Mem.get t.ibuf 0 = Mem.get s.ibuf 3 ∧
  (∀ a, 1 ≤ a → a < 4 → Mem.get t.ibuf a = some 0#8) ∧
  (∀ i, i < 256 → Mem.get t.tabSuffix i = some (BitVec.ofNat 8 i) ∧ Mem.get t.tabPrefix i = some 0#16) ∧
  (∀ i, 256 ≤ i → Mem.get t.tabSuffix i = Mem.get s.tabSuffix i ∧ Mem.get t.tabPrefix i = Mem.get s.tabPrefix i)

/-- The bytes of `bytes` were pushed on the stack in that order; the rest of the stack is as it was (R169). -/
def Pushed (bytes : List Byte) (s t : State) : Prop :=
  t.sp = s.sp + bytes.length ∧
  (∀ i, i < bytes.length → Mem.get t.stack (s.sp + i) = bytes[i]?) ∧
  (∀ a, (a < s.sp ∨ s.sp + bytes.length ≤ a) → Mem.get t.stack a = Mem.get s.stack a)

/-- The entry that D_EXPAND creates after outputting a string that begins with `b` (R168, R238): one more code, if the
code space is not exhausted. -/
def EntryCreated (b : Byte) (s t : State) : Prop :=
  if s.freeEnt < 2 ^ s.maxbits then
    t.freeEnt = s.freeEnt + 1 ∧
    Mem.get t.tabPrefix s.freeEnt = some s.oldCode ∧ Mem.get t.tabSuffix s.freeEnt = some b ∧
    (∀ e, e ≠ s.freeEnt → Mem.get t.tabPrefix e = Mem.get s.tabPrefix e ∧ Mem.get t.tabSuffix e = Mem.get s.tabSuffix e)
  else t.freeEnt = s.freeEnt ∧ t.tabPrefix = s.tabPrefix ∧ t.tabSuffix = s.tabSuffix

/-- What D_GROW does to the width and the cursor when `free_ent` is `f` (R240). -/
def WidthFollows (f : Nat) (s t : State) : Prop :=
  if 2 ^ s.nBits - 1 < f ∧ s.nBits < s.maxbits then
    t.nBits = s.nBits + 1 ∧ DRealigned s.nBits s t ∧
    t.alignBase = originAfterGrowth t.bitPosition s.alignBase
  else CursorKept s t

/-- `t` is `s` after D_EXPAND has pushed `bytes` for the code `incoming`, whose string begins with `first` (R235):
the entry created, the width grown where due, and nothing else changed. -/
def Expanded (incoming : Code) (bytes : List Byte) (first : Byte) (s t : State) : Prop :=
  t = ({ s with
      stack := t.stack, sp := t.sp, lastChar := first, oldCode := incoming, freeEnt := t.freeEnt,
      tabPrefix := t.tabPrefix, tabSuffix := t.tabSuffix, nBits := t.nBits, bitPosition := t.bitPosition,
      alignBase := t.alignBase, iskip := t.iskip, ipos := t.ipos, ibits := t.ibits,
      ibuf := t.ibuf }).withResult .unit ∧
  Pushed bytes s t ∧ EntryCreated first s t ∧ WidthFollows t.freeEnt s t

/-- The code a session accepts next, by its phase (R101, rows that are not BADCODE). -/
def CodeAccepted (s : State) (c : Nat) : Prop :=
  match s.dphase with
  | .header => False
  | .streamFirst => c < 256
  | .epochFirst => c ≤ 256
  | .run => c ≤ s.freeEnt
  | .done => False

/-! ## The two sides of the state (R20, R44) -/

/-- The compress-only registers and memories. -/
def compSide (s : State) : CPhase × Code × Bool × Nat × Nat × Config.RatioT × Nat × Mem Byte × HashMem :=
  (s.cphase, s.pfx, s.full, s.bytesIn, s.checkpoint, s.ratioPrev, s.obits, s.obuf, s.hslot)

/-- The decompress-only registers and memories. -/
def decompSide (s : State) :
    DPhase × Code × Byte × Nat × Nat × Nat × Mem Byte × Mem Code × Mem Byte × Mem Byte × Nat :=
  (s.dphase, s.oldCode, s.lastChar, s.ibits, s.ipos, s.iskip, s.ibuf, s.tabPrefix, s.tabSuffix, s.stack, s.sp)

/-- The instructions that may write the compress-only side (R44, R181); FINISH only on a compress session (R274). -/
def writesCompSide (mode : Mode) : Instr → Bool
  | .beginCompress _ | .advanceC _ _ | .hdrWrite _ _ | .putCode .obuf _ _ _ | .cRealign _ | .cPut _ _
  | .lookupOrInsert _ _ | .insert _ _ _ | .dictClear | .cLoop _ _ | .cByte _ | .cGrow | .cRatio | .cDrain
  | .finishC _ | .compressAll _ _ _ | .reset => true
  | .finish _ => decide (mode = .comp)
  | _ => false

/-- The instructions that may write the decompress-only side (R44, R222); FINISH only on a decompress session (R274). -/
def writesDecompSide (mode : Mode) : Instr → Bool
  | .beginDecompress | .advanceD _ _ | .hdrRead _ _ _ | .literalFirst _ | .clear | .literalEpochFirst _ | .kwkwk _
  | .literal _ | .dictref _ | .putCode .ibuf _ _ _ | .dRealign _ | .dGet | .ibufCompact | .dSkip | .dTake _
  | .tabSeed | .tabDefine _ _ | .push _ | .unroll _ | .dLoop _ _ | .dHeader | .dCode | .dFirst _ | .dClear
  | .dExpand _ | .dGrow | .dDrain | .finishD _ | .decompressAll _ _ | .reset => true
  | .finish _ => decide (mode = .decomp)
  | _ => false

/-! ## The session a word belongs to -/

/-- The condition of R101's row (or the direction of a header) under which a word is this instruction. -/
def InContext (ctx : DecodeCtx) : Instr → Prop
  | .hdrWrite _ _ => ctx.mode = .comp
  | .hdrRead _ _ _ => ctx.mode = .decomp
  | .literalFirst _ => ctx.dphase = .streamFirst
  | .badcodeFirst _ => ctx.dphase = .streamFirst
  | .clear => ctx.blockMode = true ∧ (ctx.dphase = .epochFirst ∨ ctx.dphase = .run)
  | .literalEpochFirst _ => ctx.dphase = .epochFirst
  | .badcodeEpochFirst c => ctx.dphase = .epochFirst ∧ ¬ (c = Config.clearCode ∧ ctx.blockMode = true)
  | .badcodeRange c => ctx.dphase = .run ∧ ctx.freeEnt < c.toNat ∧ ¬ (c = Config.clearCode ∧ ctx.blockMode = true)
  | .kwkwk c => ctx.dphase = .run ∧ c.toNat = ctx.freeEnt ∧ ¬ (c = Config.clearCode ∧ ctx.blockMode = true)
  | .literal b => ctx.dphase = .run ∧ b.toNat < ctx.freeEnt
  | .dictref c => ctx.dphase = .run ∧ c.toNat < ctx.freeEnt ∧ ¬ (c = Config.clearCode ∧ ctx.blockMode = true)
  | _ => True

end Sys2Proof.Machine
end

