-- ==== Sys2Proof/Certificates/Slice0/Obligations.lean ====
section
/-! DEFINITION. Certificates/Slice0/Obligations.lean: the statements about the model, in the order of OBLIGATIONS.json.
A statement of the form `t = ({ s with x := t.x }).withResult r` says that nothing but the named fields and the result
changed. -/

open Sys2Proof Sys2Proof.Machine

/-! ## Encodings -/

/-- R97, R272: the command word selects the command, operands travel beside it, and a reserved word is a UsageError.
That it writes `err` also over an error that already stands is read from R272, R275 and R276 against a phrase of R22: the
model's reading (log 25). -/
def Obligations.CommandWordSelectsTheCommand : Prop :=
  ∀ (cfg : Byte) (inp : List Byte) (cap : Nat) (s : State),
    decodeRequest ⟨1#3, cfg, inp, cap⟩ = .beginCompress cfg ∧
    decodeRequest ⟨2#3, cfg, inp, cap⟩ = .beginDecompress ∧
    decodeRequest ⟨3#3, cfg, inp, cap⟩ = .advanceC inp cap ∧
    decodeRequest ⟨4#3, cfg, inp, cap⟩ = .advanceD inp cap ∧
    decodeRequest ⟨5#3, cfg, inp, cap⟩ = .finish cap ∧
    (decodeRequest ⟨0#3, cfg, inp, cap⟩ = .cmdReserved0 ∧ exec .cmdReserved0 s = .next (raisedState .usage s)) ∧
    (decodeRequest ⟨6#3, cfg, inp, cap⟩ = .cmdReserved6 ∧ exec .cmdReserved6 s = .next (raisedState .usage s)) ∧
    (decodeRequest ⟨7#3, cfg, inp, cap⟩ = .cmdReserved7 ∧ exec .cmdReserved7 s = .next (raisedState .usage s))

/-- Words written out from R93, R97 and R101 decode to the instruction they stand for. How a word given alone is read is
the model's choice (log 15), at all three widths: a command word is one byte whose upper five bits are zero, any other
byte is no word, and its operands are zeros; a 24-bit word is HDR_WRITE if it meets the stricter pattern and otherwise
HDR_READ; a 16-bit word is a code of a session in D_RUN with block mode on and `free_ent = 257`. -/
def Obligations.WordsOfTheSpecDecode : Prop :=
  decodeTableWord 8 0b00000001 = some (.beginCompress 0x00#8) ∧
  decodeTableWord 8 0b00000101 = some (.finish 0) ∧
  decodeTableWord 8 0b00001000 = none ∧
  decodeTableWord 24 0b100100001001110100011111 = some (.hdrWrite true 0b10000#5) ∧
  decodeTableWord 24 0b111100001001110100011111 = some (.hdrRead true 0b11#2 0b10000#5) ∧
  decodeTableWord 24 0b100100001001110000011111 = none ∧
  decodeTableWord 16 0b0000000001000001 = some (.literal 0x41#8) ∧
  decodeTableWord 16 0b0000000100000000 = some .clear ∧
  decodeTableWord 16 0b0000000100000001 = some (.kwkwk 0x101#16) ∧
  classify ⟨.decomp, .run, true, 300⟩ 0x0102#16 = .ok (.dictref 0x102#16)

/-- R93: the header as one 24-bit value: its bytes, its fixed bits on either side, and the four examples. -/
def Obligations.HeaderValueHasItsFixedBits : Prop :=
  (∀ (k : Bool) (m : BitVec 5),
    packHdr k 0#2 m = windowOf 0x1F#8 0x9D#8 (headerByte2 k 0#2 m) ∧
    packHdr k 0#2 m &&& 0x60FFFF#24 = 0x009D1F#24 ∧
    (packHdr k 0#2 m).getLsbD 23 = k ∧ (packHdr k 0#2 m).extractLsb' 16 5 = m) ∧
  (∀ h : BitVec 24, (∃ i, decodeHdrRead h = .ok i) ↔ h &&& 0x00FFFF#24 = 0x009D1F#24) ∧
  (∀ h : BitVec 24, (∃ i, decodeHdrWrite h = .ok i) ↔
    h &&& 0x60FFFF#24 = 0x009D1F#24 ∧ 9 ≤ (h.extractLsb' 16 5).toNat ∧ (h.extractLsb' 16 5).toNat ≤ 16) ∧
  packHdr true 0#2 16#5 = windowOf 0x1F#8 0x9D#8 0x90#8 ∧
  packHdr true 0#2 12#5 = windowOf 0x1F#8 0x9D#8 0x8C#8 ∧
  packHdr false 0#2 16#5 = windowOf 0x1F#8 0x9D#8 0x10#8 ∧
  packHdr false 0#2 9#5 = windowOf 0x1F#8 0x9D#8 0x09#8

/-- Every well-formed instruction that has a word is what that word decodes to in the session it belongs to (R97, R93,
R101). -/
def Obligations.DecodeOfEncodeIsTheInstruction : Prop :=
  ∀ (ctx : DecodeCtx) (i : Instr) (w : EncWord),
    wellFormed i = true → InContext ctx i → encode i = some w → decode ctx w = .ok i

/-- R101: D_CODE runs, on the code it fetched, the class of the first row whose condition holds.
Where R230's precondition on `sp`, `iskip` and the buffered bits fails, that it follows the pseudocode is the model's
choice (log 12). -/
def Obligations.DCodeRunsTheClassOfItsCode : Prop :=
  ∀ (s s1 : State) (c : Code), dGet s = .ok (c, s1) →
    (s.dphase = .streamFirst → c.toNat < 256 → exec .dCode s = exec (.literalFirst (c.setWidth 8)) s1) ∧
    (s.dphase = .streamFirst → 256 ≤ c.toNat → exec .dCode s = exec (.badcodeFirst c) s1) ∧
    ((s.dphase = .epochFirst ∨ s.dphase = .run) → c.toNat = 256 → s.blockMode = true →
      exec .dCode s = exec .clear s1) ∧
    (s.dphase = .epochFirst → c.toNat < 256 → exec .dCode s = exec (.literalEpochFirst (c.setWidth 8)) s1) ∧
    (s.dphase = .epochFirst → 256 ≤ c.toNat → ¬ (c.toNat = 256 ∧ s.blockMode = true) →
      exec .dCode s = exec (.badcodeEpochFirst c) s1) ∧
    (s.dphase = .run → ¬ (c.toNat = 256 ∧ s.blockMode = true) → s.freeEnt < c.toNat →
      exec .dCode s = exec (.badcodeRange c) s1) ∧
    (s.dphase = .run → ¬ (c.toNat = 256 ∧ s.blockMode = true) → c.toNat = s.freeEnt →
      exec .dCode s = exec (.kwkwk c) s1) ∧
    (s.dphase = .run → c.toNat < s.freeEnt → c.toNat < 256 → exec .dCode s = exec (.literal (c.setWidth 8)) s1) ∧
    (s.dphase = .run → ¬ (c.toNat = 256 ∧ s.blockMode = true) → 256 ≤ c.toNat → c.toNat < s.freeEnt →
      exec .dCode s = exec (.dictref c) s1)

/-! ## The machine -/

/-- R80: commands are served one at a time in the order issued. The form of this is the model's choice: the port that
holds what the host has issued, a step being exec of the instruction at its head, and a step with nothing on it leaving
the state as it is (log 7); and the reset line being served between commands, in the order of the port (log 9). -/
def Obligations.StepServesTheHeadOfThePort : Prop :=
  ∀ (s : State) (r : Request) (rest : List PortEvent),
    (s.port = [] → step s = .next s) ∧
    (s.port = .command r :: rest → step s = exec (decodeRequest r) { s with port := rest }) ∧
    (s.port = .resetLine :: rest → step s = exec .reset { s with port := rest })

/-- From every state that meets the invariant (R43, R54, R158, R202, R244 and the ranges of 10_state.md) a step
answers a next state, never a fault, and that state meets the invariant, whatever the host does (R73, R247). That a step
waits with nothing on the port (log 7), serves the reset line in the port's order (log 9), and would stop at an element
without a value, outside a memory or past a loop's bound (logs 5, 6, 13) is the model's choice. -/
def Obligations.StepKeepsTheInvariant : Prop :=
  ∀ s : State, Inv s → ∃ t, step s = .next t ∧ Inv t

/-- The machine right after reset meets the invariant. That its memories list nothing is the model's form of R58 (log 5). -/
def Obligations.ResetMeetsTheInvariant : Prop := Inv State.reset

/-- R278: the only ways out of an error are a BEGIN command that succeeds and the reset line. That both stand on the
port is the model's choice (logs 7, 9). -/
def Obligations.ErrorEndsOnlyWithBeginOrReset : Prop :=
  ∀ s t : State, step s = .next t → s.err ≠ none → t.err = none →
    ∃ rest, s.port = .resetLine :: rest ∨
      ∃ r : Request, s.port = .command r :: rest ∧
        ((r.cmd = 1#3 ∧ r.cfg.extractLsb' 5 2 = 0#2 ∧ 9 ≤ (r.cfg.extractLsb' 0 5).toNat ∧
            (r.cfg.extractLsb' 0 5).toNat ≤ 16) ∨ r.cmd = 2#3)

/-- R300: reset leaves `mode = IDLE` and `err = NONE`. That no memory element holds a value any more and that the port
keeps what the host has issued are the model's choice (log 9). -/
def Obligations.ResetLeavesNoSession : Prop :=
  ∀ s : State, ∃ t, exec .reset s = .next t ∧ t.mode = .idle ∧ t.err = none ∧ t.port = s.port ∧
    (∀ a, Mem.get t.obuf a = none ∧ Mem.get t.ibuf a = none ∧ Mem.get t.tabPrefix a = none ∧
      Mem.get t.tabSuffix a = none ∧ Mem.get t.stack a = none) ∧
    (∀ h, t.hslot.read h = .unwritten)

/-- What an instruction does not write: the compress-only side of the state and the decompress-only side are each
changed only by the instructions of R44 that reach them. That no instruction, RESET among them, touches the port is the
model's choice: the port is the model's own field (log 7), and a reset keeps what the host has issued (log 9). -/
def Obligations.SessionSidesStayApart : Prop :=
  ∀ (i : Instr) (s t : State), exec i s = .next t →
    t.port = s.port ∧
    (writesCompSide s.mode i = false → compSide t = compSide s) ∧
    (writesDecompSide s.mode i = false → decompSide t = decompSide s)

/-! ## Commands -/

/-- R180, R220: BEGIN_COMPRESS opens a session on a legal `cfg` and refuses any other; BEGIN_DECOMPRESS opens one from
every state. -/
def Obligations.BeginCommandsOpenASession : Prop :=
  (∀ (cfg : Byte) (s : State),
    cfg.extractLsb' 5 2 = 0#2 → 9 ≤ (cfg.extractLsb' 0 5).toNat → (cfg.extractLsb' 0 5).toNat ≤ 16 →
    ∃ t, exec (.beginCompress cfg) s = .next t ∧
      t = ({ s with
        mode := .comp, err := none, maxbits := (cfg.extractLsb' 0 5).toNat, blockMode := cfg.getLsbD 7,
        nBits := 9, freeEnt := if cfg.getLsbD 7 then 257 else 256, full := false, hslot := t.hslot,
        obuf := t.obuf, obits := 24, bitPosition := 24, alignBase := 24, bytesIn := 0, checkpoint := 10000,
        ratioPrev := .zero, pfx := 0#16, cphase := .first }).withResult
        (.response { consumed := 0, out := [], status := .cont }) ∧
      (∀ h, t.hslot.read h = .empty) ∧
      Mem.get t.obuf 0 = some 0x1F#8 ∧ Mem.get t.obuf 1 = some 0x9D#8 ∧ Mem.get t.obuf 2 = some cfg ∧
      (∀ a, 3 ≤ a → a < 32 → Mem.get t.obuf a = some 0#8)) ∧
  (∀ (cfg : Byte) (s : State),
    ¬ (cfg.extractLsb' 5 2 = 0#2 ∧ 9 ≤ (cfg.extractLsb' 0 5).toNat ∧ (cfg.extractLsb' 0 5).toNat ≤ 16) →
    exec (.beginCompress cfg) s = .next (raisedState .usage { s with mode := .idle })) ∧
  (∀ s : State, ∃ t, exec .beginDecompress s = .next t ∧
    t = ({ s with
      mode := .decomp, err := none, dphase := .header, ibuf := t.ibuf, ibits := 0, ipos := 0, iskip := 0,
      bitPosition := 0, sp := 0 }).withResult (.response { consumed := 0, out := [], status := .cont }) ∧
    (∀ a, a < 4 → Mem.get t.ibuf a = some 0#8))

/-- R276: a raise writes `err` and the response, and nothing else; the classes BADCODE of R101 raise
CorruptStreamError. R276 describes a raise inside a command: that RAISE run by itself answers with nothing consumed and
nothing produced is the model's choice (log 21), and so is that a BADCODE class raises in every state, without testing
its condition again (log 16); that a raise writes `err` also over an error that already stands is its reading of R272,
R275 and R276 against a phrase of R22 (log 25). -/
def Obligations.RaiseWritesOnlyTheError : Prop :=
  ∀ (k : ErrKind) (c : Code) (s : State),
    exec (.raise k) s = .next (raisedState k s) ∧
    exec (.badcodeFirst c) s = .next (raisedState .corrupt s) ∧
    exec (.badcodeEpochFirst c) s = .next (raisedState .corrupt s) ∧
    exec (.badcodeRange c) s = .next (raisedState .corrupt s)

/-- R277: while `err != NONE`, ADVANCE_C, ADVANCE_D and FINISH answer the same error and change no state. -/
def Obligations.ErrorIsSticky : Prop :=
  ∀ (k : ErrKind) (inp : List Byte) (cap : Nat) (s : State), s.err = some k →
    exec (.advanceC inp cap) s = .next (answered (.error k) s) ∧
    exec (.advanceD inp cap) s = .next (answered (.error k) s) ∧
    exec (.finish cap) s = .next (answered (.error k) s)

/-- R271 rows 3 to 5, R273: a command without its session, of the other kind, or after FINISH raises UsageError. -/
def Obligations.MisusedCommandRaisesUsageError : Prop :=
  ∀ (inp : List Byte) (cap : Nat) (s : State), s.err = none →
    (s.mode = .idle → exec (.advanceC inp cap) s = .next (raisedState .usage s) ∧
      exec (.advanceD inp cap) s = .next (raisedState .usage s) ∧
      exec (.finish cap) s = .next (raisedState .usage s)) ∧
    (s.mode = .decomp → exec (.advanceC inp cap) s = .next (raisedState .usage s)) ∧
    (s.mode = .comp → exec (.advanceD inp cap) s = .next (raisedState .usage s)) ∧
    (s.mode = .comp → s.cphase = .finishing → exec (.advanceC inp cap) s = .next (raisedState .usage s))

/-- R271 row 6: a call without room that can do nothing raises UsageError and changes nothing else. -/
def Obligations.NoProgressRaisesUsageError : Prop :=
  ∀ (inp : List Byte) (s : State), s.err = none →
    (s.mode = .comp → (s.cphase = .first ∨ s.cphase = .run) → (8 ≤ s.obits ∨ inp = []) →
      exec (.advanceC inp 0) s = .next (raisedState .usage s)) ∧
    (s.mode = .comp → s.cphase = .finishing → exec (.finish 0) s = .next (raisedState .usage s)) ∧
    (s.mode = .decomp → s.dphase ≠ .done →
      (0 < s.sp ∨ (inp = [] ∧ headerReady s = false ∧ codeReady s = false)) →
      exec (.advanceD inp 0) s = .next (raisedState .usage s)) ∧
    (s.mode = .decomp → s.dphase ≠ .done → 0 < s.sp → exec (.finish 0) s = .next (raisedState .usage s))

/-- R279: `StreamEnd` is absorbing: a session that has ended answers it to ADVANCE and FINISH, and nothing changes. -/
def Obligations.StreamEndIsAbsorbing : Prop :=
  ∀ (inp : List Byte) (cap : Nat) (s : State), s.err = none →
    (s.mode = .comp → s.cphase = .done →
      exec (.advanceC inp cap) s = .next (answered .streamEnd s) ∧
      exec (.finish cap) s = .next (answered .streamEnd s) ∧
      exec (.finishC cap) s = .next (answered .streamEnd s)) ∧
    (s.mode = .decomp → s.dphase = .done →
      exec (.advanceD inp cap) s = .next (answered .streamEnd s) ∧
      exec (.finish cap) s = .next (answered .streamEnd s) ∧
      exec (.finishD cap) s = .next (answered .streamEnd s))

/-- R274: FINISH tests the sticky error, then the absence of a session, then runs the session's own finish. -/
def Obligations.FinishServesTheOpenSession : Prop :=
  ∀ (cap : Nat) (s : State),
    (∀ k, s.err = some k → exec (.finish cap) s = .next (answered (.error k) s)) ∧
    (s.err = none → s.mode = .idle → exec (.finish cap) s = .next (raisedState .usage s)) ∧
    (s.err = none → s.mode = .comp → exec (.finish cap) s = exec (.finishC cap) s) ∧
    (s.err = none → s.mode = .decomp → exec (.finish cap) s = exec (.finishD cap) s)

/-- Where a micro-operation is run outside its domain, the model stops by name (log 5, log 6, log 12): an element that
holds no value, an address outside the memory, a count below zero. -/
def Obligations.MicroOperationsStopOutsideTheirDomain : Prop :=
  ∀ (s : State) (b : BufSel) (off w : Nat) (c : Code) (x : Byte),
    (off / 8 < bufSize b → Mem.get (s.buffer b) (off / 8) = none →
      exec (.putCode b off c w) s = .fault (.unwritten (bufName b) (off / 8)) ∧
      exec (.getCode b off w) s = .fault (.unwritten (bufName b) (off / 8))) ∧
    (bufSize b ≤ off / 8 →
      exec (.putCode b off c w) s = .fault (.outOfRange (bufName b) (off / 8)) ∧
      exec (.getCode b off w) s = .fault (.outOfRange (bufName b) (off / 8))) ∧
    (s.ibits < 8 → 8 ≤ s.ipos → exec .ibufCompact s = .fault .underflow) ∧
    ((Mem.get s.obuf 0).isSome = true → s.obits < 8 → exec .cDrain s = .fault .underflow) ∧
    (s.sp = 0 → exec .dDrain s = .fault .underflow) ∧
    (65536 ≤ s.sp → exec (.push x) s = .fault (.outOfRange .stack s.sp)) ∧
    (256 ≤ c.toNat → Mem.get s.tabSuffix c.toNat = none →
      exec (.unroll c) s = .fault (.unwritten .tabSuffix c.toNat)) ∧
    (s.hslot.read (hashIndex c x) = .unwritten →
      exec (.lookupOrInsert c x) s = .fault (.unwritten .hslot (hashIndex c x).toNat))

/-! ## BitCursor -/

/-- R131: PUT_CODE ORs the shifted code into three bytes of the buffer and answers the new offset. For a width
outside 9 to 16 or a code that does not fit it, outside the common conditions of R130, that it follows the pseudocode is
the model's choice (log 12). -/
def Obligations.PutCodeOrsIntoThreeBytes : Prop :=
  ∀ (b : BufSel) (off : Nat) (code : Code) (w : Nat) (b0 b1 b2 : Byte) (s : State),
    off / 8 + 2 < bufSize b →
    Mem.get (s.buffer b) (off / 8) = some b0 → Mem.get (s.buffer b) (off / 8 + 1) = some b1 →
    Mem.get (s.buffer b) (off / 8 + 2) = some b2 →
    ∃ m, exec (.putCode b off code w) s = .next ((s.setBuffer b m).withResult (.position (off + w))) ∧
      Mem.get m (off / 8) = some (b0 ||| BitVec.ofNat 8 (code.toNat * 2 ^ (off % 8))) ∧
      Mem.get m (off / 8 + 1) = some (b1 ||| BitVec.ofNat 8 (code.toNat * 2 ^ (off % 8) / 2 ^ 8)) ∧
      Mem.get m (off / 8 + 2) = some (b2 ||| BitVec.ofNat 8 (code.toNat * 2 ^ (off % 8) / 2 ^ 16)) ∧
      (∀ a, a ≠ off / 8 → a ≠ off / 8 + 1 → a ≠ off / 8 + 2 → Mem.get m a = Mem.get (s.buffer b) a)

/-- R132: where the target bits were zero, PUT_CODE leaves bit `j` of the code at bit `off + j` of the buffer, and
every other bit as it was. -/
def Obligations.PutCodeWritesStreamBits : Prop :=
  ∀ (b : BufSel) (off : Nat) (code : Code) (w : Nat) (s : State),
    9 ≤ w → w ≤ 16 → code.toNat < 2 ^ w → off / 8 + 2 < bufSize b →
    Written (bufSize b) (s.buffer b) → (∀ j, j < w → bufBit (s.buffer b) (off + j) = false) →
    ∃ m, exec (.putCode b off code w) s = .next ((s.setBuffer b m).withResult (.position (off + w))) ∧
      (∀ j, j < w → bufBit m (off + j) = code.getLsbD j) ∧
      (∀ i, i < off ∨ off + w ≤ i → bufBit m i = bufBit (s.buffer b) i)

/-- R134: GET_CODE reads `sum over j < w of bit(off + j) * 2^j` and changes nothing; after a PUT_CODE on zero bits it
reads the code back. -/
def Obligations.GetCodeInvertsPutCode : Prop :=
  ∀ (b : BufSel) (off w : Nat) (s : State),
    9 ≤ w → w ≤ 16 → off / 8 + 2 < bufSize b → Written (bufSize b) (s.buffer b) →
    (∃ c : Code, exec (.getCode b off w) s = .next (s.withResult (.code c)) ∧
      c.toNat = streamValue (s.buffer b) off w) ∧
    (∀ code : Code, code.toNat < 2 ^ w → (∀ j, j < w → bufBit (s.buffer b) (off + j) = false) →
      ∃ t, exec (.putCode b off code w) s = .next t ∧
        exec (.getCode b off w) t = .next (t.withResult (.code code)))

/-- R135: REALIGN and its properties. On every other operand, where R135 states no result, that REALIGN, C_REALIGN and
D_REALIGN complete with a free position no lower than the cursor and with every other effect of R136 and R137 is the
model's choice (log 22). -/
def Obligations.RealignMovesToTheGroupBoundary : Prop :=
  (∀ (pos base w : Nat) (s : State), base ≤ pos → 9 ≤ w → w ≤ 16 →
    ∃ r, exec (.realign pos base w) s = .next (s.withResult (.position r)) ∧
      r = base + ((pos - base + 8 * w - 1) / (8 * w)) * (8 * w) ∧
      pos ≤ r ∧ r < pos + 8 * w ∧ (r - base) % (8 * w) = 0 ∧ ((pos - base) % (8 * w) = 0 → r = pos) ∧
      exec (.realign r base w) s = .next (s.withResult (.position r)) ∧ r % 8 = base % 8) ∧
  (∀ (pos base w : Nat) (s : State), ∃ d,
    exec (.realign pos base w) s = .next (s.withResult (.position (pos + d))) ∧
    (pos = s.bitPosition → base = s.alignBase →
      exec (.cRealign w) s =
        .next (({ s with obits := s.obits + d, bitPosition := s.bitPosition + d }).withResult .unit) ∧
      exec (.dRealign w) s = exec .dSkip { s with bitPosition := s.bitPosition + d, iskip := s.iskip + d } ∧
      (s.ipos ≤ s.ibits → ∃ t, exec (.dRealign w) s = .next t ∧ t.bitPosition = s.bitPosition + d)))

/-- R136: C_REALIGN counts the padding in `obits` and moves the cursor; no byte is written. -/
def Obligations.CRealignPadsTheOutput : Prop :=
  ∀ (w : Nat) (s : State), s.alignBase ≤ s.bitPosition → 9 ≤ w → w ≤ 16 →
    ∃ p, p < 8 * w ∧ s.bitPosition + p = realignTo s.bitPosition s.alignBase w ∧
      exec (.cRealign w) s =
        .next (({ s with obits := s.obits + p, bitPosition := s.bitPosition + p }).withResult .unit)

/-- R137: D_REALIGN moves the cursor and discards the padding, the buffered part at once. -/
def Obligations.DRealignDiscardsThePadding : Prop :=
  ∀ (w : Nat) (s : State), s.alignBase ≤ s.bitPosition → 9 ≤ w → w ≤ 16 → s.ipos ≤ s.ibits →
    ∃ t, exec (.dRealign w) s = .next t ∧
      t = ({ s with
        bitPosition := t.bitPosition, iskip := t.iskip, ipos := t.ipos, ibits := t.ibits,
        ibuf := t.ibuf }).withResult .unit ∧ DRealigned w s t

/-- R139: C_PUT is PUT_CODE on `obuf` at `obits`, advancing `obits` and `bit_position` by the width. For a
width outside 9 to 16, a code that does not fit it or an `obits` past the bounds of R139, that it follows the pseudocode
is the model's choice (log 12). -/
def Obligations.CPutAppendsTheCode : Prop :=
  ∀ (code : Code) (w : Nat) (s : State), s.obits / 8 + 2 < 32 → Written 32 s.obuf →
    ∃ m, exec (.putCode .obuf s.obits code w) s =
        .next (({ s with obuf := m }).withResult (.position (s.obits + w))) ∧
      exec (.cPut code w) s = .next (({ s with
        obuf := m, obits := s.obits + w, bitPosition := s.bitPosition + w }).withResult .unit) ∧
      (TailZero s → 9 ≤ w → w ≤ 16 → code.toNat < 2 ^ w →
        ∀ i, bufBit m i =
          if i < s.obits then bufBit s.obuf i
          else if i < s.obits + w then code.getLsbD (i - s.obits) else false)

/-- R140: D_GET answers the `n_bits` bits at `ipos`, moves the cursor past them and drops the consumed bytes.
R140 also requires `iskip = 0`: that D_GET follows its pseudocode with padding still pending is the model's choice
(log 12). -/
def Obligations.DGetTakesTheNextCode : Prop :=
  ∀ s : State, 9 ≤ s.nBits → s.nBits ≤ 16 → s.ipos < 8 → s.ipos + s.nBits ≤ s.ibits → Written 4 s.ibuf →
    ∃ (c : Code) (t : State), exec .dGet s = .next t ∧ c.toNat = streamValue s.ibuf s.ipos s.nBits ∧
      t = ({ s with
        bitPosition := s.bitPosition + s.nBits, ipos := t.ipos, ibits := t.ibits,
        ibuf := t.ibuf }).withResult (.code c) ∧ Advanced s.nBits s t

/-- R141: IBUF_COMPACT drops the fully consumed bytes. -/
def Obligations.IbufCompactDropsConsumedBytes : Prop :=
  ∀ s : State, s.ipos ≤ s.ibits →
    ∃ t, exec .ibufCompact s = .next t ∧
      t = ({ s with ipos := t.ipos, ibits := t.ibits, ibuf := t.ibuf }).withResult .unit ∧
      Advanced 0 s t ∧ t.ipos < 8 ∧ t.ibits - t.ipos = s.ibits - s.ipos

/-- R142: D_SKIP discards as much pending padding as is buffered. -/
def Obligations.DSkipDiscardsBufferedPadding : Prop :=
  ∀ s : State, s.ipos ≤ s.ibits →
    ∃ t, exec .dSkip s = .next t ∧
      t = ({ s with
        iskip := s.iskip - min s.iskip (s.ibits - s.ipos), ipos := t.ipos, ibits := t.ibits,
        ibuf := t.ibuf }).withResult .unit ∧
      Advanced (min s.iskip (s.ibits - s.ipos)) s t ∧
      (s.ibits % 8 = 0 → 0 < t.iskip → t.ipos = 0 ∧ t.ibits = 0)

/-- R143: D_TAKE appends one byte and then discards pending padding. -/
def Obligations.DTakeAppendsTheByte : Prop :=
  ∀ (b : Byte) (s : State), s.ibits ≤ 16 → s.ipos ≤ s.ibits →
    ∃ u, (∀ a, Mem.get u.ibuf a = if a = s.ibits / 8 then some b else Mem.get s.ibuf a) ∧
      u = { s with ibuf := u.ibuf, ibits := s.ibits + 8 } ∧
      exec (.dTake b) s = exec .dSkip u ∧ ∃ t, exec (.dTake b) s = .next t ∧ t.bitPosition = s.bitPosition

/-! ## Dictionary, compress side -/

/-- R151: HASH is `((byte << 9) ^ prefix) & 0x1FFFF`; its examples; and which pairs collide. -/
def Obligations.HashMixesPrefixAndByte : Prop :=
  (∀ (p : Code) (b : Byte) (s : State), ∃ h : HIdx,
    exec (.hash p b) s = .next (s.withResult (.index h)) ∧ h.toNat = (b.toNat * 512) ^^^ p.toNat) ∧
  hashIndex 65#16 66#8 = 33857#17 ∧ hashIndex 257#16 65#8 = 33537#17 ∧ hashIndex 0#16 0#8 = 0#17 ∧
  hashIndex 65535#16 255#8 = 66047#17 ∧
  (∀ (p p' : Code) (b b' : Byte), hashIndex p b = hashIndex p' b' ↔
    b.extractLsb' 7 1 = b'.extractLsb' 7 1 ∧ p.extractLsb' 0 9 = p'.extractLsb' 0 9 ∧
    p.extractLsb' 9 7 ^^^ p'.extractLsb' 9 7 = b.extractLsb' 0 7 ^^^ b'.extractLsb' 0 7)

/-- R152, R153: PROBE_NEXT adds the byte's odd stride modulo 2^17, and a pair's probe sequence visits every slot once
before it repeats. -/
def Obligations.ProbeSequenceVisitsEverySlot : Prop :=
  (∀ (h : HIdx) (b : Byte) (s : State), ∃ h' : HIdx,
    exec (.probeNext h b) s = .next (s.withResult (.index h')) ∧
    (h'.toNat : Int) = (h.toNat + Config.stride b) % 131072) ∧
  (∀ b, Config.stride b % 2 = 1) ∧
  (∀ (p : Code) (b : Byte) (i j : Nat), i < 131072 → j < 131072 → probeAt p b i = probeAt p b j → i = j) ∧
  (∀ (p : Code) (b : Byte) (h : HIdx), ∃ i, i < 131072 ∧ probeAt p b i = h)

/-- R159: a lookup hits exactly the stored pairs, and adds a pair that is not stored exactly when the table is not
full, with the code `free_ent`. That an insertion with `free_ent = 65536`, outside R155's precondition, completes and
stores a free value as the code is the model's choice (log 23), and so is that a lookup of a prefix
that is no code below `free_ent`, which R154 asks for, follows the pseudocode (log 12). -/
def Obligations.LookupFindsExactlyTheStoredPairs : Prop :=
  ∀ (p : Code) (b : Byte) (s : State), HashInv s → s.freeEnt ≤ 65536 →
    (∀ c, Stored s.hslot p b c →
      exec (.lookupOrInsert p b) s = .next (s.withResult (.lookup (.hit c)))) ∧
    ((∀ c, ¬ Stored s.hslot p b c) → s.full = true →
      exec (.lookupOrInsert p b) s = .next (s.withResult (.lookup .miss))) ∧
    ((∀ c, ¬ Stored s.hslot p b c) → s.full = false →
      ∃ t, exec (.lookupOrInsert p b) s = .next t ∧
        t = ({ s with
          hslot := t.hslot, freeEnt := s.freeEnt + 1,
          full := decide (s.freeEnt + 1 = 2 ^ s.maxbits) }).withResult (.lookup .miss) ∧
        ∃ code : Code, (s.freeEnt < 65536 → code.toNat = s.freeEnt) ∧
          ∀ p' b' c', Stored t.hslot p' b' c' ↔ Stored s.hslot p' b' c' ∨ (p' = p ∧ b' = b ∧ c' = code))

/-- R158: a lookup of a code below `free_ent` keeps the invariants of the hash table (R43 (a) to (c), R158 (f)). -/
def Obligations.LookupKeepsTheHashInvariant : Prop :=
  ∀ (p : Code) (b : Byte) (s : State), HashInv s → firstFree s.blockMode ≤ s.freeEnt → s.freeEnt ≤ 2 ^ s.maxbits →
    s.maxbits ≤ 16 → s.full = exhausted s.maxbits s.freeEnt → p.toNat < s.freeEnt →
    ∃ t, exec (.lookupOrInsert p b) s = .next t ∧ HashInv t ∧ t.full = exhausted t.maxbits t.freeEnt ∧
      t.freeEnt ≤ 2 ^ t.maxbits

/-- R155: INSERT assigns the next free code to the pair at the slot, and marks the table full with the last code.
R155 also requires `hslot[h] = EMPTY`: that INSERT follows its pseudocode over an occupied slot, or one that holds no
value, is the model's choice (log 12). -/
def Obligations.InsertAssignsTheNextCode : Prop :=
  ∀ (h : HIdx) (p : Code) (b : Byte) (s : State), s.full = false → s.maxbits ≤ 16 → s.freeEnt < 2 ^ s.maxbits →
    ∃ (t : State) (e : Slot), exec (.insert h p b) s = .next t ∧
      t = ({ s with
        hslot := t.hslot, freeEnt := s.freeEnt + 1,
        full := decide (s.freeEnt + 1 = 2 ^ s.maxbits) }).withResult .unit ∧
      t.hslot.read h = .entry e ∧ e.kprefix = p ∧ e.kbyte = b ∧ e.code.toNat = s.freeEnt ∧
      (∀ h', h' ≠ h → t.hslot.read h' = s.hslot.read h')

/-- R157: DICT_CLEAR empties every slot and restarts the codes. -/
def Obligations.DictClearEmptiesTheTable : Prop :=
  ∀ s : State, ∃ t, exec .dictClear s = .next t ∧
    t = ({ s with hslot := t.hslot, freeEnt := 257, full := false }).withResult .unit ∧
    ∀ h, t.hslot.read h = .empty

/-! ## Dictionary, decompress side -/

/-- R167, R168: TAB_SEED writes elements 0 to 255 of both tables; TAB_DEFINE writes the entry `free_ent` while the
code space lasts. For a prefix that is no defined code below `free_ent`, which R168's caller guarantees, that TAB_DEFINE
follows its pseudocode is the model's choice (log 12). -/
def Obligations.TablesAreSeededAndExtended : Prop :=
  ∀ (p : Code) (b : Byte) (s : State),
    (∃ t, exec .tabSeed s = .next t ∧
      t = ({ s with tabPrefix := t.tabPrefix, tabSuffix := t.tabSuffix }).withResult .unit ∧
      (∀ i, i < 256 → Mem.get t.tabSuffix i = some (BitVec.ofNat 8 i) ∧ Mem.get t.tabPrefix i = some 0#16) ∧
      (∀ i, 256 ≤ i → Mem.get t.tabSuffix i = Mem.get s.tabSuffix i ∧
        Mem.get t.tabPrefix i = Mem.get s.tabPrefix i)) ∧
    (s.maxbits ≤ 16 → s.freeEnt < 2 ^ s.maxbits →
      ∃ t, exec (.tabDefine p b) s = .next t ∧
        t = ({ s with
          tabPrefix := t.tabPrefix, tabSuffix := t.tabSuffix,
          freeEnt := s.freeEnt + 1 }).withResult .unit ∧
        Mem.get t.tabPrefix s.freeEnt = some p ∧ Mem.get t.tabSuffix s.freeEnt = some b ∧
        (∀ e, e ≠ s.freeEnt → Mem.get t.tabPrefix e = Mem.get s.tabPrefix e ∧
          Mem.get t.tabSuffix e = Mem.get s.tabSuffix e)) ∧
    (2 ^ s.maxbits ≤ s.freeEnt → exec (.tabDefine p b) s = .next (s.withResult .unit))

/-- R169: PUSH stacks one byte; UNROLL stacks a code's string from its last byte to its first, and answers the first.
For a code that is not defined but whose chain of table entries ends in a literal, that UNROLL follows its pseudocode is
the model's choice (log 12). -/
def Obligations.UnrollStacksTheStringReversed : Prop :=
  (∀ (b : Byte) (s : State), s.sp < 65536 →
    ∃ t, exec (.push b) s = .next t ∧ t = ({ s with stack := t.stack, sp := t.sp }).withResult .unit ∧
      Pushed [b] s t) ∧
  (∀ (code : Code) (str : List Byte) (s : State), Spells s code str → s.sp + str.length ≤ 65536 →
    ∃ (t : State) (first : Byte), exec (.unroll code) s = .next t ∧ str.head? = some first ∧
      t = ({ s with stack := t.stack, sp := t.sp }).withResult (.byte first) ∧ Pushed str.reverse s t)

/-- R170: a defined code spells a string no longer than its number allows, so the stack never needs more than 65281
bytes. -/
def Obligations.StringLengthIsBounded : Prop :=
  ∀ (s : State) (e : Code), OpenInv s → Defined s e.toNat →
    ∃ str, Spells s e str ∧ (∀ str', Spells s e str' → str' = str) ∧ str ≠ [] ∧
      (e.toNat < 256 → str.length = 1) ∧
      (256 ≤ e.toNat → str.length ≤ e.toNat - (if s.blockMode then 255 else 254)) ∧ str.length ≤ 65281

/-! ## The compress state machine -/

/-- R92, R180: the header the compressor writes is `1F 9D` and the byte of its fields, in `obuf[0..2]`. That the
instruction HDR_WRITE is these three bytes alone, and leaves everything else unchanged, is the model's choice (log 17). -/
def Obligations.HeaderIsWrittenToTheOutputBuffer : Prop :=
  ∀ (k : Bool) (m : BitVec 5) (s : State), ∃ (t : State) (b : Byte), exec (.hdrWrite k m) s = .next t ∧
    t = ({ s with obuf := t.obuf }).withResult .unit ∧
    b.extractLsb' 0 5 = m ∧ b.extractLsb' 5 2 = 0#2 ∧ b.getLsbD 7 = k ∧
    Mem.get t.obuf 0 = some 0x1F#8 ∧ Mem.get t.obuf 1 = some 0x9D#8 ∧ Mem.get t.obuf 2 = some b ∧
    (∀ a, 3 ≤ a → Mem.get t.obuf a = Mem.get s.obuf a)

/-- R186, first byte and hit: the byte starts the first prefix, or the prefix becomes the code that was hit.
R186 also requires `obits < 8`: that C_BYTE follows its pseudocode with whole bytes waiting is the model's choice
(log 12). -/
def Obligations.CByteExtendsThePrefix : Prop :=
  ∀ (c : Byte) (s : State),
    (s.cphase = .first → exec (.cByte c) s = .next (({ s with
      bytesIn := s.bytesIn + 1, pfx := c.setWidth 16, cphase := .run }).withResult .unit)) ∧
    (s.cphase = .run → HashInv s → s.freeEnt ≤ 65536 → ∀ code, Stored s.hslot s.pfx c code →
      exec (.cByte c) s = .next (({ s with bytesIn := s.bytesIn + 1, pfx := code }).withResult .unit))

/-- R186, miss, when no ratio check is due: the pair gets the next code if the table is not full, the prefix is emitted
at the width of before the growth, the byte starts a new prefix, and the width grows where R188 says so. -/
def Obligations.CByteMissEmitsThePrefix : Prop :=
  ∀ (c : Byte) (s : State), CompInv s → s.cphase = .run → s.obits < 8 → (∀ code, ¬ Stored s.hslot s.pfx c code) →
    let f := if s.full then s.freeEnt else s.freeEnt + 1
    let isFull := decide (f = 2 ^ s.maxbits)
    let grows := decide (s.nBits < s.maxbits ∧ 2 ^ s.nBits < f)
    let pos := s.bitPosition + s.nBits
    let pad := if grows then padding pos s.alignBase s.nBits else 0
    (isFull && s.blockMode && decide (s.checkpoint ≤ s.bytesIn + 1)) = false →
    ∃ t, exec (.cByte c) s = .next t ∧
      t = ({ s with
        bytesIn := s.bytesIn + 1, pfx := c.setWidth 16, hslot := t.hslot, freeEnt := f, full := isFull,
        obuf := t.obuf, obits := t.obits, bitPosition := pos + pad,
        nBits := if grows then s.nBits + 1 else s.nBits,
        alignBase := if grows then originAfterGrowth (pos + pad) s.alignBase else s.alignBase }).withResult .unit ∧
      Appended (s.nBits + pad) (fun j => decide (j < s.nBits) && s.pfx.getLsbD j) s t ∧
      (∀ p' b' c', Stored t.hslot p' b' c' ↔
        Stored s.hslot p' b' c' ∨ (s.full = false ∧ p' = s.pfx ∧ b' = c ∧ c' = BitVec.ofNat 16 s.freeEnt))

/-- R43, R202: C_BYTE completes on every byte and keeps the invariants of the compress session. -/
def Obligations.CByteKeepsTheSessionInvariant : Prop :=
  ∀ (c : Byte) (s : State), CompInv s → (s.cphase = .first ∨ s.cphase = .run) → s.obits < 8 →
    ∃ t, exec (.cByte c) s = .next t ∧ CompInv t ∧ t.cphase = .run ∧ t.bytesIn = s.bytesIn + 1 ∧
      t.mode = s.mode ∧ t.err = s.err ∧ t.maxbits = s.maxbits ∧ t.blockMode = s.blockMode ∧
      s.bitPosition ≤ t.bitPosition

/-- R188, R240: the two growth steps widen under their own tests, after a realignment with the width before the
increase, and change nothing otherwise. -/
def Obligations.GrowthStepsWidenByOne : Prop :=
  ∀ s : State, s.alignBase ≤ s.bitPosition → 9 ≤ s.nBits → s.nBits ≤ 16 →
    (s.nBits < s.maxbits ∧ 2 ^ s.nBits < s.freeEnt →
      ∃ p, p = padding s.bitPosition s.alignBase s.nBits ∧
        exec .cGrow s = .next (({ s with
          obits := s.obits + p, bitPosition := s.bitPosition + p, nBits := s.nBits + 1,
          alignBase := originAfterGrowth (s.bitPosition + p) s.alignBase }).withResult .unit)) ∧
    (¬ (s.nBits < s.maxbits ∧ 2 ^ s.nBits < s.freeEnt) → exec .cGrow s = .next (s.withResult .unit)) ∧
    (s.ipos ≤ s.ibits → ∃ t, exec .dGrow s = .next t ∧
      t = ({ s with
        nBits := t.nBits, bitPosition := t.bitPosition, alignBase := t.alignBase, iskip := t.iskip,
        ipos := t.ipos, ibits := t.ibits, ibuf := t.ibuf }).withResult .unit ∧ WidthFollows s.freeEnt s t)

/-- R190: C_RATIO does nothing unless the check is due; a ratio that has not improved emits CLEAR at the current width,
realigns and starts a new epoch; one that has is recorded. With `bytes_in` or
`bit_position div 8` zero, outside R191, that the ratio is a free value is the model's choice (log 3). -/
def Obligations.CRatioClearsWhenNotImproved : Prop :=
  ∀ s : State, s.alignBase ≤ s.bitPosition → 9 ≤ s.nBits → s.nBits ≤ 16 → s.obits / 8 + 2 < 32 →
    Written 32 s.obuf → TailZero s →
    let due := s.full = true ∧ s.blockMode = true ∧ s.checkpoint ≤ s.bytesIn
    let rn := Config.ratio s.bytesIn (s.bitPosition / 8)
    let pos := s.bitPosition + s.nBits
    let pad := padding pos s.alignBase s.nBits
    (¬ due → exec .cRatio s = .next (s.withResult .unit)) ∧
    (due → Config.RatioT.le rn s.ratioPrev = false →
      exec .cRatio s = .next (({ s with checkpoint := s.bytesIn + 10000, ratioPrev := rn }).withResult .unit)) ∧
    (due → Config.RatioT.le rn s.ratioPrev = true →
      ∃ t, exec .cRatio s = .next t ∧
        t = ({ s with
          checkpoint := s.bytesIn + 10000, obuf := t.obuf, obits := t.obits, bitPosition := pos + pad,
          alignBase := pos + pad, hslot := t.hslot, freeEnt := 257, full := false, nBits := 9,
          ratioPrev := .zero }).withResult .unit ∧
        Appended (s.nBits + pad) (fun j => decide (j = 8)) s t ∧ ∀ h, t.hslot.read h = .empty)

/-- R8: on positive operands RATIO is above RATIO_ZERO and monotone; its results are totally ordered. R8 makes
RATIO total on positive operands; that it completes with a zero operand too, outside R191's `a >= 1` and `b >= 3`, and
that the ratio is a free value there, is the model's choice (log 3). -/
def Obligations.RatioIsMonotone : Prop :=
  (∀ (a b : Nat) (s : State), exec (.ratio a b) s = .next (s.withResult (.ratio (Config.ratio a b)))) ∧
  (∀ a b : Nat, 0 < a → 0 < b → Config.RatioT.le (Config.ratio a b) .zero = false) ∧
  (∀ a b c d : Nat, 0 < a → 0 < b → 0 < c → 0 < d → (a : Rat) / b ≤ (c : Rat) / d →
    Config.RatioT.le (Config.ratio a b) (Config.ratio c d) = true) ∧
  (∀ x, Config.RatioT.le .zero x = true) ∧
  (∀ x y, Config.RatioT.le x y = true ∨ Config.RatioT.le y x = true) ∧
  (∀ x y, Config.RatioT.le x y = true → Config.RatioT.le y x = true → x = y) ∧
  (∀ x y z, Config.RatioT.le x y = true → Config.RatioT.le y z = true → Config.RatioT.le x z = true)

/-- R192, R248: C_DRAIN takes the first staged byte and moves the others down; D_DRAIN pops the stack. -/
def Obligations.DrainsDeliverTheNextByte : Prop :=
  ∀ s : State,
    (∀ b, Mem.get s.obuf 0 = some b → 8 ≤ s.obits →
      ∃ t, exec .cDrain s = .next t ∧
        t = ({ s with obuf := t.obuf, obits := s.obits - 8 }).withResult (.byte b) ∧
        (∀ a, a < 31 → Mem.get t.obuf a = Mem.get s.obuf (a + 1)) ∧ Mem.get t.obuf 31 = some 0#8) ∧
    (∀ b, 0 < s.sp → s.sp ≤ 65536 → Mem.get s.stack (s.sp - 1) = some b →
      exec .dDrain s = .next (({ s with sp := s.sp - 1 }).withResult (.byte b)))

/-- R184, R194: the work loop of a live compress session ends with waiting output and no room, or with all input
consumed; ADVANCE_C answers what its loop did. -/
def Obligations.AdvanceCRunsUntilInputOrRoomEnds : Prop :=
  ∀ (inp : List Byte) (cap : Nat) (s : State), LiveComp s →
    ∃ (l : LoopOut) (t : State), exec (.cLoop inp cap) s = .next (t.withResult (.loop l)) ∧
      LiveComp t ∧ t.bytesIn = s.bytesIn + l.consumed ∧ l.consumed ≤ inp.length ∧ l.out.length ≤ cap ∧
      l.steps = l.consumed + l.out.length ∧
      ((l.status = .outputFull ∧ 8 ≤ t.obits ∧ l.out.length = cap) ∨
        (l.status = .needMoreInput ∧ t.obits < 8 ∧ l.consumed = inp.length)) ∧
      (¬ (cap = 0 ∧ (8 ≤ s.obits ∨ inp = [])) →
        exec (.advanceC inp cap) s =
          .next (t.withResult (.response { consumed := l.consumed, out := l.out, status := l.status })))

/-- R196: a work loop that consumes `a` and then one that consumes `b` produce what one work loop on `a ++ b`
produces. -/
def Obligations.CompressionIgnoresTheSplit : Prop :=
  ∀ (a b : List Byte) (capA capB : Nat) (s t u : State) (x y : LoopOut), LiveComp s →
    exec (.cLoop a capA) s = .next (t.withResult (.loop x)) → x.status = .needMoreInput →
    exec (.cLoop b capB) t = .next (u.withResult (.loop y)) → y.status = .needMoreInput →
    ∃ v : State, exec (.cLoop (a ++ b) (capA + capB)) s = .next (v.withResult (.loop
      { consumed := x.consumed + y.consumed, out := x.out ++ y.out, status := .needMoreInput,
        steps := x.steps + y.steps })) ∧
      v.withResult .unit = u.withResult .unit

/-- R198: FINISH on a live or finishing compress session emits the final code once, pads to a whole byte and delivers
what fits; the session ends when nothing is left. That FINISH_C run by itself does so also with `err` set
or in another mode is the model's choice (log 12). -/
def Obligations.FinishFlushesTheCompressor : Prop :=
  ∀ (cap : Nat) (s : State), CompInv s → s.cphase ≠ .done → ¬ (s.cphase = .finishing ∧ cap = 0) →
    let code := if s.cphase = .run then s.nBits else 0
    let pad := if s.cphase = .finishing then 0 else (8 - (s.obits + code) % 8) % 8
    let total := (s.obits + code + pad) / 8
    ∃ (out : List Byte) (t : State),
      exec (.finishC cap) s = .next t ∧ (s.err = none → s.mode = .comp → exec (.finish cap) s = .next t) ∧
      out.length = min total cap ∧
      t = ({ s with
        obuf := t.obuf, obits := 8 * (total - out.length), bitPosition := s.bitPosition + code + pad,
        cphase := if total ≤ cap then .done else .finishing }).withResult
        (.response {
          consumed := 0, out := out,
          status := if total ≤ cap then .streamEnd else .outputFull }) ∧
      (∀ i, i < 8 * total →
        (if i < 8 * out.length then (out[i / 8]?.getD 0#8).getLsbD (i % 8)
          else bufBit t.obuf (i - 8 * out.length)) =
        if i < s.obits then bufBit s.obuf i
        else decide (i < s.obits + code) && s.pfx.getLsbD (i - s.obits))

/-! ## The decompress state machine -/

/-- R228: D_HEADER tests the magic, then the width, and accepts the header; HDR_READ is what it does with a header
whose magic is right. That HDR_READ run by itself does this for the fields of its operands in every state, without
testing `dphase` or the bytes of `ibuf`, is the model's choice (log 24); that D_HEADER follows its pseudocode outside
its precondition, `dphase = D_HEADER`, `ibits = 24` and `ipos = 0`, is log 12. -/
def Obligations.HeaderIsCheckedAndAccepted : Prop :=
  ∀ (s : State) (b0 b1 b2 : Byte),
    Mem.get s.ibuf 0 = some b0 → Mem.get s.ibuf 1 = some b1 → Mem.get s.ibuf 2 = some b2 →
    (¬ (b0 = 0x1F#8 ∧ b1 = 0x9D#8) → exec .dHeader s = .next (raisedState .format s)) ∧
    (b0 = 0x1F#8 → b1 = 0x9D#8 →
      exec .dHeader s = exec (.hdrRead (b2.getLsbD 7) (b2.extractLsb' 5 2) (b2.extractLsb' 0 5)) s) ∧
    (∀ (k : Bool) (r : BitVec 2) (m : BitVec 5),
      (¬ (9 ≤ m.toNat ∧ m.toNat ≤ 16) → exec (.hdrRead k r m) s = .next (raisedState .width s)) ∧
      (9 ≤ m.toNat → m.toNat ≤ 16 → 24 ≤ s.ibits →
        ∃ t, exec (.hdrRead k r m) s = .next t ∧ HeaderAccepted k m.toNat s t)) ∧
    (b0 = 0x1F#8 → b1 = 0x9D#8 → 9 ≤ (b2.extractLsb' 0 5).toNat → (b2.extractLsb' 0 5).toNat ≤ 16 → 24 ≤ s.ibits →
      ∃ t, exec .dHeader s = .next t ∧ HeaderAccepted (b2.getLsbD 7) (b2.extractLsb' 0 5).toNat s t)

/-- R232, R234: the first code of a stream or of an epoch must be a literal; it is output and starts the epoch.
That the classes LITERAL_FIRST and LITERAL_EPOCH_FIRST (R101 rows 1 and 4) do so in every state, without testing their
condition again, is the model's choice (log 16), and so is that D_FIRST does so in every phase (log 12). -/
def Obligations.FirstCodeIsALiteral : Prop :=
  ∀ s : State,
    (∀ c : Code, 256 ≤ c.toNat → exec (.dFirst c) s = .next (raisedState .corrupt s)) ∧
    (∀ c : Code, c.toNat < 256 → s.sp < 65536 →
      ∃ t, exec (.dFirst c) s = .next t ∧
        t = ({ s with
          stack := t.stack, sp := t.sp, oldCode := c, lastChar := c.setWidth 8,
          dphase := .run }).withResult .unit ∧ Pushed [c.setWidth 8] s t) ∧
    (∀ b : Byte, exec (.literalFirst b) s = exec (.dFirst (b.setWidth 16)) s ∧
      exec (.literalEpochFirst b) s = exec (.dFirst (b.setWidth 16)) s ∧
      (s.sp < 65536 → ∃ t, exec (.literalFirst b) s = .next t ∧ exec (.literalEpochFirst b) s = .next t ∧
        t.dphase = .run ∧ t.oldCode = b.setWidth 16 ∧ t.lastChar = b ∧ Pushed [b] s t))

/-- R233: the CLEAR code realigns with the width it was read in and starts a new epoch. That the class CLEAR does so in
every state, without testing its condition again, is the model's choice (log 16), and so is that D_CLEAR does
so without block mode or in another phase (log 12). -/
def Obligations.ClearStartsANewEpoch : Prop :=
  ∀ s : State, s.alignBase ≤ s.bitPosition → 9 ≤ s.nBits → s.nBits ≤ 16 → s.ipos ≤ s.ibits →
    ∃ t, exec .dClear s = .next t ∧ exec .clear s = .next t ∧
      t = ({ s with
        bitPosition := t.bitPosition, alignBase := t.bitPosition, freeEnt := 257, nBits := 9,
        dphase := .epochFirst, iskip := t.iskip, ipos := t.ipos, ibits := t.ibits,
        ibuf := t.ibuf }).withResult .unit ∧ DRealigned s.nBits s t

/-- R235 to R242: LITERAL, DICTREF and KWKWK push the code's string reversed, create the entry of the previous code,
grow the width where due and remember the code; D_EXPAND chooses among them, and a code above `free_ent` is corrupt. -/
def Obligations.ExpandOutputsTheString : Prop :=
  ∀ (s : State) (c : Code), OpenInv s → s.dphase = .run → s.sp = 0 → s.ipos ≤ s.ibits →
    (s.freeEnt < c.toNat → exec (.dExpand c) s = .next (raisedState .corrupt s)) ∧
    (∀ b : Byte, ∃ t, exec (.literal b) s = .next t ∧ exec (.dExpand (b.setWidth 16)) s = .next t ∧
      Expanded (b.setWidth 16) [b] b s t) ∧
    (256 ≤ c.toNat → Defined s c.toNat →
      ∃ (str : List Byte) (first : Byte) (t : State), Spells s c str ∧ str.head? = some first ∧
        exec (.dictref c) s = .next t ∧ exec (.dExpand c) s = .next t ∧ Expanded c str.reverse first s t) ∧
    (c.toNat = s.freeEnt →
      ∃ (str : List Byte) (t : State), Spells s s.oldCode str ∧ str.head? = some s.lastChar ∧
        exec (.kwkwk c) s = .next t ∧ exec (.dExpand c) s = .next t ∧
        Expanded c (s.lastChar :: str.reverse) s.lastChar s t)

/-- R230, R247: on a live session with a code buffered, D_CODE completes: an accepted code leaves a live session, any
other is CorruptStreamError with only the cursor advanced. -/
def Obligations.DCodeAcceptsOrRejects : Prop :=
  ∀ s : State, LiveDecomp s → s.dphase ≠ .header → s.sp = 0 → s.iskip = 0 → s.nBits ≤ s.ibits - s.ipos →
    (CodeAccepted s (streamValue s.ibuf s.ipos s.nBits) →
      ∃ t, exec .dCode s = .next t ∧ LiveDecomp t ∧ t.dphase ≠ .header ∧
        s.bitPosition + s.nBits ≤ t.bitPosition ∧ t.maxbits = s.maxbits ∧ t.blockMode = s.blockMode ∧
        (0 < t.sp ↔ ¬ (streamValue s.ibuf s.ipos s.nBits = 256 ∧ s.blockMode = true))) ∧
    (¬ CodeAccepted s (streamValue s.ibuf s.ipos s.nBits) →
      ∃ t, exec .dCode s = .next t ∧
        t = raisedState .corrupt { s with
          bitPosition := s.bitPosition + s.nBits, ipos := t.ipos, ibits := t.ibits, ibuf := t.ibuf } ∧
        Advanced s.nBits s t)

/-- R224, R250: the work loop of a live decompress session ends with bytes on the stack and no room, with all input
consumed and no code buffered, or with a data error; ADVANCE_D answers what its loop did. -/
def Obligations.AdvanceDRunsUntilInputOrRoomEnds : Prop :=
  ∀ (inp : List Byte) (cap : Nat) (s : State), LiveDecomp s →
    ∃ (l : LoopOut) (t : State), exec (.dLoop inp cap) s = .next (t.withResult (.loop l)) ∧
      l.consumed ≤ inp.length ∧ l.out.length ≤ cap ∧
      ((l.status = .outputFull ∧ LiveDecomp t ∧ 0 < t.sp ∧ l.out.length = cap) ∨
        (l.status = .needMoreInput ∧ LiveDecomp t ∧ t.sp = 0 ∧ l.consumed = inp.length ∧
          headerReady t = false ∧ codeReady t = false) ∨
        (∃ k, k ≠ .usage ∧ l.status = .error k ∧ t.err = some k ∧ t.mode = .decomp ∧ t.sp = 0)) ∧
      (¬ (cap = 0 ∧ (0 < s.sp ∨ (inp = [] ∧ headerReady s = false ∧ codeReady s = false))) →
        exec (.advanceD inp cap) s =
          .next (t.withResult (.response { consumed := l.consumed, out := l.out, status := l.status })))

/-- R254: FINISH on a decompress session whose buffered bits make no code drains the stack; when it is empty the
session ends, or the header was missing. -/
def Obligations.FinishDrainsTheDecompressor : Prop :=
  ∀ (cap : Nat) (s : State), LiveDecomp s → headerReady s = false → codeReady s = false → ¬ (cap = 0 ∧ 0 < s.sp) →
    ∃ (out : List Byte) (t : State),
      exec (.finishD cap) s = .next t ∧ exec (.finish cap) s = .next t ∧ out.length = min s.sp cap ∧
      (∀ i, i < out.length → out[i]? = Mem.get s.stack (s.sp - 1 - i)) ∧
      (cap < s.sp → t = ({ s with sp := s.sp - cap }).withResult
        (.response { consumed := 0, out := out, status := .outputFull })) ∧
      (s.sp ≤ cap → s.dphase = .header → t = ({ s with sp := 0, err := some .format }).withResult
        (.response { consumed := 0, out := out, status := .error .format })) ∧
      (s.sp ≤ cap → s.dphase ≠ .header → t = ({ s with sp := 0, dphase := .done }).withResult
        (.response { consumed := 0, out := out, status := .streamEnd }))

/-! ## Whole streams -/

/-- R247: any byte sequence either decompresses to some byte string or ends in a data error. That one operand is the room
of every command is the model's choice (log 14). -/
def Obligations.DecompressAllEndsOnAnyInput : Prop :=
  ∀ (z : List Byte) (cap : Nat) (s : State), 1 ≤ cap →
    ∃ (out : List Byte) (st : Status) (t : State),
      exec (.decompressAll z cap) s = .next (t.withResult (.stream out st)) ∧
      (st = .streamEnd ∨ st = .error .format ∨ st = .error .width ∨ st = .error .corrupt)

/-- R118: COMPRESS_ALL ends for every input, and its result does not depend on the room offered to each command nor on
the state it starts in. That one operand is the room of every command is the model's choice (log 14). -/
def Obligations.CompressAllIgnoresTheRoom : Prop :=
  ∀ (cfg : Byte) (inp : List Byte), cfgOk cfg = true →
    ∃ z : List Byte, [0x1F#8, 0x9D#8, cfg] <+: z ∧
      ∀ (cap : Nat) (s : State), 1 ≤ cap →
        ∃ t : State, exec (.compressAll cfg inp cap) s = .next (t.withResult (.stream z .streamEnd))

/-- R203: `decompress(compress(s)) == s` for every byte sequence and every legal `cfg`, for every value of the open
parameters (both sides share `Config.alignOrigin`). That one operand is the room of every command is the model's choice (log 14). -/
def Obligations.RoundTrip : Prop :=
  ∀ (cfg : Byte) (inp : List Byte) (cap cap' : Nat) (s s' : State), cfgOk cfg = true → 1 ≤ cap → 1 ≤ cap' →
    ∃ (z : List Byte) (t t' : State),
      exec (.compressAll cfg inp cap) s = .next (t.withResult (.stream z .streamEnd)) ∧
      exec (.decompressAll z cap') s' = .next (t'.withResult (.stream inp .streamEnd))
end

