-- ==== Sys2Proof/Laws/State.lean ====
section
/-! SUPPORT. Laws/State.lean: one lemma per field for each named update of State, and how operations end, so that no
later proof unfolds a record update. -/

namespace Sys2Proof.Machine

/-! ## `withResult` -/

@[simp] theorem State.withResult_mode (s : State) (r : Result) : (s.withResult r).mode = s.mode := rfl
@[simp] theorem State.withResult_err (s : State) (r : Result) : (s.withResult r).err = s.err := rfl
@[simp] theorem State.withResult_maxbits (s : State) (r : Result) : (s.withResult r).maxbits = s.maxbits := rfl
@[simp] theorem State.withResult_blockMode (s : State) (r : Result) : (s.withResult r).blockMode = s.blockMode := rfl
@[simp] theorem State.withResult_nBits (s : State) (r : Result) : (s.withResult r).nBits = s.nBits := rfl
@[simp] theorem State.withResult_freeEnt (s : State) (r : Result) : (s.withResult r).freeEnt = s.freeEnt := rfl
@[simp] theorem State.withResult_bitPosition (s : State) (r : Result) : (s.withResult r).bitPosition = s.bitPosition := rfl
@[simp] theorem State.withResult_alignBase (s : State) (r : Result) : (s.withResult r).alignBase = s.alignBase := rfl
@[simp] theorem State.withResult_cphase (s : State) (r : Result) : (s.withResult r).cphase = s.cphase := rfl
@[simp] theorem State.withResult_pfx (s : State) (r : Result) : (s.withResult r).pfx = s.pfx := rfl
@[simp] theorem State.withResult_full (s : State) (r : Result) : (s.withResult r).full = s.full := rfl
@[simp] theorem State.withResult_bytesIn (s : State) (r : Result) : (s.withResult r).bytesIn = s.bytesIn := rfl
@[simp] theorem State.withResult_checkpoint (s : State) (r : Result) : (s.withResult r).checkpoint = s.checkpoint := rfl
@[simp] theorem State.withResult_ratioPrev (s : State) (r : Result) : (s.withResult r).ratioPrev = s.ratioPrev := rfl
@[simp] theorem State.withResult_obits (s : State) (r : Result) : (s.withResult r).obits = s.obits := rfl
@[simp] theorem State.withResult_obuf (s : State) (r : Result) : (s.withResult r).obuf = s.obuf := rfl
@[simp] theorem State.withResult_hslot (s : State) (r : Result) : (s.withResult r).hslot = s.hslot := rfl
@[simp] theorem State.withResult_dphase (s : State) (r : Result) : (s.withResult r).dphase = s.dphase := rfl
@[simp] theorem State.withResult_oldCode (s : State) (r : Result) : (s.withResult r).oldCode = s.oldCode := rfl
@[simp] theorem State.withResult_lastChar (s : State) (r : Result) : (s.withResult r).lastChar = s.lastChar := rfl
@[simp] theorem State.withResult_ibits (s : State) (r : Result) : (s.withResult r).ibits = s.ibits := rfl
@[simp] theorem State.withResult_ipos (s : State) (r : Result) : (s.withResult r).ipos = s.ipos := rfl
@[simp] theorem State.withResult_iskip (s : State) (r : Result) : (s.withResult r).iskip = s.iskip := rfl
@[simp] theorem State.withResult_ibuf (s : State) (r : Result) : (s.withResult r).ibuf = s.ibuf := rfl
@[simp] theorem State.withResult_tabPrefix (s : State) (r : Result) : (s.withResult r).tabPrefix = s.tabPrefix := rfl
@[simp] theorem State.withResult_tabSuffix (s : State) (r : Result) : (s.withResult r).tabSuffix = s.tabSuffix := rfl
@[simp] theorem State.withResult_stack (s : State) (r : Result) : (s.withResult r).stack = s.stack := rfl
@[simp] theorem State.withResult_sp (s : State) (r : Result) : (s.withResult r).sp = s.sp := rfl
@[simp] theorem State.withResult_port (s : State) (r : Result) : (s.withResult r).port = s.port := rfl
@[simp] theorem State.withResult_result (s : State) (r : Result) : (s.withResult r).result = r := rfl
@[simp] theorem State.withResult_freeCount (s : State) (r : Result) : (s.withResult r).freeCount = s.freeCount := rfl

@[simp] theorem State.withResult_withResult (s : State) (r r' : Result) :
    (s.withResult r).withResult r' = s.withResult r' := rfl

@[simp] theorem State.withResult_memWf (s : State) (r : Result) : (s.withResult r).memWf = s.memWf := rfl

@[simp] theorem State.withResult_avail (s : State) (r : Result) : (s.withResult r).avail = s.avail := rfl

@[simp] theorem State.withResult_ctx (s : State) (r : Result) : (s.withResult r).ctx = s.ctx := rfl

@[simp] theorem State.withResult_buffer (s : State) (r : Result) (b : BufSel) :
    (s.withResult r).buffer b = s.buffer b := by cases b <;> rfl

/-! ## `setBuffer` -/

@[simp] theorem State.setBuffer_buffer (s : State) (b : BufSel) (m : Mem Byte) : (s.setBuffer b m).buffer b = m := by
  cases b <;> rfl

@[simp] theorem State.setBuffer_mode (s : State) (b : BufSel) (m : Mem Byte) : (s.setBuffer b m).mode = s.mode := by
  cases b <;> rfl
@[simp] theorem State.setBuffer_err (s : State) (b : BufSel) (m : Mem Byte) : (s.setBuffer b m).err = s.err := by
  cases b <;> rfl
@[simp] theorem State.setBuffer_maxbits (s : State) (b : BufSel) (m : Mem Byte) : (s.setBuffer b m).maxbits = s.maxbits := by
  cases b <;> rfl
@[simp] theorem State.setBuffer_blockMode (s : State) (b : BufSel) (m : Mem Byte) : (s.setBuffer b m).blockMode = s.blockMode := by
  cases b <;> rfl
@[simp] theorem State.setBuffer_nBits (s : State) (b : BufSel) (m : Mem Byte) : (s.setBuffer b m).nBits = s.nBits := by
  cases b <;> rfl
@[simp] theorem State.setBuffer_freeEnt (s : State) (b : BufSel) (m : Mem Byte) : (s.setBuffer b m).freeEnt = s.freeEnt := by
  cases b <;> rfl
@[simp] theorem State.setBuffer_bitPosition (s : State) (b : BufSel) (m : Mem Byte) : (s.setBuffer b m).bitPosition = s.bitPosition := by
  cases b <;> rfl
@[simp] theorem State.setBuffer_alignBase (s : State) (b : BufSel) (m : Mem Byte) : (s.setBuffer b m).alignBase = s.alignBase := by
  cases b <;> rfl
@[simp] theorem State.setBuffer_cphase (s : State) (b : BufSel) (m : Mem Byte) : (s.setBuffer b m).cphase = s.cphase := by
  cases b <;> rfl
@[simp] theorem State.setBuffer_pfx (s : State) (b : BufSel) (m : Mem Byte) : (s.setBuffer b m).pfx = s.pfx := by
  cases b <;> rfl
@[simp] theorem State.setBuffer_full (s : State) (b : BufSel) (m : Mem Byte) : (s.setBuffer b m).full = s.full := by
  cases b <;> rfl
@[simp] theorem State.setBuffer_bytesIn (s : State) (b : BufSel) (m : Mem Byte) : (s.setBuffer b m).bytesIn = s.bytesIn := by
  cases b <;> rfl
@[simp] theorem State.setBuffer_checkpoint (s : State) (b : BufSel) (m : Mem Byte) : (s.setBuffer b m).checkpoint = s.checkpoint := by
  cases b <;> rfl
@[simp] theorem State.setBuffer_ratioPrev (s : State) (b : BufSel) (m : Mem Byte) : (s.setBuffer b m).ratioPrev = s.ratioPrev := by
  cases b <;> rfl
@[simp] theorem State.setBuffer_obits (s : State) (b : BufSel) (m : Mem Byte) : (s.setBuffer b m).obits = s.obits := by
  cases b <;> rfl
@[simp] theorem State.setBuffer_ibuf_obuf (s : State) (m : Mem Byte) : (s.setBuffer .ibuf m).obuf = s.obuf := rfl
@[simp] theorem State.setBuffer_obuf_obuf (s : State) (m : Mem Byte) : (s.setBuffer .obuf m).obuf = m := rfl
@[simp] theorem State.setBuffer_hslot (s : State) (b : BufSel) (m : Mem Byte) : (s.setBuffer b m).hslot = s.hslot := by
  cases b <;> rfl
@[simp] theorem State.setBuffer_dphase (s : State) (b : BufSel) (m : Mem Byte) : (s.setBuffer b m).dphase = s.dphase := by
  cases b <;> rfl
@[simp] theorem State.setBuffer_oldCode (s : State) (b : BufSel) (m : Mem Byte) : (s.setBuffer b m).oldCode = s.oldCode := by
  cases b <;> rfl
@[simp] theorem State.setBuffer_lastChar (s : State) (b : BufSel) (m : Mem Byte) : (s.setBuffer b m).lastChar = s.lastChar := by
  cases b <;> rfl
@[simp] theorem State.setBuffer_ibits (s : State) (b : BufSel) (m : Mem Byte) : (s.setBuffer b m).ibits = s.ibits := by
  cases b <;> rfl
@[simp] theorem State.setBuffer_ipos (s : State) (b : BufSel) (m : Mem Byte) : (s.setBuffer b m).ipos = s.ipos := by
  cases b <;> rfl
@[simp] theorem State.setBuffer_iskip (s : State) (b : BufSel) (m : Mem Byte) : (s.setBuffer b m).iskip = s.iskip := by
  cases b <;> rfl
@[simp] theorem State.setBuffer_obuf_ibuf (s : State) (m : Mem Byte) : (s.setBuffer .obuf m).ibuf = s.ibuf := rfl
@[simp] theorem State.setBuffer_ibuf_ibuf (s : State) (m : Mem Byte) : (s.setBuffer .ibuf m).ibuf = m := rfl
@[simp] theorem State.setBuffer_tabPrefix (s : State) (b : BufSel) (m : Mem Byte) : (s.setBuffer b m).tabPrefix = s.tabPrefix := by
  cases b <;> rfl
@[simp] theorem State.setBuffer_tabSuffix (s : State) (b : BufSel) (m : Mem Byte) : (s.setBuffer b m).tabSuffix = s.tabSuffix := by
  cases b <;> rfl
@[simp] theorem State.setBuffer_stack (s : State) (b : BufSel) (m : Mem Byte) : (s.setBuffer b m).stack = s.stack := by
  cases b <;> rfl
@[simp] theorem State.setBuffer_sp (s : State) (b : BufSel) (m : Mem Byte) : (s.setBuffer b m).sp = s.sp := by
  cases b <;> rfl
@[simp] theorem State.setBuffer_port (s : State) (b : BufSel) (m : Mem Byte) : (s.setBuffer b m).port = s.port := by
  cases b <;> rfl
@[simp] theorem State.setBuffer_result (s : State) (b : BufSel) (m : Mem Byte) : (s.setBuffer b m).result = s.result := by
  cases b <;> rfl
@[simp] theorem State.setBuffer_freeCount (s : State) (b : BufSel) (m : Mem Byte) : (s.setBuffer b m).freeCount = s.freeCount := by
  cases b <;> rfl

/-! ## `insertAt` and `dictClear` -/

@[simp] theorem insertAt_mode (h : HIdx) (p : Code) (b : Byte) (s : State) : (insertAt h p b s).mode = s.mode := rfl
@[simp] theorem insertAt_err (h : HIdx) (p : Code) (b : Byte) (s : State) : (insertAt h p b s).err = s.err := rfl
@[simp] theorem insertAt_maxbits (h : HIdx) (p : Code) (b : Byte) (s : State) : (insertAt h p b s).maxbits = s.maxbits := rfl
@[simp] theorem insertAt_blockMode (h : HIdx) (p : Code) (b : Byte) (s : State) : (insertAt h p b s).blockMode = s.blockMode := rfl
@[simp] theorem insertAt_nBits (h : HIdx) (p : Code) (b : Byte) (s : State) : (insertAt h p b s).nBits = s.nBits := rfl
@[simp] theorem insertAt_bitPosition (h : HIdx) (p : Code) (b : Byte) (s : State) : (insertAt h p b s).bitPosition = s.bitPosition := rfl
@[simp] theorem insertAt_alignBase (h : HIdx) (p : Code) (b : Byte) (s : State) : (insertAt h p b s).alignBase = s.alignBase := rfl
@[simp] theorem insertAt_cphase (h : HIdx) (p : Code) (b : Byte) (s : State) : (insertAt h p b s).cphase = s.cphase := rfl
@[simp] theorem insertAt_pfx (h : HIdx) (p : Code) (b : Byte) (s : State) : (insertAt h p b s).pfx = s.pfx := rfl
@[simp] theorem insertAt_bytesIn (h : HIdx) (p : Code) (b : Byte) (s : State) : (insertAt h p b s).bytesIn = s.bytesIn := rfl
@[simp] theorem insertAt_checkpoint (h : HIdx) (p : Code) (b : Byte) (s : State) : (insertAt h p b s).checkpoint = s.checkpoint := rfl
@[simp] theorem insertAt_ratioPrev (h : HIdx) (p : Code) (b : Byte) (s : State) : (insertAt h p b s).ratioPrev = s.ratioPrev := rfl
@[simp] theorem insertAt_obits (h : HIdx) (p : Code) (b : Byte) (s : State) : (insertAt h p b s).obits = s.obits := rfl
@[simp] theorem insertAt_obuf (h : HIdx) (p : Code) (b : Byte) (s : State) : (insertAt h p b s).obuf = s.obuf := rfl
@[simp] theorem insertAt_dphase (h : HIdx) (p : Code) (b : Byte) (s : State) : (insertAt h p b s).dphase = s.dphase := rfl
@[simp] theorem insertAt_oldCode (h : HIdx) (p : Code) (b : Byte) (s : State) : (insertAt h p b s).oldCode = s.oldCode := rfl
@[simp] theorem insertAt_lastChar (h : HIdx) (p : Code) (b : Byte) (s : State) : (insertAt h p b s).lastChar = s.lastChar := rfl
@[simp] theorem insertAt_ibits (h : HIdx) (p : Code) (b : Byte) (s : State) : (insertAt h p b s).ibits = s.ibits := rfl
@[simp] theorem insertAt_ipos (h : HIdx) (p : Code) (b : Byte) (s : State) : (insertAt h p b s).ipos = s.ipos := rfl
@[simp] theorem insertAt_iskip (h : HIdx) (p : Code) (b : Byte) (s : State) : (insertAt h p b s).iskip = s.iskip := rfl
@[simp] theorem insertAt_ibuf (h : HIdx) (p : Code) (b : Byte) (s : State) : (insertAt h p b s).ibuf = s.ibuf := rfl
@[simp] theorem insertAt_tabPrefix (h : HIdx) (p : Code) (b : Byte) (s : State) : (insertAt h p b s).tabPrefix = s.tabPrefix := rfl
@[simp] theorem insertAt_tabSuffix (h : HIdx) (p : Code) (b : Byte) (s : State) : (insertAt h p b s).tabSuffix = s.tabSuffix := rfl
@[simp] theorem insertAt_stack (h : HIdx) (p : Code) (b : Byte) (s : State) : (insertAt h p b s).stack = s.stack := rfl
@[simp] theorem insertAt_sp (h : HIdx) (p : Code) (b : Byte) (s : State) : (insertAt h p b s).sp = s.sp := rfl
@[simp] theorem insertAt_port (h : HIdx) (p : Code) (b : Byte) (s : State) : (insertAt h p b s).port = s.port := rfl
@[simp] theorem insertAt_result (h : HIdx) (p : Code) (b : Byte) (s : State) : (insertAt h p b s).result = s.result := rfl
@[simp] theorem insertAt_freeCount (h : HIdx) (p : Code) (b : Byte) (s : State) : (insertAt h p b s).freeCount = s.freeCount := rfl
@[simp] theorem insertAt_freeEnt (h : HIdx) (p : Code) (b : Byte) (s : State) :
    (insertAt h p b s).freeEnt = s.freeEnt + 1 := rfl
@[simp] theorem dictClear_mode (s : State) : (dictClear s).mode = s.mode := rfl
@[simp] theorem dictClear_err (s : State) : (dictClear s).err = s.err := rfl
@[simp] theorem dictClear_maxbits (s : State) : (dictClear s).maxbits = s.maxbits := rfl
@[simp] theorem dictClear_blockMode (s : State) : (dictClear s).blockMode = s.blockMode := rfl
@[simp] theorem dictClear_nBits (s : State) : (dictClear s).nBits = s.nBits := rfl
@[simp] theorem dictClear_bitPosition (s : State) : (dictClear s).bitPosition = s.bitPosition := rfl
@[simp] theorem dictClear_alignBase (s : State) : (dictClear s).alignBase = s.alignBase := rfl
@[simp] theorem dictClear_cphase (s : State) : (dictClear s).cphase = s.cphase := rfl
@[simp] theorem dictClear_pfx (s : State) : (dictClear s).pfx = s.pfx := rfl
@[simp] theorem dictClear_bytesIn (s : State) : (dictClear s).bytesIn = s.bytesIn := rfl
@[simp] theorem dictClear_checkpoint (s : State) : (dictClear s).checkpoint = s.checkpoint := rfl
@[simp] theorem dictClear_ratioPrev (s : State) : (dictClear s).ratioPrev = s.ratioPrev := rfl
@[simp] theorem dictClear_obits (s : State) : (dictClear s).obits = s.obits := rfl
@[simp] theorem dictClear_obuf (s : State) : (dictClear s).obuf = s.obuf := rfl
@[simp] theorem dictClear_dphase (s : State) : (dictClear s).dphase = s.dphase := rfl
@[simp] theorem dictClear_oldCode (s : State) : (dictClear s).oldCode = s.oldCode := rfl
@[simp] theorem dictClear_lastChar (s : State) : (dictClear s).lastChar = s.lastChar := rfl
@[simp] theorem dictClear_ibits (s : State) : (dictClear s).ibits = s.ibits := rfl
@[simp] theorem dictClear_ipos (s : State) : (dictClear s).ipos = s.ipos := rfl
@[simp] theorem dictClear_iskip (s : State) : (dictClear s).iskip = s.iskip := rfl
@[simp] theorem dictClear_ibuf (s : State) : (dictClear s).ibuf = s.ibuf := rfl
@[simp] theorem dictClear_tabPrefix (s : State) : (dictClear s).tabPrefix = s.tabPrefix := rfl
@[simp] theorem dictClear_tabSuffix (s : State) : (dictClear s).tabSuffix = s.tabSuffix := rfl
@[simp] theorem dictClear_stack (s : State) : (dictClear s).stack = s.stack := rfl
@[simp] theorem dictClear_sp (s : State) : (dictClear s).sp = s.sp := rfl
@[simp] theorem dictClear_port (s : State) : (dictClear s).port = s.port := rfl
@[simp] theorem dictClear_result (s : State) : (dictClear s).result = s.result := rfl
@[simp] theorem dictClear_freeCount (s : State) : (dictClear s).freeCount = s.freeCount := rfl
@[simp] theorem dictClear_hslot (s : State) : (dictClear s).hslot = HashMem.allEmpty := rfl
@[simp] theorem dictClear_freeEnt (s : State) : (dictClear s).freeEnt = 257 := rfl
@[simp] theorem dictClear_full (s : State) : (dictClear s).full = false := rfl

/-! ## `tabSeed` -/

@[simp] theorem tabSeed_mode (s : State) : (tabSeed s).mode = s.mode := rfl
@[simp] theorem tabSeed_err (s : State) : (tabSeed s).err = s.err := rfl
@[simp] theorem tabSeed_maxbits (s : State) : (tabSeed s).maxbits = s.maxbits := rfl
@[simp] theorem tabSeed_blockMode (s : State) : (tabSeed s).blockMode = s.blockMode := rfl
@[simp] theorem tabSeed_nBits (s : State) : (tabSeed s).nBits = s.nBits := rfl
@[simp] theorem tabSeed_freeEnt (s : State) : (tabSeed s).freeEnt = s.freeEnt := rfl
@[simp] theorem tabSeed_bitPosition (s : State) : (tabSeed s).bitPosition = s.bitPosition := rfl
@[simp] theorem tabSeed_alignBase (s : State) : (tabSeed s).alignBase = s.alignBase := rfl
@[simp] theorem tabSeed_cphase (s : State) : (tabSeed s).cphase = s.cphase := rfl
@[simp] theorem tabSeed_pfx (s : State) : (tabSeed s).pfx = s.pfx := rfl
@[simp] theorem tabSeed_full (s : State) : (tabSeed s).full = s.full := rfl
@[simp] theorem tabSeed_bytesIn (s : State) : (tabSeed s).bytesIn = s.bytesIn := rfl
@[simp] theorem tabSeed_checkpoint (s : State) : (tabSeed s).checkpoint = s.checkpoint := rfl
@[simp] theorem tabSeed_ratioPrev (s : State) : (tabSeed s).ratioPrev = s.ratioPrev := rfl
@[simp] theorem tabSeed_obits (s : State) : (tabSeed s).obits = s.obits := rfl
@[simp] theorem tabSeed_obuf (s : State) : (tabSeed s).obuf = s.obuf := rfl
@[simp] theorem tabSeed_hslot (s : State) : (tabSeed s).hslot = s.hslot := rfl
@[simp] theorem tabSeed_dphase (s : State) : (tabSeed s).dphase = s.dphase := rfl
@[simp] theorem tabSeed_oldCode (s : State) : (tabSeed s).oldCode = s.oldCode := rfl
@[simp] theorem tabSeed_lastChar (s : State) : (tabSeed s).lastChar = s.lastChar := rfl
@[simp] theorem tabSeed_ibits (s : State) : (tabSeed s).ibits = s.ibits := rfl
@[simp] theorem tabSeed_ipos (s : State) : (tabSeed s).ipos = s.ipos := rfl
@[simp] theorem tabSeed_iskip (s : State) : (tabSeed s).iskip = s.iskip := rfl
@[simp] theorem tabSeed_ibuf (s : State) : (tabSeed s).ibuf = s.ibuf := rfl
@[simp] theorem tabSeed_stack (s : State) : (tabSeed s).stack = s.stack := rfl
@[simp] theorem tabSeed_sp (s : State) : (tabSeed s).sp = s.sp := rfl
@[simp] theorem tabSeed_port (s : State) : (tabSeed s).port = s.port := rfl
@[simp] theorem tabSeed_result (s : State) : (tabSeed s).result = s.result := rfl
@[simp] theorem tabSeed_freeCount (s : State) : (tabSeed s).freeCount = s.freeCount := rfl

/-! ## How an operation ends -/

@[simp] theorem finishWith_ok {α : Type} (f : α → State) (a : α) :
    finishWith f (.ok a : Res α) = .next (f a) := rfl

@[simp] theorem finishWith_raised {α : Type} (f : α → State) (k : ErrKind) (s : State) :
    finishWith f (.error (.raised k s) : Res α) = .next (raisedState k s) := rfl

@[simp] theorem finishWith_fault {α : Type} (f : α → State) (e : Fault) :
    finishWith f (.error (.fault e) : Res α) = .fault e := rfl

@[simp] theorem doneUnit_ok (s : State) : doneUnit (.ok s) = .next (s.withResult .unit) := rfl

@[simp] theorem doneUnit_raised (k : ErrKind) (s : State) : doneUnit (.error (.raised k s)) = .next (raisedState k s) := rfl

@[simp] theorem doneUnit_raiseHere (k : ErrKind) (s : State) : doneUnit (raiseHere k s) = .next (raisedState k s) := rfl

@[simp] theorem doneVal_ok {α : Type} (f : α → Result) (a : α) (s : State) :
    doneVal f (.ok (a, s)) = .next (s.withResult (f a)) := rfl

@[simp] theorem doneCmd_ok (r : Resp) (s : State) :
    doneCmd (.ok (r, s)) = .next (s.withResult (.response r)) := rfl

/-- A raise hands over its response (R276). -/
@[simp] theorem respond_raiseError (k : ErrKind) (s : State) : respond (raiseError k 0 [] s) = .next (raisedState k s) := rfl

@[simp] theorem doneCmd_raiseError (k : ErrKind) (s : State) :
    doneCmd (.ok (raiseError k 0 [] s)) = .next (raisedState k s) := rfl

@[simp] theorem raiseError_fst (k : ErrKind) (n : Nat) (out : List Byte) (s : State) :
    (raiseError k n out s).1 = { consumed := n, out := out, status := .error k } := rfl

@[simp] theorem raiseError_snd (k : ErrKind) (n : Nat) (out : List Byte) (s : State) :
    (raiseError k n out s).2 = { s with err := some k } := rfl

@[simp] theorem raisedState_err (k : ErrKind) (s : State) : (raisedState k s).err = some k := rfl

@[simp] theorem raisedState_memWf (k : ErrKind) (s : State) : (raisedState k s).memWf = s.memWf := rfl

/-- A bind that completes: its first part completed, and its second part on that. -/
theorem Res.bind_eq_ok {α β : Type} {x : Res α} {f : α → Res β} {b : β} :
    (x >>= f) = .ok b ↔ ∃ a, x = .ok a ∧ f a = .ok b := by
  cases x with
  | error e => simp [bind, Except.bind]
  | ok a => simp [bind, Except.bind]

@[simp] theorem Res.ok_bind {α β : Type} (a : α) (f : α → Res β) : ((Except.ok a : Res α) >>= f) = f a := rfl

@[simp] theorem Res.error_bind {α β : Type} (e : Stop) (f : α → Res β) :
    ((Except.error e : Res α) >>= f) = .error e := rfl

@[simp] theorem stopWith_bind {α β : Type} (e : Fault) (f : α → Res β) :
    ((stopWith e : Res α) >>= f) = stopWith e := rfl

theorem stopWith_ne_ok {α : Type} (e : Fault) (a : α) : (stopWith e : Res α) ≠ .ok a := by simp [stopWith]

end Sys2Proof.Machine
end

