-- ==== Sys2Proof/Laws/Memory.lean ====
section
/-! SUPPORT. Laws/Memory.lean: read after write, what a block write and a shift leave at each address, and that every
memory operation keeps the canonical form. -/

namespace Sys2Proof.Machine

/-! ## What a read finds -/

@[simp] theorem Mem.get_nil {α : Type} (a : Nat) : Mem.get ([] : Mem α) a = none := rfl

theorem Mem.get_cons {α : Type} (c : Nat × α) (m : Mem α) (a : Nat) :
    Mem.get (c :: m) a = if c.1 = a then some c.2 else Mem.get m a := rfl

/-- Read after write, at the address written and at every other. -/
theorem Mem.get_put {α : Type} (m : Mem α) (a : Nat) (v : α) (b : Nat) :
    Mem.get (Mem.put m a v) b = if b = a then some v else Mem.get m b := by
  induction m with
  | nil => simp [Mem.put, Mem.get_cons, eq_comm]
  | cons c m ih =>
    obtain ⟨k, w⟩ := c
    simp only [Mem.put]
    split
    · simp only [Mem.get_cons]; grind
    · split
      · simp only [Mem.get_cons]; grind
      · simp only [Mem.get_cons, ih]; grind

@[simp] theorem Mem.get_put_same {α : Type} (m : Mem α) (a : Nat) (v : α) :
    Mem.get (Mem.put m a v) a = some v := by simp [Mem.get_put]

theorem Mem.get_put_ne {α : Type} (m : Mem α) (a : Nat) (v : α) {b : Nat} (h : b ≠ a) :
    Mem.get (Mem.put m a v) b = Mem.get m b := by simp [Mem.get_put, h]

theorem Mem.get_append {α : Type} (m m' : Mem α) (a : Nat) :
    Mem.get (m ++ m') a = (Mem.get m a).or (Mem.get m' a) := by
  induction m with
  | nil => simp
  | cons c m ih =>
    simp only [List.cons_append, Mem.get_cons, ih]
    split <;> simp

theorem Mem.get_filter {α : Type} (p : Nat → Bool) (m : Mem α) (a : Nat) :
    Mem.get (m.filter (fun c => p c.1)) a = if p a then Mem.get m a else none := by
  induction m with
  | nil => simp
  | cons c m ih =>
    simp only [List.filter_cons, Mem.get_cons]
    by_cases h : p c.1 <;> by_cases hc : c.1 = a <;> simp_all [Mem.get_cons]

theorem Mem.get_cellsFrom {α : Type} (vs : List α) (base a : Nat) :
    Mem.get (Mem.cellsFrom base vs) a = if base ≤ a then vs[a - base]? else none := by
  induction vs generalizing base with
  | nil => simp [Mem.cellsFrom]
  | cons v vs ih =>
    simp only [Mem.cellsFrom, Mem.get_cons, ih]
    by_cases h : base = a
    · simp [h]
    · by_cases h2 : base + 1 ≤ a
      · have : a - base = (a - (base + 1)) + 1 := by omega
        simp [h, h2, this, show base ≤ a by omega]
      · simp [h, h2, show ¬ base ≤ a by omega]

/-- A block write leaves the block's values in the block and everything else as it was. -/
theorem Mem.get_putBlock {α : Type} (m : Mem α) (base : Nat) (vs : List α) (a : Nat) :
    Mem.get (Mem.putBlock m base vs) a =
      if base ≤ a ∧ a < base + vs.length then vs[a - base]? else Mem.get m a := by
  have h1 := Mem.get_filter (fun k => decide (k < base)) m a
  have h2 := Mem.get_filter (fun k => decide (base + vs.length ≤ k)) m a
  simp only [Mem.putBlock, Mem.get_append, h1, h2, Mem.get_cellsFrom, decide_eq_true_eq]
  by_cases hb : base ≤ a
  · by_cases ha : a < base + vs.length
    · have : a - base < vs.length := by omega
      simp [hb, ha, show ¬ a < base by omega, show ¬ base + vs.length ≤ a by omega]
    · simp [hb, ha, show ¬ a < base by omega, show base + vs.length ≤ a by omega,
        List.getElem?_eq_none (show vs.length ≤ a - base by omega)]
  · have : Mem.get m a = (Mem.get m a).or none := by simp
    simp [hb, show a < base by omega, show ¬ base + vs.length ≤ a by omega]

theorem Mem.get_map_pred {α : Type} (m : Mem α) (a : Nat) (h : ∀ c ∈ m, 1 ≤ c.1) :
    Mem.get (m.map (fun c => (c.1 - 1, c.2))) a = Mem.get m (a + 1) := by
  induction m with
  | nil => simp
  | cons c m ih =>
    have hc : 1 ≤ c.1 := h c (by simp)
    have ih' := ih (fun c hc => h c (by simp [hc]))
    simp only [List.map_cons, Mem.get_cons, ih']
    by_cases e : c.1 - 1 = a
    · simp [show c.1 = a + 1 by omega]
    · simp [e, show ¬ c.1 = a + 1 by omega]

/-- A shift of `n` elements: each takes its upper neighbour's value and the last takes `fill`. -/
theorem Mem.get_shiftDown {α : Type} (n : Nat) (fill : α) (m : Mem α) {a : Nat} (h : a < n) :
    Mem.get (Mem.shiftDown n fill m) a = if a + 1 < n then Mem.get m (a + 1) else some fill := by
  have h2 := Mem.get_filter (fun k => decide (1 ≤ k ∧ k < n)) m (a + 1)
  simp only [Mem.shiftDown, Mem.get_append]
  rw [Mem.get_map_pred _ _ (by simp only [List.mem_filter, decide_eq_true_eq]; intro c hc; exact hc.2.1), h2]
  by_cases e : a + 1 < n
  · simp [e, Mem.get_cons, show ¬ n - 1 = a by omega]
  · simp [e, Mem.get_cons, show n - 1 = a by omega]

/-- A shift leaves nothing above the elements it shifts. -/
theorem Mem.get_shiftDown_ge {α : Type} (n : Nat) (fill : α) (m : Mem α) {a : Nat} (h : n ≤ a) (hn : 0 < n) :
    Mem.get (Mem.shiftDown n fill m) a = none := by
  have h2 := Mem.get_filter (fun k => decide (1 ≤ k ∧ k < n)) m (a + 1)
  simp only [Mem.shiftDown, Mem.get_append]
  rw [Mem.get_map_pred _ _ (by simp only [List.mem_filter, decide_eq_true_eq]; intro c hc; exact hc.2.1), h2]
  simp [Mem.get_cons, show ¬ a + 1 < n by omega, show ¬ n - 1 = a by omega]

/-! ## Accesses -/

theorem readMem_ok {α : Type} {name : MemName} {size : Nat} {m : Mem α} {a : Nat} {v : α} (h : a < size)
    (hv : Mem.get m a = some v) : readMem name size m a = .ok v := by simp [readMem, h, hv]

/-- A read answers a value exactly when the address is in range and the element holds it. -/
theorem readMem_eq_ok {α : Type} {name : MemName} {size : Nat} {m : Mem α} {a : Nat} {v : α} :
    readMem name size m a = .ok v ↔ a < size ∧ Mem.get m a = some v := by
  unfold readMem
  split
  · split
    · simp_all
    · simp_all [stopWith]
  · simp_all [stopWith]

theorem writeMem_ok {α : Type} {name : MemName} {size : Nat} {m : Mem α} {a : Nat} {v : α} (h : a < size) :
    writeMem name size m a v = .ok (Mem.put m a v) := by simp [writeMem, h]

theorem writeMem_eq_ok {α : Type} {name : MemName} {size : Nat} {m m' : Mem α} {a : Nat} {v : α} :
    writeMem name size m a v = .ok m' ↔ a < size ∧ m' = Mem.put m a v := by
  unfold writeMem
  split
  · simp_all [eq_comm]
  · simp_all [stopWith]

/-- A slot of `hslot` after a fill. -/
theorem HashMem.read_fill (t : HashMem) (h h' : HIdx) (e : Slot) :
    (t.fill h e).read h' = if h' = h then .entry e else t.read h' := by
  unfold HashMem.read HashMem.fill
  rw [Mem.get_put]
  by_cases hh : h' = h
  · simp [hh]
  · have : ¬ h'.toNat = h.toNat := fun x => hh (BitVec.eq_of_toNat_eq x)
    simp [hh, this]

@[simp] theorem HashMem.read_allEmpty (h : HIdx) : HashMem.allEmpty.read h = .empty := rfl

/-! ## The canonical form -/

/-- The canonical form, said of the whole list. -/
theorem Mem.wf_iff {α : Type} (size : Nat) (m : Mem α) :
    Mem.wf size m = true ↔ m.Pairwise (fun c d => c.1 < d.1) ∧ ∀ c ∈ m, c.1 < size := by
  induction m with
  | nil => simp [Mem.wf]
  | cons c m ih =>
    obtain ⟨k, v⟩ := c
    cases m with
    | nil => simp [Mem.wf]
    | cons d m =>
      obtain ⟨l, w⟩ := d
      simp only [Mem.wf, Bool.and_eq_true, decide_eq_true_eq, ih, List.pairwise_cons]
      constructor
      · rintro ⟨hkl, ⟨hp, hq⟩, hr⟩
        have hl : l < size := hr (l, w) (by simp)
        refine ⟨⟨?_, hp, hq⟩, ?_⟩
        · intro x hx
          rcases List.mem_cons.1 hx with rfl | hx
          · exact hkl
          · exact lt_trans hkl (hp x hx)
        · intro x hx
          rcases List.mem_cons.1 hx with rfl | hx
          · exact lt_trans hkl hl
          · exact hr x hx
      · rintro ⟨⟨hk, hp, hq⟩, hr⟩
        exact ⟨hk (l, w) (by simp), ⟨hp, hq⟩, fun x hx => hr x (by simp [hx])⟩

@[simp] theorem Mem.wf_nil {α : Type} (size : Nat) : Mem.wf size ([] : Mem α) = true := rfl

theorem Mem.mem_put {α : Type} {m : Mem α} {a : Nat} {v : α} {c : Nat × α} (h : c ∈ Mem.put m a v) :
    c = (a, v) ∨ c ∈ m := by
  induction m with
  | nil => simpa [Mem.put] using h
  | cons d m ih =>
    obtain ⟨k, w⟩ := d
    simp only [Mem.put] at h
    split at h
    · simpa using h
    · split at h
      · rcases List.mem_cons.1 h with h | h
        · exact .inl h
        · exact .inr (by simp [h])
      · rcases List.mem_cons.1 h with h | h
        · exact .inr (by simp [h])
        · rcases ih h with h | h
          · exact .inl h
          · exact .inr (by simp [h])

theorem Mem.wf_put {α : Type} {size : Nat} {m : Mem α} {a : Nat} (v : α) (h : Mem.wf size m = true) (ha : a < size) :
    Mem.wf size (Mem.put m a v) = true := by
  rw [Mem.wf_iff] at h ⊢
  refine ⟨?_, fun c hc => (Mem.mem_put hc).elim (fun e => e ▸ ha) (h.2 c)⟩
  have hp := h.1
  clear h
  induction m with
  | nil => simp [Mem.put]
  | cons d m ih =>
    obtain ⟨k, w⟩ := d
    rw [List.pairwise_cons] at hp
    simp only [Mem.put]
    split
    · rename_i hk
      refine List.pairwise_cons.2 ⟨?_, List.pairwise_cons.2 hp⟩
      intro c hc
      rcases List.mem_cons.1 hc with rfl | hc
      · exact hk
      · exact lt_trans hk (hp.1 c hc)
    · split
      · rename_i hk
        exact List.pairwise_cons.2 ⟨fun c hc => hk ▸ hp.1 c hc, hp.2⟩
      · refine List.pairwise_cons.2 ⟨?_, ih hp.2⟩
        intro c hc
        rcases Mem.mem_put hc with rfl | hc
        · simp only; omega
        · exact hp.1 c hc

theorem Mem.mem_cellsFrom {α : Type} {base : Nat} {vs : List α} {c : Nat × α} (h : c ∈ Mem.cellsFrom base vs) :
    base ≤ c.1 ∧ c.1 < base + vs.length := by
  induction vs generalizing base with
  | nil => simp [Mem.cellsFrom] at h
  | cons v vs ih =>
    rcases List.mem_cons.1 h with rfl | h
    · simp
    · have := ih h
      simp only [List.length_cons]; omega

theorem Mem.pairwise_cellsFrom {α : Type} (base : Nat) (vs : List α) :
    (Mem.cellsFrom base vs).Pairwise (fun c d => c.1 < d.1) := by
  induction vs generalizing base with
  | nil => simp [Mem.cellsFrom]
  | cons v vs ih =>
    exact List.pairwise_cons.2 ⟨fun c hc => by have := Mem.mem_cellsFrom hc; simp only; omega, ih _⟩

theorem Mem.wf_putBlock {α : Type} {size : Nat} {m : Mem α} {base : Nat} (vs : List α) (h : Mem.wf size m = true)
    (hb : base + vs.length ≤ size) : Mem.wf size (Mem.putBlock m base vs) = true := by
  rw [Mem.wf_iff] at h ⊢
  refine ⟨?_, ?_⟩
  · unfold Mem.putBlock
    rw [List.pairwise_append, List.pairwise_append]
    refine ⟨h.1.filter _, ⟨Mem.pairwise_cellsFrom _ _, h.1.filter _, ?_⟩, ?_⟩
    · intro c hc d hd
      have := Mem.mem_cellsFrom hc
      simp only [List.mem_filter, decide_eq_true_eq] at hd
      omega
    · intro c hc d hd
      simp only [List.mem_filter, decide_eq_true_eq, List.mem_append] at hc hd
      rcases hd with hd | hd
      · have := Mem.mem_cellsFrom hd; omega
      · omega
  · intro c hc
    simp only [Mem.putBlock, List.mem_append, List.mem_filter] at hc
    rcases hc with hc | hc | hc
    · exact h.2 c hc.1
    · have := Mem.mem_cellsFrom hc; omega
    · exact h.2 c hc.1

theorem Mem.wf_shiftDown {α : Type} {size : Nat} {m : Mem α} (fill : α) (h : Mem.wf size m = true) (hs : 0 < size) :
    Mem.wf size (Mem.shiftDown size fill m) = true := by
  rw [Mem.wf_iff] at h ⊢
  refine ⟨?_, ?_⟩
  · unfold Mem.shiftDown
    rw [List.pairwise_append]
    refine ⟨?_, by simp, ?_⟩
    · rw [List.pairwise_map]
      refine (h.1.filter _).imp_of_mem ?_
      intro c d hc hd hcd
      simp only [List.mem_filter, decide_eq_true_eq] at hc hd
      simp only; omega
    · intro c hc d hd
      simp only [List.mem_map, List.mem_filter, decide_eq_true_eq] at hc
      obtain ⟨e, he, rfl⟩ := hc
      simp only [List.mem_singleton] at hd
      subst hd
      simp only; omega
  · intro c hc
    simp only [Mem.shiftDown, List.mem_append, List.mem_map, List.mem_filter, decide_eq_true_eq,
      List.mem_singleton] at hc
    rcases hc with ⟨e, he, rfl⟩ | rfl
    · simp only; omega
    · simp only; omega

/-- Memories in canonical form that read the same are the same list. -/
theorem Mem.eq_of_get_eq {α : Type} {size : Nat} {m m' : Mem α} (h : Mem.wf size m = true) (h' : Mem.wf size m' = true)
    (he : ∀ a, Mem.get m a = Mem.get m' a) : m = m' := by
  rw [Mem.wf_iff] at h h'
  have hp := h.1
  have hp' := h'.1
  clear h h'
  induction m generalizing m' with
  | nil =>
    cases m' with
    | nil => rfl
    | cons d m' => have := he d.1; simp [Mem.get_cons] at this
  | cons c m ih =>
    rw [List.pairwise_cons] at hp
    cases m' with
    | nil => have := he c.1; simp [Mem.get_cons] at this
    | cons d m' =>
      rw [List.pairwise_cons] at hp'
      have absent : ∀ {n : Mem α} {k : Nat}, (∀ x ∈ n, k < x.1) → Mem.get n k = none := by
        intro n k hn
        induction n with
        | nil => rfl
        | cons x n ihn =>
          have := hn x (by simp)
          rw [Mem.get_cons, if_neg (by omega)]
          exact ihn (fun y hy => hn y (by simp [hy]))
      have hcd : c.1 = d.1 := by
        rcases Nat.lt_trichotomy c.1 d.1 with hlt | heq | hlt
        · have := he c.1
          rw [Mem.get_cons, if_pos rfl, Mem.get_cons, if_neg (by omega),
            absent (fun x hx => lt_trans hlt (hp'.1 x hx))] at this
          simp at this
        · exact heq
        · have := he d.1
          rw [Mem.get_cons, if_neg (by omega), Mem.get_cons, if_pos rfl,
            absent (fun x hx => lt_trans hlt (hp.1 x hx))] at this
          simp at this
      have hv : c.2 = d.2 := by
        have := he c.1
        rw [Mem.get_cons, if_pos rfl, Mem.get_cons, if_pos hcd.symm] at this
        simpa using this
      have hm : m = m' := by
        refine ih ?_ hp.2 hp'.2
        intro a
        by_cases ha : a = c.1
        · rw [ha, absent hp.1, hcd, absent hp'.1]
        · have := he a
          rwa [Mem.get_cons, if_neg (by omega), Mem.get_cons, if_neg (by omega)] at this
      rw [hm, Prod.ext hcd hv]

/-- The reset memories are canonical. -/
theorem reset_memWf : State.reset.memWf = true := rfl

/-- All six memories of a state are canonical exactly when each is. -/
theorem State.memWf_iff (s : State) : s.memWf = true ↔
    Mem.wf 32 s.obuf = true ∧ Mem.wf 131072 s.hslot.cells = true ∧ Mem.wf 4 s.ibuf = true ∧
    Mem.wf 65536 s.tabPrefix = true ∧ Mem.wf 65536 s.tabSuffix = true ∧ Mem.wf 65536 s.stack = true := by
  simp [State.memWf, and_assoc]

end Sys2Proof.Machine
end

