-- ==== Sys2Proof/Laws/BitCursor.lean ====
section
/-! SUPPORT. Laws/BitCursor.lean: what each operation of BitCursor answers: PUT_CODE and GET_CODE by stream bits (R132,
R134), REALIGN's properties (R135), and the operations on the two staging buffers. -/

namespace Sys2Proof.Machine

/-! ## Bits of a buffer -/

theorem byteIndex_eq (off : Nat) : byteIndex off = off / 8 := by simp [byteIndex, Nat.shiftRight_eq_div_pow]

theorem bitShift_eq (off : Nat) : bitShift off = off % 8 := Nat.and_two_pow_sub_one_eq_mod off 3

theorem bufBit_of_get {m : Mem Byte} {i : Nat} {b : Byte} (h : Mem.get m (i / 8) = some b) :
    bufBit m i = b.getLsbD (i % 8) := by simp [bufBit, h]

theorem bufBit_of_none {m : Mem Byte} {i : Nat} (h : Mem.get m (i / 8) = none) : bufBit m i = false := by
  simp [bufBit, h]

/-- Buffers that read the same at a bit's byte have the same bit. -/
theorem bufBit_congr {m m' : Mem Byte} {i i' : Nat} (h : Mem.get m (i / 8) = Mem.get m' (i' / 8))
    (hi : i % 8 = i' % 8) : bufBit m i = bufBit m' i' := by simp [bufBit, h, hi]

/-! ## `bitsValue` and `streamValue` -/

theorem bitsValue_lt (f : Nat → Bool) (w : Nat) : bitsValue f w < 2 ^ w := by
  induction w with
  | zero => simp [bitsValue]
  | succ w ih => simp only [bitsValue, Nat.pow_succ]; split <;> omega

theorem testBit_bitsValue (f : Nat → Bool) (w j : Nat) : (bitsValue f w).testBit j = (decide (j < w) && f j) := by
  induction w with
  | zero => simp [bitsValue]
  | succ w ih =>
    have hlt := bitsValue_lt f w
    simp only [bitsValue]
    by_cases hf : f w
    · rw [if_pos hf, Nat.add_comm]
      by_cases hj : j = w
      · subst hj
        rw [Nat.testBit_two_pow_add_eq, ih]
        simp [hf]
      · by_cases hjw : j < w
        · rw [Nat.testBit_two_pow_add_gt hjw, ih]
          simp [hjw, show j < w + 1 by omega]
        · have : 2 ^ w + bitsValue f w < 2 ^ (w + 1) := by rw [Nat.pow_succ]; omega
          rw [Nat.testBit_lt_two_pow (lt_of_lt_of_le this (Nat.pow_le_pow_right (by omega) (by omega)))]
          simp [show ¬ j < w + 1 by omega]
    · rw [if_neg hf, Nat.add_zero, ih]
      by_cases hj : j = w
      · subst hj; simp [hf]
      · by_cases hjw : j < w
        · simp [hjw, show j < w + 1 by omega]
        · simp [hjw, show ¬ j < w + 1 by omega]

/-- A code is the value of its own bits. -/
theorem eq_bitsValue (c : Code) (f : Nat → Bool) (w : Nat) (hw : w ≤ 16)
    (h : ∀ j, j < 16 → c.getLsbD j = (decide (j < w) && f j)) : c.toNat = bitsValue f w := by
  apply Nat.eq_of_testBit_eq
  intro j
  rw [testBit_bitsValue, BitVec.testBit_toNat]
  by_cases hj : j < 16
  · exact h j hj
  · rw [BitVec.getLsbD_of_ge _ _ (by omega)]
    simp [show ¬ j < w by omega]

/-! ## PUT_CODE -/

/-- Byte `i` of the shifted code (R131). -/
theorem windowByte_shiftedCode (code : Code) (s i : Nat) (hs : s < 8) :
    windowByte (shiftedCode code s) i = BitVec.ofNat 8 (code.toNat * 2 ^ s / 2 ^ (8 * i)) := by
  apply BitVec.eq_of_toNat_eq
  have hc := code.isLt
  have h2 : (2 : Nat) ^ s ≤ 2 ^ 7 := Nat.pow_le_pow_right (by omega) (by omega)
  have h3 : code.toNat * 2 ^ s < 2 ^ 24 := by nlinarith
  simp only [windowByte, shiftedCode, BitVec.extractLsb'_toNat, BitVec.toNat_shiftLeft, BitVec.toNat_setWidth,
    BitVec.toNat_ofNat, Nat.shiftLeft_eq, Nat.shiftRight_eq_div_pow]
  rw [Nat.mod_eq_of_lt (show code.toNat < 2 ^ 24 by omega), Nat.mod_eq_of_lt h3]

theorem getLsbD_windowByte_shiftedCode (code : Code) (s i j : Nat) (hj : j < 8) (hi : i < 3) (hs : s < 8) :
    (windowByte (shiftedCode code s) i).getLsbD j = (decide (s ≤ 8 * i + j) && code.getLsbD (8 * i + j - s)) := by
  simp only [windowByte, shiftedCode, BitVec.getLsbD_extractLsb', BitVec.getLsbD_shiftLeft, BitVec.getLsbD_setWidth]
  by_cases h : s ≤ 8 * i + j
  · simp [hj, h, show 8 * i + j < 24 by omega, show ¬ 8 * i + j < s by omega, show 8 * i + j - s < 24 by omega]
  · simp [h, show 8 * i + j < s by omega]

/-- PUT_CODE completes when its three bytes hold values, and ORs the shifted code into them (R131). -/
theorem putCodeIn_spec {name : MemName} {size : Nat} {m : Mem Byte} {off : Nat} {b0 b1 b2 : Byte} (code : Code)
    (hk : off / 8 + 2 < size) (h0 : Mem.get m (off / 8) = some b0) (h1 : Mem.get m (off / 8 + 1) = some b1)
    (h2 : Mem.get m (off / 8 + 2) = some b2) :
    ∃ m', putCodeIn name size m off code = .ok m' ∧
      ∀ a, Mem.get m' a =
        if a = off / 8 then some (b0 ||| windowByte (shiftedCode code (off % 8)) 0)
        else if a = off / 8 + 1 then some (b1 ||| windowByte (shiftedCode code (off % 8)) 1)
        else if a = off / 8 + 2 then some (b2 ||| windowByte (shiftedCode code (off % 8)) 2)
        else Mem.get m a := by
  have r1 := Mem.get_put_ne m (off / 8) (b0 ||| windowByte (shiftedCode code (off % 8)) 0)
    (show off / 8 + 1 ≠ off / 8 by omega)
  have r2 := Mem.get_put_ne m (off / 8) (b0 ||| windowByte (shiftedCode code (off % 8)) 0)
    (show off / 8 + 2 ≠ off / 8 by omega)
  have r3 := Mem.get_put_ne (Mem.put m (off / 8) (b0 ||| windowByte (shiftedCode code (off % 8)) 0)) (off / 8 + 1)
    (b1 ||| windowByte (shiftedCode code (off % 8)) 1) (show off / 8 + 2 ≠ off / 8 + 1 by omega)
  refine ⟨Mem.put (Mem.put (Mem.put m (off / 8) (b0 ||| windowByte (shiftedCode code (off % 8)) 0)) (off / 8 + 1)
    (b1 ||| windowByte (shiftedCode code (off % 8)) 1)) (off / 8 + 2)
    (b2 ||| windowByte (shiftedCode code (off % 8)) 2), ?_, ?_⟩
  · unfold putCodeIn
    simp only [byteIndex_eq, bitShift_eq]
    rw [readMem_ok (by omega) h0, Res.ok_bind, writeMem_ok (by omega), Res.ok_bind,
      readMem_ok (by omega) (r1.trans h1), Res.ok_bind, writeMem_ok (by omega), Res.ok_bind,
      readMem_ok (by omega) (r3.trans (r2.trans h2)), Res.ok_bind, writeMem_ok (by omega)]
  · intro a
    simp only [Mem.get_put]
    by_cases e2 : a = off / 8 + 2
    · subst e2; simp
    · by_cases e1 : a = off / 8 + 1
      · subst e1; simp
      · simp [e1, e2]

/-- PUT_CODE by stream bits: bit `j` of the code is ORed into bit `off + j` (R132). -/
theorem putCodeIn_bits {name : MemName} {size : Nat} {m : Mem Byte} {off : Nat} {b0 b1 b2 : Byte} (code : Code)
    (hk : off / 8 + 2 < size) (h0 : Mem.get m (off / 8) = some b0) (h1 : Mem.get m (off / 8 + 1) = some b1)
    (h2 : Mem.get m (off / 8 + 2) = some b2) {m' : Mem Byte} (hm : putCodeIn name size m off code = .ok m') (i : Nat) :
    bufBit m' i = (bufBit m i || (decide (off ≤ i) && code.getLsbD (i - off))) := by
  obtain ⟨m'', e, hg⟩ := putCodeIn_spec (name := name) code hk h0 h1 h2
  rw [hm] at e
  cases e
  have hlow : ∀ e j : Nat, j < 8 → e < 3 → i = 8 * (off / 8) + (8 * e + j) →
      (decide (off % 8 ≤ 8 * e + j) && code.getLsbD (8 * e + j - off % 8)) =
        (decide (off ≤ i) && code.getLsbD (i - off)) := by
    intro e j _ _ hi
    have h1 : off % 8 ≤ 8 * e + j ↔ off ≤ i := by omega
    have h2 : 8 * e + j - off % 8 = i - off := by omega
    simp only [h1, h2]
  by_cases e0 : i / 8 = off / 8
  · rw [bufBit_of_get ((hg _).trans (if_pos e0)), bufBit_of_get (e0 ▸ h0), BitVec.getLsbD_or,
      getLsbD_windowByte_shiftedCode _ _ _ _ (by omega) (by omega) (by omega),
      hlow 0 (i % 8) (by omega) (by omega) (by omega)]
  · by_cases e1 : i / 8 = off / 8 + 1
    · rw [bufBit_of_get ((hg _).trans (by rw [if_neg e0, if_pos e1])), bufBit_of_get (e1 ▸ h1), BitVec.getLsbD_or,
        getLsbD_windowByte_shiftedCode _ _ _ _ (by omega) (by omega) (by omega),
        hlow 1 (i % 8) (by omega) (by omega) (by omega)]
    · by_cases e2 : i / 8 = off / 8 + 2
      · rw [bufBit_of_get ((hg _).trans (by rw [if_neg e0, if_neg e1, if_pos e2])), bufBit_of_get (e2 ▸ h2),
          BitVec.getLsbD_or, getLsbD_windowByte_shiftedCode _ _ _ _ (by omega) (by omega) (by omega),
          hlow 2 (i % 8) (by omega) (by omega) (by omega)]
      · rw [bufBit_congr (m' := m) ((hg _).trans (by rw [if_neg e0, if_neg e1, if_neg e2])) rfl]
        by_cases hi : off ≤ i
        · rw [BitVec.getLsbD_of_ge code (i - off) (by omega)]; simp
        · simp [hi]

/-- PUT_CODE on a fully written buffer. -/
theorem putCodeIn_written {name : MemName} {size : Nat} {m : Mem Byte} {off : Nat} (code : Code)
    (hk : off / 8 + 2 < size) (hw : Written size m) :
    ∃ m', putCodeIn name size m off code = .ok m' ∧ Written size m' ∧
      (∀ i, bufBit m' i = (bufBit m i || (decide (off ≤ i) && code.getLsbD (i - off)))) ∧
      (∀ a, a ≠ off / 8 → a ≠ off / 8 + 1 → a ≠ off / 8 + 2 → Mem.get m' a = Mem.get m a) := by
  obtain ⟨b0, h0⟩ := Option.isSome_iff_exists.1 (hw (off / 8) (by omega))
  obtain ⟨b1, h1⟩ := Option.isSome_iff_exists.1 (hw (off / 8 + 1) (by omega))
  obtain ⟨b2, h2⟩ := Option.isSome_iff_exists.1 (hw (off / 8 + 2) (by omega))
  obtain ⟨m', e, hg⟩ := putCodeIn_spec (name := name) code hk h0 h1 h2
  refine ⟨m', e, ?_, putCodeIn_bits code hk h0 h1 h2 e, ?_⟩
  · intro a ha
    rw [hg]
    split
    · rfl
    · split
      · rfl
      · split
        · rfl
        · exact hw a ha
  · intro a n0 n1 n2
    rw [hg, if_neg n0, if_neg n1, if_neg n2]

/-- PUT_CODE keeps the canonical form. -/
theorem putCodeIn_wf {name : MemName} {size : Nat} {m m' : Mem Byte} {off : Nat} {code : Code}
    (h : putCodeIn name size m off code = .ok m') (hm : Mem.wf size m = true) : Mem.wf size m' = true := by
  simp only [putCodeIn, Res.bind_eq_ok, readMem_eq_ok, writeMem_eq_ok] at h
  obtain ⟨b0, ⟨h0, -⟩, m0, ⟨-, rfl⟩, b1, ⟨h1, -⟩, m1, ⟨-, rfl⟩, b2, ⟨h2, -⟩, -, rfl⟩ := h
  exact Mem.wf_put _ (Mem.wf_put _ (Mem.wf_put _ hm h0) h1) h2

/-! ## GET_CODE -/

theorem getLsbD_windowCode (v : Window) (s w j : Nat) (hw : w ≤ 16) (hj : j < 16) :
    (windowCode v s w).getLsbD j = (decide (j < w) && v.getLsbD (s + j)) := by
  have hm : (2 ^ w - 1) % 2 ^ 24 = 2 ^ w - 1 := by
    apply Nat.mod_eq_of_lt
    have : (2 : Nat) ^ w ≤ 2 ^ 16 := Nat.pow_le_pow_right (by omega) hw
    omega
  have hmask : (widthMask w).getLsbD j = decide (j < w) := by
    unfold widthMask
    rw [BitVec.getLsbD, BitVec.toNat_ofNat, hm, Nat.testBit_two_pow_sub_one]
  simp only [windowCode, BitVec.getLsbD_setWidth, BitVec.getLsbD_and, BitVec.getLsbD_ushiftRight, hmask]
  simp [hj, Bool.and_comm]

theorem getLsbD_windowOf (b0 b1 b2 : Byte) (i : Nat) (hi : i < 24) :
    (windowOf b0 b1 b2).getLsbD i =
      if i < 8 then b0.getLsbD i else if i < 16 then b1.getLsbD (i - 8) else b2.getLsbD (i - 16) := by
  unfold windowOf
  rw [BitVec.getLsbD_append]
  by_cases h : i < 8
  · simp [h]
  · simp only [h, if_false, BitVec.getLsbD_append]
    by_cases h2 : i < 16
    · simp [h2, show i - 8 < 8 by omega]
    · simp [h2, show ¬ i - 8 < 8 by omega, show i - 8 - 8 = i - 16 by omega]

/-- GET_CODE completes when its three bytes hold values, and reads the stream bits (R133, R134). -/
theorem getCodeIn_spec {name : MemName} {size : Nat} {m : Mem Byte} {off w : Nat} {b0 b1 b2 : Byte}
    (hk : off / 8 + 2 < size) (h0 : Mem.get m (off / 8) = some b0) (h1 : Mem.get m (off / 8 + 1) = some b1)
    (h2 : Mem.get m (off / 8 + 2) = some b2) (hw : w ≤ 16) :
    ∃ c, getCodeIn name size m off w = .ok c ∧ c.toNat = streamValue m off w := by
  refine ⟨windowCode (windowOf b0 b1 b2) (off % 8) w, ?_, ?_⟩
  · unfold getCodeIn
    simp only [byteIndex_eq, bitShift_eq]
    rw [readMem_ok (by omega) h0, Res.ok_bind, readMem_ok (by omega) h1, Res.ok_bind, readMem_ok hk h2, Res.ok_bind]
  · refine eq_bitsValue _ _ _ hw ?_
    intro j hj
    rw [getLsbD_windowCode _ _ _ _ hw hj]
    by_cases hjw : j < w
    · rw [getLsbD_windowOf _ _ _ _ (by omega)]
      congr 1
      split
      · rw [bufBit_of_get (by rw [show (off + j) / 8 = off / 8 by omega]; exact h0)]
        congr 1; omega
      · split
        · rw [bufBit_of_get (by rw [show (off + j) / 8 = off / 8 + 1 by omega]; exact h1)]
          congr 1; omega
        · rw [bufBit_of_get (by rw [show (off + j) / 8 = off / 8 + 2 by omega]; exact h2)]
          congr 1; omega
    · simp [hjw]

theorem getCodeIn_written {name : MemName} {size : Nat} {m : Mem Byte} {off w : Nat}
    (hk : off / 8 + 2 < size) (hm : Written size m) (hw : w ≤ 16) :
    ∃ c, getCodeIn name size m off w = .ok c ∧ c.toNat = streamValue m off w := by
  obtain ⟨b0, h0⟩ := Option.isSome_iff_exists.1 (hm (off / 8) (by omega))
  obtain ⟨b1, h1⟩ := Option.isSome_iff_exists.1 (hm (off / 8 + 1) (by omega))
  obtain ⟨b2, h2⟩ := Option.isSome_iff_exists.1 (hm (off / 8 + 2) (by omega))
  exact getCodeIn_spec hk h0 h1 h2 hw

/-! ## REALIGN -/

/-- R135: within its domain REALIGN is the formula. -/
theorem realign_eq {pos base w : Nat} (h : base ≤ pos) (hw : 0 < w) : realign pos base w = realignTo pos base w :=
  if_pos ⟨h, hw⟩

/-- Outside its domain REALIGN is a free value (log 22). -/
theorem realign_of_outside {pos base w : Nat} (h : pos < base ∨ w = 0) :
    realign pos base w = pos + Config.realignOutside pos base w := if_neg (by omega)

/-- R135: the result is the first multiple of the group at or after the cursor. -/
theorem realignTo_bounds {pos base w : Nat} (h : base ≤ pos) (hw : 0 < w) :
    pos ≤ realignTo pos base w ∧ realignTo pos base w < pos + 8 * w ∧
    (realignTo pos base w - base) % (8 * w) = 0 := by
  unfold realignTo
  have hg : 0 < 8 * w := by omega
  generalize 8 * w = g at *
  have h1 := Nat.div_add_mod (pos - base + (g - 1)) g
  have h2 := Nat.mod_lt (pos - base + (g - 1)) hg
  rw [Nat.mul_comm] at h1
  generalize (pos - base + (g - 1)) / g * g = q at *
  refine ⟨by omega, by omega, ?_⟩
  · have : (pos - base + (g - 1)) - (pos - base + (g - 1)) % g = q := by omega
    rw [Nat.add_sub_cancel_left, ← this, Nat.sub_mod_eq_zero_of_mod_eq]
    simp

/-- REALIGN never moves back, on any operand. -/
theorem le_realign (pos base w : Nat) : pos ≤ realign pos base w := by
  by_cases h : base ≤ pos ∧ 0 < w
  · rw [realign_eq h.1 h.2]; exact (realignTo_bounds h.1 h.2).1
  · rw [realign_of_outside (by omega)]; omega

theorem realignTo_of_aligned {pos base w : Nat} (h : base ≤ pos) (hw : 0 < w) (ha : (pos - base) % (8 * w) = 0) :
    realignTo pos base w = pos := by
  obtain ⟨h1, h2, h3⟩ := realignTo_bounds h hw
  have hg : 0 < 8 * w := by omega
  obtain ⟨a, ha⟩ := Nat.dvd_of_mod_eq_zero ha
  obtain ⟨b, hb⟩ := Nat.dvd_of_mod_eq_zero h3
  have : a = b := by
    rcases Nat.lt_trichotomy a b with hlt | heq | hlt
    · have : 8 * w * (a + 1) ≤ 8 * w * b := Nat.mul_le_mul_left _ hlt
      rw [Nat.mul_add] at this; omega
    · exact heq
    · have : 8 * w * (b + 1) ≤ 8 * w * a := Nat.mul_le_mul_left _ hlt
      rw [Nat.mul_add] at this; omega
  subst this
  omega

theorem realignTo_idem {pos base w : Nat} (h : base ≤ pos) (hw : 0 < w) :
    realignTo (realignTo pos base w) base w = realignTo pos base w := by
  obtain ⟨h1, -, h3⟩ := realignTo_bounds h hw
  exact realignTo_of_aligned (le_trans h h1) hw h3

theorem realignTo_mod_eight {pos base w : Nat} (h : base ≤ pos) (hw : 0 < w) :
    realignTo pos base w % 8 = base % 8 := by
  obtain ⟨h1, -, h3⟩ := realignTo_bounds h hw
  obtain ⟨b, hb⟩ := Nat.dvd_of_mod_eq_zero h3
  have : realignTo pos base w = base + 8 * (w * b) := by rw [← Nat.mul_assoc]; omega
  omega

/-! ## The staging buffers -/

/-- C_REALIGN by how far REALIGN goes, on every operand (R136). -/
theorem cRealign_of_eq {w d : Nat} {s : State} (h : realign s.bitPosition s.alignBase w = s.bitPosition + d) :
    cRealign w s = { s with obits := s.obits + d, bitPosition := s.bitPosition + d } := by
  simp only [cRealign, h, Nat.add_sub_cancel_left]

/-- D_REALIGN by how far REALIGN goes, on every operand (R137). -/
theorem dRealign_of_eq {w d : Nat} {s : State} (h : realign s.bitPosition s.alignBase w = s.bitPosition + d) :
    dRealign w s = dSkip { s with bitPosition := s.bitPosition + d, iskip := s.iskip + d } := by
  simp only [dRealign, h, Nat.add_sub_cancel_left]

/-- C_REALIGN within its domain (R136). -/
theorem cRealign_eq {w : Nat} {s : State} (h : s.alignBase ≤ s.bitPosition) (hw : 0 < w) :
    cRealign w s = { s with
      obits := s.obits + padding s.bitPosition s.alignBase w
      bitPosition := s.bitPosition + padding s.bitPosition s.alignBase w } := by
  have := (realignTo_bounds h hw).1
  exact cRealign_of_eq (by rw [realign_eq h hw]; unfold padding; omega)

theorem padding_lt {pos base w : Nat} (h : base ≤ pos) (hw : 0 < w) : padding pos base w < 8 * w := by
  have := realignTo_bounds h hw
  unfold padding; omega

theorem add_padding {pos base w : Nat} (h : base ≤ pos) (hw : 0 < w) :
    pos + padding pos base w = realignTo pos base w := by
  have := realignTo_bounds h hw
  unfold padding; omega

/-- C_PUT on a written buffer with room for the window (R139). -/
theorem cPut_ok {code : Code} {w : Nat} {s : State} (hk : s.obits / 8 + 2 < 32) (hw : Written 32 s.obuf) :
    ∃ m, putCodeIn .obuf 32 s.obuf s.obits code = .ok m ∧
      cPut code w s = .ok { s with obuf := m, obits := s.obits + w, bitPosition := s.bitPosition + w } ∧
      Written 32 m ∧
      (∀ i, bufBit m i = (bufBit s.obuf i || (decide (s.obits ≤ i) && code.getLsbD (i - s.obits)))) := by
  obtain ⟨m, e, hm, hb, -⟩ := putCodeIn_written (name := .obuf) code hk hw
  refine ⟨m, e, ?_, hm, hb⟩
  unfold cPut
  rw [show Config.obufBytes = 32 from rfl, e, Res.ok_bind]

/-- The bits of the staged output after C_PUT of a code that fits (R132, R43 (d)). -/
theorem bits_after_put {s : State} {code : Code} {w : Nat} {m : Mem Byte} (ht : TailZero s) (hc : code.toNat < 2 ^ w)
    (hb : ∀ i, bufBit m i = (bufBit s.obuf i || (decide (s.obits ≤ i) && code.getLsbD (i - s.obits)))) (i : Nat) :
    bufBit m i = if i < s.obits then bufBit s.obuf i
      else if i < s.obits + w then code.getLsbD (i - s.obits) else false := by
  rw [hb]
  by_cases h1 : i < s.obits
  · simp [h1, show ¬ s.obits ≤ i by omega]
  · have : bufBit s.obuf i = false := ht i (by omega)
    by_cases h2 : i < s.obits + w
    · simp [h1, h2, this, show s.obits ≤ i by omega]
    · have : code.getLsbD (i - s.obits) = false := by
        rw [BitVec.getLsbD]
        exact Nat.testBit_lt_two_pow (lt_of_lt_of_le hc (Nat.pow_le_pow_right (by omega) (by omega)))
      simp [h1, h2, this, ht i (by omega)]

/-- `n` shifts of the input buffer (R141). -/
def dropMany : Nat → Mem Byte → Mem Byte
  | 0, m => m
  | n + 1, m => dropMany n (Mem.shiftDown 4 0#8 m)

theorem get_dropMany (n : Nat) (m : Mem Byte) {a : Nat} (ha : a < 4) :
    Mem.get (dropMany n m) a = if a + n < 4 then Mem.get m (a + n) else some 0#8 := by
  induction n generalizing m with
  | zero => simp [dropMany, ha]
  | succ n ih =>
    rw [dropMany, ih]
    by_cases h : a + n < 4
    · rw [if_pos h, Mem.get_shiftDown _ _ _ h]; rfl
    · rw [if_neg h, if_neg (by omega)]

theorem dropMany_wf (n : Nat) {m : Mem Byte} (h : Mem.wf 4 m = true) : Mem.wf 4 (dropMany n m) = true := by
  induction n generalizing m with
  | zero => exact h
  | succ n ih => exact ih (Mem.wf_shiftDown _ h (by omega))

theorem dropBytes_ok (n : Nat) (s : State) (h : 8 * n ≤ s.ipos) (hi : s.ipos ≤ s.ibits) :
    dropBytes n s = .ok { s with
      ibuf := dropMany n s.ibuf, ipos := s.ipos - 8 * n, ibits := s.ibits - 8 * n } := by
  induction n generalizing s with
  | zero => rfl
  | succ n ih =>
    rw [dropBytes, dropByte, if_pos (by omega), Res.ok_bind, ih _ (by simp only; omega) (by simp only; omega)]
    simp only [dropMany, Config.ibufBytes]
    congr 2 <;> omega

/-- IBUF_COMPACT (R141). -/
theorem ibufCompact_ok {s : State} (hi : s.ipos ≤ s.ibits) :
    ibufCompact s = .ok { s with
      ibuf := dropMany (s.ipos / 8) s.ibuf, ipos := s.ipos % 8, ibits := s.ibits - 8 * (s.ipos / 8) } := by
  rw [ibufCompact, dropBytes_ok _ _ (by omega) hi]
  congr 2; omega

/-- The state after the input cursor moved by `k` and the buffer was compacted. -/
def State.advance (s : State) (k : Nat) : State :=
  { s with
    ibuf := dropMany ((s.ipos + k) / 8) s.ibuf
    ipos := (s.ipos + k) % 8
    ibits := s.ibits - 8 * ((s.ipos + k) / 8) }

theorem advance_advanced (s : State) (k : Nat) : Advanced k s (s.advance k) :=
  ⟨rfl, rfl, fun _ ha => get_dropMany _ _ ha⟩

/-- D_SKIP (R142). -/
theorem dSkip_ok {s : State} (hi : s.ipos ≤ s.ibits) :
    dSkip s = .ok (({ s with iskip := s.iskip - min s.iskip s.avail } : State).advance (min s.iskip s.avail)) := by
  unfold dSkip
  rw [ibufCompact_ok]
  · rfl
  · simp only [State.avail]; omega

/-- D_REALIGN (R137). -/
theorem dRealign_ok {w : Nat} {s : State} (h : s.alignBase ≤ s.bitPosition) (hw : 0 < w) (hi : s.ipos ≤ s.ibits) :
    dRealign w s = .ok (({ s with
      bitPosition := realignTo s.bitPosition s.alignBase w
      iskip := s.iskip + padding s.bitPosition s.alignBase w -
        min (s.iskip + padding s.bitPosition s.alignBase w) s.avail } : State).advance
          (min (s.iskip + padding s.bitPosition s.alignBase w) s.avail)) := by
  unfold dRealign
  rw [realign_eq h hw, dSkip_ok]
  · rfl
  · exact hi

/-- D_GET within its precondition (R140). -/
theorem dGet_ok {s : State} (hp : s.ipos < 8) (hw : s.nBits ≤ 16) (ha : s.ipos + s.nBits ≤ s.ibits)
    (hm : Written 4 s.ibuf) :
    ∃ c : Code, c.toNat = streamValue s.ibuf s.ipos s.nBits ∧
      dGet s = .ok (c, ({ s with bitPosition := s.bitPosition + s.nBits } : State).advance s.nBits) := by
  obtain ⟨c, e, hc⟩ := getCodeIn_written (name := .ibuf) (off := s.ipos) (w := s.nBits) (size := 4)
    (by omega) hm hw
  refine ⟨c, hc, ?_⟩
  unfold dGet
  rw [show Config.ibufBytes = 4 from rfl, e, Res.ok_bind, ibufCompact_ok (by simpa using ha)]
  rfl

/-- D_TAKE (R143). -/
theorem dTake_ok {b : Byte} {s : State} (h : s.ibits / 8 < 4) :
    dTake b s = dSkip { s with ibuf := Mem.put s.ibuf (s.ibits / 8) b, ibits := s.ibits + 8 } := by
  unfold dTake
  rw [show Config.ibufBytes = 4 from rfl, writeMem_ok h, Res.ok_bind]

end Sys2Proof.Machine
end

