-- ==== Sys2Proof/Laws/Dictionary.lean ====
section
/-! SUPPORT. Laws/Dictionary.lean: the probe sequence (R153), what a lookup answers (R159), that it keeps the hash
invariants (R158), and what PUSH and UNROLL leave on the stack (R169). -/

namespace Sys2Proof.Machine

/-! ## HASH and the probe sequence -/

/-- R151, as naturals. -/
theorem hashIndex_toNat (p : Code) (b : Byte) : (hashIndex p b).toNat = (b.toNat * 512) ^^^ p.toNat := by
  have hp := p.isLt
  have hb := b.isLt
  have hx : (b.toNat * 512) ^^^ p.toNat < 2 ^ 17 := Nat.xor_lt_two_pow (by omega) (by omega)
  have hm : (0x1FFFF#17 : HIdx) = BitVec.allOnes 17 := by decide
  unfold hashIndex
  rw [hm, BitVec.and_allOnes, BitVec.toNat_xor, BitVec.toNat_shiftLeft, BitVec.toNat_setWidth, BitVec.toNat_setWidth,
    Nat.shiftLeft_eq, Nat.mod_eq_of_lt (show b.toNat < 2 ^ 17 by omega),
    Nat.mod_eq_of_lt (show b.toNat * 2 ^ 9 < 2 ^ 17 by omega), Nat.mod_eq_of_lt (show p.toNat < 2 ^ 17 by omega)]
  rfl

theorem stride_odd (b : Byte) : Config.stride b % 2 = 1 := by unfold Config.stride; omega

theorem probeNext_toNat (h : HIdx) (b : Byte) :
    ((probeNext h b).toNat : Int) = (h.toNat + Config.stride b) % 131072 := by
  unfold probeNext
  rw [BitVec.toNat_add, BitVec.toNat_ofInt]
  omega

/-- The probe sequence as an arithmetic progression. -/
theorem probeAt_toNat (p : Code) (b : Byte) (n : Nat) :
    ((probeAt p b n).toNat : Int) = ((hashIndex p b).toNat + n * Config.stride b) % 131072 := by
  induction n with
  | zero =>
    have := (hashIndex p b).isLt
    simp only [probeAt]
    omega
  | succ n ih =>
    have e : ((n + 1 : Nat) : Int) * Config.stride b = n * Config.stride b + Config.stride b := by push_cast; ring
    rw [probeAt, probeNext_toNat, ih, e]
    generalize (n : Int) * Config.stride b = x
    omega

/-- R153: the first 131072 indices of a probe sequence are all different. -/
theorem probeAt_injective {p : Code} {b : Byte} {i j : Nat} (hi : i < 131072) (hj : j < 131072)
    (h : probeAt p b i = probeAt p b j) : i = j := by
  have h1 := probeAt_toNat p b i
  have h2 := probeAt_toNat p b j
  rw [h] at h1
  have h3 : ((131072 : Nat) : Int) ∣ (i - j : Int) * Config.stride b := by
    have : ((i - j : Int) * Config.stride b) = i * Config.stride b - j * Config.stride b := by ring
    rw [this]
    generalize (i : Int) * Config.stride b = x at *
    generalize (j : Int) * Config.stride b = y at *
    omega
  have hc : IsCoprime ((131072 : Nat) : Int) (Config.stride b) := by
    rw [show ((131072 : Nat) : Int) = 2 ^ 17 by norm_num]
    apply IsCoprime.pow_left
    refine ⟨-(Config.stride b / 2), 1, ?_⟩
    have := stride_odd b
    omega
  have h4 := hc.dvd_of_dvd_mul_right h3
  omega

/-- R153: a probe sequence visits every slot. -/
theorem probeAt_surjective (p : Code) (b : Byte) (h : HIdx) : ∃ i, i < 131072 ∧ probeAt p b i = h := by
  have inj : Function.Injective (fun i : Fin 131072 => (⟨(probeAt p b i).toNat, (probeAt p b i).isLt⟩ : Fin 131072)) := by
    intro i j e
    have := probeAt_injective (p := p) (b := b) i.isLt j.isLt (BitVec.eq_of_toNat_eq (congrArg Fin.val e))
    exact Fin.ext this
  obtain ⟨i, hi⟩ := (Finite.injective_iff_surjective.1 inj) ⟨h.toNat, h.isLt⟩
  exact ⟨i, i.isLt, BitVec.eq_of_toNat_eq (congrArg Fin.val hi)⟩

/-! ## Slots -/

theorem HashMem.read_of_get {t : HashMem} {h : HIdx} {e : Slot} (hg : Mem.get t.cells h.toNat = some e) :
    t.read h = .entry e := by simp [HashMem.read, hg]

theorem HashMem.read_of_none {t : HashMem} {h : HIdx} (hc : t.cleared = true)
    (hg : Mem.get t.cells h.toNat = none) : t.read h = .empty := by simp [HashMem.read, hg, hc]

/-- The addresses a memory lists. -/
theorem mem_of_get_isSome {α : Type} {m : Mem α} {a : Nat} (h : (Mem.get m a).isSome = true) : a ∈ m.map (·.1) := by
  induction m with
  | nil => simp at h
  | cons c m ih =>
    rw [Mem.get_cons] at h
    by_cases e : c.1 = a
    · simp [e]
    · rw [if_neg e] at h
      exact List.mem_map.2 (by obtain ⟨d, hd, he⟩ := List.mem_map.1 (ih h); exact ⟨d, by simp [hd], he⟩)

/-- With fewer entries than slots, every probe sequence meets an empty slot (R43 (c), R153). -/
theorem exists_empty (t : HashMem) (p : Code) (b : Byte) (hl : t.cells.length < 131072) :
    ∃ n, n < 131072 ∧ Mem.get t.cells (probeAt p b n).toNat = none := by
  by_contra hcon
  have hall : ∀ n, n < 131072 → (probeAt p b n).toNat ∈ t.cells.map (·.1) := by
    intro n hn
    refine mem_of_get_isSome (Option.isSome_iff_ne_none.2 ?_)
    exact fun h => hcon ⟨n, hn, h⟩
  have hsub : Finset.image (fun n => (probeAt p b n).toNat) (Finset.range 131072) ⊆ (t.cells.map (·.1)).toFinset := by
    intro x hx
    obtain ⟨n, hn, rfl⟩ := Finset.mem_image.1 hx
    exact List.mem_toFinset.2 (hall n (Finset.mem_range.1 hn))
  have hcard : (Finset.image (fun n => (probeAt p b n).toNat) (Finset.range 131072)).card = 131072 := by
    rw [Finset.card_image_of_injOn, Finset.card_range]
    intro i hi j hj e
    exact probeAt_injective (Finset.mem_range.1 hi) (Finset.mem_range.1 hj) (BitVec.eq_of_toNat_eq e)
  have h1 := Finset.card_le_card hsub
  have h2 := List.toFinset_card_le (t.cells.map (·.1))
  rw [List.length_map] at h2
  omega

/-! ## The probe loop -/

/-- The loop passes over entries of other pairs. -/
theorem probeFrom_skip {t : HashMem} {p : Code} {b : Byte} (n fuel k : Nat)
    (h : ∀ m, m < n → ∃ e, t.read (probeAt p b (k + m)) = .entry e ∧ ¬ (e.kprefix = p ∧ e.kbyte = b)) :
    probeFrom t p b (n + fuel) (probeAt p b k) = probeFrom t p b fuel (probeAt p b (k + n)) := by
  induction n generalizing k with
  | zero => simp
  | succ n ih =>
    obtain ⟨e, he, hne⟩ := h 0 (by omega)
    rw [Nat.add_zero] at he
    rw [Nat.add_right_comm, probeFrom, he]
    simp only [if_neg hne]
    rw [show probeNext (probeAt p b k) b = probeAt p b (k + 1) from rfl, ih (k + 1)]
    · rw [show k + 1 + n = k + (n + 1) by omega]
    · intro m hm
      rw [show k + 1 + m = k + (m + 1) by omega]
      exact h (m + 1) (by omega)

theorem probeFrom_of_empty {t : HashMem} {p : Code} {b : Byte} {n : Nat} (hn : n < 131072)
    (h : ∀ m, m < n → ∃ e, t.read (probeAt p b m) = .entry e ∧ ¬ (e.kprefix = p ∧ e.kbyte = b))
    (he : t.read (probeAt p b n) = .empty) :
    probeFrom t p b 131072 (hashIndex p b) = .ok (.emptyAt (probeAt p b n)) := by
  have := probeFrom_skip (t := t) n (131072 - n) 0 (by simpa using h)
  rw [show n + (131072 - n) = 131072 by omega, Nat.zero_add] at this
  rw [show hashIndex p b = probeAt p b 0 from rfl, this, show 131072 - n = (131071 - n) + 1 by omega, probeFrom, he]

theorem probeFrom_of_found {t : HashMem} {p : Code} {b : Byte} {n : Nat} {c : Code} (hn : n < 131072)
    (h : ∀ m, m < n → ∃ e, t.read (probeAt p b m) = .entry e ∧ ¬ (e.kprefix = p ∧ e.kbyte = b))
    (he : t.read (probeAt p b n) = .entry { kprefix := p, kbyte := b, code := c }) :
    probeFrom t p b 131072 (hashIndex p b) = .ok (.found c) := by
  have := probeFrom_skip (t := t) n (131072 - n) 0 (by simpa using h)
  rw [show n + (131072 - n) = 131072 by omega, Nat.zero_add] at this
  rw [show hashIndex p b = probeAt p b 0 from rfl, this, show 131072 - n = (131071 - n) + 1 by omega, probeFrom, he]
  simp

/-- A lookup of a stored pair (R159). -/
theorem lookup_of_stored {p : Code} {b : Byte} {c : Code} {s : State} (hi : HashInv s) (h : Stored s.hslot p b c) :
    lookupOrInsert p b s = .ok (.hit c, s) := by
  obtain ⟨a, ha⟩ := h
  obtain ⟨n, hn, hna, hbefore⟩ := hi.reach a _ ha
  change n < 131072 at hn
  have hf : probeFrom s.hslot p b 131072 (hashIndex p b) = .ok (.found c) := by
    refine probeFrom_of_found hn ?_ (HashMem.read_of_get (hna ▸ ha))
    intro m hm
    obtain ⟨e, he⟩ := Option.isSome_iff_exists.1 (hbefore m hm)
    refine ⟨e, HashMem.read_of_get he, fun hx => ?_⟩
    have := hi.unique _ _ _ _ he ha hx.1 hx.2
    have := probeAt_injective (by omega) hn (BitVec.eq_of_toNat_eq (this.trans hna.symm))
    omega
  unfold lookupOrInsert
  rw [show Config.hSize = 131072 from rfl, hf, Res.ok_bind]
  rfl

/-- A lookup of a pair that is not stored: it ends at the first empty slot of the pair's probe sequence, and inserts
there if the table is not full (R159, R154). -/
theorem lookup_of_not_stored {p : Code} {b : Byte} {s : State} (hi : HashInv s) (hl : s.freeEnt ≤ 65536)
    (h : ∀ c, ¬ Stored s.hslot p b c) :
    ∃ n, n < 131072 ∧ Mem.get s.hslot.cells (probeAt p b n).toNat = none ∧
      (∀ m, m < n → (Mem.get s.hslot.cells (probeAt p b m).toNat).isSome = true) ∧
      lookupOrInsert p b s = .ok (.miss, if s.full then s else insertAt (probeAt p b n) p b s) := by
  have hlen : s.hslot.cells.length < 131072 := by have := hi.count; omega
  have hex := exists_empty s.hslot p b hlen
  let n := Nat.find hex
  obtain ⟨hn, hnone⟩ := Nat.find_spec hex
  have hbefore : ∀ m, m < n → (Mem.get s.hslot.cells (probeAt p b m).toNat).isSome = true := by
    intro m hm
    have := Nat.find_min hex hm
    by_contra hx
    exact this ⟨lt_trans hm hn, by simpa using hx⟩
  refine ⟨n, hn, hnone, hbefore, ?_⟩
  have hf : probeFrom s.hslot p b 131072 (hashIndex p b) = .ok (.emptyAt (probeAt p b n)) := by
    refine probeFrom_of_empty hn ?_ (HashMem.read_of_none hi.cleared hnone)
    intro m hm
    obtain ⟨e, he⟩ := Option.isSome_iff_exists.1 (hbefore m hm)
    refine ⟨e, HashMem.read_of_get he, fun hx => h e.code ⟨(probeAt p b m).toNat, ?_⟩⟩
    rw [he, ← hx.1, ← hx.2]
  unfold lookupOrInsert
  rw [show Config.hSize = 131072 from rfl, hf, Res.ok_bind]
  rfl

theorem length_put_of_none {α : Type} {m : Mem α} {a : Nat} {v : α} (h : Mem.get m a = none) :
    (Mem.put m a v).length = m.length + 1 := by
  induction m with
  | nil => rfl
  | cons c m ih =>
    obtain ⟨k, w⟩ := c
    rw [Mem.get_cons] at h
    by_cases e : k = a
    · simp [e] at h
    · rw [if_neg e] at h
      simp only [Mem.put]
      split
      · simp
      · rw [if_neg (fun x => e x.symm)]
        simp [ih h]

/-- R155: within its precondition the code stored is `free_ent`. -/
theorem codeOf_eq {n : Nat} (h : n < 65536) : codeOf n = BitVec.ofNat 16 n := if_pos h

theorem codeOf_toNat {n : Nat} (h : n < 65536) : (codeOf n).toNat = n := by
  rw [codeOf_eq h, BitVec.toNat_ofNat]; exact Nat.mod_eq_of_lt h

theorem stored_insertAt {p : Code} {b : Byte} {h : HIdx} {s : State} (hn : Mem.get s.hslot.cells h.toNat = none)
    (p' : Code) (b' : Byte) (c' : Code) :
    Stored (insertAt h p b s).hslot p' b' c' ↔
      Stored s.hslot p' b' c' ∨ (p' = p ∧ b' = b ∧ c' = codeOf s.freeEnt) := by
  simp only [Stored, insertAt, HashMem.fill, Mem.get_put]
  constructor
  · rintro ⟨a, ha⟩
    by_cases e : a = h.toNat
    · rw [if_pos e] at ha
      injection ha with ha
      injection ha with h1 h2 h3
      exact .inr ⟨h1.symm, h2.symm, h3.symm⟩
    · rw [if_neg e] at ha
      exact .inl ⟨a, ha⟩
  · rintro (⟨a, ha⟩ | ⟨rfl, rfl, rfl⟩)
    · refine ⟨a, ?_⟩
      rw [if_neg]
      · exact ha
      · rintro rfl
        rw [hn] at ha
        cases ha
    · exact ⟨h.toNat, by simp⟩

/-- An insertion at the first empty slot of its pair's probe sequence keeps the invariants (R158). -/
theorem hashInv_insertAt {p : Code} {b : Byte} {n : Nat} {s : State} (hi : HashInv s) (hlo : firstFree s.blockMode ≤ s.freeEnt)
    (hhi : s.freeEnt < 65536) (hp : p.toNat < s.freeEnt) (hst : ∀ c, ¬ Stored s.hslot p b c)
    (hn : n < 131072) (hnone : Mem.get s.hslot.cells (probeAt p b n).toNat = none)
    (hbefore : ∀ m, m < n → (Mem.get s.hslot.cells (probeAt p b m).toNat).isSome = true) :
    HashInv (insertAt (probeAt p b n) p b s) := by
  have hcode := codeOf_toNat hhi
  have hget : ∀ a, Mem.get (insertAt (probeAt p b n) p b s).hslot.cells a =
      if a = (probeAt p b n).toNat then some { kprefix := p, kbyte := b, code := codeOf s.freeEnt }
      else Mem.get s.hslot.cells a := fun a => Mem.get_put _ _ _ _
  have hnot : ∀ a e, Mem.get s.hslot.cells a = some e → ¬ (e.kprefix = p ∧ e.kbyte = b) := by
    intro a e he hx
    exact hst e.code ⟨a, by rw [he, ← hx.1, ← hx.2]⟩
  refine ⟨hi.cleared, ?_, ?_, ?_, ?_, ?_, ?_, ?_⟩
  · intro a1 a2 e1 e2 h1 h2 hk hb
    rw [hget] at h1 h2
    by_cases x1 : a1 = (probeAt p b n).toNat <;> by_cases x2 : a2 = (probeAt p b n).toNat
    · omega
    · rw [if_pos x1] at h1; rw [if_neg x2] at h2
      cases h1
      exact absurd ⟨hk.symm, hb.symm⟩ (hnot _ _ h2)
    · rw [if_neg x1] at h1; rw [if_pos x2] at h2
      cases h2
      exact absurd ⟨hk, hb⟩ (hnot _ _ h1)
    · rw [if_neg x1] at h1; rw [if_neg x2] at h2
      exact hi.unique _ _ _ _ h1 h2 hk hb
  · intro a e he
    rw [hget] at he
    simp only [insertAt_blockMode, insertAt_freeEnt]
    by_cases x : a = (probeAt p b n).toNat
    · rw [if_pos x] at he
      cases he
      simp only [hcode]
      omega
    · rw [if_neg x] at he
      have := hi.codeRange _ _ he
      omega
  · intro a1 a2 e1 e2 h1 h2 hc
    rw [hget] at h1 h2
    by_cases x1 : a1 = (probeAt p b n).toNat <;> by_cases x2 : a2 = (probeAt p b n).toNat
    · omega
    · rw [if_pos x1] at h1; rw [if_neg x2] at h2
      cases h1
      have := (hi.codeRange _ _ h2).2
      rw [← hc, hcode] at this
      omega
    · rw [if_neg x1] at h1; rw [if_pos x2] at h2
      cases h2
      have := (hi.codeRange _ _ h1).2
      rw [hc, hcode] at this
      omega
    · rw [if_neg x1] at h1; rw [if_neg x2] at h2
      exact hi.codeOnce _ _ _ _ h1 h2 hc
  · intro c h1 h2
    simp only [insertAt_blockMode, insertAt_freeEnt] at h1 h2
    by_cases hx : c = s.freeEnt
    · exact ⟨(probeAt p b n).toNat, _, by rw [hget, if_pos rfl], by simp only [hcode]; omega⟩
    · obtain ⟨a, e, he, hec⟩ := hi.codeAll c h1 (by omega)
      refine ⟨a, e, ?_, hec⟩
      rw [hget, if_neg]
      · exact he
      · rintro rfl; rw [hnone] at he; cases he
  · have h1 : (insertAt (probeAt p b n) p b s).hslot.cells.length = s.hslot.cells.length + 1 :=
      length_put_of_none hnone
    have h2 := hi.count
    simp only [insertAt_blockMode, insertAt_freeEnt, h1]
    omega
  · intro a e he
    rw [hget] at he
    by_cases x : a = (probeAt p b n).toNat
    · rw [if_pos x] at he
      cases he
      refine ⟨n, hn, x.symm, fun m hm => ?_⟩
      simp only [hget]
      split
      · rfl
      · exact hbefore m hm
    · rw [if_neg x] at he
      obtain ⟨k, hk, hka, hkb⟩ := hi.reach _ _ he
      refine ⟨k, hk, hka, fun m hm => ?_⟩
      rw [hget]
      split
      · rfl
      · exact hkb m hm
  · intro a e he
    rw [hget] at he
    by_cases x : a = (probeAt p b n).toNat
    · rw [if_pos x] at he
      cases he
      simp only [hcode]
      exact hp
    · rw [if_neg x] at he
      exact hi.older _ _ he

/-- An empty table meets the invariants (R157, R180). -/
theorem hashInv_empty {s : State} (h : s.hslot = HashMem.allEmpty) (hf : s.freeEnt = firstFree s.blockMode) :
    HashInv s := by
  have hg : ∀ a, Mem.get s.hslot.cells a = none := fun a => by rw [h]; rfl
  refine ⟨by rw [h]; rfl, ?_, ?_, ?_, ?_, ?_, ?_, ?_⟩
  · intro a1 a2 e1 e2 h1; rw [hg] at h1; cases h1
  · intro a e h1; rw [hg] at h1; cases h1
  · intro a1 a2 e1 e2 h1; rw [hg] at h1; cases h1
  · intro c h1 h2; omega
  · rw [h]; simp [HashMem.allEmpty, hf]
  · intro a e h1; rw [hg] at h1; cases h1
  · intro a e h1; rw [hg] at h1; cases h1

/-- The hash invariants look at four fields only. -/
theorem HashInv.congr {s t : State} (h : HashInv s) (h1 : t.hslot = s.hslot) (h2 : t.blockMode = s.blockMode)
    (h3 : t.freeEnt = s.freeEnt) : HashInv t := by
  obtain ⟨a, b, c, d, e, f, g, k⟩ := h
  exact ⟨h1 ▸ a, h1 ▸ b, by rw [h1, h2, h3]; exact c, h1 ▸ d, by rw [h1, h2, h3]; exact e,
    by rw [h1, h2, h3]; exact f, h1 ▸ g, h1 ▸ k⟩

/-! ## PUSH and UNROLL -/

theorem push_ok {b : Byte} {s : State} (h : s.sp < 65536) :
    push b s = .ok { s with stack := Mem.put s.stack s.sp b, sp := s.sp + 1 } := by
  unfold push
  rw [writeMem_ok h, Res.ok_bind]

/-- The state after `bytes` were pushed. -/
def State.pushAll (s : State) : List Byte → State
  | [] => s
  | b :: bs => State.pushAll { s with stack := Mem.put s.stack s.sp b, sp := s.sp + 1 } bs

theorem pushAll_eq (bytes : List Byte) (s : State) :
    s.pushAll bytes = { s with stack := (s.pushAll bytes).stack, sp := s.sp + bytes.length } := by
  induction bytes generalizing s with
  | nil => rfl
  | cons b bs ih =>
    rw [State.pushAll, ih]
    simp only [List.length_cons]
    congr 1
    omega

theorem pushAll_append (a b : List Byte) (s : State) : s.pushAll (a ++ b) = (s.pushAll a).pushAll b := by
  induction a generalizing s with
  | nil => rfl
  | cons x a ih => exact ih _

theorem pushAll_pushed (bytes : List Byte) (s : State) : Pushed bytes s (s.pushAll bytes) := by
  induction bytes generalizing s with
  | nil => exact ⟨rfl, by simp, fun _ _ => rfl⟩
  | cons b bs ih =>
    obtain ⟨h1, h2, h3⟩ := ih { s with stack := Mem.put s.stack s.sp b, sp := s.sp + 1 }
    refine ⟨by rw [State.pushAll, h1]; simp only [List.length_cons]; omega, ?_, ?_⟩
    · intro i hi
      rw [State.pushAll]
      cases i with
      | zero =>
        rw [h3 _ (.inl (by simp))]
        simp
      | succ i =>
        have := h2 i (by simpa using hi)
        simp only at this
        rw [show s.sp + (i + 1) = s.sp + 1 + i by omega, this]
        simp
    · intro a ha
      rw [State.pushAll, h3 a (by simp only [List.length_cons] at ha ⊢; omega)]
      exact Mem.get_put_ne _ _ _ (by simp only [List.length_cons] at ha; omega)

theorem pushAll_wf {bytes : List Byte} {s : State} (h : Mem.wf 65536 s.stack = true) (hr : s.sp + bytes.length ≤ 65536) :
    Mem.wf 65536 (s.pushAll bytes).stack = true := by
  induction bytes generalizing s with
  | nil => exact h
  | cons b bs ih =>
    simp only [List.length_cons] at hr
    exact ih (Mem.wf_put _ h (by omega)) (by simp only; omega)

theorem Spells.ne_nil {s : State} {c : Code} {str : List Byte} (h : Spells s c str) : str ≠ [] := by
  cases h <;> simp

/-- A code spells one string at most. -/
theorem Spells.unique {s : State} {c : Code} {str str' : List Byte} (h : Spells s c str) (h' : Spells s c str') :
    str = str' := by
  induction h generalizing str' with
  | literal c hc =>
    cases h' with
    | literal _ _ => rfl
    | entry _ p b str h hp hb hs => omega
  | entry c p b str hc hp hb hs ih =>
    cases h' with
    | literal _ h => omega
    | entry _ p' b' str' h' hp' hb' hs' =>
      rw [hp] at hp'; rw [hb] at hb'
      cases hp'; cases hb'
      rw [ih hs']

/-- The string depends on the two tables only, and only below the code. -/
theorem Spells.congr {s t : State} {c : Code} {str : List Byte} (h : Spells s c str)
    (hg : ∀ e, e < 65536 → (Mem.get s.tabPrefix e).isSome = true → (Mem.get s.tabSuffix e).isSome = true →
      Mem.get t.tabPrefix e = Mem.get s.tabPrefix e ∧ Mem.get t.tabSuffix e = Mem.get s.tabSuffix e) :
    Spells t c str := by
  induction h with
  | literal c hc => exact .literal c hc
  | entry c p b str hc hp hb hs ih =>
    have := hg c.toNat c.isLt (by rw [hp]; rfl) (by rw [hb]; rfl)
    exact .entry c p b str hc (this.1.trans hp) (this.2.trans hb) ih

/-- UNROLL of a code that spells a string (R169). -/
theorem unrollIn_ok {code : Code} {str : List Byte} {s₀ : State} (h : Spells s₀ code str) (s : State)
    (hp : s.tabPrefix = s₀.tabPrefix) (hsuf : s.tabSuffix = s₀.tabSuffix) (room : Nat)
    (hr : str.length ≤ room + 1) (hs : s.sp + str.length ≤ 65536) :
    ∃ first, str.head? = some first ∧ unrollIn room code s = .ok (first, s.pushAll str.reverse) := by
  induction h generalizing s room with
  | literal c hc =>
    refine ⟨c.setWidth 8, rfl, ?_⟩
    simp only [List.length_singleton] at hs
    rw [unrollIn, if_pos hc, push_ok (by omega), Res.ok_bind]
    rfl
  | entry c p b str hc hgp hgb hstr ih =>
    have hne := hstr.ne_nil
    have hpos : 0 < str.length := List.length_pos_of_ne_nil hne
    simp only [List.length_append, List.length_singleton] at hr hs
    obtain ⟨n, rfl⟩ : ∃ n, room = n + 1 := ⟨room - 1, by omega⟩
    obtain ⟨first, hf, he⟩ := ih { s with stack := Mem.put s.stack s.sp b, sp := s.sp + 1 } hp hsuf n
      (by omega) (by simp only; omega)
    refine ⟨first, by rw [List.head?_append, hf]; rfl, ?_⟩
    rw [unrollIn, if_neg (by omega), hsuf, readMem_ok c.isLt hgb, Res.ok_bind, push_ok (by omega), Res.ok_bind]
    rw [← hp] at hgp
    rw [readMem_ok c.isLt hgp, Res.ok_bind]
    simp only
    rw [he, List.reverse_append]
    rfl

/-- UNROLL (R169). -/
theorem unroll_ok {code : Code} {str : List Byte} {s : State} (h : Spells s code str)
    (hs : s.sp + str.length ≤ 65536) :
    ∃ first, str.head? = some first ∧ unroll code s = .ok (first, s.pushAll str.reverse) :=
  unrollIn_ok h s rfl rfl _ (by simp only [Config.stackDepth]; omega) hs

/-! ## The table -/

theorem length_allBytes : allBytes.length = 256 := by simp only [allBytes, List.length_map, List.length_range]

theorem getElem?_allBytes {i : Nat} (h : i < 256) : allBytes[i]? = some (BitVec.ofNat 8 i) := by
  simp only [allBytes, List.getElem?_map, List.getElem?_range h, Option.map_some]

/-- TAB_SEED leaves the code's own value in each of the first 256 suffixes, and nothing else changed (R167). -/
theorem get_tabSeed_tabSuffix (s : State) (i : Nat) :
    Mem.get (tabSeed s).tabSuffix i = if i < 256 then some (BitVec.ofNat 8 i) else Mem.get s.tabSuffix i := by
  show Mem.get (Mem.putBlock s.tabSuffix 0 allBytes) i = _
  rw [Mem.get_putBlock, length_allBytes]
  by_cases h : i < 256
  · rw [if_pos (by omega), if_pos h, Nat.sub_zero, getElem?_allBytes h]
  · rw [if_neg (by omega), if_neg h]

theorem get_tabSeed_tabPrefix (s : State) (i : Nat) :
    Mem.get (tabSeed s).tabPrefix i = if i < 256 then some 0#16 else Mem.get s.tabPrefix i := by
  show Mem.get (Mem.putBlock s.tabPrefix 0 (List.replicate 256 0#16)) i = _
  rw [Mem.get_putBlock, List.length_replicate]
  by_cases h : i < 256
  · rw [if_pos (by omega), if_pos h, Nat.sub_zero, List.getElem?_replicate, if_pos h]
  · rw [if_neg (by omega), if_neg h]

theorem tabSeed_wf {s : State} (hp : Mem.wf 65536 s.tabPrefix = true) (hs : Mem.wf 65536 s.tabSuffix = true) :
    Mem.wf 65536 (tabSeed s).tabPrefix = true ∧ Mem.wf 65536 (tabSeed s).tabSuffix = true :=
  ⟨Mem.wf_putBlock _ hp (by rw [List.length_replicate]; omega), Mem.wf_putBlock _ hs (by rw [length_allBytes]; omega)⟩

/-- R170: a defined code spells a string, no longer than its number allows. -/
theorem OpenInv.spells {s : State} (hi : OpenInv s) : ∀ (n : Nat) (e : Code), e.toNat = n → Defined s e.toNat →
    ∃ str, Spells s e str ∧ (n < 256 → str.length = 1) ∧
      (256 ≤ n → str.length ≤ n - (if s.blockMode then 255 else 254)) := by
  intro n
  induction n using Nat.strong_induction_on with
  | _ n ih =>
    intro e he hd
    by_cases hlt : n < 256
    · exact ⟨_, .literal e (by omega), fun _ => rfl, fun h => by omega⟩
    · obtain ⟨p, b, hp, hb, hpe, hpd⟩ := hi.table e.toNat (by omega) hd
      obtain ⟨str, hs, h1, h2⟩ := ih p.toNat (by omega) p rfl hpd
      refine ⟨str ++ [b], .entry e p b str (by omega) hp hb hs, fun h => by omega, fun _ => ?_⟩
      simp only [List.length_append, List.length_singleton]
      have hfirst : firstFree s.blockMode ≤ n := by
        rcases hd with hd | hd
        · omega
        · omega
      have hcase : p.toNat < 256 ∨ 256 ≤ p.toNat := by omega
      unfold firstFree at hfirst
      rcases hcase with hc | hc
      · have := h1 hc
        split at hfirst <;> simp_all <;> omega
      · have := h2 hc
        split at hfirst <;> simp_all <;> omega

end Sys2Proof.Machine
end

