-- ==== Sys2Proof/Laws/Compress.lean ====
section
/-! SUPPORT. Laws/Compress.lean: what each step of the compress state machine answers, and what it appends to the staged
output. -/

namespace Sys2Proof.Machine

/-! ## Appending bits -/

theorem Appended.tailZero {n : Nat} {f : Nat → Bool} {s t : State} (h : Appended n f s t) : TailZero t := by
  intro i hi
  rw [h.2, if_neg (by have := h.1; omega), if_neg (by have := h.1; omega)]

theorem Appended.trans {n m : Nat} {f g : Nat → Bool} {s t u : State} (h : Appended n f s t) (h' : Appended m g t u) :
    Appended (n + m) (fun j => if j < n then f j else g (j - n)) s u := by
  obtain ⟨h1, h2⟩ := h
  obtain ⟨h3, h4⟩ := h'
  refine ⟨by omega, fun i => ?_⟩
  rw [h4]
  by_cases a : i < s.obits
  · rw [if_pos (by omega), h2, if_pos a, if_pos a]
  · by_cases b : i < s.obits + n
    · rw [if_pos (by omega), h2, if_neg a, if_pos b, if_neg a, if_pos (by omega)]
      beta_reduce
      rw [if_pos (by omega)]
    · by_cases c : i < s.obits + (n + m)
      · rw [if_neg (by omega), if_pos (by omega), if_neg a, if_pos c]
        beta_reduce
        rw [if_neg (by omega)]
        congr 1; omega
      · rw [if_neg (by omega), if_neg (by omega), if_neg a, if_neg c]

theorem Appended.congr {n : Nat} {f g : Nat → Bool} {s t : State} (h : Appended n f s t)
    (hfg : ∀ j, j < n → f j = g j) : Appended n g s t := by
  refine ⟨h.1, fun i => ?_⟩
  rw [h.2]
  by_cases a : i < s.obits
  · rw [if_pos a, if_pos a]
  · by_cases b : i < s.obits + n
    · rw [if_neg a, if_pos b, if_neg a, if_pos b, hfg _ (by omega)]
    · rw [if_neg a, if_neg b, if_neg a, if_neg b]

/-- Zero bits above the staged ones: padding (R136, R198). -/
theorem appended_padding {s t : State} {n : Nat} (ht : TailZero s) (ho : t.obits = s.obits + n)
    (hb : t.obuf = s.obuf) : Appended n (fun _ => false) s t := by
  refine ⟨ho, fun i => ?_⟩
  rw [hb]
  by_cases h1 : i < s.obits
  · rw [if_pos h1]
  · rw [if_neg h1, ht i (by omega)]
    split <;> rfl

/-- C_PUT of a code that fits appends its bits (R139). -/
theorem cPut_appended {code : Code} {w : Nat} {s : State} (hk : s.obits / 8 + 2 < 32) (hw : Written 32 s.obuf)
    (ht : TailZero s) (hc : code.toNat < 2 ^ w) :
    ∃ m, cPut code w s = .ok { s with obuf := m, obits := s.obits + w, bitPosition := s.bitPosition + w } ∧
      Written 32 m ∧
      Appended w code.getLsbD s { s with obuf := m, obits := s.obits + w, bitPosition := s.bitPosition + w } := by
  obtain ⟨m, -, e, hm, hb⟩ := cPut_ok (code := code) (w := w) hk hw
  exact ⟨m, e, hm, rfl, fun i => bits_after_put ht hc hb i⟩

/-! ## C_GROW, C_RATIO -/

theorem cGrow_of_widens {s : State} (hg : s.nBits < s.maxbits ∧ 2 ^ s.nBits < s.freeEnt)
    (h : s.alignBase ≤ s.bitPosition) (hw : 0 < s.nBits) :
    cGrow s = .ok { s with
      obits := s.obits + padding s.bitPosition s.alignBase s.nBits
      bitPosition := s.bitPosition + padding s.bitPosition s.alignBase s.nBits
      nBits := s.nBits + 1
      alignBase := originAfterGrowth (s.bitPosition + padding s.bitPosition s.alignBase s.nBits) s.alignBase } := by
  have : cWidens s = true := by simp [cWidens, hg]
  unfold cGrow
  rw [if_pos this, cRealign_eq h hw]

theorem cGrow_of_not_widens {s : State} (hg : ¬ (s.nBits < s.maxbits ∧ 2 ^ s.nBits < s.freeEnt)) :
    cGrow s = .ok s := by
  have : cWidens s = false := by
    simp only [cWidens, Bool.and_eq_false_iff, decide_eq_false_iff_not]
    rwa [← not_and_or]
  unfold cGrow
  rw [this]
  rfl

/-- The CLEAR branch (R190). -/
theorem emitClear_ok {s : State} (h : s.alignBase ≤ s.bitPosition) (h9 : 9 ≤ s.nBits)
    (hk : s.obits / 8 + 2 < 32) (hw : Written 32 s.obuf) (ht : TailZero s) :
    ∃ t, emitClear s = .ok t ∧
      t = { s with
        obuf := t.obuf, obits := t.obits,
        bitPosition := s.bitPosition + s.nBits + padding (s.bitPosition + s.nBits) s.alignBase s.nBits,
        alignBase := s.bitPosition + s.nBits + padding (s.bitPosition + s.nBits) s.alignBase s.nBits,
        hslot := HashMem.allEmpty, freeEnt := 257, full := false, nBits := 9, ratioPrev := .zero } ∧
      Written 32 t.obuf ∧
      Appended (s.nBits + padding (s.bitPosition + s.nBits) s.alignBase s.nBits) (fun j => decide (j = 8)) s t := by
  have hlt : (256#16 : Code).toNat < 2 ^ s.nBits := by
    have : (2 : Nat) ^ 9 ≤ 2 ^ s.nBits := Nat.pow_le_pow_right (by omega) h9
    simp only [BitVec.toNat_ofNat]; omega
  obtain ⟨m, e, hm, ha⟩ := cPut_appended (code := 256#16) (w := s.nBits) hk hw ht hlt
  have hal : ({ s with obuf := m, obits := s.obits + s.nBits, bitPosition := s.bitPosition + s.nBits } : State).alignBase ≤
      ({ s with obuf := m, obits := s.obits + s.nBits, bitPosition := s.bitPosition + s.nBits } : State).bitPosition := by
    simp only; omega
  have he : emitClear s = .ok { s with
      obuf := m
      obits := s.obits + s.nBits + padding (s.bitPosition + s.nBits) s.alignBase s.nBits
      bitPosition := s.bitPosition + s.nBits + padding (s.bitPosition + s.nBits) s.alignBase s.nBits
      alignBase := s.bitPosition + s.nBits + padding (s.bitPosition + s.nBits) s.alignBase s.nBits
      hslot := HashMem.allEmpty, freeEnt := 257, full := false, nBits := 9, ratioPrev := .zero } := by
    unfold emitClear
    rw [show Config.clearCode = 256#16 from rfl, e, Res.ok_bind]
    simp only
    rw [cRealign_eq hal (by omega)]
    rfl
  refine ⟨_, he, rfl, hm, ?_⟩
  · have h2 : Appended (padding (s.bitPosition + s.nBits) s.alignBase s.nBits) (fun _ => false)
        { s with obuf := m, obits := s.obits + s.nBits, bitPosition := s.bitPosition + s.nBits }
        { s with obuf := m, obits := s.obits + s.nBits + padding (s.bitPosition + s.nBits) s.alignBase s.nBits } :=
      appended_padding ha.tailZero rfl rfl
    have h3 := (ha.trans h2).congr (g := fun j => decide (j = 8)) (by
      intro j hj
      by_cases hjn : j < s.nBits
      · rw [if_pos hjn]
        by_cases h16 : j < 16
        · interval_cases j <;> rfl
        · rw [BitVec.getLsbD_of_ge _ _ (by omega)]
          simp; omega
      · rw [if_neg hjn]
        simp; omega)
    exact ⟨by have := h3.1; simp only at this ⊢; omega, h3.2⟩

/-! ## C_DRAIN -/

theorem cDrain_ok {b : Byte} {s : State} (hb : Mem.get s.obuf 0 = some b) (ho : 8 ≤ s.obits) :
    cDrain s = .ok (b, { s with obuf := Mem.shiftDown 32 0#8 s.obuf, obits := s.obits - 8 }) := by
  unfold cDrain
  rw [readMem_ok (by decide) hb, Res.ok_bind, if_pos ho]

theorem written_shiftDown {m : Mem Byte} (h : Written 32 m) : Written 32 (Mem.shiftDown 32 0#8 m) := by
  intro a ha
  rw [Mem.get_shiftDown _ _ _ ha]
  split
  · exact h _ ‹_›
  · rfl

/-- A shift moves every bit down by 8 when nothing is staged above the buffer. -/
theorem bufBit_shiftDown {m : Mem Byte} (h : ∀ i, 256 ≤ i → bufBit m i = false) (i : Nat) :
    bufBit (Mem.shiftDown 32 0#8 m) i = bufBit m (i + 8) := by
  by_cases h1 : i / 8 < 31
  · refine bufBit_congr ?_ (by omega)
    rw [Mem.get_shiftDown _ _ _ (by omega), if_pos (by omega)]
    congr 1; omega
  · rw [h (i + 8) (by omega)]
    by_cases h2 : i / 8 = 31
    · rw [bufBit_of_get (b := 0#8)]
      · simp
      · rw [Mem.get_shiftDown _ _ _ (by omega), if_neg (by omega)]
    · exact bufBit_of_none (Mem.get_shiftDown_ge _ _ _ (by omega) (by omega))

/-- `n` C_DRAINs deliver the first `n` staged bytes, and the staged bits move down. -/
theorem cDrains_ok (n : Nat) {s : State} (hn : 8 * n ≤ s.obits) (ho : s.obits ≤ 256) (hw : Written 32 s.obuf)
    (ht : TailZero s) :
    ∃ out m, cDrains n s = .ok (out, { s with obuf := m, obits := s.obits - 8 * n }) ∧ out.length = n ∧
      Written 32 m ∧ (∀ i, bufBit m i = bufBit s.obuf (i + 8 * n)) ∧
      (∀ i, i < 8 * n → (out[i / 8]?.getD 0#8).getLsbD (i % 8) = bufBit s.obuf i) := by
  induction n generalizing s with
  | zero => exact ⟨[], s.obuf, rfl, rfl, hw, fun i => rfl, fun i hi => by omega⟩
  | succ n ih =>
    obtain ⟨b, hb⟩ := Option.isSome_iff_exists.1 (hw 0 (by omega))
    have hbit := bufBit_shiftDown (m := s.obuf) (fun i hi => ht i (by omega))
    obtain ⟨out, m, e, hl, hm, hbits, hout⟩ := ih
      (s := { s with obuf := Mem.shiftDown 32 0#8 s.obuf, obits := s.obits - 8 })
      (by simp only; omega) (by simp only; omega) (written_shiftDown hw)
      (by intro i hi; simp only at hi ⊢; rw [hbit]; exact ht _ (by omega))
    refine ⟨b :: out, m, ?_, by simp [hl], hm, ?_, ?_⟩
    · rw [cDrains, cDrain_ok hb (by omega), Res.ok_bind]
      simp only
      rw [e, Res.ok_bind]
      simp only
      congr 3
      omega
    · intro i
      rw [hbits, hbit]
      congr 1
    · intro i hi
      by_cases h8 : i < 8
      · rw [show i / 8 = 0 by omega]
        exact (bufBit_of_get (i := i) (by rw [show i / 8 = 0 by omega]; exact hb)).symm
      · have := hout (i - 8) (by omega)
        rw [hbit] at this
        rw [show i / 8 = (i - 8) / 8 + 1 by omega, List.getElem?_cons_succ, show i % 8 = (i - 8) % 8 by omega, this]
        congr 1; omega

end Sys2Proof.Machine
end

