-- ==== Sys2Proof/Laws/Decompress.lean ====
section
/-! SUPPORT. Laws/Decompress.lean: what each step of the decompress state machine answers. -/

namespace Sys2Proof.Machine

/-- A code below 256 is its byte. -/
theorem setWidth_setWidth_of_lt {c : Code} (h : c.toNat < 256) : (c.setWidth 8).setWidth 16 = c := by
  apply BitVec.eq_of_toNat_eq
  simp only [BitVec.toNat_setWidth]
  omega

theorem byte_toCode_toNat (b : Byte) : (b.setWidth 16 : Code).toNat = b.toNat := by
  have := b.isLt
  simp only [BitVec.toNat_setWidth]
  omega

theorem byte_toCode_toByte (b : Byte) : (b.setWidth 16 : Code).setWidth 8 = b := by
  apply BitVec.eq_of_toNat_eq
  have := b.isLt
  simp only [BitVec.toNat_setWidth]
  omega

/-- D_HEADER on a header whose magic is right and whose width is legal (R228). -/
theorem acceptHeader_ok {k : Bool} {m : Nat} {s : State} (h9 : 9 ≤ m) (h16 : m ≤ 16) (hi : 24 ≤ s.ibits) :
    acceptHeader k m s = .ok { s with
      maxbits := m, blockMode := k, nBits := 9, freeEnt := firstFree k
      bitPosition := 24, alignBase := 24, dphase := .streamFirst
      ipos := 0, ibits := s.ibits - 24, ibuf := dropMany 3 s.ibuf
      tabPrefix := (tabSeed s).tabPrefix, tabSuffix := (tabSeed s).tabSuffix } := by
  have hm : maxbitsLegal m = true := by simp [maxbitsLegal, h9, h16]
  unfold acceptHeader
  rw [if_pos hm]
  dsimp only
  rw [ibufCompact_ok (by exact hi), Res.ok_bind]
  simp only [tabSeed, Nat.reduceDiv, Nat.reduceMod, Nat.reduceMul, Config.initBits]

theorem firstLiteral_ok {c : Code} {s : State} (h : s.sp < 65536) :
    firstLiteral c s = .ok { s with
      stack := Mem.put s.stack s.sp (c.setWidth 8), sp := s.sp + 1
      oldCode := c, lastChar := c.setWidth 8, dphase := .run } := by
  unfold firstLiteral
  rw [push_ok h, Res.ok_bind]

/-- D_REALIGN, by what it leaves (R137). -/
theorem dRealign_spec {w : Nat} {s : State} (h : s.alignBase ≤ s.bitPosition) (hw : 0 < w) (hi : s.ipos ≤ s.ibits) :
    ∃ t, dRealign w s = .ok t ∧ DRealigned w s t ∧
      t = { s with
        bitPosition := t.bitPosition, iskip := t.iskip, ipos := t.ipos, ibits := t.ibits, ibuf := t.ibuf } :=
  ⟨_, dRealign_ok h hw hi, ⟨rfl, rfl, advance_advanced _ _⟩, rfl⟩

/-- D_CLEAR (R233). -/
theorem dClear_spec {s : State} (h : s.alignBase ≤ s.bitPosition) (hw : 0 < s.nBits) (hi : s.ipos ≤ s.ibits) :
    ∃ t, dClear s = .ok t ∧ DRealigned s.nBits s t ∧
      t = { s with
        bitPosition := t.bitPosition, alignBase := t.bitPosition, freeEnt := 257, nBits := 9
        dphase := .epochFirst, iskip := t.iskip, ipos := t.ipos, ibits := t.ibits, ibuf := t.ibuf } := by
  obtain ⟨t, e, hd, ht⟩ := dRealign_spec h hw hi
  refine ⟨{ t with alignBase := t.bitPosition, freeEnt := 257, nBits := 9, dphase := .epochFirst }, ?_, hd, ?_⟩
  · unfold dClear
    rw [e, Res.ok_bind]
  · rw [ht]

/-- D_GROW (R240). -/
theorem dGrow_spec {s : State} (h : s.alignBase ≤ s.bitPosition) (hw : 0 < s.nBits) (hi : s.ipos ≤ s.ibits) :
    ∃ t, dGrow s = .ok t ∧ WidthFollows s.freeEnt s t ∧
      t = { s with
        nBits := t.nBits, bitPosition := t.bitPosition, alignBase := t.alignBase, iskip := t.iskip
        ipos := t.ipos, ibits := t.ibits, ibuf := t.ibuf } := by
  by_cases hg : 2 ^ s.nBits - 1 < s.freeEnt ∧ s.nBits < s.maxbits
  · have hd : dWidens s = true := by simp [dWidens, hg]
    obtain ⟨t, e, hr, ht⟩ := dRealign_spec h hw hi
    have hn : t.nBits = s.nBits := by rw [ht]
    have ha : t.alignBase = s.alignBase := by rw [ht]
    refine ⟨{ t with nBits := t.nBits + 1, alignBase := originAfterGrowth t.bitPosition t.alignBase }, ?_, ?_, ?_⟩
    · unfold dGrow
      rw [if_pos hd, e, Res.ok_bind]
    · unfold WidthFollows
      rw [if_pos hg]
      exact ⟨by simp only [hn], hr, by simp only [ha]⟩
    · rw [ht]
  · have hd : dWidens s = false := by
      simp only [dWidens, Bool.and_eq_false_iff, decide_eq_false_iff_not]
      rwa [← not_and_or]
    refine ⟨s, ?_, ?_, rfl⟩
    · unfold dGrow
      rw [hd]
      rfl
    · unfold WidthFollows
      rw [if_neg hg]
      exact ⟨rfl, rfl, rfl, rfl, rfl, rfl, rfl⟩

/-- TAB_DEFINE of the entry D_EXPAND creates (R168, R238). -/
theorem tabDefine_spec {b : Byte} {s : State} (hm : s.maxbits ≤ 16) :
    ∃ t, tabDefine s.oldCode b s = .ok t ∧ EntryCreated b s t ∧
      t = { s with freeEnt := t.freeEnt, tabPrefix := t.tabPrefix, tabSuffix := t.tabSuffix } := by
  by_cases h : s.freeEnt < 2 ^ s.maxbits
  · have h65 : s.freeEnt < 65536 := lt_of_lt_of_le h (Nat.pow_le_pow_right (n := 2) (by omega) hm)
    refine ⟨{ s with
      tabPrefix := Mem.put s.tabPrefix s.freeEnt s.oldCode
      tabSuffix := Mem.put s.tabSuffix s.freeEnt b, freeEnt := s.freeEnt + 1 }, ?_, ?_, rfl⟩
    · unfold tabDefine
      rw [if_pos h, writeMem_ok h65, Res.ok_bind, writeMem_ok h65, Res.ok_bind]
    · unfold EntryCreated
      rw [if_pos h]
      exact ⟨rfl, Mem.get_put_same _ _ _, Mem.get_put_same _ _ _,
        fun e he => ⟨Mem.get_put_ne _ _ _ he, Mem.get_put_ne _ _ _ he⟩⟩
  · refine ⟨s, ?_, ?_, rfl⟩
    · unfold tabDefine
      rw [if_neg h]
    · unfold EntryCreated
      rw [if_neg h]
      exact ⟨rfl, rfl, rfl⟩

/-- D_EXPAND from its UNROLL on, on a code that spells a string (R235). -/
theorem expandCode_spec {incoming code : Code} {str : List Byte} {s : State} (hs : Spells s code str)
    (hr : s.sp + str.length ≤ 65536) (hm : s.maxbits ≤ 16) (h : s.alignBase ≤ s.bitPosition) (hw : 0 < s.nBits)
    (hi : s.ipos ≤ s.ibits) :
    ∃ first t, str.head? = some first ∧ expandCode incoming code s = .ok t ∧
      Expanded incoming str.reverse first s (t.withResult .unit) ∧ t.result = s.result := by
  obtain ⟨first, hf, e⟩ := unroll_ok hs hr
  obtain ⟨p1, p2, p3⟩ := pushAll_pushed str.reverse s
  have hp := pushAll_eq str.reverse s
  obtain ⟨u, eu, hu, hut⟩ := tabDefine_spec (b := first) (s := { s.pushAll str.reverse with lastChar := first })
    (by rw [hp]; exact hm)
  have hu1 : u = { s with
      stack := (s.pushAll str.reverse).stack, sp := s.sp + str.reverse.length, lastChar := first
      freeEnt := u.freeEnt, tabPrefix := u.tabPrefix, tabSuffix := u.tabSuffix } := by
    conv_lhs => rw [hut]
    rw [hp]
  obtain ⟨v, ev, hv, hvt⟩ := dGrow_spec (s := u) (by rw [hu1]; exact h) (by rw [hu1]; exact hw) (by rw [hu1]; exact hi)
  have hv1 : v = { s with
      stack := (s.pushAll str.reverse).stack, sp := s.sp + str.reverse.length, lastChar := first
      freeEnt := u.freeEnt, tabPrefix := u.tabPrefix, tabSuffix := u.tabSuffix
      nBits := v.nBits, bitPosition := v.bitPosition, alignBase := v.alignBase, iskip := v.iskip
      ipos := v.ipos, ibits := v.ibits, ibuf := v.ibuf } := by
    conv_lhs => rw [hvt]
    rw [hu1]
  have hstack : v.stack = (s.pushAll str.reverse).stack := by rw [hv1]
  have hsp : v.sp = s.sp + str.reverse.length := by rw [hv1]
  have hfree : v.freeEnt = u.freeEnt := by rw [hv1]
  have htp : v.tabPrefix = u.tabPrefix := by rw [hv1]
  have hts : v.tabSuffix = u.tabSuffix := by rw [hv1]
  refine ⟨first, { v with oldCode := incoming }, hf, ?_, ⟨?_, ⟨hsp, ?_, ?_⟩, ?_, ?_⟩, ?_⟩
  · unfold expandCode
    rw [e, Res.ok_bind]
    dsimp only
    rw [eu, Res.ok_bind, ev, Res.ok_bind]
  · simp only [State.withResult]
    rw [hv1]
  · intro i hi
    show Mem.get v.stack _ = _
    rw [hstack]
    exact p2 i hi
  · intro a ha
    show Mem.get v.stack _ = _
    rw [hstack]
    exact p3 a ha
  · rw [hp] at hu
    unfold EntryCreated at hu ⊢
    simp only [State.withResult_freeEnt, State.withResult_tabPrefix, State.withResult_tabSuffix, hfree, htp, hts]
    exact hu
  · simp only [State.withResult_freeEnt, hfree]
    rw [hu1] at hv
    exact hv
  · rw [hv1]

end Sys2Proof.Machine
end

