-- ==== Sys2Proof/Laws/PerInstr.lean ====
section
/-! SUPPORT. Laws/PerInstr.lean: for every constructor of Instr,
    its word against its row of spec/opcode_table.json. The
masks and matches below are written out from the table's rows (R93, R97, R101), not from the encoder. -/

namespace Sys2Proof.Laws.TableBits

/-- A row of the table with an encoding: the width of its word, its mask and match,
and the least code of its class. -/
structure Row where
  width  : Nat
  mask   : Nat
  value  : Nat
  lowest : Nat
deriving DecidableEq, Repr

/-- The row of an instruction; `none` for the formats UOP, PSEUDO and EVENT (R119). -/
def rowOf : Instr → Option Row
  | .beginCompress _ => some ⟨3, 0x7, 0x1, 0⟩
  | .beginDecompress => some ⟨3, 0x7, 0x2, 0⟩
  | .advanceC _ _ => some ⟨3, 0x7, 0x3, 0⟩
  | .advanceD _ _ => some ⟨3, 0x7, 0x4, 0⟩
  | .finish _ => some ⟨3, 0x7, 0x5, 0⟩
  | .cmdReserved0 => some ⟨3, 0x7, 0x0, 0⟩
  | .cmdReserved6 => some ⟨3, 0x7, 0x6, 0⟩
  | .cmdReserved7 => some ⟨3, 0x7, 0x7, 0⟩
  | .hdrWrite _ _ => some ⟨24, 0x60FFFF, 0x009D1F, 0⟩
  | .hdrRead _ _ _ => some ⟨24, 0x00FFFF, 0x009D1F, 0⟩
  | .literalFirst _ => some ⟨16, 0xFF00, 0x0000, 0⟩
  | .badcodeFirst _ => some ⟨16, 0x0000, 0x0000, 256⟩
  | .clear => some ⟨16, 0xFFFF, 0x0100, 0⟩
  | .literalEpochFirst _ => some ⟨16, 0xFF00, 0x0000, 0⟩
  | .badcodeEpochFirst _ => some ⟨16, 0x0000, 0x0000, 256⟩
  | .badcodeRange _ => some ⟨16, 0x0000, 0x0000, 0⟩
  | .kwkwk _ => some ⟨16, 0x0000, 0x0000, 0⟩
  | .literal _ => some ⟨16, 0xFF00, 0x0000, 0⟩
  | .dictref _ => some ⟨16, 0x0000, 0x0000, 256⟩
  | .putCode _ _ _ _ => none
  | .getCode _ _ _ => none
  | .realign _ _ _ => none
  | .cRealign _ => none
  | .dRealign _ => none
  | .cPut _ _ => none
  | .dGet => none
  | .ibufCompact => none
  | .dSkip => none
  | .dTake _ => none
  | .hash _ _ => none
  | .probeNext _ _ => none
  | .lookupOrInsert _ _ => none
  | .insert _ _ _ => none
  | .dictClear => none
  | .tabSeed => none
  | .tabDefine _ _ => none
  | .push _ => none
  | .unroll _ => none
  | .cLoop _ _ => none
  | .cByte _ => none
  | .cGrow => none
  | .cRatio => none
  | .ratio _ _ => none
  | .cDrain => none
  | .finishC _ => none
  | .dLoop _ _ => none
  | .dHeader => none
  | .dCode => none
  | .dFirst _ => none
  | .dClear => none
  | .dExpand _ => none
  | .dGrow => none
  | .dDrain => none
  | .finishD _ => none
  | .raise _ => none
  | .compressAll _ _ _ => none
  | .decompressAll _ _ => none
  | .reset => none

/-- A word as one number, bit 0 least significant. -/
def number : EncWord → Nat
  | .cmd r => r.cmd.toNat
  | .hdr h => h.toNat
  | .code c => c.toNat

/-- A word fits its row: its width, its fixed bits, and the lowest code of its class. -/
def Fits (r : Row) (w : EncWord) : Prop :=
  number w < 2 ^ r.width ∧ number w &&& r.mask = r.value ∧ r.lowest ≤ number w

/-- A well-formed instruction whose row has an encoding has a word, which fits the row; one whose row has none has no
word. -/
def Statement (i : Instr) : Prop :=
  wellFormed i = true →
    match rowOf i with
    | some r => ∃ w, encode i = some w ∧ Fits r w
    | none => encode i = none

/-- A command word (R97). -/
theorem cmd_fits (r : Request) (n : Nat) (h : r.cmd = BitVec.ofNat 3 n) (hn : n % 8 = n) : Fits ⟨3, 0x7, n,
    0⟩ (.cmd r) := by
  have h' : r.cmd.toNat = n := by simp [h, hn]
  refine ⟨r.cmd.isLt, ?_, Nat.zero_le _⟩
  exact (Nat.and_two_pow_sub_one_eq_mod r.cmd.toNat 3).trans (h' ▸ hn)

/-- The fixed bits of a header (R93). -/
theorem packHdr_fits (k : Bool) (r : BitVec 2) (m : BitVec 5) :
    (packHdr k r m).toNat &&& 0x00FFFF = 0x009D1F ∧ (packHdr k 0#2 m).toNat &&& 0x60FFFF = 0x009D1F := by
  revert k r m; decide

/-- A byte as a code (R101). -/
theorem byte_fits (b : Byte) : (b.setWidth 16 : Code).toNat &&& 0xFF00 = 0 := by
  revert b; decide

theorem beginCompress (cfg : Byte) : Statement (.beginCompress cfg) := fun _ => ⟨_, rfl, cmd_fits _ 1 rfl rfl⟩
theorem beginDecompress : Statement .beginDecompress := fun _ => ⟨_, rfl, cmd_fits _ 2 rfl rfl⟩
theorem advanceC (inData : List Byte) (outCap : Nat) : Statement (.advanceC inData outCap) := fun _ => ⟨_, rfl,
    cmd_fits _ 3 rfl rfl⟩
theorem advanceD (inData : List Byte) (outCap : Nat) : Statement (.advanceD inData outCap) := fun _ => ⟨_, rfl,
    cmd_fits _ 4 rfl rfl⟩
theorem finish (outCap : Nat) : Statement (.finish outCap) := fun _ => ⟨_, rfl, cmd_fits _ 5 rfl rfl⟩
theorem cmdReserved0 : Statement .cmdReserved0 := fun _ => ⟨_, rfl, by decide, by decide, by decide⟩
theorem cmdReserved6 : Statement .cmdReserved6 := fun _ => ⟨_, rfl, by decide, by decide, by decide⟩
theorem cmdReserved7 : Statement .cmdReserved7 := fun _ => ⟨_, rfl, by decide, by decide, by decide⟩
theorem hdrWrite (k : Bool) (m : BitVec 5) : Statement (.hdrWrite k m) := fun _ => ⟨_, rfl, (packHdr k 0#2 m).isLt,
    (packHdr_fits k 0#2 m).2, Nat.zero_le _⟩
theorem hdrRead (k : Bool) (r : BitVec 2) (m : BitVec 5) : Statement (.hdrRead k r m) := fun _ => ⟨_, rfl,
    (packHdr k r m).isLt, (packHdr_fits k r m).1, Nat.zero_le _⟩
theorem literalFirst (b : Byte) : Statement (.literalFirst b) := fun _ => ⟨_, rfl, (b.setWidth 16).isLt,
    byte_fits b, Nat.zero_le _⟩
theorem badcodeFirst (c : Code) : Statement (.badcodeFirst c) := fun h => ⟨_, rfl, c.isLt, Nat.and_zero _,
    of_decide_eq_true h⟩
theorem clear : Statement .clear := fun _ => ⟨_, rfl, by decide, by decide, by decide⟩
theorem literalEpochFirst (b : Byte) : Statement (.literalEpochFirst b) := fun _ => ⟨_, rfl, (b.setWidth 16).isLt,
    byte_fits b, Nat.zero_le _⟩
theorem badcodeEpochFirst (c : Code) : Statement (.badcodeEpochFirst c) := fun h => ⟨_, rfl, c.isLt,
    Nat.and_zero _, of_decide_eq_true h⟩
theorem badcodeRange (c : Code) : Statement (.badcodeRange c) := fun _ => ⟨_, rfl, c.isLt, Nat.and_zero _,
    Nat.zero_le _⟩
theorem kwkwk (c : Code) : Statement (.kwkwk c) := fun _ => ⟨_, rfl, c.isLt, Nat.and_zero _, Nat.zero_le _⟩
theorem literal (b : Byte) : Statement (.literal b) := fun _ => ⟨_, rfl, (b.setWidth 16).isLt, byte_fits b,
    Nat.zero_le _⟩
theorem dictref (c : Code) : Statement (.dictref c) := fun h => ⟨_, rfl, c.isLt, Nat.and_zero _, of_decide_eq_true h⟩
theorem putCode (buffer : BufSel) (bitOffset : Nat) (code : Code)
    (width : Nat) : Statement (.putCode buffer bitOffset code width) := fun _ => rfl
theorem getCode (buffer : BufSel) (bitOffset : Nat) (width : Nat) : Statement (.getCode buffer bitOffset width) :=
    fun _ => rfl
theorem realign (pos : Nat) (base : Nat) (w : Nat) : Statement (.realign pos base w) := fun _ => rfl
theorem cRealign (w : Nat) : Statement (.cRealign w) := fun _ => rfl
theorem dRealign (w : Nat) : Statement (.dRealign w) := fun _ => rfl
theorem cPut (code : Code) (w : Nat) : Statement (.cPut code w) := fun _ => rfl
theorem dGet : Statement .dGet := fun _ => rfl
theorem ibufCompact : Statement .ibufCompact := fun _ => rfl
theorem dSkip : Statement .dSkip := fun _ => rfl
theorem dTake (b : Byte) : Statement (.dTake b) := fun _ => rfl
theorem hash (pfx : Code) (byte : Byte) : Statement (.hash pfx byte) := fun _ => rfl
theorem probeNext (h : HIdx) (byte : Byte) : Statement (.probeNext h byte) := fun _ => rfl
theorem lookupOrInsert (pfx : Code) (byte : Byte) : Statement (.lookupOrInsert pfx byte) := fun _ => rfl
theorem insert (h : HIdx) (pfx : Code) (byte : Byte) : Statement (.insert h pfx byte) := fun _ => rfl
theorem dictClear : Statement .dictClear := fun _ => rfl
theorem tabSeed : Statement .tabSeed := fun _ => rfl
theorem tabDefine (p : Code) (b : Byte) : Statement (.tabDefine p b) := fun _ => rfl
theorem push (b : Byte) : Statement (.push b) := fun _ => rfl
theorem unroll (code : Code) : Statement (.unroll code) := fun _ => rfl
theorem cLoop (inData : List Byte) (outCap : Nat) : Statement (.cLoop inData outCap) := fun _ => rfl
theorem cByte (c : Byte) : Statement (.cByte c) := fun _ => rfl
theorem cGrow : Statement .cGrow := fun _ => rfl
theorem cRatio : Statement .cRatio := fun _ => rfl
theorem ratio (a : Nat) (b : Nat) : Statement (.ratio a b) := fun _ => rfl
theorem cDrain : Statement .cDrain := fun _ => rfl
theorem finishC (outCap : Nat) : Statement (.finishC outCap) := fun _ => rfl
theorem dLoop (inData : List Byte) (outCap : Nat) : Statement (.dLoop inData outCap) := fun _ => rfl
theorem dHeader : Statement .dHeader := fun _ => rfl
theorem dCode : Statement .dCode := fun _ => rfl
theorem dFirst (c : Code) : Statement (.dFirst c) := fun _ => rfl
theorem dClear : Statement .dClear := fun _ => rfl
theorem dExpand (c : Code) : Statement (.dExpand c) := fun _ => rfl
theorem dGrow : Statement .dGrow := fun _ => rfl
theorem dDrain : Statement .dDrain := fun _ => rfl
theorem finishD (outCap : Nat) : Statement (.finishD outCap) := fun _ => rfl
theorem raise (kind : ErrKind) : Statement (.raise kind) := fun _ => rfl
theorem compressAll (cfg : Byte) (s : List Byte) (outCap : Nat) : Statement (.compressAll cfg s outCap) := fun _ =>
    rfl
theorem decompressAll (z : List Byte) (outCap : Nat) : Statement (.decompressAll z outCap) := fun _ => rfl
theorem reset : Statement .reset := fun _ => rfl

end Sys2Proof.Laws.TableBits
end

