-- ==== Sys2Proof/Laws/Session.lean ====
section
/-! SUPPORT. Laws/Session.lean: what the rounds of the two work loops keep: the ranges of the staged input,
    the strings of
the tables, the invariants of a live session. -/

namespace Sys2Proof.Machine

/-! ## The staged input -/

/-- Dropping bytes leaves every element of `ibuf` with a value. -/
theorem written_dropMany {m : Mem Byte} (h : Written 4 m) (n : Nat) : Written 4 (dropMany n m) := by
  intro a ha
  rw [get_dropMany _ _ ha]; split
  · exact h _ (by assumption)
  · rfl

/-- The part of the decompress invariant that speaks of `ibuf` (R49). -/
structure InBuf (s : State) : Prop where
  w : Written 4 s.ibuf
  b : s.ibits % 8 = 0
  hi : s.ibits ≤ 24
  le : s.ipos ≤ s.ibits

/-- An advanced buffer is a written one. -/
theorem Advanced.written {s t : State} {k : Nat} (h : Written 4 s.ibuf) (ha : Advanced k s t) : Written 4 t.ibuf := by
  intro a ha'
  rw [ha.2.2 a ha']; split
  · exact h _ (by assumption)
  · rfl

/-- Advancing inside what is buffered keeps the ranges, and counts down what is available (R141). -/
theorem InBuf.advanced {s t : State} {k : Nat} (h : InBuf s) (hk : s.ipos + k ≤ s.ibits) (ha : Advanced k s t)
    (hn : Written 4 t.ibuf) :
   InBuf t ∧ t.ipos < 8 ∧ (s.ipos + k = s.ibits → t.ipos = t.ibits) ∧ t.ibits - t.ipos = s.ibits - s.ipos - k := by
  obtain ⟨a, b, c⟩ := ha
  have := h.b; have := h.hi
  refine ⟨⟨hn, ?_, ?_, ?_⟩, ?_, ?_, ?_⟩ <;> omega

/-- No first free code is below 256 (R26). -/
theorem firstFree_ge (b : Bool) : 256 ≤ firstFree b := by unfold firstFree; split <;> omega

/-- What D_REALIGN keeps (R137). -/
theorem DRealigned.keeps {w : Nat} {s t : State} (hb : InBuf s) (h : DRealigned w s t) : InBuf t ∧ t.ipos < 8 ∧
    (0 < t.iskip → t.ipos = t.ibits) ∧ t.bitPosition = realignTo s.bitPosition s.alignBase w := by
  obtain ⟨a, b, c⟩ := h
  have h1 := Advanced.written hb.w c
  have hk : s.ipos + min (s.iskip + padding s.bitPosition s.alignBase w) s.avail ≤ s.ibits := by
    have := hb.le; simp only [State.avail]; omega
  obtain ⟨i, j, k, l⟩ := InBuf.advanced hb hk c h1
  refine ⟨i, j, ?_, a⟩
  intro h
  apply k
  have := hb.le
  simp only [State.avail] at b ⊢
  omega

/-- What D_GROW keeps (R240). -/
theorem WidthFollows.keeps {f : Nat} {s t : State} (hb : InBuf s) (h8 : s.ipos < 8)
    (hs : 0 < s.iskip → s.ipos = s.ibits) (hr : Ranges s) (h : WidthFollows f s t) (hm : t.maxbits = s.maxbits) :
   InBuf t ∧ t.ipos < 8 ∧ (0 < t.iskip → t.ipos = t.ibits) ∧ s.nBits ≤ t.nBits ∧ t.nBits ≤ t.maxbits ∧
       t.alignBase ≤ t.bitPosition ∧ t.alignBase % 8 = 0 ∧ s.bitPosition ≤ t.bitPosition := by
  have := hr.bitsLo; have := hr.bitsHi; have := hr.origin; have := hr.originByte
  unfold WidthFollows at h
  split at h
  · obtain ⟨a, b, c⟩ := h
    obtain ⟨d, e, g, i⟩ := DRealigned.keeps hb b
    have r1 := realignTo_bounds (pos := s.bitPosition) (base := s.alignBase) (w := s.nBits) (by assumption) (by omega)
    have r2 := realignTo_mod_eight (pos := s.bitPosition) (base := s.alignBase) (w := s.nBits) (by assumption)
        (by omega)
    refine ⟨d, e, g, by omega, by omega, ?_, ?_, by omega⟩
    · rw [c]; unfold originAfterGrowth; split <;> omega
    · rw [c]; unfold originAfterGrowth; split <;> omega
  · obtain ⟨a, b, c, d, e, g, i⟩ := h
    refine ⟨⟨by rw [i]; exact hb.w, by rw [g]; exact hb.b, by rw [g]; exact hb.hi, by rw [e, g]; exact hb.le⟩,
        by omega, by rw [d, e, g]; exact hs, by omega, by omega, by omega, by omega, by omega⟩

/-- D_GROW buffers nothing. -/
theorem WidthFollows.ibits_le {f : Nat} {s t : State} (h : WidthFollows f s t) : t.ibits ≤ s.ibits := by
  unfold WidthFollows at h
  split at h
  · have := h.2.1.2.2.2.1; omega
  · have := h.2.2.2.2.2.1; omega

/-! ## The tables and the stack -/

/-- An entry at `free_ent` leaves the string of every defined code as it was (R54). -/
theorem OpenInv.spells_of_kept {s t : State} (hi : OpenInv s) (hg : ∀ e,
    e ≠ s.freeEnt → Mem.get t.tabPrefix e = Mem.get s.tabPrefix e ∧ Mem.get t.tabSuffix e = Mem.get s.tabSuffix e) :
   ∀ (c : Code) (str : List Byte), Spells s c str → Defined s c.toNat → Spells t c str := by
  intro c str h
  induction h with
  | literal c h => intro _; exact .literal c h
  | entry c p b str h256 hp hb hs ih =>
    intro hd
    obtain ⟨p', b', hp', hb', hlt, hpd⟩ := hi.table c.toNat h256 hd
    rw [hp] at hp'; cases hp'
    have hne : c.toNat ≠ s.freeEnt := by rcases hd with h | h <;> omega
    obtain ⟨e1, e2⟩ := hg _ hne
    exact .entry c p b str h256 (e1.trans hp) (e2.trans hb) (ih hpd)

/-- Pushing keeps every byte below `sp` written (R55). -/
theorem Pushed.written {bytes : List Byte} {s t : State} (h : ∀ i,
    i < s.sp → (Mem.get s.stack i).isSome = true) (hp : Pushed bytes s t) :
   ∀ i, i < t.sp → (Mem.get t.stack i).isSome = true := by
  obtain ⟨a,b,c⟩ := hp
  intro i hi
  by_cases hh : i < s.sp
  · rw [c i (.inl hh)]; exact h i hh
  · have := b (i - s.sp) (by omega)
    rw [show s.sp + (i - s.sp) = i by omega] at this
    rw [this, List.getElem?_eq_getElem (by omega)]; rfl

/-! ## The decompress invariant -/

/-- The invariant does not look at the result. -/
theorem DecompInv.withResult {s : State} (h : DecompInv s) (r : Result) : DecompInv (s.withResult r) := by
  obtain ⟨a1,a2,a3,a4,a5,a6,a7,a8,a9,a10⟩ := h
  refine ⟨a1,a2,a3,a4,a5,a6,a7,a8,a9,fun h => ?_⟩
  obtain ⟨b1,b2,b3,b4,b5⟩ := a10 h
  refine ⟨⟨b1.1,b1.2,b1.3,b1.4,b1.5,b1.6,b1.7,b1.8⟩, b2, b3, ?_, b5⟩
  intro h; obtain ⟨str, h1, h2⟩ := b4 h
  exact ⟨str, h1.congr (fun e _ _ _ => ⟨rfl,rfl⟩), h2⟩

/-- The invariant does not look at the result. -/
theorem DecompInv.of_withResult {s : State} {r : Result} (h : DecompInv (s.withResult r)) : DecompInv s := by
  have := DecompInv.withResult h s.result
  exact this

/-- An expansion keeps the invariant when the consumed code is defined afterwards and its string begins with the byte
named (R244). -/
theorem Expanded.decompInv {inc : Code} {bytes : List Byte} {first : Byte} {s t : State} (hd : DecompInv s)
    (hi : OpenInv s) (hrun : s.dphase = .run) (hsp : s.sp = 0)
   (he : Expanded inc bytes first s t) (hlen : bytes.length ≤ 65281)
   (hdef : Defined t inc.toNat) (hlast : ∃ str, Spells t inc str ∧ str.head? = some first) : DecompInv t ∧
       s.bitPosition ≤ t.bitPosition := by
  obtain ⟨ht, hp, hent, hw⟩ := he
  have q1 : t.maxbits = s.maxbits := by rw [ht]; rfl
  have q2 : t.blockMode = s.blockMode := by rw [ht]; rfl
  have q3 : t.dphase = .run := by rw [ht]; exact hrun
  have q4 : t.oldCode = inc := by rw [ht]; rfl
  have q5 : t.lastChar = first := by rw [ht]; rfl
  obtain ⟨w1,w2,w3,w4,w5,w6,w7,w8⟩ := WidthFollows.keeps ⟨hd.inWritten, hd.ibitsByte, hd.ibitsHi,
      hd.iposLe⟩ hd.iposLt hd.skip hi.ranges hw q1
  have R := hi.ranges
  have r1 := R.freeLo; have r2 := R.freeHi; have r3 := R.bitsLo
  have hff := firstFree_ge s.blockMode
  have hfree : s.freeEnt ≤ t.freeEnt ∧ t.freeEnt ≤ 2 ^ s.maxbits := by
    unfold EntryCreated at hent; split at hent <;> omega
  have hod : Defined s s.oldCode.toNat := hi.old hrun
  refine ⟨⟨w1.w, w1.b, w1.hi, w1.le, w2, w3, Pushed.written hd.stackWritten hp, ?_, ?_, ?_⟩, w8⟩
  · rw [hp.1, hsp]; omega
  · intro h; rw [q3] at h; cases h
  · intro _
    refine ⟨⟨?_,?_,?_,w5,?_,?_,w6,w7⟩, ?_, ?_, ?_, ?_⟩
    · rw [q1]; exact R.maxLo
    · rw [q1]; exact R.maxHi
    · omega
    · rw [q2]; omega
    · rw [q1]; omega
    · -- table
      intro e h256 hde
      rcases hde with h | ⟨hl, hh⟩
      · omega
      rw [q2] at hl
      unfold EntryCreated at hent
      split at hent
      · obtain ⟨e1,e2,e3,e4⟩ := hent
        by_cases hx : e = s.freeEnt
        · subst hx
          refine ⟨s.oldCode, first, e2, e3, ?_, ?_⟩
          · rcases hod with h | h <;> omega
          · rcases hod with h | h
            · exact .inl h
            · exact .inr ⟨by rw [q2]; exact h.1, by omega⟩
        · obtain ⟨p, b, hp1, hb1, hlt, hpd⟩ := hi.table e h256 (.inr ⟨hl, by omega⟩)
          refine ⟨p, b, (e4 e hx).1.trans hp1, (e4 e hx).2.trans hb1, hlt, ?_⟩
          rcases hpd with h | h
          · exact .inl h
          · exact .inr ⟨by rw [q2]; exact h.1, by omega⟩
      · obtain ⟨e1,e2,e3⟩ := hent
        obtain ⟨p, b, hp1, hb1, hlt, hpd⟩ := hi.table e h256 (.inr ⟨hl, by omega⟩)
        refine ⟨p, b, by rw [e2]; exact hp1, by rw [e3]; exact hb1, hlt, ?_⟩
        rcases hpd with h | h
        · exact .inl h
        · exact .inr ⟨by rw [q2]; exact h.1, by omega⟩
    · intro _; rw [q4]; exact hdef
    · intro _; rw [q4, q5]; exact hlast
    · intro h; rw [q3] at h; cases h

/-- D_CODE raises CorruptStreamError on every code the session does not accept, in the state D_GET left (R101,
R230). -/
theorem interpret_of_not_accepted {c : Code} {s : State} (hd : DecompInv s) (hne : s.dphase ≠ .header)
    (hnd : s.dphase ≠ .done) (hc : ¬ CodeAccepted s c.toNat) : interpret c s = raiseHere .corrupt s := by
  have hi := hd.opened hne
  have r1 := hi.ranges.freeLo
  have c256 : c = 256#16 ↔ c.toNat = 256 := ⟨by rintro rfl; rfl, fun h => BitVec.eq_of_toNat_eq h⟩
  have hff := firstFree_ge s.blockMode
  unfold interpret
  cases hph : s.dphase
  · exact absurd hph hne
  · simp only [CodeAccepted, hph] at hc
    rw [if_pos rfl]; unfold dFirst; rw [if_pos (by omega)]
  · simp only [CodeAccepted, hph] at hc
    rw [if_neg (by simp), if_neg (by rw [Config.clearCode, c256]; omega),
        if_pos rfl]; unfold dFirst; rw [if_pos (by omega)]
  · simp only [CodeAccepted, hph] at hc
    rw [if_neg (by simp), if_neg, if_neg (by simp)]
    · unfold dExpand; rw [if_pos (by omega), if_pos (by omega)]
    · rw [Config.clearCode, c256]; rintro ⟨h1, h2⟩; rw [h2] at r1; simp [firstFree] at r1; omega
  · exact absurd hph hnd

/-- D_GET on a buffered code keeps the invariant (R140). -/
theorem dGet_decompInv {s : State} (hl : DecompInv s) (h0 : s.dphase ≠ .header) (hk : s.iskip = 0)
    (ha : s.nBits ≤ s.ibits - s.ipos) :
    ∃ (c : Code) (s1 : State), dGet s = .ok (c, s1) ∧ c.toNat = streamValue s.ibuf s.ipos s.nBits ∧
        c.toNat < 2 ^ s.nBits ∧ DecompInv s1 ∧ Advanced s.nBits s s1 ∧
      s1 = { s with
       bitPosition := s.bitPosition + s.nBits, ipos := s1.ipos, ibits := s1.ibits, ibuf := s1.ibuf } ∧
           s1.ibits - s1.ipos = s.ibits - s.ipos - s.nBits := by
  have hi := hl.opened h0
  have R := hi.ranges
  have hle := hl.iposLe
  have r3 := R.bitsLo
  obtain ⟨c, hc, e⟩ := dGet_ok hl.iposLt (by have := R.bitsHi; have := R.maxHi; omega) (by omega) hl.inWritten
  have hadv := advance_advanced ({ s with bitPosition := s.bitPosition + s.nBits } : State) s.nBits
  obtain ⟨k1, k2, k3, k4⟩ := InBuf.advanced (s := { s with bitPosition := s.bitPosition + s.nBits }) ⟨hl.inWritten,
      hl.ibitsByte, hl.ibitsHi, hl.iposLe⟩ (by simp only; omega) hadv (written_dropMany hl.inWritten _)
  refine ⟨c, _, e, hc, by rw [hc]; exact bitsValue_lt _ _, ?_, hadv, rfl, k4⟩
  refine ⟨k1.w, k1.b, k1.hi, k1.le, k2, by intro h; simp only [State.advance, hk] at h; omega, hl.stackWritten,
      hl.spHi, fun h => absurd h h0, fun _ => ?_⟩
  obtain ⟨b1,b2,b3,b4,b5⟩ := hi
  refine ⟨⟨b1.1,b1.2,b1.3,b1.4,b1.5,b1.6,?_,b1.8⟩, b2, b3, ?_, b5⟩
  · have := b1.7; simp only [State.advance]; omega
  · intro h; obtain ⟨str, h1, h2⟩ := b4 h
    exact ⟨str, h1.congr (fun e _ _ _ => ⟨rfl,rfl⟩), h2⟩

/-! ## The rounds of D_LOOP -/

/-- `n` D_DRAINs deliver the top `n` bytes of the stack in order (R248). -/
theorem dDrains_ok (n : Nat) : ∀ {s : State}, n ≤ s.sp → s.sp ≤ 65536 → (∀ i,
    i < s.sp → (Mem.get s.stack i).isSome = true) →
    ∃ out, dDrains n s = .ok (out, { s with sp := s.sp - n }) ∧ out.length = n ∧
        (∀ i, i < n → out[i]? = Mem.get s.stack (s.sp - 1 - i)) := by
  induction n with
  | zero => intro s _ _ _; exact ⟨[], rfl, rfl, fun i h => by omega⟩
  | succ n ih =>
    intro s hn h6 hw
    obtain ⟨b, hb⟩ := Option.isSome_iff_exists.1 (hw (s.sp - 1) (by omega))
    obtain ⟨out, e, hl, hg⟩ := ih (s := { s with sp := s.sp - 1 }) (by show n ≤ s.sp - 1; omega)
        (by show s.sp - 1 ≤ _; omega) (by intro i hi; exact hw i (by have : i < s.sp - 1 := hi; omega))
    have hd : dDrain s = .ok (b, { s with sp := s.sp - 1 }) := by
      unfold dDrain
      obtain ⟨k, hk⟩ : ∃ k, s.sp = k + 1 := ⟨s.sp - 1, by omega⟩
      rw [hk] at hb ⊢
      simp only [Nat.add_sub_cancel] at hb ⊢
      rw [readMem_ok (show k < 65536 by omega) hb, Res.ok_bind]
    refine ⟨b :: out, ?_, by simp [hl], ?_⟩
    · rw [dDrains, hd, Res.ok_bind]
      simp only
      rw [e, Res.ok_bind]
      simp only
      congr 3; omega
    · intro i hi
      cases i with
      | zero => simp [hb]
      | succ i =>
        rw [List.getElem?_cons_succ, hg i (by omega)]
        show Mem.get s.stack (s.sp - 1 - 1 - i) = _
        congr 1; omega

/-- A drained session is live. -/
theorem LiveDecomp.drained {s : State} (h : LiveDecomp s) (k : Nat) : LiveDecomp { s with sp := s.sp - k } := by
  obtain ⟨h1, h2, h3, a1,a2,a3,a4,a5,a6,a7,a8,a9,a10⟩ := h
  refine ⟨h1, h2, h3, a1, a2, a3, a4, a5, a6, fun i hi => a7 i (by have : i < s.sp - k := hi; omega),
      (by show s.sp - k ≤ _; omega), fun h => ⟨by show s.sp - k = 0; have := (a9 h).1; omega, (a9 h).2⟩, fun h => ?_⟩
  obtain ⟨b1,b2,b3,b4,b5⟩ := a10 h
  refine ⟨⟨b1.1,b1.2,b1.3,b1.4,b1.5,b1.6,b1.7,b1.8⟩, b2, b3, ?_, b5⟩
  intro h; obtain ⟨str, h1, h2⟩ := b4 h
  exact ⟨str, h1.congr (fun e _ _ _ => ⟨rfl,rfl⟩), h2⟩

/-- D_TAKE keeps a session live (R143). -/
theorem dTake_live {s : State} (b : Byte) (h : LiveDecomp s) (h16 : s.ibits ≤ 16) : ∃ t, dTake b s = .ok t ∧
    LiveDecomp t ∧ t.dphase = s.dphase ∧ t.ibits ≤ s.ibits + 8 := by
  obtain ⟨h1, h2, h3, a1,a2,a3,a4,a5,a6,a7,a8,a9,a10⟩ := h
  obtain hb := a2
  have hw' : Written 4 (Mem.put s.ibuf (s.ibits / 8) b) := by
    intro a ha; rw [Mem.get_put]; split
    · rfl
    · exact a1 a ha
  set u : State := { s with ibuf := Mem.put s.ibuf (s.ibits / 8) b, ibits := s.ibits + 8 } with hu
  have hdt : dTake b s = dSkip u := by
    unfold dTake
    rw [writeMem_ok (by show s.ibits / 8 < 4; omega), Res.ok_bind]
  have hui : u.ipos ≤ u.ibits := by show s.ipos ≤ s.ibits + 8; omega
  have hsk := dSkip_ok hui
  have hmin : u.ipos + min u.iskip u.avail ≤ u.ibits := by simp only [State.avail]; omega
  have hadv := advance_advanced u (min u.iskip u.avail)
  obtain ⟨k1,k2,k3,k4⟩ := InBuf.advanced (s := u) ⟨hw', by show (s.ibits + 8) % 8 = 0; omega,
      by show s.ibits + 8 ≤ 24; omega, hui⟩ hmin hadv (Advanced.written hw' hadv)
  refine ⟨_, hdt.trans hsk, ⟨h1, h2, h3, k1.w, k1.b, k1.hi, k1.le, k2, ?_, a7, a8, ?_, ?_⟩, rfl, ?_⟩
  · intro h
    apply k3
    have h : 0 < u.iskip - min u.iskip u.avail := h
    simp only [State.avail] at h ⊢
    omega
  · intro hh
    obtain ⟨x1, x2, x3⟩ := a9 hh
    refine ⟨x1, ?_, ?_⟩
    · show s.iskip - _ = 0; omega
    · have : (u.advance (min u.iskip u.avail)).ipos = (u.ipos + min u.iskip u.avail) % 8 := hadv.1
      have hz : u.iskip = 0 := x2
      have hp : u.ipos = 0 := x3
      show (u.advance (min u.iskip u.avail)).ipos = 0
      rw [this, hz, hp]; simp
  · intro hh
    obtain ⟨b1,b2,b3,b4,b5⟩ := a10 hh
    refine ⟨⟨b1.1,b1.2,b1.3,b1.4,b1.5,b1.6,b1.7,b1.8⟩, b2, b3, ?_, b5⟩
    intro h; obtain ⟨str, h1, h2⟩ := b4 h
    exact ⟨str, h1.congr (fun e _ _ _ => ⟨rfl,rfl⟩), h2⟩
  · have : (u.advance (min u.iskip u.avail)).ibits = u.ibits - 8 * ((u.ipos + min u.iskip u.avail) / 8) := hadv.2.1
    show (u.advance (min u.iskip u.avail)).ibits ≤ _
    rw [this]; show s.ibits + 8 - _ ≤ _; omega

/-- D_HEADER on a buffered header opens the code stream or raises a data error (R228). -/
theorem dHeader_live {s : State} (h : LiveDecomp s) (hh : s.dphase = .header) (h24 : 24 ≤ s.ibits) :
   (∃ t, dHeader s = .ok t ∧ LiveDecomp t ∧ t.sp = 0 ∧ t.ibits = 0 ∧ t.dphase = .streamFirst) ∨ (∃ k, k ≠ .usage ∧
       dHeader s = .error (.raised k s)) := by
  obtain ⟨h1, h2, h3, a1,a2,a3,a4,a5,a6,a7,a8,a9,a10⟩ := h
  obtain ⟨x1, x2, x3⟩ := a9 hh
  obtain ⟨b0, g0⟩ := Option.isSome_iff_exists.1 (a1 0 (by decide))
  obtain ⟨b1, g1⟩ := Option.isSome_iff_exists.1 (a1 1 (by decide))
  obtain ⟨b2, g2⟩ := Option.isSome_iff_exists.1 (a1 2 (by decide))
  have e0 : dHeader s = if hdrMagicOk (windowOf b0 b1 b2) then
    acceptHeader (hdrBlock (windowOf b0 b1 b2)) (hdrMaxbits (windowOf b0 b1 b2)).toNat s
  else raiseHere .format s := by
    unfold dHeader
    rw [readMem_ok (by decide) g0, Res.ok_bind, readMem_ok (by decide) g1, Res.ok_bind, readMem_ok (by decide) g2,
        Res.ok_bind]
  rw [e0]
  split
  · by_cases hm : 9 ≤ (hdrMaxbits (windowOf b0 b1 b2)).toNat ∧ (hdrMaxbits (windowOf b0 b1 b2)).toNat ≤ 16
    · left
      refine ⟨_, acceptHeader_ok hm.1 hm.2 h24, ⟨h1, h2, (by intro h; cases h), ?_, ?_, ?_, ?_, ?_, ?_, ?_, ?_, ?_,
          ?_⟩, x1, ?_, rfl⟩
      · exact written_dropMany a1 3
      · show (s.ibits - 24) % 8 = 0; omega
      · show s.ibits - 24 ≤ 24; omega
      · exact Nat.zero_le _
      · show 0 < 8; omega
      · intro h; have h : 0 < s.iskip := h; omega
      · intro i hi; have hi : i < s.sp := hi; omega
      · exact a8
      · intro h; cases h
      · intro _
        generalize hdrBlock (windowOf b0 b1 b2) = k at *
        refine ⟨⟨hm.1, hm.2, le_refl 9, hm.1, le_refl _, ?_, le_refl 24, (by show 24 % 8 = 0; rfl)⟩, ?_,
            (by intro h; cases h), (by intro h; cases h), (by intro h; cases h)⟩
        · show firstFree k ≤ 2 ^ (hdrMaxbits (windowOf b0 b1 b2)).toNat
          have : 2 ^ 9 ≤ 2 ^ (hdrMaxbits (windowOf b0 b1 b2)).toNat := Nat.pow_le_pow_right (by omega) hm.1
          unfold firstFree; split <;> omega
        · intro e h256 hd
          rcases hd with h | h
          · omega
          · have h : firstFree k ≤ e ∧ e < firstFree k := h
            omega
      · show s.ibits - 24 = 0; omega
    · right
      refine ⟨.width, by decide, ?_⟩
      unfold acceptHeader maxbitsLegal
      rw [if_neg (by simp; omega)]; rfl
  · right; exact ⟨.format, by decide, rfl⟩

/-! ## The staged output -/

/-- A compress session keeps its invariant when whole bytes leave the buffer (R192). -/
theorem CompInv.drained {s : State} (hi : CompInv s) {n : Nat} {m : Mem Byte} (hn : 8 * n ≤ s.obits)
    (hm : Written 32 m)
   (hb : ∀ i, bufBit m i = bufBit s.obuf (i + 8 * n)) : CompInv { s with obuf := m, obits := s.obits - 8 * n } := by
  obtain ⟨a1,a2,a3,a4,a5,a6,a7,a8,a9,a10⟩ := hi
  refine ⟨⟨a1.1,a1.2,a1.3,a1.4,a1.5,a1.6,a1.7,a1.8⟩, a2.congr rfl rfl rfl, a3,a4,a5,hm,?_,a8,?_,?_⟩
  · intro i hi; simp only at hi ⊢; rw [hb]; exact a7 _ (by omega)
  · intro h; have := a9 h; simp only; omega
  · intro h; have := a10 h; simp only; omega

/-- The draining round of C_LOOP and FINISH_C: the delivered bytes, and what stays (R184, R198). -/
theorem cDrainWhile_ok {s : State} (hi : CompInv s) (ho : s.obits ≤ 256) (room : Nat) :
   ∃ out m, cDrainWhile room s = .ok (out, { s with obuf := m, obits := s.obits - 8 * out.length }) ∧
       out.length = min (s.obits/8) room ∧
     CompInv { s with obuf := m, obits := s.obits - 8 * out.length } ∧ Written 32 m ∧
         (∀ i, bufBit m i = bufBit s.obuf (i + 8 * out.length)) ∧
      (∀ i, i < 8 * out.length → (out[i / 8]?.getD 0#8).getLsbD (i % 8) = bufBit s.obuf i) := by
  obtain ⟨out, m, e, hl, hm, hb, hout⟩ := cDrains_ok (min (s.obits/8) room) (s := s)
      (by omega) ho hi.outWritten hi.tail
  refine ⟨out, m, ?_, hl, ?_, hm, ?_, ?_⟩
  · unfold cDrainWhile; rw [e, hl]
  · rw [hl]; exact CompInv.drained hi (by omega) hm hb
  · rw [hl]; exact hb
  · rw [hl]; exact hout

end Sys2Proof.Machine
end

