-- ==== Sys2Proof/Tests/Slice0.lean ====
section
/-! SUPPORT. Tests/Slice0.lean: the model's own tests. Expected values come from spec/95_test_vectors.md or are worked
out by hand from the rule cited. Every witness at the end meets the hypotheses of the obligation it is named after. -/

namespace Sys2Proof.Tests

open Sys2Proof.Machine

-- one theorem after the other: many kernel evaluations at once would each hold a thread of the compiler
set_option Elab.async false

/-! ## Small states -/

/-- A view of the next state of an outcome. -/
def seen {α : Type} (f : State → α) : Host.Outcome State Fault Refusal → Option α
  | .next t => some (f t)
  | .fault _ => none
  | .refused _ => none

/-- The fault of an outcome. -/
def faultOf : Host.Outcome State Fault Refusal → Option Fault
  | .fault f => some f
  | .next _ => none
  | .refused _ => none

/-- A memory that holds these values from address 0. -/
def mem {α : Type} (vs : List α) : Mem α := Mem.cellsFrom 0 vs

/-- The first `n` elements of a memory. -/
def firsts {α : Type} (n : Nat) (m : Mem α) : List (Option α) := (List.range n).map (Mem.get m)

/-- `obuf` with these bytes in front of zeros. -/
def staged (bs : List Byte) : Mem Byte := mem (bs ++ List.replicate (32 - bs.length) 0#8)

/-- Right after `BEGIN_COMPRESS(0x90)` (program P1, row 1). -/
def fresh : State := openCompress 0x90#8 State.reset

/-- The session of P1 after its header was drained and `41` consumed: `C_RUN`, `prefix = 65`. -/
def running : State :=
  { fresh with obuf := staged [], obits := 0, cphase := .run, pfx := 65#16, bytesIn := 1 }

/-- `running` after the pair (65, 66) was stored with code 257 in slot 33857 (section 2.2). -/
def stored : State := insertAt (hashIndex 65#16 66#8) 65#16 66#8 running

/-- Right after `BEGIN_DECOMPRESS` (program P2, row 1). -/
def opened : State := (beginDecompress State.reset).2

/-- P2 with the whole header buffered, before D_HEADER. -/
def headed : State := { opened with ibuf := mem [0x1F#8, 0x9D#8, 0x90#8, 0#8], ibits := 24 }

/-- P2 after row 4: `D_STREAM_FIRST`; the seeded tables are not needed here. -/
def streaming : State :=
  { opened with
    dphase := .streamFirst, maxbits := 16, blockMode := true, nBits := 9, freeEnt := 257
    bitPosition := 24, alignBase := 24 }

/-- P2 after row 6: code 65 consumed, one bit of the next code's byte read, 7 bits left. -/
def inRun : State :=
  { streaming with
    dphase := .run, oldCode := 65#16, lastChar := 65#8, bitPosition := 33
    ibuf := mem [0x84#8, 0#8, 0#8, 0#8], ibits := 8, ipos := 1 }

/-- P2 after row 7: code 66 consumed, entry 257 = (65, 66). -/
def grown : State :=
  { streaming with
    dphase := .run, oldCode := 66#16, lastChar := 66#8, bitPosition := 42, freeEnt := 258
    tabPrefix := [(257, 65#16)], tabSuffix := [(257, 66#8)]
    ibuf := mem [0x04#8, 0#8, 0#8, 0#8], ibits := 8, ipos := 2 }

/-- A decompress session in phase `ph` that has the 9-bit code `c` buffered; `free_ent = 258`, entry 257 = (65, 66). -/
def coded (ph : DPhase) (c : Code) : State :=
  { grown with dphase := ph, ipos := 0, ibits := 16, ibuf := mem [c.setWidth 8, c.extractLsb' 8 8, 0#8, 0#8] }

/-! ## WellFormed refuses an ill-formed term, one per check -/

theorem test_wf_advanceC_out_cap : wellFormed (.advanceC [] 4294967296) = false := by decide
theorem test_wf_advanceD_out_cap : wellFormed (.advanceD [0x41#8] 4294967296) = false := by decide
theorem test_wf_finish_out_cap : wellFormed (.finish 4294967296) = false := by decide
theorem test_wf_hdrWrite_8 : wellFormed (.hdrWrite true 8#5) = false := by decide
theorem test_wf_hdrWrite_17 : wellFormed (.hdrWrite true 17#5) = false := by decide
theorem test_wf_badcodeFirst : wellFormed (.badcodeFirst 255#16) = false := by decide
theorem test_wf_badcodeEpochFirst : wellFormed (.badcodeEpochFirst 255#16) = false := by decide
theorem test_wf_dictref : wellFormed (.dictref 255#16) = false := by decide
theorem test_wf_putCode_width : wellFormed (.putCode .obuf 0 1#16 8) = false := by decide
theorem test_wf_putCode_code : wellFormed (.putCode .obuf 0 512#16 9) = false := by decide
theorem test_wf_getCode_width : wellFormed (.getCode .ibuf 0 17) = false := by decide
theorem test_wf_realign_base : wellFormed (.realign 23 24 9) = false := by decide
theorem test_wf_realign_width : wellFormed (.realign 24 24 0) = false := by decide
theorem test_wf_cRealign : wellFormed (.cRealign 8) = false := by decide
theorem test_wf_dRealign : wellFormed (.dRealign 17) = false := by decide
theorem test_wf_cPut_width : wellFormed (.cPut 1#16 17) = false := by decide
theorem test_wf_cPut_code : wellFormed (.cPut 1024#16 10) = false := by decide
theorem test_wf_cLoop : wellFormed (.cLoop [] 4294967296) = false := by decide
theorem test_wf_ratio_in : wellFormed (.ratio 0 1) = false := by decide
theorem test_wf_ratio_out : wellFormed (.ratio 1 0) = false := by decide
theorem test_wf_finishC : wellFormed (.finishC 4294967296) = false := by decide
theorem test_wf_dLoop : wellFormed (.dLoop [] 4294967296) = false := by decide
theorem test_wf_finishD : wellFormed (.finishD 4294967296) = false := by decide
theorem test_wf_compressAll_cfg : wellFormed (.compressAll 0x91#8 [] 1) = false := by decide
theorem test_wf_compressAll_reserved : wellFormed (.compressAll 0xB0#8 [] 1) = false := by decide
theorem test_wf_compressAll_out_cap : wellFormed (.compressAll 0x90#8 [] 0) = false := by decide
theorem test_wf_decompressAll_out_cap : wellFormed (.decompressAll [] 0) = false := by decide
theorem test_wf_accepts : wellFormed (.cPut 511#16 9) = true ∧ wellFormed (.realign 24 24 16) = true ∧
    wellFormed (.hdrWrite false 9#5) = true ∧ wellFormed (.dictref 256#16) = true := by decide

/-! ## Decoding: every word below is written out from R93, R97 or R101 -/

theorem test_decode_beginCompress :
    decodeRequest ⟨0b001#3, 0x90#8, [], 0⟩ = .beginCompress 0b10010000#8 := by decide
theorem test_decode_beginDecompress : decodeTableWord 8 0b00000010 = some .beginDecompress := by decide
theorem test_decode_advanceC :
    decodeRequest ⟨0b011#3, 0#8, [0x41#8, 0x42#8], 2⟩ = .advanceC [0x41#8, 0x42#8] 2 := by decide
theorem test_decode_advanceD : decodeRequest ⟨0b100#3, 0#8, [0x1F#8], 2⟩ = .advanceD [0x1F#8] 2 := by decide
theorem test_decode_finish : decodeRequest ⟨0b101#3, 0#8, [], 2⟩ = .finish 2 := by decide
theorem test_decode_cmdReserved0 : decodeTableWord 8 0b00000000 = some .cmdReserved0 := by decide
theorem test_decode_cmdReserved6 : decodeTableWord 8 0b00000110 = some .cmdReserved6 := by decide
theorem test_decode_cmdReserved7 : decodeTableWord 8 0b00000111 = some .cmdReserved7 := by decide
/-- `k 0 0 m m m m m`, `MAGIC_2`, `MAGIC_1` for `cfg = 0x8C`. -/
theorem test_decode_hdrWrite :
    decodeHdrWrite 0b1_00_01100_10011101_00011111#24 = .ok (.hdrWrite true 0b01100#5) := by decide
theorem test_decode_hdrWrite_reserved :
    decodeHdrWrite 0b1_01_01100_10011101_00011111#24 = .error .reservedBits := by decide
theorem test_decode_hdrWrite_width :
    decodeHdrWrite 0b1_00_01000_10011101_00011111#24 = .error .widthOutOfRange := by decide
theorem test_decode_hdrRead :
    decodeHdrRead 0b0_10_10001_10011101_00011111#24 = .ok (.hdrRead false 0b10#2 0b10001#5) := by decide
theorem test_decode_hdrRead_magic :
    decodeHdrRead 0b1_00_10000_10011100_00011111#24 = .error .badMagic := by decide
theorem test_decode_literalFirst :
    classify ⟨.decomp, .streamFirst, true, 257⟩ 0b0000000011111111#16 = .ok (.literalFirst 0b11111111#8) := by decide
theorem test_decode_badcodeFirst :
    classify ⟨.decomp, .streamFirst, true, 257⟩ 0b0000000100000000#16 = .ok (.badcodeFirst 256#16) := by decide
theorem test_decode_clear :
    classify ⟨.decomp, .epochFirst, true, 257⟩ 0b0000000100000000#16 = .ok .clear ∧
    classify ⟨.decomp, .run, true, 300⟩ 0b0000000100000000#16 = .ok .clear := by decide
theorem test_decode_literalEpochFirst :
    classify ⟨.decomp, .epochFirst, true, 257⟩ 0b0000000001000001#16 = .ok (.literalEpochFirst 0x41#8) := by decide
theorem test_decode_badcodeEpochFirst :
    classify ⟨.decomp, .epochFirst, true, 257⟩ 0b0000000100000001#16 = .ok (.badcodeEpochFirst 257#16) := by decide
theorem test_decode_badcodeRange :
    classify ⟨.decomp, .run, true, 257⟩ 0b0000000100000010#16 = .ok (.badcodeRange 258#16) := by decide
theorem test_decode_kwkwk :
    classify ⟨.decomp, .run, true, 258⟩ 0b0000000100000010#16 = .ok (.kwkwk 258#16) := by decide
/-- Without block mode the code 256 is an ordinary one (R101, R104). -/
theorem test_decode_kwkwk_256 :
    classify ⟨.decomp, .run, false, 256⟩ 0b0000000100000000#16 = .ok (.kwkwk 256#16) := by decide
theorem test_decode_literal :
    classify ⟨.decomp, .run, true, 257⟩ 0b0000000011111111#16 = .ok (.literal 255#8) := by decide
theorem test_decode_dictref :
    classify ⟨.decomp, .run, false, 257⟩ 0b0000000100000000#16 = .ok (.dictref 256#16) := by decide
theorem test_decode_not_awaiting :
    classify ⟨.decomp, .done, true, 257⟩ 0x41#16 = .error .notAwaitingCode ∧
    classify ⟨.decomp, .header, true, 257⟩ 0x41#16 = .error .notAwaitingCode := by decide
theorem test_decode_wide_word : decodeTableWord 8 0b1001 = none ∧ decodeTableWord 32 1 = none := by decide
theorem test_status_numbers : statusCode (.error .corrupt) = 4#3 ∧ statusKind (.error .corrupt) = 4#3 ∧
    statusCode .streamEnd = 3#3 ∧ statusKind .streamEnd = 0#3 ∧ kindCode (some .width) = 3#3 := by decide

/-! ## Host commands -/

/-- P1, row 1. -/
theorem test_beginCompress : seen (fun t => ((t.mode, t.obits, firsts 4 t.obuf), (t.freeEnt, t.nBits, t.bitPosition)))
    (exec (.beginCompress 0x90#8) State.reset) =
    some ((.comp, 24, [some 0x1F#8, some 0x9D#8, some 0x90#8, some 0#8]), (257, 9, 24)) := by decide +kernel
/-- P3, row 5: `maxbits = 17`. -/
theorem test_beginCompress_illegal : seen (fun t => (t.mode, t.err)) (exec (.beginCompress 0x11#8) fresh) =
    some (.idle, some .usage) := by decide +kernel
/-- P2, row 1, abandoning a session in error (R278). -/
theorem test_beginDecompress : seen (fun t => (t.mode, t.err, t.dphase, t.ibits, t.sp, t.bitPosition))
    (exec .beginDecompress { fresh with err := some .usage }) =
    some (.decomp, none, .header, 0, 0, 0) := by decide +kernel
/-- P1, row 2: nothing is consumed while a whole byte waits. -/
theorem test_advanceC_no_room :
    seen (fun t => (t.result, t.obits, t.cphase)) (exec (.advanceC [0x41#8, 0x42#8, 0x41#8] 2) fresh) =
    some (.response ⟨0, [0x1F#8, 0x9D#8], .outputFull⟩, 8, .first) := by decide +kernel
/-- P1, row 3 from the state row 2 leaves. -/
theorem test_advanceC : seen (fun t => ((t.result, t.pfx, t.freeEnt), (t.obits, Mem.get t.obuf 0, t.bytesIn)))
    (exec (.advanceC [0x41#8, 0x42#8, 0x41#8] 2) { fresh with obuf := staged [0x90#8], obits := 8 }) =
    some ((.response ⟨3, [0x90#8, 0x41#8], .outputFull⟩, 65#16, 259), (10, some 0x84#8, 3)) := by decide +kernel
/-- P2, row 6: the byte that completes code 65. -/
theorem test_advanceD : seen (fun t => (t.result, t.dphase, t.oldCode, t.bitPosition, t.ipos, t.ibits))
    (exec (.advanceD [0x84#8] 2) { streaming with ibuf := mem [0x41#8, 0#8, 0#8, 0#8], ibits := 8 }) =
    some (.response ⟨1, [0x41#8], .needMoreInput⟩, .run, 65#16, 33, 1, 8) := by decide +kernel
/-- P5, row 4: the error comes after the byte in front of it, and the command keeps its counts (R276). -/
theorem test_advanceD_error : seen (fun t => (t.result, t.err, t.sp))
    (exec (.advanceD [0x04#8] 1) { grown with
      bitPosition := 42, sp := 1, stack := [(0, 0x41#8)], ibuf := mem [0xB2#8, 0#8, 0#8, 0#8], ibits := 8, ipos := 2 }) =
    some (.response ⟨1, [0x41#8], .error .corrupt⟩, some .corrupt, 0) := by decide +kernel
/-- P3, row 17. -/
theorem test_finish : seen (fun t => (t.result, t.cphase, t.bitPosition, t.obits)) (exec (.finish 1)
    { running with bitPosition := 24 }) =
    some (.response ⟨0, [0x41#8], .outputFull⟩, .finishing, 40, 8) := by decide +kernel
/-- Section 1.7: a stream of two bytes. -/
theorem test_finish_short : seen (fun t => (t.result, t.err))
    (exec (.finish 8) { opened with ibuf := mem [0x1F#8, 0x9D#8, 0#8, 0#8], ibits := 16 }) =
    some (.response ⟨0, [], .error .format⟩, some .format) := by decide +kernel
theorem test_cmdReserved0 : seen (·.err) (exec .cmdReserved0 State.reset) = some (some .usage) := by decide +kernel
theorem test_cmdReserved6 : seen (·.err) (exec .cmdReserved6 fresh) = some (some .usage) := by decide +kernel
/-- R272 tests the command word before the sticky error. -/
theorem test_cmdReserved7 : seen (fun t => (t.err, t.mode)) (exec .cmdReserved7 { opened with err := some .corrupt }) =
    some (some .usage, .decomp) := by decide +kernel

/-! ## Headers and code classes -/

/-- Section 1.1, `cfg = 0x0C`. -/
theorem test_hdrWrite : seen (fun t => firsts 3 t.obuf) (exec (.hdrWrite false 12#5) State.reset) =
    some [some 0x1F#8, some 0x9D#8, some 0x0C#8] := by decide +kernel
/-- P2, row 4; the reserved bits are ignored (R228). -/
theorem test_hdrRead : seen (fun t => ((t.dphase, t.maxbits, t.blockMode), (t.nBits, t.freeEnt, t.bitPosition, t.ibits)))
    (exec (.hdrRead true 0b11#2 16#5) headed) = some ((.streamFirst, 16, true), (9, 257, 24, 0)) := by decide +kernel
/-- Section 1.7: `maxbits = 17`. -/
theorem test_hdrRead_width : seen (·.err) (exec (.hdrRead true 0#2 17#5) headed) = some (some .width) := by
  decide +kernel
theorem test_literalFirst : seen (fun t => ((t.dphase, t.oldCode, t.lastChar), (t.sp, Mem.get t.stack 0, t.freeEnt)))
    (exec (.literalFirst 0x41#8) streaming) = some ((.run, 65#16, 65#8), (1, some 0x41#8, 257)) := by decide +kernel
theorem test_badcodeFirst : seen (·.err) (exec (.badcodeFirst 256#16) streaming) = some (some .corrupt) := by
  decide +kernel
/-- P4: CLEAR at 135096 in a 9-bit epoch from 24; after the code the cursor is 135105. -/
theorem test_clear : seen (fun t => (t.dphase, t.freeEnt, t.nBits, t.bitPosition, t.alignBase, t.iskip))
    (exec .clear { grown with bitPosition := 135105, ibits := 0, ipos := 0 }) =
    some (.epochFirst, 257, 9, 135168, 135168, 63) := by decide +kernel
theorem test_literalEpochFirst : seen (fun t => (t.dphase, t.oldCode, t.freeEnt))
    (exec (.literalEpochFirst 0x41#8) { streaming with dphase := .epochFirst }) = some (.run, 65#16, 257) := by
  decide +kernel
theorem test_badcodeEpochFirst : seen (·.err) (exec (.badcodeEpochFirst 300#16) streaming) = some (some .corrupt) := by
  decide +kernel
/-- Section 1.7: `free_ent + 5`. -/
theorem test_badcodeRange : seen (fun t => (t.err, t.freeEnt)) (exec (.badcodeRange 262#16) inRun) =
    some (some .corrupt, 257) := by decide +kernel
/-- P2, row 9: code 259 = `free_ent` pushes 65, 66, 65 and creates 259 = (257, 65). -/
theorem test_kwkwk : seen (fun t => ((t.sp, firsts 3 t.stack, t.freeEnt), (Mem.get t.tabPrefix 259,
    Mem.get t.tabSuffix 259, t.oldCode))) (exec (.kwkwk 259#16)
      { grown with oldCode := 257#16, lastChar := 65#8, freeEnt := 259
                   tabPrefix := [(257, 65#16), (258, 66#16)], tabSuffix := [(257, 66#8), (258, 65#8)] }) =
    some ((3, [some 65#8, some 66#8, some 65#8], 260), (some 257#16, some 65#8, 259#16)) := by decide +kernel
/-- P2, row 7: entry 257 = (65, 66). -/
theorem test_literal : seen (fun t => (t.freeEnt, Mem.get t.tabPrefix 257, Mem.get t.tabSuffix 257, t.oldCode,
    t.lastChar)) (exec (.literal 66#8) inRun) = some (258, some 65#16, some 66#8, 66#16, 66#8) := by decide +kernel
/-- P2, row 8: code 257 gives `41 42`, reversed on the stack; entry 258 = (66, 65). -/
theorem test_dictref : seen (fun t => ((firsts 2 t.stack, t.freeEnt), (Mem.get t.tabPrefix 258, Mem.get t.tabSuffix 258),
    (t.oldCode, t.lastChar))) (exec (.dictref 257#16) grown) =
    some (([some 66#8, some 65#8], 259), (some 66#16, some 65#8), (257#16, 65#8)) := by decide +kernel

/-! ## BitCursor (section 2.1) -/

theorem test_putCode : seen (fun t => (firsts 4 t.ibuf, t.result))
    (exec (.putCode .ibuf 7 0xFFFF#16 16) { opened with ibuf := mem [0#8, 0#8, 0#8, 0#8] }) =
    some ([some 0x80#8, some 0xFF#8, some 0x7F#8, some 0#8], .position 23) := by decide +kernel
theorem test_putCode_or : seen (fun t => firsts 3 t.obuf)
    (exec (.putCode .obuf 7 1#16 9) { fresh with obuf := staged [0x7F#8] }) =
    some [some 0xFF#8, some 0#8, some 0#8] := by decide +kernel
theorem test_getCode : seen (·.result)
    (exec (.getCode .ibuf 7 16) { opened with ibuf := mem [0xFF#8, 0xFF#8, 0xFF#8, 0#8] }) =
    some (.code 65535#16) := by decide +kernel
theorem test_getCode_second_byte : seen (·.result)
    (exec (.getCode .ibuf 15 9) { opened with ibuf := mem [0#8, 0x80#8, 0#8, 0#8] }) = some (.code 1#16) := by
  decide +kernel
theorem test_realign : seen (·.result) (exec (.realign 7448 24 10) State.reset) = some (.position 7464) := by
  decide +kernel
theorem test_realign_aligned : seen (·.result) (exec (.realign 152 24 16) State.reset) = some (.position 152) := by
  decide +kernel
/-- R135 states no result below the base or without a width: REALIGN and C_REALIGN still complete (log 22). -/
theorem test_realign_outside : (∃ r, exec (.realign 23 24 9) State.reset = .next (State.reset.withResult (.position r))) ∧
    ∃ t, exec (.cRealign 0) running = .next t := ⟨⟨_, rfl⟩, _, rfl⟩
theorem test_cRealign : seen (fun t => (t.obits, t.bitPosition)) (exec (.cRealign 9)
    { fresh with bitPosition := 42, obits := 3 }) = some (57, 96) := by decide +kernel
/-- 54 bits of padding, 6 of them buffered. -/
theorem test_dRealign : seen (fun t => (t.bitPosition, t.iskip, t.ipos, t.ibits)) (exec (.dRealign 9) grown) =
    some (96, 48, 0, 0) := by decide +kernel
/-- P1, row 3: `65/9@24`. -/
theorem test_cPut : seen (fun t => (firsts 2 t.obuf, t.obits, t.bitPosition)) (exec (.cPut 65#16 9) running) =
    some ([some 0x41#8, some 0#8], 9, 33) := by decide +kernel
/-- R258: `66/9@33` from the bytes `84 04` with one bit read. -/
theorem test_dGet : seen (fun t => (t.result, t.bitPosition, t.ipos, t.ibits))
    (exec .dGet { inRun with ibuf := mem [0x84#8, 0x04#8, 0#8, 0#8], ibits := 16 }) =
    some (.code 66#16, 42, 2, 8) := by decide +kernel
theorem test_ibufCompact : seen (fun t => (firsts 4 t.ibuf, t.ipos, t.ibits))
    (exec .ibufCompact { opened with ibuf := mem [1#8, 2#8, 3#8, 4#8], ipos := 17, ibits := 24 }) =
    some ([some 3#8, some 4#8, some 0#8, some 0#8], 1, 8) := by decide +kernel
theorem test_dSkip : seen (fun t => (t.iskip, t.ipos, t.ibits)) (exec .dSkip { grown with iskip := 4 }) =
    some (0, 6, 8) := by decide +kernel
theorem test_dTake : seen (fun t => (firsts 2 t.ibuf, t.ibits)) (exec (.dTake 0x84#8)
    { streaming with ibuf := mem [0x41#8, 0#8, 0#8, 0#8], ibits := 8 }) =
    some ([some 0x41#8, some 0x84#8], 16) := by decide +kernel

/-! ## Dictionary (section 2.2) -/

theorem test_hash : seen (·.result) (exec (.hash 65535#16 255#8) State.reset) = some (.index 66047#17) := by
  decide +kernel
theorem test_hash_not_symmetric : seen (·.result) (exec (.hash 66#16 65#8) State.reset) = some (.index 33346#17) := by
  decide +kernel
/-- `STRIDE` is open: the result is the sum for whatever it is. -/
theorem test_probeNext : exec (.probeNext 33857#17 67#8) State.reset =
    .next (State.reset.withResult (.index (33857#17 + BitVec.ofInt 17 (Config.stride 67#8)))) := rfl
theorem test_lookup_miss : seen (fun t => (t.result, t.freeEnt, t.full)) (exec (.lookupOrInsert 65#16 66#8) running) =
    some (.lookup .miss, 258, false) := by decide +kernel
theorem test_lookup_hit : seen (fun t => (t.result, t.freeEnt)) (exec (.lookupOrInsert 65#16 66#8) stored) =
    some (.lookup (.hit 257#16), 258) := by decide +kernel
/-- R155: code 511 is the last one for `maxbits = 9`. -/
theorem test_insert : seen (fun t => (t.hslot.read 33857#17, t.freeEnt, t.full))
    (exec (.insert 33857#17 65#16 66#8) { running with maxbits := 9, freeEnt := 511 }) =
    some (.entry ⟨65#16, 66#8, 511#16⟩, 512, true) := by decide +kernel
theorem test_dictClear : seen (fun t => (t.hslot.read 33857#17, t.freeEnt, t.full))
    (exec .dictClear { stored with full := true }) = some (.empty, 257, false) := by decide +kernel
theorem test_tabSeed : seen (fun t => (Mem.get t.tabSuffix 255, Mem.get t.tabPrefix 255, Mem.get t.tabSuffix 257))
    (exec .tabSeed grown) = some (some 255#8, some 0#16, some 66#8) := by decide +kernel
theorem test_tabDefine : seen (fun t => (Mem.get t.tabPrefix 258, Mem.get t.tabSuffix 258, t.freeEnt))
    (exec (.tabDefine 66#16 65#8) grown) = some (some 66#16, some 65#8, 259) := by decide +kernel
theorem test_push : seen (fun t => (Mem.get t.stack 1, t.sp)) (exec (.push 7#8) { grown with sp := 1 }) =
    some (some 7#8, 2) := by decide +kernel
/-- Section 2.2: UNROLL(259) pushes 65, 66, 65 and returns 65. -/
theorem test_unroll : seen (fun t => (t.result, firsts 3 t.stack)) (exec (.unroll 259#16)
    { grown with tabPrefix := [(257, 65#16), (259, 257#16)], tabSuffix := [(257, 66#8), (259, 65#8)] }) =
    some (.byte 65#8, [some 65#8, some 66#8, some 65#8]) := by decide +kernel

/-! ## The compress state machine -/

/-- P1, row 4 from the state row 3 leaves: three bytes consumed, two delivered. -/
theorem test_cLoop : seen (fun t => ((t.result, t.pfx, t.freeEnt), (t.bitPosition, t.obits, Mem.get t.obuf 0, t.bytesIn)))
    (exec (.cLoop [0x42#8, 0x41#8, 0x42#8] 2) { insertAt (hashIndex 66#16 65#8) 66#16 65#8 stored with
      obuf := staged [0x84#8], obits := 10, bitPosition := 42, bytesIn := 3 }) =
    some ((.loop ⟨3, [0x84#8, 0x04#8], .needMoreInput, 5⟩, 257#16, 260), (51, 3, some 0x04#8, 6)) := by decide +kernel
/-- R206: the miss of (65, 66) emits `65/9@24` and starts the prefix 66. -/
theorem test_cByte : seen (fun t => (t.pfx, t.freeEnt, t.bitPosition, Mem.get t.obuf 0, t.bytesIn))
    (exec (.cByte 66#8) running) = some (66#16, 258, 33, some 0x41#8, 2) := by decide +kernel
/-- R206: a hit only moves the prefix. -/
theorem test_cByte_hit : seen (fun t => (t.pfx, t.freeEnt, t.obits)) (exec (.cByte 66#8) stored) =
    some (257#16, 258, 0) := by decide +kernel
/-- Section 2.1: no padding after 256 codes of 9 bits; 63 bits after 257 of them. -/
theorem test_cGrow : seen (fun t => (t.nBits, t.bitPosition)) (exec .cGrow
    { running with freeEnt := 513, bitPosition := 2328 }) = some (10, 2328) := by decide +kernel
theorem test_cGrow_pads : seen (fun t => (t.nBits, t.bitPosition, t.obits)) (exec .cGrow
    { running with freeEnt := 513, bitPosition := 2337, obits := 9 }) = some (10, 2400, 72) := by decide +kernel
/-- R190: the first check after a clear never clears again, since every ratio is above `RATIO_ZERO`. -/
theorem test_cRatio : seen (fun t => (t.checkpoint, t.full, t.freeEnt)) (exec .cRatio
    { running with full := true, bytesIn := 10000 }) = some (20000, true, 257) := by decide +kernel
/-- R190: not due. -/
theorem test_cRatio_not_due : seen (·.checkpoint) (exec .cRatio { running with full := true, bytesIn := 9999 }) =
    some 10000 := by decide +kernel
theorem test_ratio : seen (·.result) (exec (.ratio 3 2) State.reset) = some (.ratio (Config.ratio 3 2)) := rfl
theorem test_cDrain : seen (fun t => (t.result, firsts 2 t.obuf, t.obits)) (exec .cDrain fresh) =
    some (.byte 0x1F#8, [some 0x9D#8, some 0x90#8], 16) := by decide +kernel
/-- P1, row 6: the code 259 behind three staged bits gives `1C 08`. -/
theorem test_finishC : seen (fun t => (t.result, t.cphase, t.obits, t.bitPosition)) (exec (.finishC 2)
    { running with pfx := 259#16, obuf := staged [0x04#8], obits := 3, bitPosition := 51 }) =
    some (.response ⟨0, [0x1C#8, 0x08#8], .streamEnd⟩, .done, 0, 64) := by decide +kernel
/-- Section 2.8: FINISH with no room on a fresh session. -/
theorem test_finishC_no_room : seen (fun t => (t.result, t.cphase, t.obits)) (exec (.finishC 0) fresh) =
    some (.response ⟨0, [], .outputFull⟩, .finishing, 24) := by decide +kernel

/-! ## The decompress state machine -/

/-- P2, rows 2 to 4 in one loop. -/
theorem test_dLoop : seen (fun t => (t.result, t.dphase)) (exec (.dLoop [0x1F#8, 0x9D#8, 0x90#8] 2) opened) =
    some (.loop ⟨3, [], .needMoreInput, 4⟩, .streamFirst) := by decide +kernel
theorem test_dHeader : seen (fun t => (t.dphase, t.maxbits, t.ibits, Mem.get t.tabSuffix 65)) (exec .dHeader headed) =
    some (.streamFirst, 16, 0, some 65#8) := by decide +kernel
/-- Section 1.7: a magic byte flipped. -/
theorem test_dHeader_magic : seen (fun t => (t.err, t.dphase)) (exec .dHeader
    { headed with ibuf := mem [0x1F#8, 0x9C#8, 0x90#8, 0#8] }) = some (some .format, .header) := by decide +kernel
theorem test_dCode : seen (fun t => (t.freeEnt, t.oldCode, t.sp)) (exec .dCode (coded .run 257#16)) =
    some (259, 257#16, 2) := by decide +kernel
theorem test_dFirst : seen (fun t => (t.dphase, t.sp)) (exec (.dFirst 0x41#16) streaming) = some (.run, 1) := by
  decide +kernel
theorem test_dFirst_bad : seen (fun t => (t.err, t.dphase)) (exec (.dFirst 256#16) streaming) =
    some (some .corrupt, .streamFirst) := by decide +kernel
theorem test_dClear : seen (fun t => (t.alignBase, t.freeEnt)) (exec .dClear grown) = some (96, 257) := by
  decide +kernel
theorem test_dExpand : seen (fun t => (firsts 2 t.stack, t.freeEnt)) (exec (.dExpand 258#16)
    { grown with oldCode := 65#16, lastChar := 65#8 }) = some ([some 65#8, some 65#8], 259) := by decide +kernel
/-- R240: the decompressor widens one code earlier in `free_ent` than the compressor. -/
theorem test_dGrow : seen (·.nBits) (exec .dGrow { grown with freeEnt := 512, bitPosition := 2328 }) = some 10 ∧
    seen (·.nBits) (exec .dGrow { grown with freeEnt := 511, bitPosition := 2319 }) = some 9 := by decide +kernel
theorem test_dDrain : seen (fun t => (t.result, t.sp)) (exec .dDrain
    { grown with sp := 2, stack := [(0, 66#8), (1, 65#8)] }) = some (.byte 65#8, 1) := by decide +kernel
/-- P2, row 11: leftover bits are dropped. -/
theorem test_finishD : seen (fun t => (t.result, t.dphase)) (exec (.finishD 2) grown) =
    some (.response ⟨0, [], .streamEnd⟩, .done) := by decide +kernel
theorem test_raise : seen (fun t => (t.err, t.result)) (exec (.raise .format) grown) =
    some (some .format, .response ⟨0, [], .error .format⟩) := by decide +kernel

/-! ## Pseudo-commands, the reset event, the step -/

/-- Section 2.3: "A". -/
theorem test_compressAll : seen (·.result) (exec (.compressAll 0x90#8 [0x41#8] 3) State.reset) =
    some (.stream [0x1F#8, 0x9D#8, 0x90#8, 0x41#8, 0x00#8] .streamEnd) := by decide +kernel
theorem test_decompressAll : seen (·.result)
    (exec (.decompressAll [0x1F#8, 0x9D#8, 0x90#8, 0x41#8, 0x00#8] 1) State.reset) =
    some (.stream [0x41#8] .streamEnd) := by decide +kernel
theorem test_reset : seen (fun t => (t.mode, t.err, t.freeCount)) (exec .reset { grown with err := some .usage }) =
    some (.idle, none, 19) := rfl
theorem test_step_waits : step State.reset = .next State.reset := rfl
theorem test_step_serves : seen (fun t => (t.port, t.err))
    (step { State.reset with port := [.command ⟨3#3, 0#8, [0x41#8], 8⟩, .resetLine] }) =
    some ([.resetLine], some .usage) := by decide +kernel
theorem test_withFetchWord_command : (State.reset.withFetchWord 8 0b101).port = [.command ⟨5#3, 0#8, [], 0⟩] := by
  decide +kernel
theorem test_withFetchWord_code : seen (fun t => (t.oldCode, t.freeEnt, t.sp))
    (step (State.reset.withFetchWord 16 0b0000000001000001)) = some (65#16, 258, 1) := by decide +kernel
theorem test_withFetchWord_hdrRead : seen (fun t => (t.dphase, t.maxbits))
    (step (State.reset.withFetchWord 24 0b111010011001110100011111)) = some (.streamFirst, 9) := by decide +kernel
theorem test_withFetchWord_hdrWrite : seen (fun t => firsts 3 t.obuf)
    (step (State.reset.withFetchWord 24 0b100100001001110100011111)) =
    some [some 0x1F#8, some 0x9D#8, some 0x90#8] := by decide +kernel

/-! ## The states above meet the invariants the obligations assume -/

theorem written_staged : Written 32 (staged []) ∧ Written 32 (staged [0x90#8]) ∧ Written 32 fresh.obuf := by
  refine ⟨?_, ?_, ?_⟩ <;> (unfold Written; decide +kernel)

/-- A buffer of `l` and zeros has no bit above `l`. -/
theorem bufBit_zeros (l : List Byte) (n i : Nat) (h : 8 * l.length ≤ i) :
    bufBit (Mem.cellsFrom 0 (l ++ List.replicate n 0#8)) i = false := by
  have hg : Mem.get (Mem.cellsFrom 0 (l ++ List.replicate n 0#8)) (i / 8) =
      (List.replicate n 0#8)[i / 8 - l.length]? := by
    rw [Mem.get_cellsFrom, if_pos (Nat.zero_le _), List.getElem?_append_right (by omega), Nat.sub_zero]
  by_cases hn : i / 8 - l.length < n
  · rw [bufBit_of_get (b := 0#8) (by rw [hg, List.getElem?_replicate, if_pos hn])]
    simp
  · exact bufBit_of_none (by rw [hg, List.getElem?_replicate, if_neg hn])

theorem tailZero_fresh : TailZero fresh := fun i h => bufBit_zeros [0x1F#8, 0x9D#8, 0x90#8] 29 i h

theorem tailZero_running : TailZero running := fun i _ => bufBit_zeros [] 32 i (Nat.zero_le _)

theorem compInv_fresh : CompInv fresh where
  ranges := by constructor <;> decide
  hash := hashInv_empty rfl rfl
  fullIff := by decide
  fits := .inl (by decide)
  pending := fun h => by cases h
  outWritten := written_staged.2.2
  tail := tailZero_fresh
  headerIn := by decide
  room := fun _ => by decide
  padded := fun h => by cases h

theorem compInv_running : CompInv running where
  ranges := by constructor <;> decide
  hash := hashInv_empty rfl rfl
  fullIff := by decide
  fits := .inl (by decide)
  pending := fun _ => by decide
  outWritten := written_staged.1
  tail := tailZero_running
  headerIn := by decide
  room := fun _ => by decide
  padded := fun h => by cases h

theorem not_stored_running (p : Code) (b : Byte) (c : Code) : ¬ Stored running.hslot p b c := by
  rintro ⟨h, hh⟩
  cases hh

theorem hashInv_stored : HashInv stored :=
  hashInv_insertAt (n := 0) compInv_running.hash (by decide) (by decide) (by decide) (not_stored_running _ _) (by decide)
    rfl (fun _ h => absurd h (Nat.not_lt_zero _))

theorem stored_pair : Stored stored.hslot 65#16 66#8 257#16 := ⟨33857, by decide +kernel⟩

theorem liveComp_fresh : LiveComp fresh := ⟨rfl, rfl, .inl rfl, compInv_fresh⟩

theorem liveComp_running : LiveComp running := ⟨rfl, rfl, .inr rfl, compInv_running⟩

/-- A session that has finished with three bytes still staged. -/
def finishing : State := { fresh with cphase := .finishing }

theorem compInv_finishing : CompInv finishing :=
  { compInv_fresh with
    ranges := by constructor <;> decide
    hash := hashInv_empty rfl rfl
    pending := fun h => by cases h
    room := fun h => by rcases h with h | h <;> cases h
    padded := fun _ => by decide }

theorem written_ibuf (s : State) (b0 b1 b2 b3 : Byte) (h : s.ibuf = mem [b0, b1, b2, b3]) : Written 4 s.ibuf := by
  intro a ha
  rw [h]
  interval_cases a <;> rfl

theorem decompInv_opened : DecompInv opened where
  inWritten := written_ibuf _ 0 0 0 0 rfl
  ibitsByte := rfl
  ibitsHi := by decide
  iposLe := by decide
  iposLt := by decide
  skip := fun _ => rfl
  stackWritten := fun _ h => absurd h (Nat.not_lt_zero _)
  spHi := by decide
  header := fun _ => ⟨rfl, rfl, rfl⟩
  opened := fun h => absurd rfl h

theorem openInv_streaming : OpenInv streaming where
  ranges := by constructor <;> decide
  table := by rintro e h (h' | ⟨h1, h2⟩) <;> simp only [streaming, firstFree, if_true] at * <;> omega
  old := fun h => by cases h
  lastFirst := fun h => by cases h
  epoch := fun h => by cases h

theorem decompInv_streaming : DecompInv streaming where
  inWritten := written_ibuf _ 0 0 0 0 rfl
  ibitsByte := rfl
  ibitsHi := by decide
  iposLe := by decide
  iposLt := by decide
  skip := fun _ => rfl
  stackWritten := fun _ h => absurd h (Nat.not_lt_zero _)
  spHi := by decide
  header := fun h => by cases h
  opened := fun _ => openInv_streaming

/-- A session with the tables of `grown`, in any phase that has them. -/
theorem openInv_coded (ph : DPhase) (c : Code) : OpenInv (coded ph c) where
  ranges := by constructor <;> simp only [coded, grown, streaming, firstFree] <;> decide
  table := by
    rintro e h (h' | ⟨h1, h2⟩)
    · omega
    · have : e = 257 := by simp only [coded, grown, streaming, firstFree, if_true] at h1 h2; omega
      subst this
      exact ⟨65#16, 66#8, rfl, rfl, by decide, .inl (by decide)⟩
  old := fun _ => .inl (by simp only [coded, grown]; decide)
  lastFirst := fun _ => ⟨_, .literal _ (by simp only [coded, grown]; decide), rfl⟩
  epoch := fun _ => rfl

theorem decompInv_coded (ph : DPhase) (c : Code) (h : ph ≠ .header) : DecompInv (coded ph c) where
  inWritten := written_ibuf _ _ _ 0 0 rfl
  ibitsByte := by simp only [coded]
  ibitsHi := by simp only [coded]; decide
  iposLe := Nat.zero_le _
  iposLt := by simp only [coded]; decide
  skip := fun h => absurd h (Nat.not_lt_zero _)
  stackWritten := fun _ h => absurd h (Nat.not_lt_zero _)
  spHi := Nat.zero_le _
  header := fun h' => absurd h' h
  opened := fun _ => openInv_coded ph c

theorem liveDecomp_coded (ph : DPhase) (c : Code) (h : ph ≠ .header) (h' : ph ≠ .done) : LiveDecomp (coded ph c) :=
  ⟨rfl, rfl, h', decompInv_coded ph c h⟩

theorem liveDecomp_opened : LiveDecomp opened := ⟨rfl, rfl, by decide, decompInv_opened⟩

theorem liveDecomp_streaming : LiveDecomp streaming := ⟨rfl, rfl, by decide, decompInv_streaming⟩

/-- `coded .run` with two bytes on the stack. -/
def stacked : State := { coded .run 65#16 with sp := 2, stack := [(0, 66#8), (1, 65#8)], ibits := 8, ipos := 2 }

theorem liveDecomp_stacked : LiveDecomp stacked :=
  ⟨rfl, rfl, by decide,
    { decompInv_coded .run 65#16 (by decide) with
      inWritten := written_ibuf _ _ _ 0 0 rfl
      ibitsHi := by simp only [stacked]; decide
      iposLe := by simp only [stacked]; decide
      iposLt := by simp only [stacked]; decide
      skip := fun h => absurd h (Nat.not_lt_zero _)
      stackWritten := by intro i hi; simp only [stacked] at hi; interval_cases i <;> rfl
      spHi := by simp only [stacked]; decide
      header := fun h => by cases h
      opened := fun _ =>
        { openInv_coded .run 65#16 with
          ranges := by constructor <;> simp only [stacked, coded, grown, streaming, firstFree] <;> decide
          lastFirst := fun _ => ⟨_, .literal _ (by simp only [stacked, coded, grown]; decide), rfl⟩ } }⟩

theorem inv_fresh : Inv fresh := ⟨by decide +kernel, fun _ _ => compInv_fresh, fun _ h => (by cases h)⟩

theorem inv_coded : Inv (coded .run 257#16) :=
  ⟨by decide +kernel, fun _ h => (by cases h), fun _ _ => decompInv_coded .run 257#16 (by decide)⟩

/-! ## Witnesses: the hypotheses of each obligation that has any, met together, one line for each clause -/

theorem witness_DecodeOfEncodeIsTheInstruction :
    (wellFormed (.hdrWrite true 9#5) = true ∧ InContext ⟨.comp, .header, true, 257⟩ (.hdrWrite true 9#5) ∧
      (encode (.hdrWrite true 9#5)).isSome = true) ∧
    InContext ⟨.decomp, .header, true, 257⟩ (.hdrRead false 3#2 31#5) ∧
    InContext ⟨.decomp, .streamFirst, true, 257⟩ (.literalFirst 255#8) ∧
    (wellFormed (.badcodeFirst 256#16) = true ∧ InContext ⟨.decomp, .streamFirst, true, 257⟩ (.badcodeFirst 256#16)) ∧
    InContext ⟨.decomp, .epochFirst, true, 257⟩ .clear ∧
    InContext ⟨.decomp, .epochFirst, true, 257⟩ (.literalEpochFirst 255#8) ∧
    (wellFormed (.badcodeEpochFirst 257#16) = true ∧
      InContext ⟨.decomp, .epochFirst, true, 257⟩ (.badcodeEpochFirst 257#16)) ∧
    InContext ⟨.decomp, .run, true, 257⟩ (.badcodeRange 258#16) ∧
    InContext ⟨.decomp, .run, false, 256⟩ (.kwkwk 256#16) ∧
    InContext ⟨.decomp, .run, true, 257⟩ (.literal 255#8) ∧
    (wellFormed (.dictref 257#16) = true ∧ InContext ⟨.decomp, .run, true, 258⟩ (.dictref 257#16)) := by
  refine ⟨⟨rfl, rfl, rfl⟩, rfl, rfl, ⟨rfl, rfl⟩, ⟨rfl, .inl rfl⟩, rfl, ⟨rfl, rfl, by decide⟩, ⟨rfl, ?_, by decide⟩,
    ⟨rfl, rfl, by decide⟩, ⟨rfl, ?_⟩, rfl, rfl, ?_, by decide⟩ <;> decide

theorem witness_DCodeRunsTheClassOfItsCode :
    ((∃ t, dGet (coded .streamFirst 255#16) = .ok (255#16, t)) ∧ (coded .streamFirst 255#16).dphase = .streamFirst) ∧
    ((∃ t, dGet (coded .streamFirst 256#16) = .ok (256#16, t)) ∧ (coded .streamFirst 256#16).dphase = .streamFirst) ∧
    ((∃ t, dGet (coded .run 256#16) = .ok (256#16, t)) ∧ (coded .run 256#16).dphase = .run ∧
      (coded .run 256#16).blockMode = true) ∧
    ((∃ t, dGet (coded .epochFirst 255#16) = .ok (255#16, t)) ∧ (coded .epochFirst 255#16).dphase = .epochFirst) ∧
    ((∃ t, dGet (coded .epochFirst 257#16) = .ok (257#16, t)) ∧ (coded .epochFirst 257#16).dphase = .epochFirst) ∧
    ((∃ t, dGet (coded .run 259#16) = .ok (259#16, t)) ∧ (coded .run 259#16).freeEnt < (259#16 : Code).toNat) ∧
    ((∃ t, dGet (coded .run 258#16) = .ok (258#16, t)) ∧ (258#16 : Code).toNat = (coded .run 258#16).freeEnt) ∧
    ((∃ t, dGet (coded .run 255#16) = .ok (255#16, t)) ∧ (255#16 : Code).toNat < (coded .run 255#16).freeEnt) ∧
    ((∃ t, dGet (coded .run 257#16) = .ok (257#16, t)) ∧ (257#16 : Code).toNat < (coded .run 257#16).freeEnt) :=
  ⟨⟨⟨_, rfl⟩, rfl⟩, ⟨⟨_, rfl⟩, rfl⟩, ⟨⟨_, rfl⟩, rfl, rfl⟩, ⟨⟨_, rfl⟩, rfl⟩, ⟨⟨_, rfl⟩, rfl⟩, ⟨⟨_, rfl⟩, by decide⟩,
    ⟨⟨_, rfl⟩, by decide⟩, ⟨⟨_, rfl⟩, by decide⟩, ⟨⟨_, rfl⟩, by decide⟩⟩

theorem witness_StepServesTheHeadOfThePort :
    State.reset.port = [] ∧ ({ fresh with port := [.command (bareRequest 5#3)] } : State).port = [.command (bareRequest 5#3)] ∧
    ({ fresh with port := [.resetLine] } : State).port = [.resetLine] := ⟨rfl, rfl, rfl⟩

theorem witness_StepKeepsTheInvariant : Inv fresh ∧ Inv (coded .run 257#16) := ⟨inv_fresh, inv_coded⟩

theorem witness_ErrorEndsOnlyWithBeginOrReset :
    (∃ t, step { fresh with err := some .usage, port := [.resetLine] } = .next t ∧ t.err = none) ∧
    (∃ t, step { fresh with err := some .usage, port := [.command ⟨1#3, 0x89#8, [], 0⟩] } = .next t ∧ t.err = none) ∧
    (∃ t, step { fresh with err := some .usage, port := [.command ⟨2#3, 0#8, [], 0⟩] } = .next t ∧ t.err = none) :=
  ⟨⟨_, rfl, rfl⟩, ⟨_, rfl, rfl⟩, ⟨_, rfl, rfl⟩⟩

theorem witness_SessionSidesStayApart :
    ∃ t, exec (.hash 65#16 66#8) fresh = .next t ∧ writesCompSide fresh.mode (.hash 65#16 66#8) = false ∧
      writesDecompSide fresh.mode (.hash 65#16 66#8) = false := ⟨_, rfl, rfl, rfl⟩

theorem witness_BeginCommandsOpenASession :
    ((0x89#8).extractLsb' 5 2 = 0#2 ∧ 9 ≤ ((0x89#8).extractLsb' 0 5).toNat ∧ ((0x89#8).extractLsb' 0 5).toNat ≤ 16) ∧
    ((0x10#8).extractLsb' 5 2 = 0#2 ∧ 9 ≤ ((0x10#8).extractLsb' 0 5).toNat ∧ ((0x10#8).extractLsb' 0 5).toNat ≤ 16) ∧
    ¬ (9 ≤ ((0x88#8).extractLsb' 0 5).toNat) ∧ ¬ ((0x11#8).extractLsb' 0 5).toNat ≤ 16 ∧
    ¬ (0xB0#8).extractLsb' 5 2 = 0#2 := by decide

theorem witness_ErrorIsSticky : ({ fresh with err := some .usage } : State).err = some .usage := rfl

theorem witness_MisusedCommandRaisesUsageError :
    (State.reset.err = none ∧ State.reset.mode = .idle) ∧ (opened.err = none ∧ opened.mode = .decomp) ∧
    (fresh.err = none ∧ fresh.mode = .comp) ∧
    (finishing.err = none ∧ finishing.mode = .comp ∧ finishing.cphase = .finishing) :=
  ⟨⟨rfl, rfl⟩, ⟨rfl, rfl⟩, ⟨rfl, rfl⟩, ⟨rfl, rfl, rfl⟩⟩

theorem witness_NoProgressRaisesUsageError :
    (fresh.err = none ∧ fresh.mode = .comp ∧ fresh.cphase = .first ∧ 8 ≤ fresh.obits) ∧
    (running.err = none ∧ running.mode = .comp ∧ running.cphase = .run ∧ running.obits < 8) ∧
    (finishing.err = none ∧ finishing.mode = .comp ∧ finishing.cphase = .finishing) ∧
    (stacked.err = none ∧ stacked.mode = .decomp ∧ stacked.dphase ≠ .done ∧ 0 < stacked.sp) ∧
    (opened.err = none ∧ opened.mode = .decomp ∧ opened.dphase ≠ .done ∧ headerReady opened = false ∧
      codeReady opened = false) := by
  decide +kernel

theorem witness_StreamEndIsAbsorbing :
    (({ fresh with cphase := .done } : State).err = none ∧ ({ fresh with cphase := .done } : State).mode = .comp) ∧
    (({ opened with dphase := .done } : State).err = none ∧ ({ opened with dphase := .done } : State).mode = .decomp) :=
  ⟨⟨rfl, rfl⟩, rfl, rfl⟩

theorem witness_FinishServesTheOpenSession :
    ({ fresh with err := some .width } : State).err = some .width ∧ (State.reset.err = none ∧ State.reset.mode = .idle) ∧
    (fresh.err = none ∧ fresh.mode = .comp) ∧ (opened.err = none ∧ opened.mode = .decomp) :=
  ⟨rfl, ⟨rfl, rfl⟩, ⟨rfl, rfl⟩, rfl, rfl⟩

theorem witness_MicroOperationsStopOutsideTheirDomain :
    (255 / 8 < bufSize .obuf ∧ Mem.get (State.reset.buffer .obuf) (255 / 8) = none) ∧ bufSize .ibuf ≤ 32 / 8 ∧
    ({ opened with ipos := 8 } : State).ibits < 8 ∧ ((Mem.get running.obuf 0).isSome = true ∧ running.obits < 8) ∧
    grown.sp = 0 ∧ 65536 ≤ ({ grown with sp := 65536 } : State).sp ∧
    (256 ≤ (257#16 : Code).toNat ∧ Mem.get streaming.tabSuffix (257#16 : Code).toNat = none) ∧
    State.reset.hslot.read (hashIndex 65#16 66#8) = .unwritten := by decide +kernel

theorem witness_PutCodeOrsIntoThreeBytes :
    239 / 8 + 2 < bufSize .obuf ∧ Mem.get (fresh.buffer .obuf) (239 / 8) = some 0#8 ∧
    Mem.get (fresh.buffer .obuf) (239 / 8 + 1) = some 0#8 ∧ Mem.get (fresh.buffer .obuf) (239 / 8 + 2) = some 0#8 := by
  decide +kernel

theorem witness_PutCodeWritesStreamBits :
    (511#16 : Code).toNat < 2 ^ 9 ∧ 239 / 8 + 2 < bufSize .obuf ∧ Written (bufSize .obuf) (fresh.buffer .obuf) ∧
    ∀ j, j < 16 → bufBit (fresh.buffer .obuf) (239 + j) = false :=
  ⟨by decide, by decide, written_staged.2.2, fun _ _ => bufBit_zeros [0x1F#8, 0x9D#8, 0x90#8] 29 _ (by simp; omega)⟩

theorem witness_GetCodeInvertsPutCode :
    15 / 8 + 2 < bufSize .ibuf ∧ Written (bufSize .ibuf) (opened.buffer .ibuf) ∧ (65535#16 : Code).toNat < 2 ^ 16 ∧
    ∀ j, j < 16 → bufBit (opened.buffer .ibuf) (15 + j) = false :=
  ⟨by decide, decompInv_opened.inWritten, by decide, fun _ _ => bufBit_zeros [] 4 _ (Nat.zero_le _)⟩

theorem witness_RealignMovesToTheGroupBoundary : (24 ≤ 24 ∧ 9 ≤ 16 ∧ (24 - 24) % (8 * 9) = 0) ∧
    (42 = grown.bitPosition ∧ 24 = grown.alignBase ∧ grown.ipos ≤ grown.ibits) := by decide

theorem witness_CRealignPadsTheOutput : running.alignBase ≤ running.bitPosition := by decide

theorem witness_DRealignDiscardsThePadding : grown.alignBase ≤ grown.bitPosition ∧ grown.ipos ≤ grown.ibits := by decide

theorem witness_CPutAppendsTheCode :
    running.obits / 8 + 2 < 32 ∧ Written 32 running.obuf ∧ TailZero running ∧ (511#16 : Code).toNat < 2 ^ 9 :=
  ⟨by decide, written_staged.1, tailZero_running, by decide⟩

theorem witness_DGetTakesTheNextCode :
    9 ≤ (coded .run 257#16).nBits ∧ (coded .run 257#16).nBits ≤ 16 ∧ (coded .run 257#16).ipos < 8 ∧
    (coded .run 257#16).ipos + (coded .run 257#16).nBits ≤ (coded .run 257#16).ibits ∧ Written 4 (coded .run 257#16).ibuf :=
  ⟨by decide, by decide, by decide, by decide, (decompInv_coded .run _ (by decide)).inWritten⟩

theorem witness_IbufCompactDropsConsumedBytes : ({ opened with ibits := 24, ipos := 24 } : State).ipos ≤ 24 := by decide

theorem witness_DSkipDiscardsBufferedPadding :
    ({ grown with iskip := 7 } : State).ipos ≤ ({ grown with iskip := 7 } : State).ibits ∧
    ({ grown with iskip := 7 } : State).ibits % 8 = 0 ∧ 6 < 7 := by decide

theorem witness_DTakeAppendsTheByte :
    (coded .run 257#16).ibits ≤ 16 ∧ (coded .run 257#16).ipos ≤ (coded .run 257#16).ibits := by decide

theorem witness_ProbeSequenceVisitsEverySlot : 131071 < 131072 ∧ probeAt 65#16 66#8 0 = probeAt 65#16 66#8 0 :=
  ⟨by decide, rfl⟩

theorem witness_LookupFindsExactlyTheStoredPairs :
    (HashInv stored ∧ stored.freeEnt ≤ 65536 ∧ Stored stored.hslot 65#16 66#8 257#16) ∧
    (HashInv { running with full := true } ∧ ∀ c, ¬ Stored running.hslot 65#16 66#8 c) ∧
    (HashInv running ∧ running.full = false ∧ running.freeEnt < 65536 ∧ ∀ c, ¬ Stored running.hslot 65#16 66#8 c) :=
  ⟨⟨hashInv_stored, by decide, stored_pair⟩, ⟨hashInv_empty rfl rfl, not_stored_running _ _⟩,
    compInv_running.hash, rfl, by decide, not_stored_running _ _⟩

theorem witness_LookupKeepsTheHashInvariant :
    HashInv stored ∧ firstFree stored.blockMode ≤ stored.freeEnt ∧ stored.freeEnt ≤ 2 ^ stored.maxbits ∧
    stored.maxbits ≤ 16 ∧ stored.full = exhausted stored.maxbits stored.freeEnt ∧ (257#16 : Code).toNat < stored.freeEnt :=
  ⟨hashInv_stored, by decide, by decide, by decide, by decide, by decide⟩

theorem witness_InsertAssignsTheNextCode :
    running.full = false ∧ running.maxbits ≤ 16 ∧ running.freeEnt < 2 ^ running.maxbits ∧
    ({ running with freeEnt := 65535 } : State).freeEnt < 2 ^ running.maxbits := by decide

theorem witness_TablesAreSeededAndExtended :
    (grown.maxbits ≤ 16 ∧ grown.freeEnt < 2 ^ grown.maxbits) ∧
    2 ^ ({ grown with freeEnt := 65536 } : State).maxbits ≤ ({ grown with freeEnt := 65536 } : State).freeEnt := by decide

theorem witness_UnrollStacksTheStringReversed :
    grown.sp < 65536 ∧ ∃ str, Spells grown 257#16 str ∧ grown.sp + str.length ≤ 65536 :=
  ⟨by decide, _, .entry _ 65#16 66#8 _ (by decide) rfl rfl (.literal _ (by decide)), by decide⟩

theorem witness_StringLengthIsBounded :
    OpenInv (coded .run 0#16) ∧ Defined (coded .run 0#16) (255#16 : Code).toNat ∧
    Defined (coded .run 0#16) (257#16 : Code).toNat :=
  ⟨openInv_coded .run 0#16, .inl (by decide), .inr (by decide)⟩

theorem witness_CByteExtendsThePrefix :
    (fresh.cphase = .first ∧ ({ fresh with obits := 0 } : State).cphase = .first ∧
      ({ fresh with obits := 0 } : State).obits < 8) ∧ stored.obits < 8 ∧
    (stored.cphase = .run ∧ HashInv stored ∧ stored.freeEnt ≤ 65536 ∧ Stored stored.hslot stored.pfx 66#8 257#16) :=
  ⟨⟨rfl, rfl, by decide⟩, by decide, rfl, hashInv_stored, by decide, stored_pair⟩

theorem witness_CByteMissEmitsThePrefix :
    CompInv running ∧ running.cphase = .run ∧ running.obits < 8 ∧ (∀ c, ¬ Stored running.hslot running.pfx 66#8 c) ∧
    (decide (running.freeEnt + 1 = 2 ^ running.maxbits) && running.blockMode &&
      decide (running.checkpoint ≤ running.bytesIn + 1)) = false :=
  ⟨compInv_running, rfl, by decide, not_stored_running _ _, by decide⟩

theorem witness_CByteKeepsTheSessionInvariant :
    CompInv running ∧ running.cphase = .run ∧ running.obits < 8 := ⟨compInv_running, rfl, by decide⟩

theorem witness_GrowthStepsWidenByOne :
    (running.alignBase ≤ running.bitPosition ∧ 9 ≤ running.nBits ∧ running.nBits ≤ 16) ∧
    (({ running with freeEnt := 513 } : State).nBits < running.maxbits ∧
      2 ^ ({ running with freeEnt := 513 } : State).nBits < 513) ∧
    ¬ 2 ^ ({ running with freeEnt := 512 } : State).nBits < 512 ∧ grown.ipos ≤ grown.ibits := by decide

/-- A session whose table is full and whose check is due, with the ratio of the previous check `r`. -/
def due (r : Config.RatioT) : State := { running with full := true, bytesIn := 10000, ratioPrev := r }

theorem witness_CRatioClearsWhenNotImproved :
    ((due .zero).alignBase ≤ (due .zero).bitPosition ∧ 9 ≤ (due .zero).nBits ∧ (due .zero).nBits ≤ 16 ∧
      (due .zero).obits / 8 + 2 < 32 ∧ Written 32 (due .zero).obuf ∧ TailZero (due .zero)) ∧
    ((due .zero).full = true ∧ (due .zero).blockMode = true ∧ (due .zero).checkpoint ≤ (due .zero).bytesIn) ∧
    ¬ running.full = true ∧
    Config.RatioT.le (Config.ratio (due .zero).bytesIn ((due .zero).bitPosition / 8)) (due .zero).ratioPrev = false ∧
    Config.RatioT.le (Config.ratio 10000 3) (due (Config.ratio 10000 3)).ratioPrev = true :=
  ⟨⟨by decide, by decide, by decide, by decide, written_staged.1, tailZero_running⟩, ⟨rfl, rfl, by decide⟩, by decide,
    rfl, decide_eq_true (le_refl _)⟩

theorem witness_RatioIsMonotone :
    0 < 1 ∧ 0 < 2 ∧ ((1 : Nat) : Rat) / (2 : Nat) ≤ ((1 : Nat) : Rat) / (1 : Nat) := by norm_num

theorem witness_DrainsDeliverTheNextByte :
    (Mem.get fresh.obuf 0 = some 0x1F#8 ∧ 8 ≤ fresh.obits) ∧
    (0 < stacked.sp ∧ stacked.sp ≤ 65536 ∧ Mem.get stacked.stack (stacked.sp - 1) = some 65#8) := by decide +kernel

theorem witness_AdvanceCRunsUntilInputOrRoomEnds : LiveComp fresh ∧ LiveComp running :=
  ⟨liveComp_fresh, liveComp_running⟩

theorem next_of_seen {o : Host.Outcome State Fault Refusal} {t : State} (h : seen id o = some t) : o = .next t := by
  cases o <;> simp_all [seen]

/-- `stored` with the code 65 staged but for the byte that was delivered. -/
def halfWay : State :=
  { stored with obuf := staged [], obits := 1, bitPosition := 33, bytesIn := 2, pfx := 66#16 }

theorem witness_CompressionIgnoresTheSplit :
    LiveComp fresh ∧
    exec (.cLoop [65#8] 3) fresh =
      .next (running.withResult (.loop ⟨1, [0x1F#8, 0x9D#8, 0x90#8], .needMoreInput, 4⟩)) ∧
    exec (.cLoop [66#8] 1) running = .next (halfWay.withResult (.loop ⟨1, [0x41#8], .needMoreInput, 2⟩)) :=
  ⟨liveComp_fresh, next_of_seen (by decide +kernel), next_of_seen (by decide +kernel)⟩

theorem witness_FinishFlushesTheCompressor :
    (CompInv fresh ∧ fresh.cphase ≠ .done ∧ ¬ (fresh.cphase = .finishing ∧ 0 = 0)) ∧
    (CompInv running ∧ running.cphase ≠ .done ∧ ¬ (running.cphase = .finishing ∧ 0 = 0)) ∧
    (CompInv finishing ∧ finishing.cphase ≠ .done ∧ ¬ (finishing.cphase = .finishing ∧ 1 = 0)) :=
  ⟨⟨compInv_fresh, by decide, by decide⟩, ⟨compInv_running, by decide, by decide⟩, compInv_finishing, by decide, by decide⟩

theorem witness_HeaderIsCheckedAndAccepted :
    (Mem.get headed.ibuf 0 = some 0x1F#8 ∧ Mem.get headed.ibuf 1 = some 0x9D#8 ∧ Mem.get headed.ibuf 2 = some 0x90#8 ∧
      24 ≤ headed.ibits ∧ 9 ≤ ((0x90#8).extractLsb' 0 5).toNat ∧ ((0x90#8).extractLsb' 0 5).toNat ≤ 16) ∧
    (Mem.get opened.ibuf 0 = some 0#8 ∧ ¬ ((0#8 : Byte) = 0x1F#8)) ∧
    ¬ (9 ≤ (8#5 : BitVec 5).toNat) ∧ ¬ ((17#5 : BitVec 5).toNat ≤ 16) ∧ 9 ≤ (9#5 : BitVec 5).toNat := by decide +kernel

theorem witness_FirstCodeIsALiteral :
    256 ≤ (256#16 : Code).toNat ∧ (255#16 : Code).toNat < 256 ∧ streaming.sp < 65536 := by decide

theorem witness_ClearStartsANewEpoch :
    grown.alignBase ≤ grown.bitPosition ∧ 9 ≤ grown.nBits ∧ grown.nBits ≤ 16 ∧ grown.ipos ≤ grown.ibits := by decide

theorem witness_ExpandOutputsTheString :
    (OpenInv (coded .run 0#16) ∧ (coded .run 0#16).dphase = .run ∧ (coded .run 0#16).sp = 0 ∧
      (coded .run 0#16).ipos ≤ (coded .run 0#16).ibits) ∧
    (coded .run 0#16).freeEnt < (259#16 : Code).toNat ∧
    (256 ≤ (257#16 : Code).toNat ∧ Defined (coded .run 0#16) (257#16 : Code).toNat) ∧
    (258#16 : Code).toNat = (coded .run 0#16).freeEnt :=
  ⟨⟨openInv_coded .run 0#16, rfl, rfl, by decide⟩, by decide, ⟨by decide, .inr (by decide)⟩, by decide⟩

theorem witness_DCodeAcceptsOrRejects :
    (LiveDecomp (coded .run 258#16) ∧ (coded .run 258#16).sp = 0 ∧ (coded .run 258#16).iskip = 0 ∧
      (coded .run 258#16).nBits ≤ (coded .run 258#16).ibits - (coded .run 258#16).ipos ∧
      CodeAccepted (coded .run 258#16) (streamValue (coded .run 258#16).ibuf 0 9)) ∧
    ¬ CodeAccepted (coded .run 259#16) (streamValue (coded .run 259#16).ibuf 0 9) ∧
    CodeAccepted (coded .streamFirst 255#16) (streamValue (coded .streamFirst 255#16).ibuf 0 9) ∧
    ¬ CodeAccepted (coded .streamFirst 256#16) (streamValue (coded .streamFirst 256#16).ibuf 0 9) ∧
    CodeAccepted (coded .epochFirst 256#16) (streamValue (coded .epochFirst 256#16).ibuf 0 9) ∧
    ¬ CodeAccepted (coded .epochFirst 257#16) (streamValue (coded .epochFirst 257#16).ibuf 0 9) := by
  refine ⟨⟨liveDecomp_coded .run _ (by decide) (by decide), rfl, rfl, by decide, ?_⟩, ?_, ?_, ?_, ?_, ?_⟩ <;>
    simp only [CodeAccepted, coded] <;> decide +kernel

theorem witness_AdvanceDRunsUntilInputOrRoomEnds : LiveDecomp opened ∧ LiveDecomp stacked ∧ LiveDecomp streaming :=
  ⟨liveDecomp_opened, liveDecomp_stacked, liveDecomp_streaming⟩

theorem witness_FinishDrainsTheDecompressor :
    (LiveDecomp stacked ∧ headerReady stacked = false ∧ codeReady stacked = false ∧ 1 < stacked.sp) ∧
    (LiveDecomp opened ∧ headerReady opened = false ∧ codeReady opened = false ∧ opened.dphase = .header) ∧
    (LiveDecomp streaming ∧ headerReady streaming = false ∧ codeReady streaming = false ∧ streaming.dphase ≠ .header) :=
  ⟨⟨liveDecomp_stacked, by decide, by decide, by decide⟩, ⟨liveDecomp_opened, by decide, by decide, rfl⟩,
    liveDecomp_streaming, by decide, by decide, by decide⟩

theorem witness_CompressAllIgnoresTheRoom : cfgOk 0x90#8 = true ∧ cfgOk 0x09#8 = true ∧ 1 ≤ 1 := by decide

theorem witness_DecompressAllEndsOnAnyInput : 1 ≤ 1 := by decide

theorem witness_RoundTrip : cfgOk 0x89#8 = true ∧ cfgOk 0x10#8 = true ∧ 1 ≤ 1 := by decide

end Sys2Proof.Tests
end

