-- ==== Sys2Proof/Proofs/Ratio.lean ====
section
/-! PROOFS. Proofs/Ratio.lean: RATIO and the order of its results (R8, R190): `RatioT` is the rationals with a least
element put below them, and on positive operands RATIO is the exact quotient through a monotone map into the rationals. -/

namespace Sys2Proof.Config

/-! ## The order of `RatioT` -/

@[simp] theorem RatioT.zero_le (x : RatioT) : RatioT.le .zero x = true := rfl

@[simp] theorem RatioT.val_le_zero (p : Rat) : RatioT.le (.val p) .zero = false := rfl

@[simp] theorem RatioT.val_le_val {p q : Rat} : RatioT.le (.val p) (.val q) = true ↔ p ≤ q :=
  decide_eq_true_iff

theorem RatioT.le_total (x y : RatioT) : RatioT.le x y = true ∨ RatioT.le y x = true := by
  cases x with
  | zero => exact .inl (zero_le y)
  | val p =>
    cases y with
    | zero => exact .inr (zero_le _)
    | val q => exact Rat.le_total.imp val_le_val.mpr val_le_val.mpr

theorem RatioT.le_antisymm {x y : RatioT} (hxy : RatioT.le x y = true) (hyx : RatioT.le y x = true) : x = y := by
  cases x with
  | zero =>
    cases y with
    | zero => rfl
    | val q => simp at hyx
  | val p =>
    cases y with
    | zero => simp at hxy
    | val q => exact congrArg RatioT.val (Rat.le_antisymm (val_le_val.mp hxy) (val_le_val.mp hyx))

theorem RatioT.le_trans {x y z : RatioT} (hxy : RatioT.le x y = true) (hyz : RatioT.le y z = true) :
    RatioT.le x z = true := by
  cases x with
  | zero => exact zero_le z
  | val p =>
    cases y with
    | zero => simp at hxy
    | val q =>
      cases z with
      | zero => simp at hyz
      | val r => exact val_le_val.mpr (Rat.le_trans (val_le_val.mp hxy) (val_le_val.mp hyz))

/-! ## RATIO on positive operands -/

theorem ratio_of_pos {a b : Nat} (ha : 0 < a) (hb : 0 < b) : ratio a b = .val (ratioMap ((a : Rat) / b)) :=
  if_pos ⟨ha, hb⟩

theorem ratio_le_zero_eq_false {a b : Nat} (ha : 0 < a) (hb : 0 < b) : RatioT.le (ratio a b) .zero = false := by
  rw [ratio_of_pos ha hb, RatioT.val_le_zero]

theorem ratio_le_ratio {a b c d : Nat} (ha : 0 < a) (hb : 0 < b) (hc : 0 < c) (hd : 0 < d)
    (h : (a : Rat) / b ≤ (c : Rat) / d) : RatioT.le (ratio a b) (ratio c d) = true := by
  rw [ratio_of_pos ha hb, ratio_of_pos hc hd, RatioT.val_le_val]
  exact ratioMap.monotone h

end Sys2Proof.Config

namespace Sys2Proof.Machine

theorem exec_ratio (a b : Nat) (s : State) :
    exec (.ratio a b) s = .next (s.withResult (.ratio (Config.ratio a b))) := rfl

/-- Settles O46: RATIO's rule, its two facts on positive operands, and the order of `RatioT`. -/
theorem ratioIsMonotone : Obligations.RatioIsMonotone :=
  ⟨exec_ratio,
    fun _ _ => Config.ratio_le_zero_eq_false,
    fun _ _ _ _ => Config.ratio_le_ratio,
    Config.RatioT.zero_le,
    Config.RatioT.le_total,
    fun _ _ => Config.RatioT.le_antisymm,
    fun _ _ _ => Config.RatioT.le_trans⟩

end Sys2Proof.Machine
end

