-- ==== Sys2Proof/Proofs/Frames.lean ====
section
/-! PROOFS. Proofs/Frames.lean: what each operation leaves alone, whether it completes or raises: the port, the kind of
the session, the other side of the state (R20, R44) and the canonical form of the memories. -/

namespace Sys2Proof.Machine

/-! ## The state an operation leaves -/

/-- `P` holds of the state an operation leaves: of `st a` where it completes with `a`, of the state reached so far where
it raises (R276). A stop leaves no state. -/
def Leaves {α : Type} (st : α → State) (P : State → Prop) : Res α → Prop
  | .ok a => P (st a)
  | .error (.raised _ t) => P t
  | .error (.fault _) => True

/-- What the instructions of one side keep of `s` when they leave `t`: `side` is the other side of the state. -/
structure Keeps {β : Type} (side : State → β) (s t : State) : Prop where
  port : t.port = s.port
  mode : t.mode = s.mode
  side : side t = side s
  memory : s.memWf = true → t.memWf = true

/-- A side of the state holds neither the error nor the result. -/
def Blind {β : Type} (side : State → β) : Prop := ∀ (t : State) (e : Option ErrKind) (r : Result),
  side { t with err := e, result := r } = side t

/-- An operation that leaves the state alone, such as a memory access: it never raises. -/
structure Quiet {α : Type} (x : Res α) : Prop where
  ne : ∀ k t, x ≠ .error (.raised k t)

section
variable {α β γ : Type} {side : State → γ} {s t u : State} {P Q : State → Prop}

theorem Keeps.refl (side : State → γ) (s : State) : Keeps side s s := ⟨rfl, rfl, rfl, id⟩

theorem Keeps.trans (h : Keeps side s t) (h' : Keeps side t u) : Keeps side s u :=
  ⟨h'.port.trans h.port, h'.mode.trans h.mode, h'.side.trans h.side, fun hs => h'.memory (h.memory hs)⟩

theorem Leaves.of_eq_ok {st : α → State} {x : Res α} {a : α} (h : Leaves st P x) (e : x = .ok a) : P (st a) := by
  subst e; exact h

theorem Leaves.of_eq_raised {st : α → State} {x : Res α} {k : ErrKind} (h : Leaves st P x)
    (e : x = .error (.raised k t)) : P t := by
  subst e; exact h

theorem leaves_stopWith (st : α → State) (P : State → Prop) (e : Fault) : Leaves st P (stopWith e) := trivial

theorem Leaves.mono {st : α → State} {x : Res α} (h : Leaves st P x) (hPQ : ∀ t, P t → Q t) : Leaves st Q x := by
  match x with
  | .ok a => exact hPQ _ h
  | .error (.raised _ t) => exact hPQ _ h
  | .error (.fault _) => trivial

/-- An operation that starts where an update led. -/
theorem Leaves.after {st : α → State} {x : Res α} (hx : Leaves st (Keeps side t) x) (h : Keeps side s t) :
    Leaves st (Keeps side s) x := hx.mono fun _ => h.trans

/-- Two operations in a row keep what each keeps. -/
theorem Leaves.bind {st : α → State} {st' : β → State} {x : Res α} {f : α → Res β}
    (hx : Leaves st (Keeps side s) x) (hf : ∀ a, Leaves st' (Keeps side (st a)) (f a)) :
    Leaves st' (Keeps side s) (x >>= f) := by
  match x with
  | .ok a => exact (hf a).after hx
  | .error (.raised _ t) => exact hx
  | .error (.fault _) => trivial

/-- An access in front of an operation. -/
theorem Quiet.bind_leaves {st : β → State} {x : Res α} {f : α → Res β} (hx : Quiet x)
    (hf : ∀ a, x = .ok a → Leaves st P (f a)) : Leaves st P (x >>= f) := by
  match x with
  | .ok a => exact hf a rfl
  | .error (.raised k t) => exact absurd rfl (hx.ne k t)
  | .error (.fault _) => trivial

theorem Quiet.bind {x : Res α} {f : α → Res β} (hx : Quiet x) (hf : ∀ a, Quiet (f a)) : Quiet (x >>= f) := by
  match x with
  | .ok a => exact hf a
  | .error (.raised k t) => exact absurd rfl (hx.ne k t)
  | .error (.fault _) => exact ⟨fun _ _ h => by simp at h⟩

/-! ## Accesses -/

theorem quiet_ok (a : α) : Quiet (.ok a : Res α) := ⟨fun _ _ h => by cases h⟩

theorem quiet_stopWith (e : Fault) : Quiet (stopWith e : Res α) := ⟨fun _ _ h => by cases h⟩

theorem quiet_readMem (name : MemName) (size : Nat) (m : Mem α) (a : Nat) : Quiet (readMem name size m a) := by
  unfold readMem
  split
  · split
    · exact quiet_ok _
    · exact quiet_stopWith _
  · exact quiet_stopWith _

theorem quiet_writeMem (name : MemName) (size : Nat) (m : Mem α) (a : Nat) (v : α) :
    Quiet (writeMem name size m a v) := by
  unfold writeMem
  split
  · exact quiet_ok _
  · exact quiet_stopWith _

theorem quiet_putCodeIn (name : MemName) (size : Nat) (m : Mem Byte) (off : Nat) (c : Code) :
    Quiet (putCodeIn name size m off c) :=
  (quiet_readMem ..).bind fun _ => (quiet_writeMem ..).bind fun _ => (quiet_readMem ..).bind fun _ =>
    (quiet_writeMem ..).bind fun _ => (quiet_readMem ..).bind fun _ => quiet_writeMem ..

theorem quiet_getCodeIn (name : MemName) (size : Nat) (m : Mem Byte) (off w : Nat) :
    Quiet (getCodeIn name size m off w) :=
  (quiet_readMem ..).bind fun _ => (quiet_readMem ..).bind fun _ => (quiet_readMem ..).bind fun _ => quiet_ok _

theorem quiet_probeFrom (t : HashMem) (p : Code) (b : Byte) (n : Nat) (h : HIdx) : Quiet (probeFrom t p b n h) := by
  induction n generalizing h with
  | zero => exact quiet_stopWith _
  | succ n ih =>
    unfold probeFrom
    split
    · exact quiet_stopWith _
    · exact quiet_ok _
    · split
      · exact quiet_ok _
      · exact ih _

end

/-! ## The canonical form when a memory is replaced -/

section
variable {s : State}

theorem memWf_obuf {m : Mem Byte} (hm : Mem.wf 32 s.obuf = true → Mem.wf 32 m = true) (h : s.memWf = true) :
    ({ s with obuf := m } : State).memWf = true := by
  rw [State.memWf_iff] at h ⊢
  exact ⟨hm h.1, h.2⟩

theorem memWf_hslot {t : HashMem} (ht : Mem.wf 131072 s.hslot.cells = true → Mem.wf 131072 t.cells = true)
    (h : s.memWf = true) : ({ s with hslot := t } : State).memWf = true := by
  rw [State.memWf_iff] at h ⊢
  obtain ⟨ho, hh, rest⟩ := h
  exact ⟨ho, ht hh, rest⟩

theorem memWf_ibuf {m : Mem Byte} (hm : Mem.wf 4 s.ibuf = true → Mem.wf 4 m = true) (h : s.memWf = true) :
    ({ s with ibuf := m } : State).memWf = true := by
  rw [State.memWf_iff] at h ⊢
  obtain ⟨ho, hh, hi, rest⟩ := h
  exact ⟨ho, hh, hm hi, rest⟩

theorem memWf_tables {mp : Mem Code} {ms : Mem Byte}
    (hp : Mem.wf 65536 s.tabPrefix = true → Mem.wf 65536 mp = true)
    (hs : Mem.wf 65536 s.tabSuffix = true → Mem.wf 65536 ms = true) (h : s.memWf = true) :
    ({ s with tabPrefix := mp, tabSuffix := ms } : State).memWf = true := by
  rw [State.memWf_iff] at h ⊢
  obtain ⟨ho, hh, hi, htp, hts, hst⟩ := h
  exact ⟨ho, hh, hi, hp htp, hs hts, hst⟩

theorem memWf_stack {m : Mem Byte} (hm : Mem.wf 65536 s.stack = true → Mem.wf 65536 m = true) (h : s.memWf = true) :
    ({ s with stack := m } : State).memWf = true := by
  rw [State.memWf_iff] at h ⊢
  obtain ⟨ho, hh, hi, htp, hts, hst⟩ := h
  exact ⟨ho, hh, hi, htp, hts, hm hst⟩

end

/-! ## The compress side keeps the decompress side (R44) -/

theorem cRealign_keeps (w : Nat) (s : State) : Keeps decompSide s (cRealign w s) := ⟨rfl, rfl, rfl, id⟩

theorem cPut_leaves (c : Code) (w : Nat) (s : State) : Leaves id (Keeps decompSide s) (cPut c w s) :=
  (quiet_putCodeIn ..).bind_leaves fun _ hm => ⟨rfl, rfl, rfl, memWf_obuf (putCodeIn_wf hm)⟩

theorem insertAt_keeps (h : HIdx) (p : Code) (b : Byte) (s : State) : Keeps decompSide s (insertAt h p b s) :=
  ⟨rfl, rfl, rfl, memWf_hslot fun hw => Mem.wf_put _ hw h.isLt⟩

theorem dictClear_keeps (s : State) : Keeps decompSide s (dictClear s) := ⟨rfl, rfl, rfl, memWf_hslot fun _ => rfl⟩

theorem lookupOrInsert_leaves (p : Code) (b : Byte) (s : State) :
    Leaves Prod.snd (Keeps decompSide s) (lookupOrInsert p b s) := by
  refine (quiet_probeFrom ..).bind_leaves fun e _ => ?_
  cases e with
  | found code => exact Keeps.refl _ s
  | emptyAt h =>
    show Keeps decompSide s (if s.full then s else insertAt h p b s)
    split
    · exact Keeps.refl _ s
    · exact insertAt_keeps h p b s

theorem placeHeader_keeps (b : Byte) (s : State) : Keeps decompSide s (placeHeader b s) :=
  ⟨rfl, rfl, rfl, memWf_obuf fun hw => Mem.wf_putBlock _ hw (by simp)⟩

theorem cDrain_leaves (s : State) : Leaves Prod.snd (Keeps decompSide s) (cDrain s) := by
  refine (quiet_readMem ..).bind_leaves fun _ _ => ?_
  split
  · exact ⟨rfl, rfl, rfl, memWf_obuf fun hw => Mem.wf_shiftDown _ hw (by omega)⟩
  · exact leaves_stopWith ..

theorem cDrains_leaves (n : Nat) (s : State) : Leaves Prod.snd (Keeps decompSide s) (cDrains n s) := by
  induction n generalizing s with
  | zero => exact Keeps.refl _ s
  | succ n ih => exact (cDrain_leaves s).bind fun _ => (ih _).bind fun _ => Keeps.refl _ _

theorem cDrainWhile_leaves (room : Nat) (s : State) : Leaves Prod.snd (Keeps decompSide s) (cDrainWhile room s) :=
  cDrains_leaves _ s

theorem cGrow_leaves (s : State) : Leaves id (Keeps decompSide s) (cGrow s) := by
  unfold cGrow
  split
  · exact ⟨rfl, rfl, rfl, id⟩
  · exact Keeps.refl _ s

theorem emitClear_leaves (s : State) : Leaves id (Keeps decompSide s) (emitClear s) :=
  (cPut_leaves ..).bind fun _ => ⟨rfl, rfl, rfl, memWf_hslot fun _ => rfl⟩

theorem cRatio_leaves (s : State) : Leaves id (Keeps decompSide s) (cRatio s) := by
  unfold cRatio
  split
  · dsimp only
    split
    · exact (emitClear_leaves _).after ⟨rfl, rfl, rfl, id⟩
    · exact ⟨rfl, rfl, rfl, id⟩
  · exact Keeps.refl _ s

theorem cMiss_leaves (c : Byte) (s : State) : Leaves id (Keeps decompSide s) (cMiss c s) := by
  refine (cPut_leaves ..).bind fun s1 => ?_
  exact ((cGrow_leaves _).bind fun _ => cRatio_leaves _).after ⟨rfl, rfl, rfl, id⟩

theorem cByte_leaves (c : Byte) (s : State) : Leaves id (Keeps decompSide s) (cByte c s) := by
  unfold cByte
  dsimp only
  split
  · exact ⟨rfl, rfl, rfl, id⟩
  · have hs : Keeps decompSide s { s with bytesIn := s.bytesIn + 1 } := ⟨rfl, rfl, rfl, id⟩
    refine Leaves.after ((lookupOrInsert_leaves ..).bind ?_) hs
    rintro ⟨l, s1⟩
    cases l with
    | hit code => exact ⟨rfl, rfl, rfl, id⟩
    | miss => exact cMiss_leaves c s1

theorem cLoopFrom_leaves (cap : Nat) (inp : List Byte) (l : LoopOut) (s : State) :
    Leaves Prod.snd (Keeps decompSide s) (cLoopFrom cap inp l s) := by
  induction inp generalizing l s with
  | nil =>
    unfold cLoopFrom
    refine (cDrainWhile_leaves _ s).bind fun ⟨bs, s1⟩ => ?_
    dsimp only
    split <;> exact Keeps.refl _ s1
  | cons c rest ih =>
    unfold cLoopFrom
    refine (cDrainWhile_leaves _ s).bind fun ⟨bs, s1⟩ => ?_
    dsimp only
    split
    · exact Keeps.refl _ s1
    · exact (cByte_leaves c s1).bind fun s2 => ih _ s2

theorem cLoop_leaves (inp : List Byte) (cap : Nat) (s : State) :
    Leaves Prod.snd (Keeps decompSide s) (cLoop inp cap s) := cLoopFrom_leaves ..

theorem cFinal_leaves (s : State) : Leaves id (Keeps decompSide s) (cFinal s) := by
  unfold cFinal
  dsimp only
  split
  · exact (cPut_leaves ..).bind fun _ => ⟨rfl, rfl, rfl, id⟩
  · exact ⟨rfl, rfl, rfl, id⟩

theorem cDeliver_leaves (cap steps : Nat) (s : State) :
    Leaves Prod.snd (Keeps decompSide s) (cDeliver cap steps s) := by
  refine (cDrainWhile_leaves cap s).bind fun ⟨out, s1⟩ => ?_
  dsimp only
  split
  · exact ⟨rfl, rfl, rfl, id⟩
  · split
    · exact ⟨rfl, rfl, rfl, id⟩
    · exact Keeps.refl _ s1

theorem finishC_leaves (cap : Nat) (s : State) : Leaves Prod.snd (Keeps decompSide s) (finishC cap s) := by
  unfold finishC
  split
  · exact Keeps.refl _ s
  · exact cDeliver_leaves ..
  · exact (cFinal_leaves s).bind fun _ => cDeliver_leaves ..
  · exact (cFinal_leaves s).bind fun _ => cDeliver_leaves ..

/-! ## The decompress side keeps the compress side (R44) -/

theorem dropByte_leaves (s : State) : Leaves id (Keeps compSide s) (dropByte s) := by
  unfold dropByte
  split
  · exact ⟨rfl, rfl, rfl, memWf_ibuf fun hw => Mem.wf_shiftDown _ hw (by omega)⟩
  · exact leaves_stopWith ..

theorem dropBytes_leaves (n : Nat) (s : State) : Leaves id (Keeps compSide s) (dropBytes n s) := by
  induction n generalizing s with
  | zero => exact Keeps.refl _ s
  | succ n ih => exact (dropByte_leaves s).bind fun _ => ih _

theorem ibufCompact_leaves (s : State) : Leaves id (Keeps compSide s) (ibufCompact s) := dropBytes_leaves _ s

theorem dSkip_leaves (s : State) : Leaves id (Keeps compSide s) (dSkip s) :=
  (ibufCompact_leaves _).after ⟨rfl, rfl, rfl, id⟩

theorem dRealign_leaves (w : Nat) (s : State) : Leaves id (Keeps compSide s) (dRealign w s) :=
  (dSkip_leaves _).after ⟨rfl, rfl, rfl, id⟩

theorem dGet_leaves (s : State) : Leaves Prod.snd (Keeps compSide s) (dGet s) := by
  refine (quiet_getCodeIn ..).bind_leaves fun c _ => ?_
  exact Leaves.after ((ibufCompact_leaves _).bind fun _ => Keeps.refl ..) ⟨rfl, rfl, rfl, id⟩

theorem dTake_leaves (b : Byte) (s : State) : Leaves id (Keeps compSide s) (dTake b s) := by
  refine (quiet_writeMem ..).bind_leaves fun m hm => ?_
  obtain ⟨ha, rfl⟩ := writeMem_eq_ok.1 hm
  exact (dSkip_leaves _).after ⟨rfl, rfl, rfl, memWf_ibuf fun hw => Mem.wf_put _ hw ha⟩

theorem tabSeed_keeps (s : State) : Keeps compSide s (tabSeed s) :=
  ⟨rfl, rfl, rfl, memWf_tables (fun hw => Mem.wf_putBlock _ hw (by rw [List.length_replicate]; omega))
    (fun hw => Mem.wf_putBlock _ hw (by rw [length_allBytes]; omega))⟩

theorem tabDefine_leaves (p : Code) (b : Byte) (s : State) : Leaves id (Keeps compSide s) (tabDefine p b s) := by
  unfold tabDefine
  split
  · refine (quiet_writeMem ..).bind_leaves fun mp hp => (quiet_writeMem ..).bind_leaves fun ms hs => ?_
    obtain ⟨ha, rfl⟩ := writeMem_eq_ok.1 hp
    obtain ⟨-, rfl⟩ := writeMem_eq_ok.1 hs
    exact ⟨rfl, rfl, rfl, memWf_tables (fun hw => Mem.wf_put _ hw ha) (fun hw => Mem.wf_put _ hw ha)⟩
  · exact Keeps.refl _ s

theorem push_leaves (b : Byte) (s : State) : Leaves id (Keeps compSide s) (push b s) := by
  refine (quiet_writeMem ..).bind_leaves fun m hm => ?_
  obtain ⟨ha, rfl⟩ := writeMem_eq_ok.1 hm
  exact ⟨rfl, rfl, rfl, memWf_stack fun hw => Mem.wf_put _ hw ha⟩

theorem unrollIn_leaves (room : Nat) (c : Code) (s : State) :
    Leaves Prod.snd (Keeps compSide s) (unrollIn room c s) := by
  induction room generalizing c s with
  | zero =>
    unfold unrollIn
    split
    · exact (push_leaves ..).bind fun _ => Keeps.refl _ _
    · exact (quiet_readMem ..).bind_leaves fun _ _ => (push_leaves ..).bind fun _ =>
        (quiet_readMem ..).bind_leaves fun _ _ => leaves_stopWith ..
  | succ n ih =>
    unfold unrollIn
    split
    · exact (push_leaves ..).bind fun _ => Keeps.refl _ _
    · exact (quiet_readMem ..).bind_leaves fun _ _ => (push_leaves ..).bind fun _ =>
        (quiet_readMem ..).bind_leaves fun p _ => ih p _

theorem unroll_leaves (c : Code) (s : State) : Leaves Prod.snd (Keeps compSide s) (unroll c s) := unrollIn_leaves ..

theorem acceptHeader_leaves (k : Bool) (m : Nat) (s : State) : Leaves id (Keeps compSide s) (acceptHeader k m s) := by
  unfold acceptHeader
  split
  · exact Leaves.after ((ibufCompact_leaves _).bind fun _ => ⟨rfl, rfl, rfl, id⟩)
      ⟨rfl, rfl, rfl, (tabSeed_keeps s).memory⟩
  · exact Keeps.refl _ s

theorem dHeader_leaves (s : State) : Leaves id (Keeps compSide s) (dHeader s) := by
  refine (quiet_readMem ..).bind_leaves fun _ _ => (quiet_readMem ..).bind_leaves fun _ _ =>
    (quiet_readMem ..).bind_leaves fun _ _ => ?_
  split
  · exact acceptHeader_leaves ..
  · exact Keeps.refl _ s

theorem dGrow_leaves (s : State) : Leaves id (Keeps compSide s) (dGrow s) := by
  unfold dGrow
  split
  · exact (dRealign_leaves ..).bind fun _ => ⟨rfl, rfl, rfl, id⟩
  · exact Keeps.refl _ s

theorem firstLiteral_leaves (c : Code) (s : State) : Leaves id (Keeps compSide s) (firstLiteral c s) :=
  (push_leaves ..).bind fun _ => ⟨rfl, rfl, rfl, id⟩

theorem dFirst_leaves (c : Code) (s : State) : Leaves id (Keeps compSide s) (dFirst c s) := by
  unfold dFirst
  split
  · exact Keeps.refl _ s
  · exact firstLiteral_leaves c s

theorem dClear_leaves (s : State) : Leaves id (Keeps compSide s) (dClear s) :=
  (dRealign_leaves ..).bind fun _ => ⟨rfl, rfl, rfl, id⟩

theorem expandCode_leaves (i c : Code) (s : State) : Leaves id (Keeps compSide s) (expandCode i c s) := by
  refine (unroll_leaves c s).bind fun ⟨lit, s1⟩ => ?_
  exact Leaves.after ((tabDefine_leaves _ lit _).bind fun s2 => (dGrow_leaves s2).bind fun _ => ⟨rfl, rfl, rfl, id⟩)
    ⟨rfl, rfl, rfl, id⟩

theorem expandKwkwk_leaves (i : Code) (s : State) : Leaves id (Keeps compSide s) (expandKwkwk i s) :=
  (push_leaves ..).bind fun _ => expandCode_leaves ..

theorem dExpand_leaves (c : Code) (s : State) : Leaves id (Keeps compSide s) (dExpand c s) := by
  unfold dExpand
  split
  · split
    · exact Keeps.refl _ s
    · exact expandKwkwk_leaves c s
  · exact expandCode_leaves c c s

theorem interpret_leaves (c : Code) (s : State) : Leaves id (Keeps compSide s) (interpret c s) := by
  unfold interpret
  split
  · exact dFirst_leaves c s
  · split
    · exact dClear_leaves s
    · split
      · exact dFirst_leaves c s
      · exact dExpand_leaves c s

theorem dCode_leaves (s : State) : Leaves id (Keeps compSide s) (dCode s) :=
  (dGet_leaves s).bind fun _ => interpret_leaves ..

theorem dDrain_leaves (s : State) : Leaves Prod.snd (Keeps compSide s) (dDrain s) := by
  unfold dDrain
  split
  · exact leaves_stopWith ..
  · exact (quiet_readMem ..).bind_leaves fun _ _ => ⟨rfl, rfl, rfl, id⟩

theorem dDrains_leaves (n : Nat) (s : State) : Leaves Prod.snd (Keeps compSide s) (dDrains n s) := by
  induction n generalizing s with
  | zero => exact Keeps.refl _ s
  | succ n ih => exact (dDrain_leaves s).bind fun _ => (ih _).bind fun _ => Keeps.refl _ _

theorem dDrainWhile_leaves (room : Nat) (s : State) : Leaves Prod.snd (Keeps compSide s) (dDrainWhile room s) :=
  dDrains_leaves _ s

theorem loopRaised_keeps (l : LoopOut) (k : ErrKind) (s : State) : Keeps compSide s (loopRaised l k s).2 :=
  ⟨rfl, rfl, rfl, id⟩

theorem dLoopFrom_leaves (cap n : Nat) (inp : List Byte) (l : LoopOut) (s : State) :
    Leaves Prod.snd (Keeps compSide s) (dLoopFrom cap n inp l s) := by
  induction n generalizing inp l s with
  | zero => exact leaves_stopWith ..
  | succ n ih =>
    unfold dLoopFrom
    refine (dDrainWhile_leaves _ s).bind fun ⟨bs, s1⟩ => ?_
    dsimp only
    split
    · exact Keeps.refl _ s1
    · split
      · have hd := dHeader_leaves s1
        split
        · exact (ih ..).after (hd.of_eq_ok ‹_›)
        · exact (hd.of_eq_raised ‹_›).trans (loopRaised_keeps ..)
        · exact leaves_stopWith ..
      · split
        · have hd := dCode_leaves s1
          split
          · exact (ih ..).after (hd.of_eq_ok ‹_›)
          · exact (hd.of_eq_raised ‹_›).trans (loopRaised_keeps ..)
          · exact leaves_stopWith ..
        · split
          · exact Keeps.refl _ s1
          · exact (dTake_leaves ..).bind fun _ => ih ..

theorem dLoop_leaves (inp : List Byte) (cap : Nat) (s : State) : Leaves Prod.snd (Keeps compSide s) (dLoop inp cap s) :=
  dLoopFrom_leaves ..

theorem dAtEnd_keeps (out : List Byte) (s : State) : Keeps compSide s (dAtEnd out s).2 := by
  unfold dAtEnd
  split <;> exact ⟨rfl, rfl, rfl, id⟩

theorem finishD_leaves (cap : Nat) (s : State) : Leaves Prod.snd (Keeps compSide s) (finishD cap s) := by
  unfold finishD
  split
  · exact Keeps.refl _ s
  · refine (dLoop_leaves [] cap s).bind fun ⟨l, s1⟩ => ?_
    dsimp only
    split
    · split
      · exact ⟨rfl, rfl, rfl, id⟩
      · exact Keeps.refl _ s1
    · split
      · exact dAtEnd_keeps ..
      · exact Keeps.refl _ s1

/-! ## The commands -/

theorem advanceEnd_keeps {γ : Type} {side : State → γ} (hside : Blind side)
    (cap : Nat) (l : LoopOut) (s : State) : Keeps side s (advanceEnd cap l s).2 := by
  unfold advanceEnd
  split
  · exact Keeps.refl _ s
  · split
    · exact ⟨rfl, rfl, hside _ _ _, id⟩
    · exact Keeps.refl _ s

theorem advanceC_leaves (inp : List Byte) (cap : Nat) (s : State) :
    Leaves Prod.snd (Keeps decompSide s) (advanceC inp cap s) := by
  unfold advanceC
  split
  · exact Keeps.refl _ s
  · split
    · exact ⟨rfl, rfl, rfl, id⟩
    · split
      · exact Keeps.refl _ s
      · split
        · exact ⟨rfl, rfl, rfl, id⟩
        · exact (cLoop_leaves inp cap s).bind fun _ => advanceEnd_keeps (fun _ _ _ => rfl) ..

theorem advanceD_leaves (inp : List Byte) (cap : Nat) (s : State) :
    Leaves Prod.snd (Keeps compSide s) (advanceD inp cap s) := by
  unfold advanceD
  split
  · exact Keeps.refl _ s
  · split
    · exact ⟨rfl, rfl, rfl, id⟩
    · split
      · exact Keeps.refl _ s
      · exact (dLoop_leaves inp cap s).bind fun _ => advanceEnd_keeps (fun _ _ _ => rfl) ..

/-- FINISH outside a decompress session is on the compress side (R274). -/
theorem finishCmd_leaves_comp (cap : Nat) {s : State} (h : s.mode ≠ .decomp) :
    Leaves Prod.snd (Keeps decompSide s) (finishCmd cap s) := by
  unfold finishCmd
  split
  · exact Keeps.refl _ s
  · split
    · exact ⟨rfl, rfl, rfl, id⟩
    · exact finishC_leaves cap s
    · exact absurd ‹_› h

/-- FINISH outside a compress session is on the decompress side (R274). -/
theorem finishCmd_leaves_decomp (cap : Nat) {s : State} (h : s.mode ≠ .comp) :
    Leaves Prod.snd (Keeps compSide s) (finishCmd cap s) := by
  unfold finishCmd
  split
  · exact Keeps.refl _ s
  · split
    · exact ⟨rfl, rfl, rfl, id⟩
    · exact absurd ‹_› h
    · exact finishD_leaves cap s

/-! ## The pseudo-commands -/

section
variable {γ : Type} {side : State → γ}

theorem advanceAll_leaves {adv : List Byte → State → Res (Resp × State)}
    (hadv : ∀ inp s, Leaves Prod.snd (Keeps side s) (adv inp s)) (n : Nat) (inp z : List Byte) (s : State) :
    Leaves (fun r => r.2.2) (Keeps side s) (advanceAll adv n inp z s) := by
  induction n generalizing inp z s with
  | zero => exact leaves_stopWith ..
  | succ n ih =>
    unfold advanceAll
    refine (hadv inp s).bind fun ⟨r, s1⟩ => ?_
    dsimp only
    split
    · exact Keeps.refl _ s1
    · split
      · exact Keeps.refl _ s1
      · exact ih ..

/-- The FINISH loop keeps what FINISH keeps in the session's kind, which stays as it is. -/
theorem finishAll_leaves {m : Mode} {cap : Nat}
    (hfin : ∀ s : State, s.mode ≠ m → Leaves Prod.snd (Keeps side s) (finishCmd cap s)) (n : Nat) (z : List Byte)
    {s : State} (h : s.mode ≠ m) : Leaves Prod.snd (Keeps side s) (finishAll cap n z s) := by
  induction n generalizing z s with
  | zero => exact leaves_stopWith ..
  | succ n ih =>
    unfold finishAll
    have hs := hfin s h
    match hr : finishCmd cap s with
    | .error (.raised k t) => exact hs.of_eq_raised hr
    | .error (.fault e) => trivial
    | .ok (r, s1) =>
      have h1 : Keeps side s s1 := hs.of_eq_ok hr
      rw [Res.ok_bind]
      dsimp only
      split
      · exact h1
      · exact h1
      · exact (ih _ (h1.mode ▸ h)).after h1

theorem wholeStream_leaves {adv : List Byte → State → Res (Resp × State)} {m : Mode} {cap : Nat}
    (hadv : ∀ inp s, Leaves Prod.snd (Keeps side s) (adv inp s))
    (hfin : ∀ s : State, s.mode ≠ m → Leaves Prod.snd (Keeps side s) (finishCmd cap s)) (n : Nat) (inp : List Byte)
    {s : State} (h : s.mode ≠ m) : Leaves Prod.snd (Keeps side s) (wholeStream adv n inp cap s) := by
  unfold wholeStream
  have hs := advanceAll_leaves hadv n inp [] s
  match hr : advanceAll adv n inp [] s with
  | .error (.raised k t) => exact hs.of_eq_raised hr
  | .error (.fault e) => trivial
  | .ok (z, some k, s1) => exact hs.of_eq_ok hr
  | .ok (z, none, s1) =>
    have h1 : Keeps side s s1 := hs.of_eq_ok hr
    exact (finishAll_leaves hfin n z (h1.mode ▸ h)).after h1

end

theorem beginCompress_mode (cfg : Byte) (s : State) : (beginCompress cfg s).2.mode ≠ .decomp := by
  unfold beginCompress
  split <;> nofun

theorem compressAll_leaves (cfg : Byte) (inp : List Byte) (cap : Nat) (s : State) :
    Leaves Prod.snd (Keeps decompSide (beginCompress cfg s).2) (compressAll cfg inp cap s) :=
  wholeStream_leaves (fun i => advanceC_leaves i cap) (fun _ => finishCmd_leaves_comp cap) _ inp
    (beginCompress_mode cfg s)

theorem decompressAll_leaves (inp : List Byte) (cap : Nat) (s : State) :
    Leaves Prod.snd (Keeps compSide (beginDecompress s).2) (decompressAll inp cap s) :=
  wholeStream_leaves (fun i => advanceD_leaves i cap) (fun _ => finishCmd_leaves_decomp cap) _ inp
    (show Mode.decomp ≠ .comp by decide)

end Sys2Proof.Machine
end

