-- ==== Sys2Proof/Proofs/Sides.lean ====
section
/-! PROOFS. Proofs/Sides.lean: no instruction changes the port, and each changes its own side of the state only (R20,
R44). -/

namespace Sys2Proof.Machine

/-! ## The end of an instruction -/

theorem blind_compSide : Blind compSide := fun _ _ _ => rfl

theorem blind_decompSide : Blind decompSide := fun _ _ _ => rfl

section
variable {β γ : Type} {side : State → γ} {s t : State}

theorem Keeps.withResult (hb : Blind side) (h : Keeps side s t) (r : Result) : Keeps side s (t.withResult r) :=
  ⟨h.port, h.mode, (hb t t.err r).trans h.side, h.memory⟩

theorem Keeps.raised (hb : Blind side) (h : Keeps side s t) (k : ErrKind) : Keeps side s (raisedState k t) :=
  ⟨h.port, h.mode, (hb t _ _).trans h.side, h.memory⟩

theorem finishWith_keeps (hb : Blind side) {st : β → State} {g : β → Result} {x : Res β}
    (hx : Leaves st (Keeps side s) x) (h : finishWith (fun a => (st a).withResult (g a)) x = .next t) :
    Keeps side s t := by
  match x with
  | .ok a => cases h; exact Keeps.withResult hb hx _
  | .error (.raised k u) => cases h; exact Keeps.raised hb hx k
  | .error (.fault _) => cases h

theorem doneUnit_keeps (hb : Blind side) {x : Res State} (hx : Leaves id (Keeps side s) x)
    (h : doneUnit x = .next t) : Keeps side s t := finishWith_keeps hb hx h

theorem doneVal_keeps (hb : Blind side) {f : β → Result} {x : Res (β × State)}
    (hx : Leaves Prod.snd (Keeps side s) x) (h : doneVal f x = .next t) : Keeps side s t := finishWith_keeps hb hx h

end

/-! ## What an instruction may change -/

/-- What an instruction that leads from `s` to `t` leaves unchanged: the port, and each side it is not listed for. -/
def Apart (i : Instr) (s t : State) : Prop :=
  t.port = s.port ∧
  (writesCompSide s.mode i = false → compSide t = compSide s) ∧
  (writesDecompSide s.mode i = false → decompSide t = decompSide s)

section
variable {i : Instr} {s t : State}

theorem apart_of_comp (hw : writesCompSide s.mode i = true) (h : Keeps decompSide s t) : Apart i s t :=
  ⟨h.port, fun hf => (Bool.false_ne_true (hf.symm.trans hw)).elim, fun _ => h.side⟩

theorem apart_of_decomp (hw : writesDecompSide s.mode i = true) (h : Keeps compSide s t) : Apart i s t :=
  ⟨h.port, fun _ => h.side, fun hf => (Bool.false_ne_true (hf.symm.trans hw)).elim⟩

theorem apart_of_result {r : Result}
    (h : .next (s.withResult r) = (.next t : Host.Outcome State Fault Refusal)) : Apart i s t := by
  cases h; exact ⟨rfl, fun _ => rfl, fun _ => rfl⟩

theorem apart_of_raise {k : ErrKind}
    (h : .next (raisedState k s) = (.next t : Host.Outcome State Fault Refusal)) : Apart i s t := by
  cases h; exact ⟨rfl, fun _ => rfl, fun _ => rfl⟩

end

/-! ## The instructions whose side depends on an operand or on the session -/

theorem beginCompress_other (cfg : Byte) (s : State) :
    (beginCompress cfg s).2.port = s.port ∧ decompSide (beginCompress cfg s).2 = decompSide s := by
  unfold beginCompress
  split <;> exact ⟨rfl, rfl⟩

theorem putCode_apart {b : BufSel} {off w : Nat} {c : Code} {s t : State}
    (h : exec (.putCode b off c w) s = .next t) : Apart (.putCode b off c w) s t := by
  cases b with
  | obuf =>
    refine apart_of_comp rfl (doneVal_keeps blind_decompSide ((quiet_putCodeIn ..).bind_leaves fun m hm => ?_) h)
    exact ⟨rfl, rfl, rfl, memWf_obuf (putCodeIn_wf hm)⟩
  | ibuf =>
    refine apart_of_decomp rfl (doneVal_keeps blind_compSide ((quiet_putCodeIn ..).bind_leaves fun m hm => ?_) h)
    exact ⟨rfl, rfl, rfl, memWf_ibuf (putCodeIn_wf hm)⟩

theorem getCode_apart {b : BufSel} {off w : Nat} {s t : State} (h : exec (.getCode b off w) s = .next t) :
    Apart (.getCode b off w) s t := by
  have keeps {γ : Type} {side : State → γ} (hb : Blind side) : Keeps side s t :=
    doneVal_keeps hb (x := getCodeIn (bufName b) (bufSize b) (s.buffer b) off w >>= fun c => .ok (c, s))
      ((quiet_getCodeIn ..).bind_leaves fun _ _ => Keeps.refl side s) h
  exact ⟨(keeps blind_compSide).port, fun _ => (keeps blind_compSide).side, fun _ => (keeps blind_decompSide).side⟩

theorem finish_apart {cap : Nat} {s t : State} (h : exec (.finish cap) s = .next t) : Apart (.finish cap) s t := by
  have onComp (hm : s.mode ≠ .decomp) : Keeps decompSide s t :=
    doneVal_keeps (f := .response) blind_decompSide (finishCmd_leaves_comp cap hm) h
  have onDecomp (hm : s.mode ≠ .comp) : Keeps compSide s t :=
    doneVal_keeps (f := .response) blind_compSide (finishCmd_leaves_decomp cap hm) h
  cases hm : s.mode with
  | idle =>
    have h1 := onComp (by simp [hm])
    exact ⟨h1.port, fun _ => (onDecomp (by simp [hm])).side, fun _ => h1.side⟩
  | comp => exact apart_of_comp (decide_eq_true hm) (onComp (by simp [hm]))
  | decomp => exact apart_of_decomp (decide_eq_true hm) (onDecomp (by simp [hm]))

theorem compressAll_apart {cfg : Byte} {inp : List Byte} {cap : Nat} {s t : State}
    (h : exec (.compressAll cfg inp cap) s = .next t) : Apart (.compressAll cfg inp cap) s t := by
  obtain ⟨hport, hside⟩ := beginCompress_other cfg s
  have hk := doneVal_keeps (f := fun r : List Byte × Status => .stream r.1 r.2) blind_decompSide
    (compressAll_leaves cfg inp cap s) h
  exact ⟨hk.port.trans hport, nofun, fun _ => hk.side.trans hside⟩

theorem decompressAll_apart {inp : List Byte} {cap : Nat} {s t : State}
    (h : exec (.decompressAll inp cap) s = .next t) : Apart (.decompressAll inp cap) s t := by
  have hk := doneVal_keeps (f := fun r : List Byte × Status => .stream r.1 r.2) blind_compSide
    (decompressAll_leaves inp cap s) h
  exact ⟨hk.port, fun _ => hk.side, nofun⟩

/-! ## Every instruction -/

/-- Settles O11: every instruction is one side's own, or leaves both sides as they are. -/
theorem sessionSidesStayApart : Obligations.SessionSidesStayApart := by
  intro i s t h
  show Apart i s t
  have comp {x} (hw : writesCompSide s.mode i = true) (hx : Leaves id (Keeps decompSide s) x)
      (e : doneUnit x = .next t) : Apart i s t := apart_of_comp hw (doneUnit_keeps blind_decompSide hx e)
  have decomp {x} (hw : writesDecompSide s.mode i = true) (hx : Leaves id (Keeps compSide s) x)
      (e : doneUnit x = .next t) : Apart i s t := apart_of_decomp hw (doneUnit_keeps blind_compSide hx e)
  have compVal {β : Type} {f : β → Result} {x} (hw : writesCompSide s.mode i = true)
      (hx : Leaves Prod.snd (Keeps decompSide s) x) (e : doneVal f x = .next t) : Apart i s t :=
    apart_of_comp hw (doneVal_keeps blind_decompSide hx e)
  have decompVal {β : Type} {f : β → Result} {x} (hw : writesDecompSide s.mode i = true)
      (hx : Leaves Prod.snd (Keeps compSide s) x) (e : doneVal f x = .next t) : Apart i s t :=
    apart_of_decomp hw (doneVal_keeps blind_compSide hx e)
  cases i with
  | beginCompress cfg =>
    obtain ⟨hport, hside⟩ := beginCompress_other cfg s
    cases h
    exact ⟨hport, nofun, fun _ => hside⟩
  | beginDecompress => cases h; exact ⟨rfl, fun _ => rfl, nofun⟩
  | advanceC inp cap => exact compVal rfl (advanceC_leaves inp cap s) h
  | advanceD inp cap => exact decompVal rfl (advanceD_leaves inp cap s) h
  | finish cap => exact finish_apart h
  | cmdReserved0 => exact apart_of_raise h
  | cmdReserved6 => exact apart_of_raise h
  | cmdReserved7 => exact apart_of_raise h
  | hdrWrite k m => exact comp (x := .ok _) rfl (placeHeader_keeps _ s) h
  | hdrRead k r m => exact decomp rfl (acceptHeader_leaves k m.toNat s) h
  | literalFirst b => exact decomp rfl (firstLiteral_leaves _ s) h
  | badcodeFirst c => exact apart_of_raise h
  | clear => exact decomp rfl (dClear_leaves s) h
  | literalEpochFirst b => exact decomp rfl (firstLiteral_leaves _ s) h
  | badcodeEpochFirst c => exact apart_of_raise h
  | badcodeRange c => exact apart_of_raise h
  | kwkwk c => exact decomp rfl (expandKwkwk_leaves c s) h
  | literal b => exact decomp rfl (expandCode_leaves _ _ s) h
  | dictref c => exact decomp rfl (expandCode_leaves c c s) h
  | putCode b off c w => exact putCode_apart h
  | getCode b off w => exact getCode_apart h
  | realign pos base w => exact apart_of_result h
  | cRealign w => exact comp (x := .ok _) rfl (cRealign_keeps w s) h
  | dRealign w => exact decomp rfl (dRealign_leaves w s) h
  | cPut c w => exact comp rfl (cPut_leaves c w s) h
  | dGet => exact decompVal rfl (dGet_leaves s) h
  | ibufCompact => exact decomp rfl (ibufCompact_leaves s) h
  | dSkip => exact decomp rfl (dSkip_leaves s) h
  | dTake b => exact decomp rfl (dTake_leaves b s) h
  | hash p b => exact apart_of_result h
  | probeNext a b => exact apart_of_result h
  | lookupOrInsert p b => exact compVal rfl (lookupOrInsert_leaves p b s) h
  | insert a p b => exact comp (x := .ok _) rfl (insertAt_keeps a p b s) h
  | dictClear => exact comp (x := .ok _) rfl (dictClear_keeps s) h
  | tabSeed => exact decomp (x := .ok _) rfl (tabSeed_keeps s) h
  | tabDefine p b => exact decomp rfl (tabDefine_leaves p b s) h
  | push b => exact decomp rfl (push_leaves b s) h
  | unroll c => exact decompVal rfl (unroll_leaves c s) h
  | cLoop inp cap => exact compVal rfl (cLoop_leaves inp cap s) h
  | cByte c => exact comp rfl (cByte_leaves c s) h
  | cGrow => exact comp rfl (cGrow_leaves s) h
  | cRatio => exact comp rfl (cRatio_leaves s) h
  | ratio a b => exact apart_of_result h
  | cDrain => exact compVal rfl (cDrain_leaves s) h
  | finishC cap => exact compVal rfl (finishC_leaves cap s) h
  | dLoop inp cap => exact decompVal rfl (dLoop_leaves inp cap s) h
  | dHeader => exact decomp rfl (dHeader_leaves s) h
  | dCode => exact decomp rfl (dCode_leaves s) h
  | dFirst c => exact decomp rfl (dFirst_leaves c s) h
  | dClear => exact decomp rfl (dClear_leaves s) h
  | dExpand c => exact decomp rfl (dExpand_leaves c s) h
  | dGrow => exact decomp rfl (dGrow_leaves s) h
  | dDrain => exact decompVal rfl (dDrain_leaves s) h
  | finishD cap => exact decompVal rfl (finishD_leaves cap s) h
  | raise k => exact apart_of_raise h
  | compressAll cfg inp cap => exact compressAll_apart h
  | decompressAll inp cap => exact decompressAll_apart h
  | reset => cases h; exact ⟨rfl, nofun, nofun⟩

end Sys2Proof.Machine
end

