-- ==== Sys2Proof/Proofs/CompressByte.lean ====
section
/-! PROOFS. Proofs/CompressByte.lean: C_BYTE keeps the invariants of a compress session (R43, R202): what each of its
micro-operations keeps on the way, where some of the invariants do not hold yet, and the room they need in `obuf`. -/

namespace Sys2Proof.Machine

/-! ## What the session keeps on the way -/

/-- The part of the compress invariant that holds also between the micro-operations of C_BYTE and FINISH_C. -/
structure CompCore (s : State) : Prop where
  ranges : Ranges s
  hash : HashInv s
  fullIff : s.full = exhausted s.maxbits s.freeEnt
  outWritten : Written 32 s.obuf
  tail : TailZero s
  headerIn : 24 ≤ s.bitPosition

/-- R202: the width is enough for every code below `free_ent`. -/
def Fits (s : State) : Prop := s.freeEnt ≤ 2 ^ s.nBits ∨ s.nBits = s.maxbits

/-- R202 between an insertion and the growth step: `free_ent` is at most one past what the width is enough for. -/
def NearlyFits (s : State) : Prop := s.freeEnt ≤ 2 ^ s.nBits + 1 ∨ s.nBits = s.maxbits

/-- What the steps after the insertion leave of the session: the cursor does not move back. -/
structure Onward (s t : State) : Prop where
  mode : t.mode = s.mode
  err : t.err = s.err
  maxbits : t.maxbits = s.maxbits
  blockMode : t.blockMode = s.blockMode
  cphase : t.cphase = s.cphase
  bytesIn : t.bytesIn = s.bytesIn
  pfx : t.pfx = s.pfx
  position : s.bitPosition ≤ t.bitPosition

theorem Onward.refl (s : State) : Onward s s := ⟨rfl, rfl, rfl, rfl, rfl, rfl, rfl, le_refl _⟩

theorem Onward.trans {s t u : State} (h : Onward s t) (h' : Onward t u) : Onward s u :=
  ⟨h'.mode.trans h.mode, h'.err.trans h.err, h'.maxbits.trans h.maxbits, h'.blockMode.trans h.blockMode,
    h'.cphase.trans h.cphase, h'.bytesIn.trans h.bytesIn, h'.pfx.trans h.pfx, h.position.trans h'.position⟩

/-- The ranges look at six registers, and the cursor may move on. -/
theorem Ranges.of_eq {s t : State} (h : Ranges s) (hm : t.maxbits = s.maxbits) (hk : t.blockMode = s.blockMode)
    (hn : t.nBits = s.nBits) (hf : t.freeEnt = s.freeEnt) (ha : t.alignBase = s.alignBase)
    (hp : s.bitPosition ≤ t.bitPosition) : Ranges t where
  maxLo := hm ▸ h.maxLo
  maxHi := hm ▸ h.maxHi
  bitsLo := hn ▸ h.bitsLo
  bitsHi := by rw [hn, hm]; exact h.bitsHi
  freeLo := by rw [hk, hf]; exact h.freeLo
  freeHi := by rw [hf, hm]; exact h.freeHi
  origin := ha ▸ h.origin.trans hp
  originByte := ha ▸ h.originByte

theorem CompInv.core {s : State} (h : CompInv s) : CompCore s :=
  ⟨h.ranges, h.hash, h.fullIff, h.outWritten, h.tail, h.headerIn⟩

theorem CompCore.compInv {s : State} (h : CompCore s) (fits : Fits s)
    (pending : s.cphase = .run → s.pfx.toNat < s.freeEnt)
    (room : s.cphase = .first ∨ s.cphase = .run → s.obits + s.nBits ≤ 175)
    (padded : s.cphase = .finishing → s.obits ≤ 176 ∧ s.obits % 8 = 0) : CompInv s :=
  ⟨h.ranges, h.hash, h.fullIff, fits, pending, h.outWritten, h.tail, h.headerIn, room, padded⟩

section
variable {s : State}

/-- The registers that the core does not look at. -/
theorem CompCore.update {mode : Mode} {err : Option ErrKind} {ph : CPhase} {p : Code} {n k : Nat} {r : Config.RatioT}
    {port : List PortEvent} {res : Result} (h : CompCore s) :
    CompCore { s with
      mode := mode, err := err, cphase := ph, pfx := p, bytesIn := n, checkpoint := k, ratioPrev := r
      port := port, result := res } :=
  ⟨h.ranges.of_eq rfl rfl rfl rfl rfl (le_refl _), h.hash.congr rfl rfl rfl, h.fullIff, h.outWritten, h.tail,
    h.headerIn⟩

theorem CompInv.withResult (h : CompInv s) (r : Result) : CompInv (s.withResult r) :=
  h.core.update.compInv h.fits h.pending h.room h.padded

theorem CompInv.withPort (h : CompInv s) (port : List PortEvent) : CompInv { s with port := port } :=
  h.core.update.compInv h.fits h.pending h.room h.padded

/-- Bits were staged, and nothing above them. -/
theorem CompCore.staged (h : CompCore s) {m : Mem Byte} {o p : Nat} (hm : Written 32 m)
    (ht : TailZero { s with obuf := m, obits := o }) (hp : s.bitPosition ≤ p) :
    CompCore { s with obuf := m, obits := o, bitPosition := p } :=
  ⟨h.ranges.of_eq rfl rfl rfl rfl rfl hp, h.hash.congr rfl rfl rfl, h.fullIff, hm, ht, h.headerIn.trans hp⟩

/-- Zeros above the staged bits are padding (R136, R198). -/
theorem TailZero.padded (h : TailZero s) (n : Nat) : TailZero { s with obits := s.obits + n } :=
  fun i hi => h i (le_trans (Nat.le_add_right _ _) hi)

/-- A code below `free_ent` fits the width (R202). -/
theorem CompCore.lt_two_pow (h : CompCore s) (hf : Fits s) {c : Code} (hc : c.toNat < s.freeEnt) :
    c.toNat < 2 ^ s.nBits := by
  rcases hf with hf | hf
  · omega
  · have := h.ranges.freeHi
    rw [hf]
    omega

/-- A byte is a code below `free_ent`. -/
theorem CompCore.byte_lt (h : CompCore s) (c : Byte) : (c.setWidth 16 : Code).toNat < s.freeEnt := by
  have h1 := h.ranges.freeLo
  have h2 := firstFree_ge s.blockMode
  have h3 := c.isLt
  rw [byte_toCode_toNat]
  omega

/-! ## The micro-operations -/

theorem CompCore.cPut (h : CompCore s) {c : Code} (ho : s.obits / 8 + 2 < 32) (hc : c.toNat < 2 ^ s.nBits) :
    ∃ m, Machine.cPut c s.nBits s =
        .ok { s with obuf := m, obits := s.obits + s.nBits, bitPosition := s.bitPosition + s.nBits } ∧
      CompCore { s with obuf := m, obits := s.obits + s.nBits, bitPosition := s.bitPosition + s.nBits } := by
  obtain ⟨m, e, hm, ha⟩ := cPut_appended (code := c) (w := s.nBits) ho h.outWritten h.tail hc
  exact ⟨m, e, h.staged hm ha.tailZero (Nat.le_add_right _ _)⟩

/-- LOOKUP_OR_INSERT hits a code below `free_ent`, or assigns one more code if there is one (R159, R158). -/
theorem CompCore.lookupOrInsert (h : CompCore s) {p : Code} (b : Byte) (hp : p.toNat < s.freeEnt) :
    (∃ c : Code, Machine.lookupOrInsert p b s = .ok (.hit c, s) ∧ c.toNat < s.freeEnt) ∨
    (∃ t, Machine.lookupOrInsert p b s = .ok (.miss, t) ∧ CompCore t ∧ t.freeEnt ≤ s.freeEnt + 1 ∧
      t = { s with hslot := t.hslot, freeEnt := t.freeEnt, full := t.full }) := by
  by_cases hst : ∃ c, Stored s.hslot p b c
  · obtain ⟨c, a, ha⟩ := hst
    exact .inl ⟨c, lookup_of_stored h.hash ⟨a, ha⟩, (h.hash.codeRange a _ ha).2⟩
  · rw [not_exists] at hst
    have hmax : 2 ^ s.maxbits ≤ 65536 := Nat.pow_le_pow_right (n := 2) (by omega) h.ranges.maxHi
    have hhi := h.ranges.freeHi
    obtain ⟨n, hn, hnone, hbefore, e⟩ := lookup_of_not_stored h.hash (by omega) hst
    refine .inr ⟨_, e, ?_⟩
    cases hfull : s.full with
    | true => exact ⟨h, Nat.le_succ _, rfl⟩
    | false =>
      have hlt : s.freeEnt < 2 ^ s.maxbits := by
        have hne := h.fullIff
        rw [hfull, eq_comm, exhausted, decide_eq_false_iff_not] at hne
        omega
      have hr := h.ranges
      refine ⟨⟨⟨hr.maxLo, hr.maxHi, hr.bitsLo, hr.bitsHi, hr.freeLo.trans (Nat.le_succ _), hlt, hr.origin,
        hr.originByte⟩, hashInv_insertAt h.hash hr.freeLo (by omega) hp hst hn hnone hbefore, ?_, h.outWritten, h.tail,
        h.headerIn⟩, le_refl _, rfl⟩
      show (if exhausted s.maxbits (s.freeEnt + 1) then true else s.full) = exhausted s.maxbits (s.freeEnt + 1)
      rw [hfull]
      cases exhausted s.maxbits (s.freeEnt + 1) <;> rfl

/-- The origin after a growth step is the cursor or the origin before it (R29). -/
theorem originAfterGrowth_cases {P : Nat → Prop} {p a : Nat} (hp : P p) (ha : P a) : P (originAfterGrowth p a) := by
  unfold originAfterGrowth
  split
  · exact hp
  · exact ha

/-- C_GROW makes the width fit again (R188, R202). A full table never widens. -/
theorem CompCore.cGrow (h : CompCore s) (hf : NearlyFits s) :
    ∃ t, Machine.cGrow s = .ok t ∧ CompCore t ∧ Fits t ∧ Onward s t ∧ t.obits + t.nBits ≤ s.obits + 9 * s.nBits ∧
      (t.full = true → t.obits = s.obits ∧ t.nBits = s.nBits) := by
  obtain ⟨maxLo, maxHi, bitsLo, bitsHi, freeLo, freeHi, origin, originByte⟩ := h.ranges
  by_cases hg : s.nBits < s.maxbits ∧ 2 ^ s.nBits < s.freeEnt
  · have hpow : 2 ^ (s.nBits + 1) ≤ 2 ^ s.maxbits := Nat.pow_le_pow_right (by omega) hg.1
    have h512 : 2 ^ 9 ≤ 2 ^ s.nBits := Nat.pow_le_pow_right (by omega) bitsLo
    have hfree : s.freeEnt = 2 ^ s.nBits + 1 := by
      rcases hf with hf | hf <;> omega
    have hpad := padding_lt origin (w := s.nBits) (by omega)
    have hmod := realignTo_mod_eight origin (w := s.nBits) (by omega)
    rw [← add_padding origin (by omega)] at hmod
    refine ⟨_, cGrow_of_widens hg origin (by omega), ?_, ?_, ?_, ?_, ?_⟩
    · refine ⟨⟨maxLo, maxHi, ?_, hg.1, freeLo, freeHi, ?_, ?_⟩, h.hash.congr rfl rfl rfl, h.fullIff, h.outWritten,
        h.tail.padded _, ?_⟩
      · show 9 ≤ s.nBits + 1
        omega
      · exact originAfterGrowth_cases (P := (· ≤ s.bitPosition + padding s.bitPosition s.alignBase s.nBits)) (le_refl _)
          (origin.trans (Nat.le_add_right _ _))
      · exact originAfterGrowth_cases (P := (· % 8 = 0)) (hmod.trans originByte) originByte
      · exact h.headerIn.trans (Nat.le_add_right _ _)
    · refine .inl ?_
      show s.freeEnt ≤ 2 ^ (s.nBits + 1)
      rw [Nat.pow_succ]
      omega
    · exact ⟨rfl, rfl, rfl, rfl, rfl, rfl, rfl, Nat.le_add_right _ _⟩
    · show s.obits + padding s.bitPosition s.alignBase s.nBits + (s.nBits + 1) ≤ _
      omega
    · intro hfull
      have hex := h.fullIff.symm.trans hfull
      rw [exhausted, decide_eq_true_eq] at hex
      rw [Nat.pow_succ] at hpow
      omega
  · refine ⟨s, cGrow_of_not_widens hg, h, ?_, Onward.refl s, by omega, fun _ => ⟨rfl, rfl⟩⟩
    by_cases hn : s.nBits < s.maxbits
    · exact .inl (by omega)
    · exact .inr (by omega)

/-- The CLEAR branch of C_RATIO starts an epoch in which everything fits (R190, R202). -/
theorem CompCore.emitClear (h : CompCore s) (ho : s.obits / 8 + 2 < 32) (hb : s.blockMode = true) :
    ∃ t, Machine.emitClear s = .ok t ∧ CompCore t ∧ Fits t ∧ Onward s t ∧ t.nBits = 9 ∧
      t.obits < s.obits + 9 * s.nBits := by
  obtain ⟨maxLo, maxHi, bitsLo, bitsHi, -, -, origin, originByte⟩ := h.ranges
  have horigin : s.alignBase ≤ s.bitPosition + s.nBits := by omega
  obtain ⟨t, e, ht, hw, ha⟩ := emitClear_ok origin bitsLo ho h.outWritten h.tail
  have hpad := padding_lt horigin (w := s.nBits) (by omega)
  have hmod := realignTo_mod_eight horigin (w := s.nBits) (by omega)
  rw [← add_padding horigin (by omega)] at hmod
  have hlen := ha.1
  have htail := ha.tailZero
  rw [ht] at htail
  have h512 : 2 ^ 9 ≤ 2 ^ s.maxbits := Nat.pow_le_pow_right (by omega) maxLo
  have hfirst : firstFree s.blockMode = 257 := by rw [hb]; rfl
  refine ⟨_, e.trans (congrArg Except.ok ht), ⟨⟨maxLo, maxHi, le_refl 9, maxLo, hfirst.le, ?_, le_refl _, ?_⟩,
    hashInv_empty rfl hfirst.symm, ?_, hw, htail, ?_⟩, .inl (show 257 ≤ 2 ^ 9 by decide), ?_, rfl, ?_⟩
  · show 257 ≤ 2 ^ s.maxbits
    omega
  · exact hmod.trans originByte
  · exact (decide_eq_false (by show 257 ≠ 2 ^ s.maxbits; omega)).symm
  · exact h.headerIn.trans (by show s.bitPosition ≤ s.bitPosition + s.nBits + _; omega)
  · exact ⟨rfl, rfl, rfl, rfl, rfl, rfl, rfl, by show s.bitPosition ≤ s.bitPosition + s.nBits + _; omega⟩
  · show t.obits < _
    omega

/-- C_RATIO keeps the room one more code needs (R190, R139): a CLEAR is emitted only over a full table, and its
padding is the longest there is. -/
theorem CompCore.cRatio (h : CompCore s) (hf : Fits s) (hr : s.obits + s.nBits ≤ 175)
    (hfull : s.full = true → s.obits ≤ 7 + s.nBits) :
    ∃ t, Machine.cRatio s = .ok t ∧ CompCore t ∧ Fits t ∧ Onward s t ∧ t.obits + t.nBits ≤ 175 := by
  unfold Machine.cRatio
  by_cases hd : ratioDue s = true
  · rw [if_pos hd]
    simp only [ratioDue, Bool.and_eq_true] at hd
    obtain ⟨⟨hfl, hblock⟩, -⟩ := hd
    dsimp only
    split
    · have h1 : CompCore { s with checkpoint := s.bytesIn + 10000 } := h.update
      obtain ⟨t, e, hc, hft, ho, hn, hlt⟩ := h1.emitClear (by show s.obits / 8 + 2 < 32; omega) hblock
      have start : Onward s { s with checkpoint := s.bytesIn + 10000 } := ⟨rfl, rfl, rfl, rfl, rfl, rfl, rfl, le_refl _⟩
      refine ⟨t, e, hc, hft, start.trans ho, ?_⟩
      have h16 := h.ranges.bitsHi.trans h.ranges.maxHi
      have h7 := hfull hfl
      change t.obits < s.obits + 9 * s.nBits at hlt
      omega
    · exact ⟨_, rfl, h.update, hf, ⟨rfl, rfl, rfl, rfl, rfl, rfl, rfl, le_refl _⟩, hr⟩
  · rw [if_neg hd]
    exact ⟨s, rfl, h, hf, Onward.refl s, hr⟩

/-- The miss path of C_BYTE (R186). -/
theorem CompCore.cMiss (h : CompCore s) (hf : NearlyFits s) (ho : s.obits < 8) (hp : s.pfx.toNat < 2 ^ s.nBits)
    (c : Byte) :
    ∃ t, Machine.cMiss c s = .ok t ∧ CompCore t ∧ Fits t ∧ Onward { s with pfx := c.setWidth 16 } t ∧
      t.obits + t.nBits ≤ 175 := by
  have h16 := h.ranges.bitsHi.trans h.ranges.maxHi
  obtain ⟨m, e1, h1⟩ := h.cPut (by omega) hp
  obtain ⟨t2, e2, h2, f2, o2, r2, full2⟩ := (h1.update (p := c.setWidth 16)).cGrow hf
  change t2.obits + t2.nBits ≤ s.obits + s.nBits + 9 * s.nBits at r2
  obtain ⟨t, e3, h3, f3, o3, r3⟩ := h2.cRatio f2 (by omega) (fun hfull => by
    have h4 : t2.obits = s.obits + s.nBits ∧ t2.nBits = s.nBits := full2 hfull
    omega)
  refine ⟨t, ?_, h3, f3, ?_, r3⟩
  · unfold Machine.cMiss
    rw [e1, Res.ok_bind, e2, Res.ok_bind, e3]
  · have h4 := o2.trans o3
    exact ⟨h4.mode, h4.err, h4.maxbits, h4.blockMode, h4.cphase, h4.bytesIn, h4.pfx,
      (Nat.le_add_right s.bitPosition s.nBits).trans h4.position⟩

end

/-! ## C_BYTE -/

/-- What C_BYTE leaves of the session (R186). -/
structure ByteTaken (s t : State) : Prop where
  inv : CompInv t
  cphase : t.cphase = .run
  bytesIn : t.bytesIn = s.bytesIn + 1
  mode : t.mode = s.mode
  err : t.err = s.err
  maxbits : t.maxbits = s.maxbits
  blockMode : t.blockMode = s.blockMode
  position : s.bitPosition ≤ t.bitPosition

theorem cByte_of_first {c : Byte} {s : State} (h : s.cphase = .first) :
    cByte c s = .ok { s with bytesIn := s.bytesIn + 1, pfx := c.setWidth 16, cphase := .run } := if_pos h

theorem cByte_of_hit {c : Byte} {s s1 : State} {code : Code} (h : s.cphase = .run)
    (e : lookupOrInsert s.pfx c { s with bytesIn := s.bytesIn + 1 } = .ok (.hit code, s1)) :
    cByte c s = .ok { s1 with pfx := code } := by
  unfold cByte
  rw [if_neg (by simp [h]), e, Res.ok_bind]

theorem cByte_of_miss {c : Byte} {s s1 : State} (h : s.cphase = .run)
    (e : lookupOrInsert s.pfx c { s with bytesIn := s.bytesIn + 1 } = .ok (.miss, s1)) : cByte c s = cMiss c s1 := by
  unfold cByte
  rw [if_neg (by simp [h]), e, Res.ok_bind]

/-- C_BYTE completes on every byte in a session that can take one, and keeps its invariants (R186, R43, R202). -/
theorem cByte_ok (c : Byte) {s : State} (h : CompInv s) (hph : s.cphase = .first ∨ s.cphase = .run) (ho : s.obits < 8) :
    ∃ t, cByte c s = .ok t ∧ ByteTaken s t := by
  have hroom := h.room hph
  have core : CompCore { s with bytesIn := s.bytesIn + 1 } := h.core.update
  rcases hph with hph | hph
  · refine ⟨_, cByte_of_first hph, core.update.compInv h.fits (fun _ => core.byte_lt c) (fun _ => hroom) nofun,
      rfl, rfl, rfl, rfl, rfl, rfl, le_refl _⟩
  · have hpend := h.pending hph
    rcases core.lookupOrInsert c hpend with ⟨code, e, hcode⟩ | ⟨u, e, hu, hfree, heq⟩
    · refine ⟨_, cByte_of_hit hph e, core.update.compInv h.fits (fun _ => hcode) (fun _ => hroom) (fun hx => ?_),
        hph, rfl, rfl, rfl, rfl, rfl, le_refl _⟩
      exact absurd (hph.symm.trans hx) (by simp)
    · have hn : NearlyFits u := by
        rw [heq]
        rcases h.fits with hf | hf
        · exact .inl (hfree.trans (Nat.succ_le_succ hf))
        · exact .inr hf
      have hp : u.pfx.toNat < 2 ^ u.nBits := by
        rw [heq]
        exact h.core.lt_two_pow h.fits hpend
      obtain ⟨t, et, hc, hf, on, hr⟩ := hu.cMiss hn (by rw [heq]; exact ho) hp c
      have hrun : t.cphase = .run := on.cphase.trans (by rw [heq]; exact hph)
      refine ⟨t, (cByte_of_miss hph e).trans et, hc.compInv hf (fun _ => ?_) (fun _ => hr) (fun hx => ?_), hrun,
        ?_, ?_, ?_, ?_, ?_, ?_⟩
      · rw [on.pfx]
        exact hc.byte_lt c
      · exact absurd (hrun.symm.trans hx) (by simp)
      · exact on.bytesIn.trans (by rw [heq])
      · exact on.mode.trans (by rw [heq])
      · exact on.err.trans (by rw [heq])
      · exact on.maxbits.trans (by rw [heq])
      · exact on.blockMode.trans (by rw [heq])
      · exact le_trans (by rw [heq]) on.position

/-- Settles O43: C_BYTE completes and leaves what `ByteTaken` lists, which does not look at the result. -/
theorem cByteKeepsTheSessionInvariant : Obligations.CByteKeepsTheSessionInvariant := by
  intro c s h hph ho
  obtain ⟨t, e, ht⟩ := cByte_ok c h hph ho
  exact ⟨t.withResult .unit, congrArg doneUnit e, ht.inv.withResult .unit, ht.cphase, ht.bytesIn, ht.mode, ht.err,
    ht.maxbits, ht.blockMode, ht.position⟩

end Sys2Proof.Machine
end

