-- ==== Sys2Proof/Proofs/CompressCommands.lean ====
section
/-! PROOFS. Proofs/CompressCommands.lean: C_LOOP and FINISH_C complete in every compress session and keep its invariants
(R184, R198, R202). -/

namespace Sys2Proof.Machine

/-! ## C_LOOP -/

theorem CompInv.obits_le {s : State} (h : CompInv s) (hph : s.cphase = .first ∨ s.cphase = .run) : s.obits ≤ 175 :=
  le_trans (Nat.le_add_right _ _) (h.room hph)

/-- The draining round, on a session that can take input. -/
theorem LiveComp.cDrainWhile {s : State} (h : LiveComp s) (room : Nat) :
    ∃ r, cDrainWhile room s = .ok r ∧ LiveComp r.2 := by
  have ho := h.inv.obits_le h.phase
  obtain ⟨out, m, e, -, hi, -⟩ := cDrainWhile_ok h.inv (by omega) room
  exact ⟨_, e, h.err, h.mode, h.phase, hi⟩

theorem LiveComp.cByte {s : State} (h : LiveComp s) (c : Byte) (ho : s.obits < 8) :
    ∃ t, cByte c s = .ok t ∧ LiveComp t := by
  obtain ⟨t, e, ht⟩ := cByte_ok c h.inv h.phase ho
  exact ⟨t, e, ht.err.trans h.err, ht.mode.trans h.mode, .inr ht.cphase, ht.inv⟩

/-- C_LOOP completes on every input, and the session can still take input (R184). -/
theorem LiveComp.cLoopFrom {s : State} (h : LiveComp s) (cap : Nat) (inp : List Byte) (l : LoopOut) :
    ∃ r, cLoopFrom cap inp l s = .ok r ∧ LiveComp r.2 := by
  induction inp generalizing s l with
  | nil =>
    obtain ⟨⟨bs, s1⟩, e, h1⟩ := h.cDrainWhile (cap - l.out.length)
    unfold Machine.cLoopFrom
    rw [e, Res.ok_bind]
    dsimp only
    split <;> exact ⟨_, rfl, h1⟩
  | cons c rest ih =>
    obtain ⟨⟨bs, s1⟩, e, h1⟩ := h.cDrainWhile (cap - l.out.length)
    unfold Machine.cLoopFrom
    rw [e, Res.ok_bind]
    dsimp only
    split
    · exact ⟨_, rfl, h1⟩
    · rename_i ho
      obtain ⟨s2, e2, h2⟩ := h1.cByte c (Nat.lt_of_not_le ho)
      rw [e2, Res.ok_bind]
      exact ih h2 _

theorem LiveComp.cLoop {s : State} (h : LiveComp s) (inp : List Byte) (cap : Nat) :
    ∃ r, cLoop inp cap s = .ok r ∧ LiveComp r.2 := h.cLoopFrom cap inp loopStart

/-! ## FINISH_C -/

theorem cFinal_of_first {s : State} (h : s.cphase = .first) :
    cFinal s = .ok { s with
      obits := s.obits + padBits s.obits, bitPosition := s.bitPosition + padBits s.obits, cphase := .finishing } := by
  unfold cFinal
  simp [h]

theorem cFinal_of_run {s : State} (h : s.cphase = .run) :
    cFinal s = (do
      let s1 ← cPut s.pfx s.nBits s
      .ok { s1 with
        obits := s1.obits + padBits s1.obits
        bitPosition := s1.bitPosition + padBits s1.obits
        cphase := .finishing }) := by
  unfold cFinal
  simp [h]

/-- Padding to a whole byte (R198). -/
theorem CompCore.finishing {s : State} (h : CompCore s) (hf : Fits s) (ho : s.obits ≤ 175) :
    CompInv { s with
      obits := s.obits + padBits s.obits, bitPosition := s.bitPosition + padBits s.obits, cphase := .finishing } := by
  refine (h.staged h.outWritten (h.tail.padded _) (Nat.le_add_right _ _)).update.compInv hf nofun
    (fun hx => by rcases hx with hx | hx <;> cases hx) (fun _ => ?_)
  show s.obits + padBits s.obits ≤ 176 ∧ (s.obits + padBits s.obits) % 8 = 0
  unfold padBits
  omega

/-- FINISH_C's first step leaves whole bytes only (R198). -/
theorem CompInv.cFinal {s : State} (h : CompInv s) (hph : s.cphase = .first ∨ s.cphase = .run) :
    ∃ t, cFinal s = .ok t ∧ CompInv t ∧ t.obits ≤ 176 := by
  suffices hx : ∃ t, Machine.cFinal s = .ok t ∧ CompInv t ∧ t.cphase = .finishing by
    obtain ⟨t, e, ht, hph⟩ := hx
    exact ⟨t, e, ht, (ht.padded hph).1⟩
  have hroom := h.room hph
  rcases hph with hph | hph
  · exact ⟨_, cFinal_of_first hph, h.core.finishing h.fits (by omega), rfl⟩
  · have h9 := h.ranges.bitsLo
    obtain ⟨m, e, h1⟩ := h.core.cPut (by omega) (h.core.lt_two_pow h.fits (h.pending hph))
    rw [cFinal_of_run hph, e, Res.ok_bind]
    exact ⟨_, rfl, h1.finishing h.fits hroom, rfl⟩

/-- FINISH_C's delivery keeps the invariants, whichever way it ends (R198). -/
theorem CompInv.cDeliver {s : State} (h : CompInv s) (ho : s.obits ≤ 256) (cap steps : Nat) :
    ∃ r, cDeliver cap steps s = .ok r ∧ CompInv r.2 := by
  obtain ⟨out, m, e, -, hi, -⟩ := cDrainWhile_ok h ho cap
  unfold Machine.cDeliver
  rw [e, Res.ok_bind]
  dsimp only
  split
  · exact ⟨_, rfl, hi.core.update.compInv hi.fits hi.pending hi.room hi.padded⟩
  · split
    · exact ⟨_, rfl, hi.core.update.compInv hi.fits nofun (fun hx => by rcases hx with hx | hx <;> cases hx) nofun⟩
    · exact ⟨_, rfl, hi⟩

/-- FINISH_C completes in every phase of a compress session (R198). -/
theorem CompInv.finishC {s : State} (h : CompInv s) (cap : Nat) : ∃ r, finishC cap s = .ok r ∧ CompInv r.2 := by
  have final (hph : s.cphase = .first ∨ s.cphase = .run) :
      ∃ r, (do let s1 ← Machine.cFinal s; Machine.cDeliver cap 1 s1) = Except.ok r ∧ CompInv r.2 := by
    obtain ⟨t, e, ht, ho⟩ := h.cFinal hph
    rw [e, Res.ok_bind]
    exact ht.cDeliver (by omega) cap 1
  unfold Machine.finishC
  split
  · exact ⟨_, rfl, h⟩
  · exact h.cDeliver (by have := (h.padded ‹_›).1; omega) cap 0
  · exact final (.inl ‹_›)
  · exact final (.inr ‹_›)

end Sys2Proof.Machine
end

