-- ==== Sys2Proof/Proofs/DecompressCode.lean ====
section
/-! PROOFS. Proofs/DecompressCode.lean: every code a decompress session accepts keeps the session live, and every other
raises (R101, R230 to R240); the two work loops that rest on it, D_LOOP and FINISH_D, come to their end (R224, R247,
R254). -/

namespace Sys2Proof.Machine

/-! ## The parts of a live session -/

theorem DecompInv.inBuf {s : State} (h : DecompInv s) : InBuf s := ⟨h.inWritten, h.ibitsByte, h.ibitsHi, h.iposLe⟩

/-- The strings depend on the two tables only. -/
theorem Spells.of_tables {s t : State} {c : Code} {str : List Byte} (h : Spells s c str)
    (hp : t.tabPrefix = s.tabPrefix) (hs : t.tabSuffix = s.tabSuffix) : Spells t c str :=
  h.congr fun _ _ _ _ => ⟨by rw [hp], by rw [hs]⟩

/-- R170, in one bound for all codes: the string of a code is no longer than its number less 254, or one byte. -/
theorem OpenInv.spells_of_defined {s : State} (h : OpenInv s) {c : Code} (hd : Defined s c.toNat) :
    ∃ str, Spells s c str ∧ str.length + 254 ≤ max 255 c.toNat := by
  obtain ⟨str, hs, hlit, hent⟩ := h.spells c.toNat c rfl hd
  refine ⟨str, hs, ?_⟩
  by_cases hc : c.toNat < 256
  · have := hlit hc
    omega
  · have hlen := hent (by omega)
    split at hlen <;> omega

theorem EntryCreated.kept {b : Byte} {s t : State} (h : EntryCreated b s t) :
    s.freeEnt ≤ t.freeEnt ∧ ∀ e, e ≠ s.freeEnt →
      Mem.get t.tabPrefix e = Mem.get s.tabPrefix e ∧ Mem.get t.tabSuffix e = Mem.get s.tabSuffix e := by
  unfold EntryCreated at h
  split at h
  · obtain ⟨hf, -, -, hother⟩ := h
    exact ⟨by omega, hother⟩
  · obtain ⟨hf, hp, hs⟩ := h
    exact ⟨by omega, fun e _ => ⟨by rw [hp], by rw [hs]⟩⟩

/-- A byte pushed in front of others. -/
theorem Pushed.cons {b : Byte} {bytes : List Byte} {s t : State}
    (h : Pushed bytes { s with stack := Mem.put s.stack s.sp b, sp := s.sp + 1 } t) : Pushed (b :: bytes) s t := by
  obtain ⟨hsp, hin, hout⟩ := h
  simp only [Pushed, List.length_cons]
  refine ⟨by rw [hsp]; dsimp only; omega, fun i hi => ?_, fun a ha => ?_⟩
  · cases i with
    | zero =>
      rw [Nat.add_zero, hout _ (.inl (Nat.lt_succ_self _))]
      exact Mem.get_put_same _ _ _
    | succ i =>
      rw [List.getElem?_cons_succ, ← hin i (by omega)]
      congr 1
      dsimp only
      omega
  · rw [hout a (by dsimp only; omega)]
    exact Mem.get_put_ne _ _ _ (by omega)

/-- An expansion that a pushed byte precedes, as KwKwK's (R236). -/
theorem Expanded.of_push {inc : Code} {bytes : List Byte} {b first : Byte} {s t : State}
    (h : Expanded inc bytes first { s with stack := Mem.put s.stack s.sp b, sp := s.sp + 1 } t) :
    Expanded inc (b :: bytes) first s t := by
  obtain ⟨heq, hpush, hent, hwidth⟩ := h
  exact ⟨heq, hpush.cons, hent, hwidth⟩

/-! ## A code that is accepted -/

/-- What a code leaves of a live session. -/
structure CodeTaken (s t : State) : Prop where
  live : LiveDecomp t
  ibits : t.ibits ≤ s.ibits

/-- A session after an expansion, whose state is known from `Expanded`. -/
theorem LiveDecomp.of_expanded {s t : State} (h : LiveDecomp s) {inc : Code} {bytes : List Byte} {first : Byte}
    (he : Expanded inc bytes first s (t.withResult .unit)) (hinv : DecompInv (t.withResult .unit))
    (hrun : s.dphase = .run) : CodeTaken s t := by
  obtain ⟨heq, -, -, hwidth⟩ := he
  refine ⟨⟨?_, ?_, ?_, hinv.of_withResult⟩, hwidth.ibits_le⟩
  · exact (congrArg State.err heq).trans h.err
  · exact (congrArg State.mode heq).trans h.mode
  · rw [show t.dphase = .run from (congrArg State.dphase heq).trans hrun]
    nofun

section
variable {s : State} (h : LiveDecomp s) (hh : s.dphase ≠ .header)
include h hh

/-- The first literal of a stream or an epoch (R232, R234). -/
theorem LiveDecomp.firstLiteral (hsp : s.sp = 0) {c : Code} (hc : c.toNat < 256) :
    ∃ t, firstLiteral c s = .ok t ∧ CodeTaken s t := by
  have hi := h.inv.opened hh
  refine ⟨_, firstLiteral_ok (by omega), ⟨h.err, h.mode, nofun, ?_⟩, le_refl _⟩
  refine ⟨h.inv.inWritten, h.inv.ibitsByte, h.inv.ibitsHi, h.inv.iposLe, h.inv.iposLt, h.inv.skip, fun i hlt => ?_, ?_,
    nofun, fun _ => ?_⟩
  · have hlt : i < s.sp + 1 := hlt
    obtain rfl : i = s.sp := by omega
    exact congrArg Option.isSome (Mem.get_put_same _ _ _)
  · show s.sp + 1 ≤ 65281
    omega
  · exact ⟨hi.ranges.of_eq rfl rfl rfl rfl rfl (le_refl _), hi.table, fun _ => .inl hc,
      fun _ => ⟨_, .literal c hc, rfl⟩, nofun⟩

/-- CLEAR starts an epoch in which no code is defined yet (R233). -/
theorem LiveDecomp.dClear (hb : s.blockMode = true) : ∃ t, dClear s = .ok t ∧ CodeTaken s t := by
  obtain ⟨maxLo, maxHi, bitsLo, -, -, -, origin, originByte⟩ := (h.inv.opened hh).ranges
  obtain ⟨t, e, hd, ht⟩ := dClear_spec origin (by omega) h.inv.iposLe
  obtain ⟨hbuf, h8, hskip, hpos⟩ := DRealigned.keeps h.inv.inBuf hd
  have hmod := realignTo_mod_eight origin (w := s.nBits) (by omega)
  have hibits : t.ibits ≤ s.ibits := by
    obtain ⟨-, -, -, hdrop, -⟩ := hd
    omega
  have h512 : 2 ^ 9 ≤ 2 ^ s.maxbits := Nat.pow_le_pow_right (by omega) maxLo
  have hfirst : firstFree s.blockMode = 257 := by rw [hb]; rfl
  rw [hpos.symm] at hmod
  have hopen : OpenInv t := by
    rw [ht]
    refine ⟨⟨maxLo, maxHi, le_refl 9, maxLo, hfirst.le, ?_, le_refl _, hmod.trans originByte⟩, ?_, nofun, nofun,
      fun _ => hb⟩
    · show 257 ≤ 2 ^ s.maxbits
      omega
    · rintro e h256 (hlt | ⟨hlo, hhi⟩)
      · omega
      · change firstFree s.blockMode ≤ e at hlo
        change e < 257 at hhi
        omega
  refine ⟨t, e, ⟨?_, ?_, ?_, hbuf.w, hbuf.b, hbuf.hi, hbuf.le, h8, hskip, ?_, ?_, ?_, fun _ => hopen⟩, hibits⟩
  · rw [ht]; exact h.err
  · rw [ht]; exact h.mode
  · rw [ht]; nofun
  · rw [ht]; exact h.inv.stackWritten
  · rw [ht]; exact h.inv.spHi
  · rw [ht]; nofun

/-- A defined code: its string is output (R235). -/
theorem LiveDecomp.expandCode (hsp : s.sp = 0) (hrun : s.dphase = .run) {c : Code} (hd : Defined s c.toNat) :
    ∃ t, expandCode c c s = .ok t ∧ CodeTaken s t := by
  have hi := h.inv.opened hh
  have h9 := hi.ranges.bitsLo
  have hlt := c.isLt
  obtain ⟨str, hs, hlen⟩ := hi.spells_of_defined hd
  obtain ⟨first, t, hfirst, e, he, -⟩ := expandCode_spec (incoming := c) hs (by omega) hi.ranges.maxHi hi.ranges.origin
    (by omega) h.inv.iposLe
  have ⟨heq, _, hent, _⟩ := he
  obtain ⟨hfree, hother⟩ := hent.kept
  have hblock : (t.withResult .unit).blockMode = s.blockMode := by rw [heq]; rfl
  refine ⟨t, e, h.of_expanded he (he.decompInv h.inv hi hrun hsp ?_ ?_ ?_).1 hrun⟩
  · rw [List.length_reverse]
    omega
  · exact hd.imp id fun ⟨hlo, hhi⟩ => ⟨by rw [hblock]; exact hlo, by omega⟩
  · exact ⟨str, hi.spells_of_kept hother c str hs hd, hfirst⟩

/-- The code that is being defined: the previous string and its first byte again (R236). -/
theorem LiveDecomp.expandKwkwk (hsp : s.sp = 0) (hrun : s.dphase = .run) {c : Code} (hc : c.toNat = s.freeEnt)
    (hw : c.toNat < 2 ^ s.nBits) : ∃ t, expandKwkwk c s = .ok t ∧ CodeTaken s t := by
  have hi := h.inv.opened hh
  have h9 := hi.ranges.bitsLo
  have hlt := c.isLt
  have hlo := hi.ranges.freeLo
  have h256 := firstFree_ge s.blockMode
  have hroom : s.freeEnt < 2 ^ s.maxbits := by
    have := Nat.pow_le_pow_right (n := 2) (by omega) hi.ranges.bitsHi
    omega
  have hold := hi.old hrun
  have hlt' : s.oldCode.toNat < s.freeEnt := by
    rcases hold with h | h <;> omega
  obtain ⟨str, hs, hlen⟩ := hi.spells_of_defined hold
  obtain ⟨first, t, hfirst, e, he, -⟩ := expandCode_spec (incoming := c)
    (s := { s with stack := Mem.put s.stack s.sp s.lastChar, sp := s.sp + 1 }) (hs.of_tables rfl rfl)
    (by dsimp only; omega) hi.ranges.maxHi hi.ranges.origin (show 0 < s.nBits by omega) h.inv.iposLe
  replace he := he.of_push
  have ⟨heq, _, hent, _⟩ := he
  have hother := hent.kept.2
  have hblock : (t.withResult .unit).blockMode = s.blockMode := by rw [heq]; rfl
  rw [EntryCreated, if_pos hroom] at hent
  obtain ⟨hfree, hpre, hsuf, -⟩ := hent
  refine ⟨t, ?_, h.of_expanded he (he.decompInv h.inv hi hrun hsp ?_ ?_ ?_).1 hrun⟩
  · unfold Machine.expandKwkwk
    rw [push_ok (by omega), Res.ok_bind]
    exact e
  · rw [List.length_cons, List.length_reverse]
    omega
  · exact .inr ⟨by rw [hblock]; omega, by omega⟩
  · refine ⟨str ++ [first], .entry c s.oldCode first str (by omega) (hc ▸ hpre) (hc ▸ hsuf) ?_, ?_⟩
    · exact hi.spells_of_kept hother _ str hs hold
    · rw [List.head?_append, hfirst]
      rfl

/-- A code that the session accepts keeps it live (R101, R230). -/
theorem LiveDecomp.interpret (hsp : s.sp = 0) {c : Code} (hc : CodeAccepted s c.toNat) (hw : c.toNat < 2 ^ s.nBits) :
    ∃ t, interpret c s = .ok t ∧ CodeTaken s t := by
  have hi := h.inv.opened hh
  have hclear : c = Config.clearCode ↔ c.toNat = 256 := ⟨by rintro rfl; rfl, fun e => BitVec.eq_of_toNat_eq e⟩
  have hliteral (hlt : c.toNat < 256) : ∃ t, dFirst c s = .ok t ∧ CodeTaken s t := by
    rw [dFirst, if_neg (by omega)]
    exact h.firstLiteral hh hsp hlt
  unfold Machine.interpret CodeAccepted at *
  cases hph : s.dphase with
  | header => exact absurd hph hh
  | done => exact absurd hph h.phase
  | streamFirst =>
    rw [hph] at hc
    rw [if_pos rfl]
    exact hliteral hc
  | epochFirst =>
    rw [hph] at hc
    have hb := hi.epoch hph
    rw [if_neg (by simp)]
    by_cases h256 : c.toNat = 256
    · rw [if_pos ⟨hclear.2 h256, hb⟩]
      exact h.dClear hh hb
    · rw [if_neg (fun hx => h256 (hclear.1 hx.1)), if_pos rfl]
      exact hliteral (by dsimp only at hc; omega)
  | run =>
    rw [hph] at hc
    rw [if_neg (by simp)]
    split
    · rename_i hcl
      exact h.dClear hh hcl.2
    · rename_i hncl
      rw [if_neg (by simp), dExpand]
      split
      · rename_i hge
        rw [if_neg (Nat.not_lt.2 hc)]
        exact h.expandKwkwk hh hsp hph (Nat.le_antisymm hc hge) hw
      · rename_i hlt
        refine h.expandCode hh hsp hph ?_
        by_cases h256 : c.toNat < 256
        · exact .inl h256
        · refine .inr ⟨?_, by omega⟩
          rw [hclear] at hncl
          cases hb : s.blockMode with
          | false => show 256 ≤ c.toNat; omega
          | true =>
            show 257 ≤ c.toNat
            have : c.toNat ≠ 256 := fun e => hncl ⟨e, hb⟩
            omega

end

/-! ## D_CODE -/

theorem headerReady_iff {s : State} : headerReady s = true ↔ s.dphase = .header ∧ 24 ≤ s.ibits := by
  simp [headerReady]

theorem codeReady_iff {s : State} :
    codeReady s = true ↔ s.dphase ≠ .header ∧ s.iskip = 0 ∧ s.nBits ≤ s.ibits - s.ipos := by
  show _ ↔ _ ∧ _ ∧ s.nBits ≤ s.avail
  simp [codeReady, and_assoc]

/-- D_CODE on a buffered code consumes at least one byte of `ibuf` and keeps the session live, or raises (R230). -/
theorem LiveDecomp.dCode {s : State} (h : LiveDecomp s) (hr : codeReady s = true) (hsp : s.sp = 0) :
    (∃ t, dCode s = .ok t ∧ LiveDecomp t ∧ t.ibits < s.ibits) ∨ ∃ k t, dCode s = .error (.raised k t) := by
  obtain ⟨hh, hk, ha⟩ := codeReady_iff.1 hr
  obtain ⟨c, s1, e, -, hc, h1, hadv, heq, -⟩ := dGet_decompInv h.inv hh hk ha
  have h9 := (h.inv.opened hh).ranges.bitsLo
  have hibits : s1.ibits < s.ibits := by
    obtain ⟨-, hdrop, -⟩ := hadv
    omega
  have hlive : LiveDecomp s1 := ⟨by rw [heq]; exact h.err, by rw [heq]; exact h.mode, by rw [heq]; exact h.phase, h1⟩
  have hh1 : s1.dphase ≠ .header := by rw [heq]; exact hh
  have hcode : Machine.dCode s = Machine.interpret c s1 := by
    unfold Machine.dCode
    rw [e, Res.ok_bind]
  rw [hcode]
  by_cases hacc : CodeAccepted s1 c.toNat
  · obtain ⟨t, et, ht⟩ := hlive.interpret hh1 (by rw [heq]; exact hsp) hacc (by rw [heq]; exact hc)
    exact .inl ⟨t, et, ht.live, lt_of_le_of_lt ht.ibits hibits⟩
  · exact .inr ⟨.corrupt, s1, interpret_of_not_accepted h1 hh1 hlive.phase hacc⟩

/-! ## D_LOOP -/

theorem LiveDecomp.dDrainWhile {s : State} (h : LiveDecomp s) (room : Nat) :
    ∃ bs n, dDrainWhile room s = .ok (bs, { s with sp := s.sp - n }) ∧ LiveDecomp { s with sp := s.sp - n } := by
  have hhi := h.inv.spHi
  obtain ⟨bs, e, -, -⟩ := dDrains_ok (min s.sp room) (Nat.min_le_left _ _) (by omega) h.inv.stackWritten
  exact ⟨bs, _, e, h.drained _⟩

/-- With neither a header nor a code to fetch there is room for a byte in `ibuf` (R49, R224). -/
theorem LiveDecomp.ibits_le {s : State} (h : LiveDecomp s) (hh : ¬ headerReady s = true) (hc : ¬ codeReady s = true) :
    s.ibits ≤ 16 := by
  rw [headerReady_iff] at hh
  rw [codeReady_iff] at hc
  have hbyte := h.inv.ibitsByte
  have hpos := h.inv.iposLt
  by_cases hph : s.dphase = .header
  · have hlt : ¬ 24 ≤ s.ibits := fun hle => hh ⟨hph, hle⟩
    omega
  · have hr := (h.inv.opened hph).ranges
    have hmax := hr.bitsHi.trans hr.maxHi
    by_cases hk : s.iskip = 0
    · have hlt : ¬ s.nBits ≤ s.ibits - s.ipos := fun hle => hc ⟨hph, hk, hle⟩
      omega
    · have hempty := h.inv.skip (Nat.pos_of_ne_zero hk)
      omega

/-- A session that has raised is dead; any other is live. -/
def LiveOrRaised (s : State) : Prop := LiveDecomp s ∨ s.err ≠ none

/-- D_LOOP ends before its bound: each round but the last takes whole bytes off `ibuf`, or one byte of input (R247). -/
theorem LiveDecomp.dLoopFrom {s : State} (h : LiveDecomp s) (cap n : Nat) (inp : List Byte) (l : LoopOut)
    (hn : s.ibits + 9 * inp.length < n) : ∃ r, dLoopFrom cap n inp l s = .ok r ∧ LiveOrRaised r.2 := by
  induction n generalizing s inp l with
  | zero => omega
  | succ n ih =>
    obtain ⟨bs, k, e, h1⟩ := h.dDrainWhile (cap - l.out.length)
    unfold Machine.dLoopFrom
    rw [e, Res.ok_bind]
    generalize hs1 : ({ s with sp := s.sp - k } : State) = s1 at h1
    have hbits : s1.ibits = s.ibits := by rw [← hs1]
    dsimp only
    split
    · exact ⟨_, rfl, .inl h1⟩
    · rename_i hsp
      split
      · rename_i hr
        obtain ⟨hph, h24⟩ := headerReady_iff.1 hr
        rcases dHeader_live h1 hph h24 with ⟨t, et, ht, -, ht0, -⟩ | ⟨k', -, et⟩
        · rw [et]
          exact ih ht inp _ (by omega)
        · rw [et]
          exact ⟨_, rfl, .inr nofun⟩
      · rename_i hhr
        split
        · rename_i hr
          rcases h1.dCode hr (by omega) with ⟨t, et, ht, hlt⟩ | ⟨k', t, et⟩
          · rw [et]
            exact ih ht inp _ (by omega)
          · rw [et]
            exact ⟨_, rfl, .inr nofun⟩
        · rename_i hcr
          cases inp with
          | nil => exact ⟨_, rfl, .inl h1⟩
          | cons b rest =>
            obtain ⟨t, et, ht, -, hle⟩ := dTake_live b h1 (h1.ibits_le hhr hcr)
            dsimp only
            rw [et, Res.ok_bind]
            exact ih ht rest _ (by rw [List.length_cons] at hn; omega)

theorem LiveDecomp.dLoop {s : State} (h : LiveDecomp s) (inp : List Byte) (cap : Nat) :
    ∃ r, dLoop inp cap s = .ok r ∧ LiveOrRaised r.2 :=
  h.dLoopFrom cap _ inp _ (by unfold dLoopBound; omega)

/-! ## FINISH_D -/

/-- The end of the code stream keeps what the session keeps (R254). -/
theorem DecompInv.ended {s : State} (h : DecompInv s) (hh : s.dphase ≠ .header) :
    DecompInv { s with dphase := .done } := by
  have hi := h.opened hh
  exact ⟨h.inWritten, h.ibitsByte, h.ibitsHi, h.iposLe, h.iposLt, h.skip, h.stackWritten, h.spHi, nofun,
    fun _ => ⟨hi.ranges.of_eq rfl rfl rfl rfl rfl (le_refl _), hi.table, nofun, nofun, nofun⟩⟩

/-- FINISH_D completes in every decompress session (R254). -/
theorem DecompInv.finishD {s : State} (h : DecompInv s) (herr : s.err = none) (hmode : s.mode = .decomp) (cap : Nat) :
    ∃ r, finishD cap s = .ok r ∧ (r.2.err = none → DecompInv r.2) := by
  unfold Machine.finishD
  split
  · exact ⟨_, rfl, fun _ => h⟩
  · rename_i hph
    obtain ⟨⟨l, s1⟩, e, h1⟩ := LiveDecomp.dLoop ⟨herr, hmode, hph, h⟩ [] cap
    have hs1 : s1.err = none → DecompInv s1 := fun hx => h1.elim LiveDecomp.inv (absurd hx)
    rw [e, Res.ok_bind]
    dsimp only
    split
    · split
      · exact ⟨_, rfl, nofun⟩
      · exact ⟨_, rfl, hs1⟩
    · split
      · refine ⟨_, rfl, ?_⟩
        unfold dAtEnd
        split
        · nofun
        · rename_i hh
          exact fun hx => (hs1 hx).ended hh
      · exact ⟨_, rfl, hs1⟩

end Sys2Proof.Machine
end

