-- ==== Sys2Proof/Proofs/Invariant.lean ====
section
/-! PROOFS. Proofs/Invariant.lean: every command, and the reset line, completes from a state that meets the invariant in
one that meets it (R73, R247). The memories stay canonical by the frames; a session's own invariants are those of its
side. -/

namespace Sys2Proof.Machine

/-! ## The invariant and the host's side of the state -/

section
variable {s t : State}

theorem DecompInv.withPort (h : DecompInv s) (port : List PortEvent) : DecompInv { s with port := port } := by
  refine ⟨h.inWritten, h.ibitsByte, h.ibitsHi, h.iposLe, h.iposLt, h.skip, h.stackWritten, h.spHi, h.header,
    fun hh => ?_⟩
  have hi := h.opened hh
  refine ⟨hi.ranges.of_eq rfl rfl rfl rfl rfl (le_refl _), hi.table, hi.old, fun hrun => ?_, hi.epoch⟩
  obtain ⟨str, hs, hfirst⟩ := hi.lastFirst hrun
  exact ⟨str, hs.of_tables rfl rfl, hfirst⟩

theorem Inv.withPort (h : Inv s) (port : List PortEvent) : Inv { s with port := port } :=
  ⟨h.memory, fun he hm => (h.comp he hm).withPort port, fun he hm => (h.decomp he hm).withPort port⟩

theorem Inv.withResult (h : Inv s) (r : Result) : Inv (s.withResult r) :=
  ⟨h.memory, fun he hm => (h.comp he hm).withResult r, fun he hm => (h.decomp he hm).withResult r⟩

/-- With an error only the memories matter (R277). -/
theorem Inv.of_err (hm : s.memWf = true) (he : s.err ≠ none) : Inv s :=
  ⟨hm, fun h => absurd h he, fun h => absurd h he⟩

theorem Inv.raiseError (h : Inv s) (k : ErrKind) (n : Nat) (out : List Byte) : Inv (raiseError k n out s).2 :=
  .of_err h.memory nofun

/-- A compress session after an operation of its own side. -/
theorem Inv.of_comp (h : Inv s) (hm : s.mode = .comp) (hk : Keeps decompSide s t) (hc : t.err = none → CompInv t) :
    Inv t :=
  ⟨hk.memory h.memory, fun he _ => hc he, fun _ hd => by simp [hk.mode, hm] at hd⟩

/-- A decompress session after an operation of its own side. -/
theorem Inv.of_decomp (h : Inv s) (hm : s.mode = .decomp) (hk : Keeps compSide s t) (hd : t.err = none → DecompInv t) :
    Inv t :=
  ⟨hk.memory h.memory, fun _ hc => by simp [hk.mode, hm] at hc, fun he _ => hd he⟩

/-! ## The commands -/

/-- A memory filled from its first element on. -/
theorem written_cellsFrom {α : Type} (vs : List α) : Written vs.length (Mem.cellsFrom 0 vs) := by
  intro a ha
  rw [Mem.get_cellsFrom, if_pos (Nat.zero_le a), Nat.sub_zero, List.getElem?_eq_getElem ha]
  rfl

/-- Only the header is staged in a new session (R43 (d), R180). -/
theorem bufBit_newObuf (cfg : Byte) {i : Nat} (hi : 24 ≤ i) :
    bufBit (Mem.cellsFrom 0 ([Config.magic1, Config.magic2, cfg] ++ List.replicate 29 0#8)) i = false := by
  have hg : Mem.get (Mem.cellsFrom 0 ([Config.magic1, Config.magic2, cfg] ++ List.replicate 29 0#8)) (i / 8) =
      (List.replicate 29 0#8)[i / 8 - 3]? := by
    rw [Mem.get_cellsFrom, if_pos (Nat.zero_le _), Nat.sub_zero, List.getElem?_append_right (by simp; omega)]
    rfl
  rw [List.getElem?_replicate] at hg
  split at hg
  · rw [bufBit_of_get hg]
    simp
  · exact bufBit_of_none hg

/-- A new compress session (R180). -/
theorem compInv_openCompress {cfg : Byte} (s : State) (h : cfgLegal cfg = true) : CompInv (openCompress cfg s) := by
  simp only [cfgLegal, Bool.and_eq_true, decide_eq_true_eq] at h
  obtain ⟨⟨-, hlo⟩, hhi⟩ := h
  have h512 : 2 ^ 9 ≤ 2 ^ cfgMaxbits cfg := Nat.pow_le_pow_right (by omega) hlo
  have hfirst : firstFree (cfgBlock cfg) ≤ 257 := by unfold firstFree; split <;> omega
  have ranges : Ranges (openCompress cfg s) :=
    ⟨hlo, hhi, le_refl 9, hlo, le_refl _, show firstFree (cfgBlock cfg) ≤ 2 ^ cfgMaxbits cfg by omega, le_refl 24,
      show 24 % 8 = 0 from rfl⟩
  exact {
    ranges := ranges
    hash := hashInv_empty rfl rfl
    fullIff := (decide_eq_false (show firstFree (cfgBlock cfg) ≠ 2 ^ cfgMaxbits cfg by omega)).symm
    fits := .inl (show firstFree (cfgBlock cfg) ≤ 2 ^ 9 by omega)
    pending := nofun
    outWritten := written_cellsFrom ([Config.magic1, Config.magic2, cfg] ++ List.replicate 29 0#8)
    tail := fun _ => bufBit_newObuf cfg
    headerIn := le_refl 24
    room := fun _ => show 24 + 9 ≤ 175 by decide
    padded := nofun }

theorem Inv.beginCompress (h : Inv s) (cfg : Byte) : Inv (beginCompress cfg s).2 := by
  unfold Machine.beginCompress
  split
  · rename_i hcfg
    refine ⟨?_, fun _ _ => compInv_openCompress s hcfg, fun _ hm => by cases hm⟩
    have hobuf : Mem.wf 32 (openCompress cfg s).obuf = true := (Mem.wf_iff ..).2
      ⟨Mem.pairwise_cellsFrom _ _, fun c hc => by simpa using (Mem.mem_cellsFrom hc).2⟩
    exact memWf_obuf (fun _ => hobuf) (memWf_hslot (t := HashMem.allEmpty) (fun _ => rfl) h.memory)
  · exact .of_err h.memory nofun

/-- A new decompress session (R220). -/
theorem decompInv_beginDecompress (s : State) : DecompInv (beginDecompress s).2 :=
  ⟨written_cellsFrom (List.replicate 4 0#8), rfl, Nat.zero_le _, le_refl _, Nat.zero_lt_succ 7, nofun, nofun,
    Nat.zero_le _, fun _ => ⟨rfl, rfl, rfl⟩, fun hh => absurd rfl hh⟩

theorem Inv.beginDecompress (h : Inv s) : Inv (beginDecompress s).2 :=
  ⟨memWf_ibuf (fun _ => rfl) h.memory, fun _ hm => (by cases hm), fun _ _ => decompInv_beginDecompress s⟩

/-- The end of an ADVANCE command leaves the loop's state, or raises in it (R194, R250). -/
theorem Inv.advanceEnd (h : Inv s) (cap : Nat) (l : LoopOut) : Inv (advanceEnd cap l s).2 := by
  unfold Machine.advanceEnd
  split
  · exact h
  · split
    · exact h.raiseError ..
    · exact h

theorem Inv.advanceC (h : Inv s) (inp : List Byte) (cap : Nat) : ∃ r, advanceC inp cap s = .ok r ∧ Inv r.2 := by
  unfold Machine.advanceC
  split
  · exact ⟨_, rfl, h⟩
  · rename_i herr
    split
    · exact ⟨_, rfl, h.raiseError ..⟩
    · rename_i hm
      rw [not_not] at hm
      split
      · exact ⟨_, rfl, h⟩
      · split
        · exact ⟨_, rfl, h.raiseError ..⟩
        · rename_i hdone hfin
          have hph : s.cphase = .first ∨ s.cphase = .run := by
            cases hc : s.cphase with
            | first => exact .inl rfl
            | run => exact .inr rfl
            | finishing => exact absurd hc hfin
            | done => exact absurd hc hdone
          obtain ⟨⟨l, s1⟩, e, h1⟩ := LiveComp.cLoop ⟨herr, hm, hph, h.comp herr hm⟩ inp cap
          have hs1 : Inv s1 := h.of_comp hm ((cLoop_leaves inp cap s).of_eq_ok e) fun _ => h1.inv
          rw [e, Res.ok_bind]
          exact ⟨_, rfl, hs1.advanceEnd cap l⟩

theorem Inv.advanceD (h : Inv s) (inp : List Byte) (cap : Nat) : ∃ r, advanceD inp cap s = .ok r ∧ Inv r.2 := by
  unfold Machine.advanceD
  split
  · exact ⟨_, rfl, h⟩
  · rename_i herr
    split
    · exact ⟨_, rfl, h.raiseError ..⟩
    · rename_i hm
      rw [not_not] at hm
      split
      · exact ⟨_, rfl, h⟩
      · rename_i hph
        obtain ⟨⟨l, s1⟩, e, h1⟩ := LiveDecomp.dLoop ⟨herr, hm, hph, h.decomp herr hm⟩ inp cap
        have hs1 : Inv s1 := h.of_decomp hm ((dLoop_leaves inp cap s).of_eq_ok e) fun he =>
          h1.elim LiveDecomp.inv (absurd he)
        rw [e, Res.ok_bind]
        exact ⟨_, rfl, hs1.advanceEnd cap l⟩

theorem Inv.finishCmd (h : Inv s) (cap : Nat) : ∃ r, finishCmd cap s = .ok r ∧ Inv r.2 := by
  unfold Machine.finishCmd
  split
  · exact ⟨_, rfl, h⟩
  · rename_i herr
    split
    · exact ⟨_, rfl, h.raiseError ..⟩
    · rename_i hm
      obtain ⟨r, e, hr⟩ := (h.comp herr hm).finishC cap
      exact ⟨r, e, h.of_comp hm ((finishC_leaves cap s).of_eq_ok e) fun _ => hr⟩
    · rename_i hm
      obtain ⟨r, e, hr⟩ := (h.decomp herr hm).finishD herr hm cap
      exact ⟨r, e, h.of_decomp hm ((finishD_leaves cap s).of_eq_ok e) hr⟩

/-! ## The step -/

/-- An outcome that is a next state which meets the invariant. -/
def NextInv (o : Host.Outcome State Fault Refusal) : Prop := ∃ t, o = .next t ∧ Inv t

theorem nextInv_respond {r : Resp × State} (h : Inv r.2) : NextInv (respond r) := ⟨_, rfl, h.withResult _⟩

theorem nextInv_doneCmd {x : Res (Resp × State)} (h : ∃ r, x = .ok r ∧ Inv r.2) : NextInv (doneCmd x) := by
  obtain ⟨r, rfl, hr⟩ := h
  exact nextInv_respond hr

theorem Inv.hardwareReset (s : State) : Inv (hardwareReset s) := ⟨rfl, nofun, nofun⟩

/-- Every command of the host (R97). -/
theorem Inv.execRequest (h : Inv s) (r : Request) : NextInv (exec (decodeRequest r) s) := by
  unfold decodeRequest
  split_ifs
  · exact nextInv_respond (h.beginCompress r.cfg)
  · exact nextInv_respond h.beginDecompress
  · exact nextInv_doneCmd (h.advanceC r.inData r.outCap)
  · exact nextInv_doneCmd (h.advanceD r.inData r.outCap)
  · exact nextInv_doneCmd (h.finishCmd r.outCap)
  · exact nextInv_respond (h.raiseError .usage 0 [])
  · exact nextInv_respond (h.raiseError .usage 0 [])
  · exact nextInv_respond (h.raiseError .usage 0 [])

end

/-- Settles O7: the step waits, or serves a command or the reset line in a state that meets the invariant. -/
theorem stepKeepsTheInvariant : Obligations.StepKeepsTheInvariant := by
  intro s h
  unfold step fetch
  cases s.port with
  | nil => exact ⟨s, rfl, h⟩
  | cons event rest =>
    cases event with
    | command r => exact (h.withPort rest).execRequest r
    | resetLine => exact ⟨_, rfl, Inv.hardwareReset _⟩

/-- Settles O8: no memory lists an element and no session is open. -/
theorem resetMeetsTheInvariant : Obligations.ResetMeetsTheInvariant :=
  ⟨reset_memWf, nofun, nofun⟩

end Sys2Proof.Machine
end

