-- ==== Sys2Proof/Proofs/Stops.lean ====
section
/-! PROOFS. Proofs/Stops.lean: the faults of the micro-operations outside their domain (R58, R73, logs 5, 6 and 12). -/

namespace Sys2Proof.Machine

/-! ## Accesses that stop -/

section
variable {α : Type} {name : MemName} {size : Nat} {a : Nat}

theorem readMem_unwritten {m : Mem α} (h : a < size) (hm : Mem.get m a = none) :
    readMem name size m a = stopWith (.unwritten name a) := by simp [readMem, h, hm]

theorem readMem_outOfRange {m : Mem α} (h : size ≤ a) : readMem name size m a = stopWith (.outOfRange name a) :=
  if_neg (Nat.not_lt.2 h)

theorem writeMem_outOfRange {m : Mem α} {v : α} (h : size ≤ a) :
    writeMem name size m a v = stopWith (.outOfRange name a) := if_neg (Nat.not_lt.2 h)

/-- PUT_CODE and GET_CODE stop where the read of their first byte does. -/
theorem putCodeIn_of_stop {m : Mem Byte} {off : Nat} {e : Fault} (c : Code)
    (h : readMem name size m (off / 8) = stopWith e) : putCodeIn name size m off c = stopWith e := by
  unfold putCodeIn
  simp only [byteIndex_eq, h, stopWith_bind]

theorem getCodeIn_of_stop {m : Mem Byte} {off : Nat} {e : Fault} (w : Nat)
    (h : readMem name size m (off / 8) = stopWith e) : getCodeIn name size m off w = stopWith e := by
  unfold getCodeIn
  simp only [byteIndex_eq, h, stopWith_bind]

end

/-! ## Micro-operations that stop -/

section
variable {s : State}

theorem ibufCompact_of_underflow (hb : s.ibits < 8) (hp : 8 ≤ s.ipos) : ibufCompact s = stopWith .underflow := by
  obtain ⟨n, hn⟩ : ∃ n, s.ipos / 8 = n + 1 := ⟨s.ipos / 8 - 1, by omega⟩
  rw [ibufCompact, hn, dropBytes, dropByte, if_neg (by omega), stopWith_bind]

theorem cDrain_of_underflow (hm : (Mem.get s.obuf 0).isSome = true) (ho : s.obits < 8) :
    cDrain s = stopWith .underflow := by
  obtain ⟨b, hb⟩ := Option.isSome_iff_exists.1 hm
  rw [cDrain, readMem_ok (by decide) hb, Res.ok_bind, if_neg (by omega)]

theorem dDrain_of_underflow (h : s.sp = 0) : dDrain s = stopWith .underflow := by
  unfold dDrain
  rw [h]

theorem push_of_full (b : Byte) (h : 65536 ≤ s.sp) : push b s = stopWith (.outOfRange .stack s.sp) := by
  rw [push, writeMem_outOfRange h, stopWith_bind]

theorem unroll_of_unwritten {c : Code} (hc : 256 ≤ c.toNat) (hm : Mem.get s.tabSuffix c.toNat = none) :
    unroll c s = stopWith (.unwritten .tabSuffix c.toNat) := by
  rw [unroll, unrollIn, if_neg (by omega), readMem_unwritten c.isLt hm, stopWith_bind]

theorem lookupOrInsert_of_unwritten {p : Code} {b : Byte} (h : s.hslot.read (hashIndex p b) = .unwritten) :
    lookupOrInsert p b s = stopWith (.unwritten .hslot (hashIndex p b).toNat) := by
  have hprobe : probeFrom s.hslot p b (131071 + 1) (hashIndex p b) =
      stopWith (.unwritten .hslot (hashIndex p b).toNat) := by
    rw [probeFrom, h]
  rw [lookupOrInsert, hprobe, stopWith_bind]

theorem putCode_getCode_of_stop {b : BufSel} {off : Nat} {e : Fault} (w : Nat) (c : Code)
    (h : readMem (bufName b) (bufSize b) (s.buffer b) (off / 8) = stopWith e) :
    exec (.putCode b off c w) s = .fault e ∧ exec (.getCode b off w) s = .fault e := by
  constructor
  · show execPutCode b off c w s = _
    rw [execPutCode, putCodeIn_of_stop c h]
    rfl
  · show execGetCode b off w s = _
    rw [execGetCode, getCodeIn_of_stop w h]
    rfl

end

/-- Settles O19: each micro-operation stops at its own first access or count outside the domain. -/
theorem microOperationsStopOutsideTheirDomain : Obligations.MicroOperationsStopOutsideTheirDomain := by
  intro s b off w c x
  refine ⟨fun h hm => ?_, fun h => ?_, fun hb hp => ?_, fun hm ho => ?_, fun h => ?_, fun h => ?_, fun hc hm => ?_,
    fun h => ?_⟩
  · exact putCode_getCode_of_stop w c (readMem_unwritten h hm)
  · exact putCode_getCode_of_stop w c (readMem_outOfRange h)
  · exact congrArg doneUnit (ibufCompact_of_underflow hb hp)
  · exact congrArg (doneVal .byte) (cDrain_of_underflow hm ho)
  · exact congrArg (doneVal .byte) (dDrain_of_underflow h)
  · exact congrArg doneUnit (push_of_full x h)
  · exact congrArg (doneVal .byte) (unroll_of_unwritten hc hm)
  · exact congrArg (doneVal .lookup) (lookupOrInsert_of_unwritten h)

end Sys2Proof.Machine
end

