-- ==== Sys2Proof/Proofs/Serve.lean ====
section
/-! PROOFS. Proofs/Serve.lean: what a step is for each head of the port (R80, logs 7 and 9). -/

namespace Sys2Proof.Machine

section
variable {s : State} {rest : List PortEvent}

theorem step_of_port_nil (h : s.port = []) : step s = .next s := by
  rw [step, fetch, h]

theorem step_of_port_command {r : Request} (h : s.port = .command r :: rest) :
    step s = exec (decodeRequest r) { s with port := rest } := by
  rw [step, fetch, h]

theorem step_of_port_resetLine (h : s.port = .resetLine :: rest) :
    step s = exec .reset { s with port := rest } := by
  rw [step, fetch, h]

end

/-- Settles O6, one lemma for each head of the port. -/
theorem stepServesTheHeadOfThePort : Obligations.StepServesTheHeadOfThePort :=
  fun _ _ _ => ⟨step_of_port_nil, step_of_port_command, step_of_port_resetLine⟩

end Sys2Proof.Machine
end

