-- ==== Sys2Proof/Proofs/CodeClass.lean ====
section
/-! PROOFS. Proofs/CodeClass.lean: the decoder answers each class of R101 under the condition of its row, and D_CODE
does under that condition what the instruction of the class does (R230). -/

namespace Sys2Proof

/-! ## The rows of R101 -/

section
variable {ctx : DecodeCtx} {c : Code}

theorem eq_clearCode_iff : c = Config.clearCode ↔ c.toNat = 256 := BitVec.toNat_inj.symm

/-- A code below 256 is no CLEAR. -/
theorem not_clear_of_lt {k : Prop} (h : c.toNat < 256) : ¬ (c = Config.clearCode ∧ k) := by
  rw [eq_clearCode_iff]
  omega

theorem classify_literalFirst (hph : ctx.dphase = .streamFirst) (hc : c.toNat < 256) :
    classify ctx c = .ok (.literalFirst (c.setWidth 8)) := if_pos ⟨hph, hc⟩

theorem classify_badcodeFirst (hph : ctx.dphase = .streamFirst) (hc : 256 ≤ c.toNat) :
    classify ctx c = .ok (.badcodeFirst c) := by
  simp [classify, hph, hc]

theorem classify_clear (hph : ctx.dphase = .epochFirst ∨ ctx.dphase = .run) (hk : ctx.blockMode = true) :
    classify ctx Config.clearCode = .ok .clear := by
  rcases hph with hph | hph <;> simp [classify, hph, hk]

theorem classify_literalEpochFirst (hph : ctx.dphase = .epochFirst) (hc : c.toNat < 256) :
    classify ctx c = .ok (.literalEpochFirst (c.setWidth 8)) := by
  simp [classify, hph, hc, not_clear_of_lt hc]

theorem classify_badcodeEpochFirst (hph : ctx.dphase = .epochFirst) (hc : 256 ≤ c.toNat)
    (hclear : ¬ (c = Config.clearCode ∧ ctx.blockMode = true)) : classify ctx c = .ok (.badcodeEpochFirst c) := by
  simp [classify, hph, hc, hclear]

theorem classify_badcodeRange (hph : ctx.dphase = .run) (hc : ctx.freeEnt < c.toNat)
    (hclear : ¬ (c = Config.clearCode ∧ ctx.blockMode = true)) : classify ctx c = .ok (.badcodeRange c) := by
  simp [classify, hph, hc, hclear]

theorem classify_kwkwk (hph : ctx.dphase = .run) (hc : c.toNat = ctx.freeEnt)
    (hclear : ¬ (c = Config.clearCode ∧ ctx.blockMode = true)) : classify ctx c = .ok (.kwkwk c) := by
  simp [classify, hph, hc, hclear]

theorem classify_literal (hph : ctx.dphase = .run) (hc : c.toNat < ctx.freeEnt) (hb : c.toNat < 256) :
    classify ctx c = .ok (.literal (c.setWidth 8)) := by
  simp [classify, hph, not_clear_of_lt hb, hb, hc.ne, hc.not_gt]

theorem classify_dictref (hph : ctx.dphase = .run) (hc : c.toNat < ctx.freeEnt) (hb : 256 ≤ c.toNat)
    (hclear : ¬ (c = Config.clearCode ∧ ctx.blockMode = true)) : classify ctx c = .ok (.dictref c) := by
  simp [classify, hph, hclear, hb, hc.ne, hc.not_gt]

end

end Sys2Proof

namespace Sys2Proof.Machine

/-! ## D_CODE -/

theorem dFirst_of_lt {c : Code} (h : c.toNat < 256) (s : State) : dFirst c s = firstLiteral c s :=
  if_neg (Nat.not_le.2 h)

theorem dFirst_of_ge {c : Code} (h : 256 ≤ c.toNat) (s : State) : dFirst c s = raiseHere .corrupt s := if_pos h

theorem dExpand_of_gt {c : Code} {s : State} (h : s.freeEnt < c.toNat) : dExpand c s = raiseHere .corrupt s := by
  rw [dExpand, if_pos h.le, if_pos h]

theorem dExpand_of_eq {c : Code} {s : State} (h : c.toNat = s.freeEnt) : dExpand c s = expandKwkwk c s := by
  rw [dExpand, if_pos h.ge, if_neg h.le.not_gt]

theorem dExpand_of_lt {c : Code} {s : State} (h : c.toNat < s.freeEnt) : dExpand c s = expandCode c c s :=
  if_neg (Nat.not_le.2 h)

theorem interpret_of_streamFirst {c : Code} {s : State} (h : s.dphase = .streamFirst) : interpret c s = dFirst c s :=
  if_pos h

theorem interpret_clear {s : State} (h : s.dphase = .epochFirst ∨ s.dphase = .run) (hk : s.blockMode = true) :
    interpret Config.clearCode s = dClear s := by
  rcases h with h | h <;> simp [interpret, h, hk]

theorem interpret_of_epochFirst {c : Code} {s : State} (h : s.dphase = .epochFirst)
    (hclear : ¬ (c = Config.clearCode ∧ s.blockMode = true)) : interpret c s = dFirst c s := by
  simp [interpret, h, hclear]

theorem interpret_of_run {c : Code} {s : State} (h : s.dphase = .run)
    (hclear : ¬ (c = Config.clearCode ∧ s.blockMode = true)) : interpret c s = dExpand c s := by
  simp [interpret, h, hclear]

theorem dropBytes_ctx {n : Nat} {s t : State} (h : dropBytes n s = .ok t) : t.ctx = s.ctx := by
  induction n generalizing s with
  | zero =>
    cases h
    rfl
  | succ n ih =>
    obtain ⟨s1, h1, h2⟩ := Res.bind_eq_ok.1 h
    rw [ih h2]
    unfold dropByte at h1
    split at h1
    · cases h1
      rfl
    · cases h1

/-- D_GET leaves what decides the class of the code (R140). -/
theorem dGet_ctx {s s1 : State} {c : Code} (h : dGet s = .ok (c, s1)) : s1.ctx = s.ctx := by
  obtain ⟨c', -, h⟩ := Res.bind_eq_ok.1 h
  obtain ⟨s2, h1, h2⟩ := Res.bind_eq_ok.1 h
  cases h2
  exact (dropBytes_ctx (n := (s.ipos + s.nBits) / 8) h1).trans rfl

theorem exec_dCode {s s1 : State} {c : Code} (h : dGet s = .ok (c, s1)) :
    exec .dCode s = doneUnit (interpret c s1) := by
  show doneUnit (dCode s) = _
  rw [dCode, h, Res.ok_bind]

/-! A code below 256 is the byte of its class (R101 rows 1, 4 and 8). -/

theorem exec_literalFirst_of_lt {c : Code} (hc : c.toNat < 256) (s : State) :
    exec (.literalFirst (c.setWidth 8)) s = doneUnit (firstLiteral c s) := by
  simp only [exec, execLiteralFirst, setWidth_setWidth_of_lt hc]

theorem exec_literalEpochFirst_of_lt {c : Code} (hc : c.toNat < 256) (s : State) :
    exec (.literalEpochFirst (c.setWidth 8)) s = doneUnit (firstLiteral c s) := by
  simp only [exec, execLiteralEpochFirst, setWidth_setWidth_of_lt hc]

theorem exec_literal_of_lt {c : Code} (hc : c.toNat < 256) (s : State) :
    exec (.literal (c.setWidth 8)) s = doneUnit (expandCode c c s) := by
  simp only [exec, execLiteral, setWidth_setWidth_of_lt hc]

/-- Settles O5: D_GET keeps what R101's conditions look at, and the tests of D_CODE, D_FIRST and D_EXPAND are those
conditions in the order of the rows. -/
theorem dCodeRunsTheClassOfItsCode : Obligations.DCodeRunsTheClassOfItsCode := by
  intro s s1 c hget
  have hctx := dGet_ctx hget
  simp only [State.ctx, DecodeCtx.mk.injEq] at hctx
  obtain ⟨-, hphase, hblock, hfree⟩ := hctx
  rw [exec_dCode hget, ← hphase, ← hblock, ← hfree, ← eq_clearCode_iff]
  refine ⟨fun hph hc => ?_, fun hph hc => ?_, fun hph hc hk => ?_, fun hph hc => ?_, fun hph hc hclear => ?_,
    fun hph hclear hc => ?_, fun hph hclear hc => ?_, fun hph hf hc => ?_, fun hph hclear hc hf => ?_⟩
  · rw [interpret_of_streamFirst hph, dFirst_of_lt hc, exec_literalFirst_of_lt hc]
  · rw [interpret_of_streamFirst hph, dFirst_of_ge hc]
    rfl
  · rw [hc, interpret_clear hph hk]
    rfl
  · rw [interpret_of_epochFirst hph (not_clear_of_lt hc), dFirst_of_lt hc, exec_literalEpochFirst_of_lt hc]
  · rw [interpret_of_epochFirst hph hclear, dFirst_of_ge hc]
    rfl
  · rw [interpret_of_run hph hclear, dExpand_of_gt hc]
    rfl
  · rw [interpret_of_run hph hclear, dExpand_of_eq hc]
    rfl
  · rw [interpret_of_run hph (not_clear_of_lt hc), dExpand_of_lt hf, exec_literal_of_lt hc]
  · rw [interpret_of_run hph hclear, dExpand_of_lt hf]
    rfl

end Sys2Proof.Machine
end

