-- ==== Sys2Proof/Proofs/Encoding.lean ====
section
/-! PROOFS. Proofs/Encoding.lean: the fields and the fixed bits of a header (R92, R93), and that a word decodes to the
instruction it was made from (R97, R101). -/

namespace Sys2Proof

/-! ## The fields of a header -/

section
variable (k : Bool) (r : BitVec 2) (m : BitVec 5)

@[simp] theorem hdrMagicOk_packHdr : hdrMagicOk (packHdr k r m) = true := by
  revert k r m; decide

@[simp] theorem hdrBlock_packHdr : hdrBlock (packHdr k r m) = k := by
  revert k r m; decide

@[simp] theorem hdrReserved_packHdr : hdrReserved (packHdr k r m) = r := by
  revert k r m; decide

@[simp] theorem hdrMaxbits_packHdr : hdrMaxbits (packHdr k r m) = m := by
  revert k r m; decide

theorem getLsbD_packHdr : (packHdr k r m).getLsbD 23 = k := by
  revert k r m; decide

theorem packHdr_eq_windowOf : packHdr k r m = Machine.windowOf 0x1F#8 0x9D#8 (Machine.headerByte2 k r m) := by
  revert k r m; decide

end

theorem decodeHdrWrite_packHdr (k : Bool) {m : BitVec 5} (h : widthOk m.toNat = true) :
    decodeHdrWrite (packHdr k 0#2 m) = .ok (.hdrWrite k m) := by
  simp [decodeHdrWrite, h]

theorem decodeHdrRead_packHdr (k : Bool) (r : BitVec 2) (m : BitVec 5) :
    decodeHdrRead (packHdr k r m) = .ok (.hdrRead k r m) := by
  simp [decodeHdrRead]

/-! ## The fixed bits of a header -/

section
variable (h : BitVec 24)

theorem hdrMagicOk_iff : hdrMagicOk h = true ↔ h &&& 0x00FFFF#24 = 0x009D1F#24 := by
  have hand : h.toNat &&& 0x00FFFF = h.toNat % 65536 := Nat.and_two_pow_sub_one_eq_mod h.toNat 16
  simp only [hdrMagicOk, hdrMagic1, hdrMagic2, Bool.and_eq_true, beq_iff_eq, BitVec.toNat_inj.symm,
    BitVec.extractLsb'_toNat, BitVec.toNat_and, BitVec.toNat_ofNat, Nat.shiftRight_eq_div_pow, Nat.reduceMod,
    Nat.reducePow, hand]
  omega

/-- Bits 22:21 in their place. -/
theorem and_reserved_mask : h &&& 0x600000#24 = ((hdrReserved h).setWidth 24) <<< 21 := by
  ext i hi
  simp only [hdrReserved]
  interval_cases i <;> simp

theorem hdrReserved_eq_zero_iff : hdrReserved h = 0#2 ↔ h &&& 0x600000#24 = 0#24 := by
  rw [and_reserved_mask]
  generalize hdrReserved h = r
  revert r; decide

/-- The fixed bits on the compress side are the magic and the reserved bits (R93). -/
theorem and_fixed_mask_iff :
    h &&& 0x60FFFF#24 = 0x009D1F#24 ↔ hdrMagicOk h = true ∧ hdrReserved h = 0#2 := by
  rw [hdrMagicOk_iff, hdrReserved_eq_zero_iff]
  constructor
  · intro hfix
    have hpart (n : BitVec 24) : h &&& (0x60FFFF#24 &&& n) = 0x009D1F#24 &&& n := by
      rw [← BitVec.and_assoc, hfix]
    exact ⟨hpart 0x00FFFF#24, hpart 0x600000#24⟩
  · rintro ⟨hmagic, hres⟩
    calc h &&& 0x60FFFF#24 = h &&& (0x00FFFF#24 ||| 0x600000#24) := rfl
      _ = (h &&& 0x00FFFF#24) ||| (h &&& 0x600000#24) := BitVec.and_or_distrib_left
      _ = 0x009D1F#24 := by rw [hmagic, hres]; rfl

theorem decodeHdrRead_isOk_iff : (∃ i, decodeHdrRead h = .ok i) ↔ hdrMagicOk h = true := by
  unfold decodeHdrRead
  split <;> simp [*]

theorem decodeHdrWrite_isOk_iff : (∃ i, decodeHdrWrite h = .ok i) ↔
    (hdrMagicOk h = true ∧ hdrReserved h = 0#2) ∧ widthOk (hdrMaxbits h).toNat = true := by
  unfold decodeHdrWrite
  split
  · split
    · split <;> simp [*]
    · simp [*]
  · simp [*]

end

theorem widthOk_iff {w : Nat} : widthOk w = true ↔ 9 ≤ w ∧ w ≤ 16 := by
  simp [widthOk]

/-- Settles O3: the fields and the fixed bits of a header value, and what either decoder tests of them. -/
theorem headerValueHasItsFixedBits : Obligations.HeaderValueHasItsFixedBits := by
  refine ⟨fun k m => ⟨packHdr_eq_windowOf k 0#2 m, ?_, ?_, hdrMaxbits_packHdr k 0#2 m⟩, fun h => ?_, fun h => ?_,
    packHdr_eq_windowOf .., packHdr_eq_windowOf .., packHdr_eq_windowOf .., packHdr_eq_windowOf ..⟩
  · exact (and_fixed_mask_iff _).2 ⟨hdrMagicOk_packHdr .., hdrReserved_packHdr ..⟩
  · exact getLsbD_packHdr k 0#2 m
  · rw [decodeHdrRead_isOk_iff, hdrMagicOk_iff]
  · rw [decodeHdrWrite_isOk_iff, and_fixed_mask_iff, widthOk_iff]
    rfl

/-! ## Words and instructions -/

/-- A byte as a code is below 256. -/
theorem byte_toCode_lt (b : Byte) : (b.setWidth 16 : Code).toNat < 256 :=
  (Machine.byte_toCode_toNat b).trans_lt b.isLt

/-- Settles O4: the command words and the fields of a header are read back, the condition of each row of R101 selects
its class, and the other formats have no word. -/
theorem decodeOfEncodeIsTheInstruction : Obligations.DecodeOfEncodeIsTheInstruction := by
  intro ctx i w hwf hctx he
  cases i
  case beginCompress | beginDecompress | advanceC | advanceD | finish | cmdReserved0 | cmdReserved6 | cmdReserved7 =>
    cases he
    rfl
  case hdrWrite k m =>
    cases he
    rw [decode, show ctx.mode = .comp from hctx]
    exact decodeHdrWrite_packHdr k hwf
  case hdrRead k r m =>
    cases he
    rw [decode, show ctx.mode = .decomp from hctx]
    exact decodeHdrRead_packHdr k r m
  case literalFirst b =>
    cases he
    exact (classify_literalFirst hctx (byte_toCode_lt b)).trans (by rw [Machine.byte_toCode_toByte])
  case badcodeFirst c =>
    cases he
    exact classify_badcodeFirst hctx (of_decide_eq_true hwf)
  case clear =>
    cases he
    obtain ⟨hk, hph⟩ := hctx
    exact classify_clear hph hk
  case literalEpochFirst b =>
    cases he
    exact (classify_literalEpochFirst hctx (byte_toCode_lt b)).trans (by rw [Machine.byte_toCode_toByte])
  case badcodeEpochFirst c =>
    cases he
    obtain ⟨hph, hclear⟩ := hctx
    exact classify_badcodeEpochFirst hph (of_decide_eq_true hwf) hclear
  case badcodeRange c =>
    cases he
    obtain ⟨hph, hc, hclear⟩ := hctx
    exact classify_badcodeRange hph hc hclear
  case kwkwk c =>
    cases he
    obtain ⟨hph, hc, hclear⟩ := hctx
    exact classify_kwkwk hph hc hclear
  case literal b =>
    cases he
    obtain ⟨hph, hb⟩ := hctx
    rw [← Machine.byte_toCode_toNat] at hb
    exact (classify_literal hph hb (byte_toCode_lt b)).trans (by rw [Machine.byte_toCode_toByte])
  case dictref c =>
    cases he
    obtain ⟨hph, hc, hclear⟩ := hctx
    exact classify_dictref hph hc (of_decide_eq_true hwf) hclear
  all_goals cases he

/-- Settles O1: the command words are distinct, and each reserved command is a raise (R276). -/
theorem commandWordSelectsTheCommand : Obligations.CommandWordSelectsTheCommand := fun _ _ _ s =>
  ⟨rfl, rfl, rfl, rfl, rfl, ⟨rfl, Machine.respond_raiseError .usage s⟩, ⟨rfl, Machine.respond_raiseError .usage s⟩,
    rfl, Machine.respond_raiseError .usage s⟩

/-- Settles O2, by running the decoder on the ten words. -/
theorem wordsOfTheSpecDecode : Obligations.WordsOfTheSpecDecode := by
  unfold Obligations.WordsOfTheSpecDecode
  decide

end Sys2Proof

namespace Sys2Proof.Machine

/-- The fields of header byte 2 (R92). -/
theorem headerByte2_fields (k : Bool) (r : BitVec 2) (m : BitVec 5) :
    (headerByte2 k r m).extractLsb' 0 5 = m ∧ (headerByte2 k r m).extractLsb' 5 2 = r ∧
      (headerByte2 k r m).getLsbD 7 = k := by
  revert k r m; decide

/-- Settles O40: HDR_WRITE is a block write of the three bytes. -/
theorem headerIsWrittenToTheOutputBuffer : Obligations.HeaderIsWrittenToTheOutputBuffer := by
  intro k m s
  obtain ⟨hmax, hres, hblock⟩ := headerByte2_fields k 0#2 m
  have hget := Mem.get_putBlock s.obuf 0 [Config.magic1, Config.magic2, headerByte2 k 0#2 m]
  refine ⟨_, headerByte2 k 0#2 m, rfl, rfl, hmax, hres, hblock, (hget 0).trans rfl, (hget 1).trans rfl,
    (hget 2).trans rfl, fun a ha => ?_⟩
  exact (hget a).trans (if_neg (by simp; omega))

end Sys2Proof.Machine
end

