-- ==== Sys2Proof/Proofs/CompressStream.lean ====
section
/-! PROOFS. Proofs/CompressStream.lean: the stream of COMPRESS_ALL (R81, R118). The compressor takes a byte only when
less than a byte is staged, so what it does next depends on the input alone: `streamFrom` is that stream, and every
ADVANCE_C and FINISH delivers the next bytes of it, whatever its room. -/

namespace Sys2Proof.Machine

/-! ## What the compressor does not look at -/

/-- `s` in the surroundings of `d`: what the compressor neither reads nor writes is taken from `d`, that is the
decompress-only side (R44), the port, the result and the next free value. -/
def State.within (s d : State) : State :=
  { s with
    dphase := d.dphase, oldCode := d.oldCode, lastChar := d.lastChar, ibits := d.ibits, ipos := d.ipos
    iskip := d.iskip, ibuf := d.ibuf, tabPrefix := d.tabPrefix, tabSuffix := d.tabSuffix, stack := d.stack, sp := d.sp
    port := d.port, result := d.result, freeCount := d.freeCount }

section
variable {s t : State} (d : State)

theorem cPut_within {code : Code} {w : Nat} (h : cPut code w s = .ok t) :
    cPut code w (s.within d) = .ok (t.within d) := by
  obtain ⟨m, e, h⟩ := Res.bind_eq_ok.1 h
  cases h
  exact Res.bind_eq_ok.2 ⟨m, e, rfl⟩

theorem cGrow_within (h : cGrow s = .ok t) : cGrow (s.within d) = .ok (t.within d) := by
  unfold cGrow at h ⊢
  rw [show cWidens (s.within d) = cWidens s from rfl]
  split at h
  · cases h
    rw [if_pos ‹_›]
    rfl
  · cases h
    exact if_neg ‹_›

theorem emitClear_within (h : emitClear s = .ok t) : emitClear (s.within d) = .ok (t.within d) := by
  obtain ⟨s1, e, h⟩ := Res.bind_eq_ok.1 h
  cases h
  exact Res.bind_eq_ok.2 ⟨_, cPut_within d e, rfl⟩

theorem cRatio_within (h : cRatio s = .ok t) : cRatio (s.within d) = .ok (t.within d) := by
  unfold cRatio at h ⊢
  rw [show ratioDue (s.within d) = ratioDue s from rfl]
  split at h
  · rw [if_pos ‹_›]
    dsimp only at h ⊢
    split at h
    · exact (if_pos ‹_›).trans (emitClear_within d h)
    · cases h
      exact if_neg ‹_›
  · cases h
    exact if_neg ‹_›

theorem cMiss_within {c : Byte} (h : cMiss c s = .ok t) : cMiss c (s.within d) = .ok (t.within d) := by
  obtain ⟨s1, e1, h⟩ := Res.bind_eq_ok.1 h
  obtain ⟨s2, e2, h⟩ := Res.bind_eq_ok.1 h
  exact Res.bind_eq_ok.2 ⟨_, cPut_within d e1, Res.bind_eq_ok.2 ⟨_, cGrow_within d e2, cRatio_within d h⟩⟩

theorem lookupOrInsert_within {p : Code} {b : Byte} {l : Lookup} (h : lookupOrInsert p b s = .ok (l, t)) :
    lookupOrInsert p b (s.within d) = .ok (l, t.within d) := by
  obtain ⟨e, hprobe, h⟩ := Res.bind_eq_ok.1 h
  refine Res.bind_eq_ok.2 ⟨e, hprobe, ?_⟩
  cases e with
  | found code =>
    cases h
    rfl
  | emptyAt a =>
    simp only [lookupEnd, Except.ok.injEq, Prod.mk.injEq] at h ⊢
    obtain ⟨rfl, rfl⟩ := h
    refine ⟨rfl, ?_⟩
    rw [show (s.within d).full = s.full from rfl]
    split <;> rfl

theorem cByte_within {c : Byte} (h : cByte c s = .ok t) : cByte c (s.within d) = .ok (t.within d) := by
  unfold cByte at h ⊢
  dsimp only at h ⊢
  split at h
  · cases h
    exact if_pos ‹_›
  · refine (if_neg ‹_›).trans ?_
    obtain ⟨⟨l, s1⟩, e, h⟩ := Res.bind_eq_ok.1 h
    refine Res.bind_eq_ok.2 ⟨_, lookupOrInsert_within d e, ?_⟩
    cases l with
    | hit code =>
      cases h
      rfl
    | miss => exact cMiss_within d h

theorem cFinal_within (h : cFinal s = .ok t) : cFinal (s.within d) = .ok (t.within d) := by
  unfold cFinal at h ⊢
  rw [show (s.within d).cphase = s.cphase from rfl]
  split at h
  · obtain ⟨s1, e, h⟩ := Res.bind_eq_ok.1 h
    cases h
    exact (if_pos ‹_›).trans (Res.bind_eq_ok.2 ⟨_, cPut_within d e, rfl⟩)
  · cases h
    exact if_neg ‹_›

theorem cDrain_within {b : Byte} (h : cDrain s = .ok (b, t)) : cDrain (s.within d) = .ok (b, t.within d) := by
  obtain ⟨b', e, h⟩ := Res.bind_eq_ok.1 h
  refine Res.bind_eq_ok.2 ⟨b', e, ?_⟩
  rw [show (s.within d).obits = s.obits from rfl]
  split at h
  · cases h
    exact if_pos ‹_›
  · cases h

theorem cDrains_succ_eq_ok {n : Nat} {s t : State} {out : List Byte} : cDrains (n + 1) s = .ok (out, t) ↔
    ∃ b s1 bs, cDrain s = .ok (b, s1) ∧ cDrains n s1 = .ok (bs, t) ∧ out = b :: bs := by
  rw [cDrains]
  constructor
  · intro h
    obtain ⟨⟨b, s1⟩, e1, h⟩ := Res.bind_eq_ok.1 h
    obtain ⟨⟨bs, s2⟩, e2, h⟩ := Res.bind_eq_ok.1 h
    cases h
    exact ⟨b, s1, bs, e1, e2, rfl⟩
  · rintro ⟨b, s1, bs, e1, e2, rfl⟩
    rw [e1, Res.ok_bind]
    dsimp only
    rw [e2, Res.ok_bind]

theorem cDrains_within {n : Nat} {out : List Byte} (h : cDrains n s = .ok (out, t)) :
    cDrains n (s.within d) = .ok (out, t.within d) := by
  induction n generalizing s out with
  | zero =>
    cases h
    rfl
  | succ n ih =>
    obtain ⟨b, s1, bs, e1, e2, rfl⟩ := cDrains_succ_eq_ok.1 h
    exact cDrains_succ_eq_ok.2 ⟨b, _, bs, cDrain_within d e1, ih e2, rfl⟩

end

/-! ## Draining in parts -/

/-- The first `n` bytes, and the rest from there. -/
theorem cDrains_rest {n k : Nat} {s s1 t : State} {out bs : List Byte} (h1 : cDrains n s = .ok (out, s1))
    (h : cDrains (n + k) s = .ok (bs, t)) : ∃ bs', cDrains k s1 = .ok (bs', t) ∧ bs = out ++ bs' := by
  induction n generalizing s out bs with
  | zero =>
    cases h1
    rw [Nat.zero_add] at h
    exact ⟨bs, h, rfl⟩
  | succ n ih =>
    rw [Nat.add_right_comm] at h
    obtain ⟨b, u, os, e, e1, rfl⟩ := cDrains_succ_eq_ok.1 h1
    obtain ⟨b', u', os', e', e2, rfl⟩ := cDrains_succ_eq_ok.1 h
    cases e.symm.trans e'
    obtain ⟨bs', e3, rfl⟩ := ih e1 e2
    exact ⟨bs', e3, rfl⟩

/-- One delivery out of what is to be delivered: it empties the staging buffer but for part of a byte, or fills its room
(R184, R198). -/
theorem CompInv.deliver {s d : State} {bs : List Byte} (h : CompInv s) (ho : s.obits ≤ 256)
    (hd : cDrains (s.obits / 8) s = .ok (bs, d)) (room : Nat) :
    ∃ out bs' m o, cDrainWhile room s = .ok (out, { s with obuf := m, obits := o }) ∧ bs = out ++ bs' ∧
      CompInv { s with obuf := m, obits := o } ∧ cDrains (o / 8) { s with obuf := m, obits := o } = .ok (bs', d) ∧
      o % 8 = s.obits % 8 ∧ (o < 8 ∨ out.length = room) := by
  obtain ⟨out, m, e, hlen, hi, -⟩ := cDrainWhile_ok h ho room
  have hsplit : s.obits / 8 = min (s.obits / 8) room + (s.obits - 8 * out.length) / 8 := by omega
  rw [hsplit] at hd
  obtain ⟨bs', e', hbs⟩ := cDrains_rest e hd
  exact ⟨out, bs', m, _, e, hbs, hi, e', by omega, by omega⟩

/-! ## The stream -/

/-- The stream still to come from a session with less than a byte staged, given the input still to be taken: the whole
bytes each C_BYTE leaves staged (R184, R186), and those of FINISH (R198). -/
def streamFrom : List Byte → State → Res (List Byte)
  | [], d => do
    let f ← cFinal d
    let (z, _) ← cDrains (f.obits / 8) f
    .ok z
  | c :: rest, d => do
    let t ← cByte c d
    let (bs, d1) ← cDrains (t.obits / 8) t
    let z ← streamFrom rest d1
    .ok (bs ++ z)

theorem LiveComp.drained {s : State} (h : LiveComp s) :
    ∃ bs d, cDrains (s.obits / 8) s = .ok (bs, d) ∧ bs.length = s.obits / 8 ∧ LiveComp d ∧ d.obits < 8 := by
  have ho := h.inv.obits_le h.phase
  obtain ⟨bs, m, e, hlen, hi, -⟩ := cDrainWhile_ok h.inv (by omega) (s.obits / 8)
  rw [Machine.cDrainWhile, Nat.min_self] at e
  rw [Nat.min_self] at hlen
  exact ⟨bs, _, e, hlen, ⟨h.err, h.mode, h.phase, hi⟩, by show s.obits - 8 * bs.length < 8; omega⟩

/-- A byte makes at most 20 bytes whole, and FINISH at most 22 (R139, R39). -/
theorem LiveComp.streamFrom {d : State} (h : LiveComp d) (ho : d.obits < 8) (inp : List Byte) :
    ∃ z, streamFrom inp d = .ok z ∧ z.length ≤ 20 * inp.length + 22 := by
  induction inp generalizing d with
  | nil =>
    obtain ⟨f, e, hf, hobits⟩ := h.inv.cFinal h.phase
    obtain ⟨z, m, e', hlen, -⟩ := cDrains_ok (f.obits / 8) (s := f) (by omega) (by omega) hf.outWritten hf.tail
    exact ⟨z, Res.bind_eq_ok.2 ⟨f, e, Res.bind_eq_ok.2 ⟨_, e', rfl⟩⟩, by simp only [List.length_nil]; omega⟩
  | cons c rest ih =>
    obtain ⟨t, e, ht⟩ := h.cByte c ho
    obtain ⟨bs, d1, e', hlen, hd1, ho1⟩ := ht.drained
    obtain ⟨z, e2, hz⟩ := ih hd1 ho1
    have hroom := ht.inv.room ht.phase
    have h9 := ht.inv.ranges.bitsLo
    exact ⟨bs ++ z, Res.bind_eq_ok.2 ⟨t, e, Res.bind_eq_ok.2 ⟨_, e', Res.bind_eq_ok.2 ⟨z, e2, rfl⟩⟩⟩,
      by simp only [List.length_append, List.length_cons]; omega⟩

/-! ## ADVANCE_C -/

/-- A session that can take input, with `inp` still to be taken and `z` still to be delivered: the whole bytes staged,
and then the stream from where draining them leads. -/
structure Owes (inp z : List Byte) (s : State) : Prop where
  live : LiveComp s
  stream : ∃ bs d z', cDrains (s.obits / 8) s = .ok (bs, d.within s) ∧ Machine.streamFrom inp d = .ok z' ∧ z = bs ++ z'

section
variable {inp z : List Byte} {s : State}

theorem Owes.deliver (h : Owes inp z s) (room : Nat) :
    ∃ out z' s1, cDrainWhile room s = .ok (out, s1) ∧ z = out ++ z' ∧ Owes inp z' s1 ∧
      (s1.obits < 8 ∨ out.length = room) := by
  obtain ⟨bs, d, z1, hd, hz, rfl⟩ := h.stream
  have ho := h.live.inv.obits_le h.live.phase
  obtain ⟨out, bs', m, o, e, rfl, hi, hd', -, hend⟩ := h.live.inv.deliver (by omega) hd room
  exact ⟨out, bs' ++ z1, _, e, List.append_assoc .., ⟨⟨h.live.err, h.live.mode, h.live.phase, hi⟩, bs', d, z1, hd', hz,
    rfl⟩, hend⟩

/-- With less than a byte staged, all that is still to be delivered is the stream from here. -/
theorem Owes.settled (h : Owes inp z s) (ho : s.obits < 8) :
    ∃ d, d.within s = s ∧ Machine.streamFrom inp d = .ok z := by
  obtain ⟨bs, d, z', hd, hz, rfl⟩ := h.stream
  rw [show s.obits / 8 = 0 by omega, cDrains, Except.ok.injEq, Prod.mk.injEq] at hd
  obtain ⟨rfl, hs⟩ := hd
  exact ⟨d, hs.symm, hz⟩

theorem Owes.byte {c : Byte} (h : Owes (c :: inp) z s) (ho : s.obits < 8) :
    ∃ t, cByte c s = .ok t ∧ Owes inp z t := by
  obtain ⟨d, hds, hz⟩ := h.settled ho
  obtain ⟨t, e, hz⟩ := Res.bind_eq_ok.1 hz
  obtain ⟨⟨bs, d1⟩, e1, hz⟩ := Res.bind_eq_ok.1 hz
  obtain ⟨z', e2, hz⟩ := Res.bind_eq_ok.1 hz
  cases hz
  have et := cByte_within s e
  rw [hds] at et
  obtain ⟨t', et', hlive⟩ := h.live.cByte c ho
  cases et.symm.trans et'
  exact ⟨_, et, hlive, bs, d1, z', cDrains_within s e1, e2, rfl⟩

/-- C_LOOP takes the next `k` bytes and delivers the next bytes of the stream, until there is no more input, with less
than a byte staged, or no more room (R184). -/
theorem Owes.cLoopFrom (h : Owes inp z s) (cap : Nat) (l : LoopOut) :
    ∃ k l' s' z', cLoopFrom cap inp l s = .ok (l', s') ∧ l'.consumed = l.consumed + k ∧ l.out ++ z = l'.out ++ z' ∧
      Owes (inp.drop k) z' s' ∧
      (l'.status = .needMoreInput ∧ k = inp.length ∧ s'.obits < 8 ∨ l'.status = .outputFull ∧ cap ≤ l'.out.length) := by
  induction inp generalizing s l z with
  | nil =>
    obtain ⟨out, z', s1, e, rfl, h1, hend⟩ := h.deliver (cap - l.out.length)
    unfold Machine.cLoopFrom
    rw [e, Res.ok_bind]
    dsimp only
    split
    · exact ⟨0, _, s1, z', rfl, rfl, (List.append_assoc ..).symm, h1, .inr ⟨rfl, by rw [List.length_append]; omega⟩⟩
    · exact ⟨0, _, s1, z', rfl, rfl, (List.append_assoc ..).symm, h1, .inl ⟨rfl, rfl, by omega⟩⟩
  | cons c rest ih =>
    obtain ⟨out, z', s1, e, rfl, h1, hend⟩ := h.deliver (cap - l.out.length)
    unfold Machine.cLoopFrom
    rw [e, Res.ok_bind]
    dsimp only
    split
    · exact ⟨0, _, s1, z', rfl, rfl, (List.append_assoc ..).symm, h1, .inr ⟨rfl, by rw [List.length_append]; omega⟩⟩
    · obtain ⟨s2, e2, h2⟩ := h1.byte (Nat.lt_of_not_le ‹_›)
      rw [e2, Res.ok_bind]
      obtain ⟨k, l', s', z2, e3, hk, hout, h3, hend'⟩ := ih h2
        { l with out := l.out ++ out, steps := l.steps + out.length + 1, consumed := l.consumed + 1 }
      refine ⟨k + 1, l', s', z2, e3, hk.trans (Nat.add_right_comm ..), (List.append_assoc ..).symm.trans hout, h3, ?_⟩
      rcases hend' with ⟨hst, rfl, ho⟩ | hend'
      · exact .inl ⟨hst, rfl, ho⟩
      · exact .inr hend'

theorem LiveComp.advanceC_eq (h : LiveComp s) (inp : List Byte) (cap : Nat) :
    Machine.advanceC inp cap s = (do
      let (l, s1) ← Machine.cLoop inp cap s
      .ok (advanceEnd cap l s1)) := by
  unfold Machine.advanceC
  rcases h.phase with hph | hph <;> simp [h.err, h.mode, hph]

/-- With some room the no-progress test does not apply (R194). -/
theorem advanceEnd_of_room {cap : Nat} (hcap : 1 ≤ cap) {l : LoopOut} (hl : ∀ k, l.status ≠ .error k) (s : State) :
    advanceEnd cap l s = (⟨l.consumed, l.out, l.status⟩, s) := by
  have hnp : noProgress l.steps cap = false := by
    simp only [noProgress, Bool.and_eq_false_iff, decide_eq_false_iff_not]
    omega
  unfold advanceEnd
  split
  · exact absurd ‹_› (hl _)
  · rw [hnp]
    rfl

/-- ADVANCE_C with some room (R194). -/
theorem Owes.advanceC (h : Owes inp z s) {cap : Nat} (hcap : 1 ≤ cap) :
    ∃ r s' z', advanceC inp cap s = .ok (r, s') ∧ z = r.out ++ z' ∧ Owes (inp.drop r.consumed) z' s' ∧
      (r.status = .needMoreInput ∧ r.consumed = inp.length ∧ s'.obits < 8 ∨
        r.status = .outputFull ∧ 0 < r.out.length) := by
  obtain ⟨k, l, s', z', e, hk, hout, h', hend⟩ := h.cLoopFrom cap loopStart
  have hk' : l.consumed = k := hk.trans (Nat.zero_add k)
  subst hk'
  refine ⟨⟨l.consumed, l.out, l.status⟩, s', z', ?_, hout, h', ?_⟩
  · rw [h.live.advanceC_eq, cLoop, e, Res.ok_bind]
    refine congrArg Except.ok (advanceEnd_of_room hcap (fun kind => ?_) s')
    rcases hend with ⟨hst, -⟩ | ⟨hst, -⟩ <;> simp [hst]
  · rcases hend with hend | ⟨hst, hout⟩
    · exact .inl hend
    · exact .inr ⟨hst, hcap.trans hout⟩

/-- The ADVANCE commands take all the input within any bound above the bytes to be delivered, since each but the last
delivers one (R118). -/
theorem Owes.advanceAll (h : Owes inp z s) {cap : Nat} (hcap : 1 ≤ cap) {n : Nat} (hn : z.length < n) (z0 : List Byte) :
    ∃ out z' s', advanceAll (fun i => Machine.advanceC i cap) n inp z0 s = .ok (z0 ++ out, none, s') ∧ z = out ++ z' ∧
      Owes [] z' s' ∧ s'.obits < 8 := by
  induction n generalizing inp z s z0 with
  | zero => omega
  | succ n ih =>
    obtain ⟨⟨k, out, st⟩, s1, z1, e, rfl, h1, hend⟩ := h.advanceC hcap
    dsimp only at h1 hend hn
    unfold Machine.advanceAll
    rw [e, Res.ok_bind]
    dsimp only
    rcases hend with ⟨rfl, rfl, ho⟩ | ⟨rfl, hout⟩
    · rw [List.drop_length] at h1
      exact ⟨out, z1, s1, if_pos ⟨rfl, rfl⟩, rfl, h1, ho⟩
    · rw [List.length_append] at hn
      obtain ⟨out', z', s', e', rfl, hfin⟩ := ih h1 (by omega) (z0 ++ out)
      refine ⟨out ++ out', z', s', (if_neg (by simp)).trans ?_, (List.append_assoc ..).symm, hfin⟩
      rw [e', List.append_assoc]

end

/-! ## FINISH -/

/-- A session after its FINISH has begun, with `z` still to be delivered (R198). -/
structure Flushing (z : List Byte) (s : State) : Prop where
  err : s.err = none
  mode : s.mode = .comp
  phase : s.cphase = .finishing
  inv : CompInv s
  stream : ∃ e, cDrains (s.obits / 8) s = .ok (z, e)

section
variable {z : List Byte} {s : State} {cap : Nat}

/-- FINISH's delivery ends the stream, or fills its room (R198). -/
theorem Flushing.cDeliver (h : Flushing z s) (hcap : 1 ≤ cap) (steps : Nat) :
    (∃ t, cDeliver cap steps s = .ok (⟨0, z, .streamEnd⟩, t)) ∨
    ∃ out z' t, cDeliver cap steps s = .ok (⟨0, out, .outputFull⟩, t) ∧ z = out ++ z' ∧ 0 < out.length ∧
      Flushing z' t := by
  obtain ⟨d, hd⟩ := h.stream
  obtain ⟨ho, hbyte⟩ := h.inv.padded h.phase
  obtain ⟨out, z', m, o, e, rfl, hi, hd', ho', hend⟩ := h.inv.deliver (by omega) hd cap
  have hnp (k : Nat) : noProgress k cap = false := by
    simp only [noProgress, Bool.and_eq_false_iff, decide_eq_false_iff_not]
    omega
  unfold Machine.cDeliver
  rw [e, Res.ok_bind]
  dsimp only
  rw [hnp, if_neg Bool.false_ne_true]
  split
  · rename_i ho0
    subst ho0
    cases hd'
    exact .inl ⟨_, by rw [List.append_nil]⟩
  · exact .inr ⟨out, z', _, rfl, rfl, by omega, h.err, h.mode, h.phase, hi, d, hd'⟩

theorem finishCmd_comp (he : s.err = none) (hm : s.mode = .comp) : finishCmd cap s = finishC cap s := by
  simp only [finishCmd, he, hm]

theorem Flushing.finishCmd (h : Flushing z s) : finishCmd cap s = Machine.cDeliver cap 0 s := by
  rw [finishCmd_comp h.err h.mode, finishC, h.phase]

/-- The FINISH commands deliver all that is left within any bound above its bytes, since each but the last delivers one
(R118). `s` is the session before the first of them, and `f` is what it has to deliver from. -/
theorem Flushing.finishAll {n steps : Nat} {f : State} (h : Flushing z f)
    (hf : Machine.finishCmd cap s = Machine.cDeliver cap steps f) (hcap : 1 ≤ cap) (hn : z.length < n)
    (z0 : List Byte) :
    ∃ t, finishAll cap n z0 s = .ok ((z0 ++ z, .streamEnd), t) := by
  induction n generalizing s f z z0 steps with
  | zero => omega
  | succ n ih =>
    unfold Machine.finishAll
    rw [hf]
    rcases h.cDeliver hcap steps with ⟨t, e⟩ | ⟨out, z', t, e, rfl, hout, ht⟩
    · exact ⟨t, by rw [e, Res.ok_bind]⟩
    · rw [List.length_append] at hn
      obtain ⟨u, e'⟩ := ih ht ht.finishCmd (by omega) (z0 ++ out)
      exact ⟨u, by rw [e, Res.ok_bind, ← List.append_assoc]; exact e'⟩

/-- FINISH_C's first step stays in the session (R198). -/
theorem cFinal_session {t : State} (h : cFinal s = .ok t) :
    t.mode = s.mode ∧ t.err = s.err ∧ t.cphase = .finishing := by
  unfold cFinal at h
  split at h
  · obtain ⟨s1, e, h⟩ := Res.bind_eq_ok.1 h
    obtain ⟨m, -, e⟩ := Res.bind_eq_ok.1 e
    cases e
    cases h
    exact ⟨rfl, rfl, rfl⟩
  · cases h
    exact ⟨rfl, rfl, rfl⟩

/-- The first FINISH, with less than a byte staged: the final code and the padding come in front of its delivery. -/
theorem Owes.finish (h : Owes [] z s) (ho : s.obits < 8) :
    ∃ f, Flushing z f ∧ ∀ cap, Machine.finishCmd cap s = Machine.cDeliver cap 1 f := by
  obtain ⟨d, hds, hz⟩ := h.settled ho
  obtain ⟨f, e, hz⟩ := Res.bind_eq_ok.1 hz
  obtain ⟨⟨z', u⟩, e1, hz⟩ := Res.bind_eq_ok.1 hz
  cases hz
  have ef := cFinal_within s e
  rw [hds] at ef
  obtain ⟨t, et, hinv, -⟩ := h.live.inv.cFinal h.live.phase
  cases ef.symm.trans et
  obtain ⟨hmode, herr, hphase⟩ := cFinal_session ef
  refine ⟨f.within s, ⟨herr.trans h.live.err, hmode.trans h.live.mode, hphase, hinv, _, cDrains_within s e1⟩,
    fun cap => ?_⟩
  have hstart : finishC cap s = Machine.cFinal s >>= Machine.cDeliver cap 1 := by
    unfold finishC
    rcases h.live.phase with hph | hph <;> rw [hph]
  rw [finishCmd_comp h.live.err h.live.mode, hstart, ef, Res.ok_bind]

end

/-! ## COMPRESS_ALL -/

theorem cfgLegal_of_cfgOk {cfg : Byte} (h : cfgOk cfg = true) : cfgLegal cfg = true := by
  simp only [cfgOk, widthOk, Bool.and_eq_true, decide_eq_true_eq] at h
  obtain ⟨hres, hlo, hhi⟩ := h
  simp only [cfgLegal, Bool.and_eq_true, beq_iff_eq, decide_eq_true_eq]
  exact ⟨⟨hres, hlo⟩, hhi⟩

/-- The header is what a new session delivers first (R180, R182). -/
theorem cDrains_openCompress (cfg : Byte) (s : State) :
    ∃ d, cDrains ((openCompress cfg s).obits / 8) (openCompress cfg s) = .ok ([0x1F#8, 0x9D#8, cfg], d) := by
  rw [show (openCompress cfg s).obits = 24 from rfl]
  exact ⟨_, rfl⟩

/-- Settles O59: the stream is the header and what `streamFrom` computes from a new session. -/
theorem compressAllIgnoresTheRoom : Obligations.CompressAllIgnoresTheRoom := by
  intro cfg inp hcfg
  have hcfg := cfgLegal_of_cfgOk hcfg
  have live (s : State) : LiveComp (openCompress cfg s) := ⟨rfl, rfl, .inl rfl, compInv_openCompress s hcfg⟩
  obtain ⟨bs, d, hd, -, hlive, ho⟩ := (live State.reset).drained
  obtain ⟨d', hd'⟩ := cDrains_openCompress cfg State.reset
  cases hd.symm.trans hd'
  obtain ⟨z, hz, hlen⟩ := hlive.streamFrom ho inp
  refine ⟨[0x1F#8, 0x9D#8, cfg] ++ z, List.prefix_append .., fun cap s hcap => ?_⟩
  have hall : Owes inp ([0x1F#8, 0x9D#8, cfg] ++ z) (openCompress cfg s) :=
    ⟨live s, _, d, z, cDrains_within s hd, hz, rfl⟩
  have hn : ([0x1F#8, 0x9D#8, cfg] ++ z).length < 20 * inp.length + 64 := by
    simp only [List.length_append, List.length_cons, List.length_nil]
    omega
  obtain ⟨out, z', s1, e1, hsplit, h1, ho1⟩ := hall.advanceAll hcap hn []
  obtain ⟨f, hf, efin⟩ := h1.finish ho1
  rw [hsplit, List.length_append] at hn
  obtain ⟨t, e2⟩ := hf.finishAll (efin cap) hcap (n := 20 * inp.length + 64) (by omega) out
  refine ⟨t, ?_⟩
  have e : compressAll cfg inp cap s = .ok ((out ++ z', .streamEnd), t) := by
    rw [compressAll, wholeStream, show (beginCompress cfg s).2 = openCompress cfg s by rw [beginCompress, if_pos hcfg],
      e1, Res.ok_bind]
    exact e2
  rw [hsplit]
  exact congrArg (doneVal fun r => .stream r.1 r.2) e

end Sys2Proof.Machine
end

