-- ==== Sys2Proof/Proofs/BitCursor.lean ====
section
/-! PROOFS. Proofs/BitCursor.lean: the micro-operations of BitCursor as instructions (R131 to R143): each is its
operation with the end `exec` puts behind it, so what Laws/BitCursor says of the operation says what the instruction
answers and leaves. -/

namespace Sys2Proof.Machine

/-! ## PUT_CODE and GET_CODE -/

section
variable {b : BufSel} {off w : Nat} {code : Code} {s : State}

theorem exec_putCode_of_ok {m : Mem Byte}
    (h : putCodeIn (bufName b) (bufSize b) (s.buffer b) off code = .ok m) :
    exec (.putCode b off code w) s = .next ((s.setBuffer b m).withResult (.position (off + w))) := by
  show execPutCode b off code w s = _
  rw [execPutCode, h]
  rfl

theorem exec_getCode_of_ok {c : Code} (h : getCodeIn (bufName b) (bufSize b) (s.buffer b) off w = .ok c) :
    exec (.getCode b off w) s = .next (s.withResult (.code c)) := by
  show execGetCode b off w s = _
  rw [execGetCode, h]
  rfl

/-- A code that fits its width has no bit at or above it. -/
theorem getLsbD_of_fits {j : Nat} (hc : code.toNat < 2 ^ w) (hj : w ≤ j) : code.getLsbD j = false :=
  Nat.testBit_lt_two_pow (hc.trans_le (Nat.pow_le_pow_right (by omega) hj))

/-- A code that fits, ORed onto zero bits, is the value of the stream bits in its place (R134). -/
theorem streamValue_of_put {m m' : Mem Byte} (hw : w ≤ 16) (hc : code.toNat < 2 ^ w)
    (hz : ∀ j, j < w → bufBit m (off + j) = false)
    (hbits : ∀ i, bufBit m' i = (bufBit m i || (decide (off ≤ i) && code.getLsbD (i - off)))) :
    streamValue m' off w = code.toNat := by
  refine (eq_bitsValue code _ w hw fun j _ => ?_).symm
  by_cases hj : j < w
  · simp [hbits, hz j hj, hj]
  · simp [getLsbD_of_fits hc (Nat.not_lt.1 hj), hj]

end

/-- Settles O20: the bytes of the shifted code are those of the product (R131). -/
theorem putCodeOrsIntoThreeBytes : Obligations.PutCodeOrsIntoThreeBytes := by
  intro b off code w b0 b1 b2 s hk h0 h1 h2
  obtain ⟨m, hput, hget⟩ := putCodeIn_spec (name := bufName b) code hk h0 h1 h2
  have hbyte := fun i => windowByte_shiftedCode code (off % 8) i (Nat.mod_lt _ (by omega))
  refine ⟨m, exec_putCode_of_ok hput, ?_, ?_, ?_, fun a n0 n1 n2 => ?_⟩
  · simp [hget, hbyte]
  · simp [hget, hbyte]
  · simp [hget, hbyte]
  · rw [hget, if_neg n0, if_neg n1, if_neg n2]

/-- Settles O21: ORing onto zero bits leaves the code's bits, and a code that fits has none outside its window. -/
theorem putCodeWritesStreamBits : Obligations.PutCodeWritesStreamBits := by
  intro b off code w s _ _ hc hk hw hz
  obtain ⟨m, hput, -, hbits, -⟩ := putCodeIn_written (name := bufName b) code hk hw
  refine ⟨m, exec_putCode_of_ok hput, fun j hj => ?_, fun i hi => ?_⟩
  · simp [hbits, hz j hj]
  · rw [hbits]
    rcases hi with hi | hi
    · simp [hi.not_ge]
    · simp [getLsbD_of_fits hc (show w ≤ i - off by omega)]

/-- Settles O22: PUT_CODE keeps the buffer written, so GET_CODE completes after it and reads the value of the bits. -/
theorem getCodeInvertsPutCode : Obligations.GetCodeInvertsPutCode := by
  intro b off w s _ hw16 hk hw
  obtain ⟨c, hgetc, hc⟩ := getCodeIn_written (name := bufName b) (off := off) hk hw hw16
  refine ⟨⟨c, exec_getCode_of_ok hgetc, hc⟩, fun code hfit hz => ?_⟩
  obtain ⟨m, hput, hwm, hbits, -⟩ := putCodeIn_written (name := bufName b) code hk hw
  obtain ⟨c', hget, hc'⟩ := getCodeIn_written (name := bufName b) (off := off) hk hwm hw16
  obtain rfl : c' = code := BitVec.eq_of_toNat_eq (hc'.trans (streamValue_of_put hw16 hfit hz hbits))
  refine ⟨_, exec_putCode_of_ok hput, exec_getCode_of_ok ?_⟩
  rw [State.withResult_buffer, State.setBuffer_buffer]
  exact hget

/-- Settles O26: C_PUT runs PUT_CODE at `obits`. -/
theorem cPutAppendsTheCode : Obligations.CPutAppendsTheCode := by
  intro code w s hk hw
  obtain ⟨m, hput, hcput, -, hbits⟩ := cPut_ok (code := code) (w := w) hk hw
  exact ⟨m, exec_putCode_of_ok (b := .obuf) hput, congrArg doneUnit hcput,
    fun ht _ _ hc => bits_after_put ht hc hbits⟩

/-! ## REALIGN -/

theorem exec_realign_of_eq {pos base w r : Nat} (s : State) (h : realign pos base w = r) :
    exec (.realign pos base w) s = .next (s.withResult (.position r)) := by
  subst h
  rfl

theorem exec_cRealign_of_eq {w : Nat} {s t : State} (h : cRealign w s = t) :
    exec (.cRealign w) s = .next (t.withResult .unit) := by
  subst h
  rfl

/-- D_REALIGN is D_SKIP with the distance REALIGN goes added to the cursor and to the pending padding (R137). -/
theorem exec_dRealign_of_eq {w d : Nat} {s : State} (h : realign s.bitPosition s.alignBase w = s.bitPosition + d) :
    exec (.dRealign w) s = exec .dSkip { s with bitPosition := s.bitPosition + d, iskip := s.iskip + d } :=
  congrArg doneUnit (dRealign_of_eq h)

/-- D_SKIP completes with what `dSkip_ok` says (R142). -/
theorem exec_dSkip {s : State} (hi : s.ipos ≤ s.ibits) :
    exec .dSkip s = .next ((({ s with iskip := s.iskip - min s.iskip s.avail } : State).advance
      (min s.iskip s.avail)).withResult .unit) :=
  congrArg doneUnit (dSkip_ok hi)

/-- Settles O23: within its domain REALIGN is the formula, and on every operand it goes some way on. -/
theorem realignMovesToTheGroupBoundary : Obligations.RealignMovesToTheGroupBoundary := by
  refine ⟨fun pos base w s h hw9 _ => ?_, fun pos base w s => ?_⟩
  · have hw : 0 < w := by omega
    obtain ⟨hle, hlt, hmod⟩ := realignTo_bounds h hw
    have hfix := (realign_eq (h.trans hle) hw).trans (realignTo_idem h hw)
    refine ⟨_, exec_realign_of_eq s (realign_eq h hw), ?_, hle, hlt, hmod, realignTo_of_aligned h hw,
      exec_realign_of_eq s hfix, realignTo_mod_eight h hw⟩
    rw [realignTo, Nat.add_sub_assoc (by omega)]
  · obtain ⟨d, hd⟩ := Nat.exists_eq_add_of_le (le_realign pos base w)
    refine ⟨d, exec_realign_of_eq s hd, ?_⟩
    rintro rfl rfl
    refine ⟨exec_cRealign_of_eq (cRealign_of_eq hd), exec_dRealign_of_eq hd, fun hi => ?_⟩
    exact ⟨_, (exec_dRealign_of_eq hd).trans (exec_dSkip hi), rfl⟩

/-- Settles O24: the way REALIGN goes is the padding. -/
theorem cRealignPadsTheOutput : Obligations.CRealignPadsTheOutput := by
  intro w s h hw9 _
  have hw : 0 < w := by omega
  exact ⟨padding s.bitPosition s.alignBase w, padding_lt h hw, add_padding h hw,
    exec_cRealign_of_eq (cRealign_eq h hw)⟩

/-- Settles O25: the cursor is at the boundary, and the input advanced by the buffered part of the padding. -/
theorem dRealignDiscardsThePadding : Obligations.DRealignDiscardsThePadding := by
  intro w s h hw9 _ hi
  exact ⟨_, congrArg doneUnit (dRealign_ok h (by omega) hi), rfl, rfl, rfl, advance_advanced _ _⟩

/-! ## The staged input -/

/-- Settles O27: the three bytes GET_CODE reads at `ipos` lie inside `ibuf`. -/
theorem dGetTakesTheNextCode : Obligations.DGetTakesTheNextCode := by
  intro s _ hw hp ha hm
  obtain ⟨c, hc, e⟩ := dGet_ok hp hw ha hm
  exact ⟨c, _, congrArg (doneVal .code) e, hc, rfl, advance_advanced _ _⟩

/-- Settles O28: IBUF_COMPACT advances the cursor by nothing. -/
theorem ibufCompactDropsConsumedBytes : Obligations.IbufCompactDropsConsumedBytes := by
  intro s hi
  have hmod : s.ipos % 8 < 8 := Nat.mod_lt _ (by omega)
  have havail : s.ibits - 8 * (s.ipos / 8) - s.ipos % 8 = s.ibits - s.ipos := by omega
  exact ⟨_, congrArg doneUnit (ibufCompact_ok hi), rfl, advance_advanced s 0, hmod, havail⟩

/-- Settles O29: padding is left only when all of the buffer was skipped, which is then a number of whole bytes. -/
theorem dSkipDiscardsBufferedPadding : Obligations.DSkipDiscardsBufferedPadding := by
  intro s hi
  refine ⟨_, exec_dSkip hi, rfl, advance_advanced _ _, fun h8 hpos => ?_⟩
  have hend : s.ipos + min s.iskip s.avail = s.ibits := by
    have hlt : 0 < s.iskip - min s.iskip s.avail := hpos
    unfold State.avail at hlt ⊢
    omega
  have hipos : (s.ipos + min s.iskip s.avail) % 8 = 0 := by rw [hend, h8]
  have hibits : s.ibits - 8 * ((s.ipos + min s.iskip s.avail) / 8) = 0 := by
    rw [hend]
    omega
  exact ⟨hipos, hibits⟩

/-- Settles O30: the byte is written above the buffered bits, and D_SKIP leaves the position. -/
theorem dTakeAppendsTheByte : Obligations.DTakeAppendsTheByte := by
  intro b s hib hi
  have htake := congrArg doneUnit (dTake_ok (b := b) (show s.ibits / 8 < 4 by omega))
  have hskip := exec_dSkip (s := { s with ibuf := Mem.put s.ibuf (s.ibits / 8) b, ibits := s.ibits + 8 })
    (hi.trans (Nat.le_add_right _ _))
  exact ⟨_, Mem.get_put s.ibuf (s.ibits / 8) b, rfl, htake, _, htake.trans hskip, rfl⟩

end Sys2Proof.Machine
end

