-- ==== Sys2Proof/Proofs/Dictionary.lean ====
section
/-! PROOFS. Proofs/Dictionary.lean: the micro-operations of Dictionary as instructions (R151 to R170): what
Laws/Dictionary says of a lookup, an insertion, the tables and the stack is what the instruction answers and leaves.
New here are the three fields of a hash index (R151), which say what pairs collide. -/

namespace Sys2Proof.Machine

/-- What is below `2^m` for an `m` of at most 16 is the number of a code (R26, R42). -/
theorem lt_65536_of_lt_two_pow {n m : Nat} (h : n < 2 ^ m) (hm : m ≤ 16) : n < 65536 :=
  h.trans_le (Nat.pow_le_pow_right (by omega) hm)

/-! ## LOOKUP_OR_INSERT and INSERT -/

section
variable {p : Code} {b : Byte} {s : State}

theorem exec_lookupOrInsert_of_ok {l : Lookup} {t : State} (h : lookupOrInsert p b s = .ok (l, t)) :
    exec (.lookupOrInsert p b) s = .next (t.withResult (.lookup l)) := congrArg (doneVal .lookup) h

/-- `full` after an insertion into a table that is not full says that the new code was the last one (R155). -/
theorem insertAt_full_of_not_full {a : HIdx} (h : s.full = false) :
    (insertAt a p b s).full = exhausted s.maxbits (s.freeEnt + 1) := by
  simp [insertAt, h]

/-- INSERT into a table that is not full, field by field (R155). -/
theorem insertAt_of_not_full {a : HIdx} (h : s.full = false) :
    insertAt a p b s = { s with
      hslot := (insertAt a p b s).hslot, freeEnt := s.freeEnt + 1, full := decide (s.freeEnt + 1 = 2 ^ s.maxbits) } := by
  rw [← exhausted, ← insertAt_full_of_not_full (a := a) (p := p) (b := b) h]
  rfl

theorem read_insertAt (a a' : HIdx) : (insertAt a p b s).hslot.read a' =
    if a' = a then .entry { kprefix := p, kbyte := b, code := codeOf s.freeEnt } else s.hslot.read a' :=
  HashMem.read_fill _ _ _ _

/-- A lookup keeps the invariants of the table: it changes nothing, or it inserts at the first empty slot of the pair's
probe sequence, and only while there is a code left (R154, R158). -/
theorem lookupOrInsert_keeps_hashInv (hi : HashInv s) (hlo : firstFree s.blockMode ≤ s.freeEnt)
    (hhi : s.freeEnt ≤ 2 ^ s.maxbits) (hm : s.maxbits ≤ 16) (hfull : s.full = exhausted s.maxbits s.freeEnt)
    (hp : p.toNat < s.freeEnt) :
    ∃ l t, lookupOrInsert p b s = .ok (l, t) ∧ HashInv t ∧ t.full = exhausted t.maxbits t.freeEnt ∧
      t.freeEnt ≤ 2 ^ t.maxbits := by
  by_cases hst : ∃ c, Stored s.hslot p b c
  · obtain ⟨c, hc⟩ := hst
    exact ⟨_, _, lookup_of_stored hi hc, hi, hfull, hhi⟩
  · rw [not_exists] at hst
    have hmax : 2 ^ s.maxbits ≤ 2 ^ 16 := Nat.pow_le_pow_right (by omega) hm
    obtain ⟨n, hn, hnone, hbefore, hlookup⟩ := lookup_of_not_stored hi (hhi.trans hmax) hst
    refine ⟨_, _, hlookup, ?_⟩
    cases hf : s.full with
    | true => exact ⟨hi, hfull, hhi⟩
    | false =>
      have hlt : s.freeEnt < 2 ^ s.maxbits := by
        rw [hf, eq_comm, exhausted, decide_eq_false_iff_not] at hfull
        omega
      exact ⟨hashInv_insertAt hi hlo (lt_65536_of_lt_two_pow hlt hm) hp hst hn hnone hbefore,
        insertAt_full_of_not_full hf, hlt⟩

end

/-- Settles O34: the invariants of the table do not look at the result. -/
theorem lookupKeepsTheHashInvariant : Obligations.LookupKeepsTheHashInvariant := by
  intro p b s hi hlo hhi hm hfull hp
  obtain ⟨l, t, hlookup, hinv, hrest⟩ := lookupOrInsert_keeps_hashInv (b := b) hi hlo hhi hm hfull hp
  exact ⟨_, exec_lookupOrInsert_of_ok hlookup, hinv.congr rfl rfl rfl, hrest⟩

/-- Settles O33: a stored pair is found, and the probe loop for any other ends at an empty slot. -/
theorem lookupFindsExactlyTheStoredPairs : Obligations.LookupFindsExactlyTheStoredPairs := by
  intro p b s hi hhi
  refine ⟨fun c hc => exec_lookupOrInsert_of_ok (lookup_of_stored hi hc), fun hst hf => ?_, fun hst hf => ?_⟩
  · obtain ⟨n, -, -, -, hlookup⟩ := lookup_of_not_stored hi hhi hst
    rw [if_pos hf] at hlookup
    exact exec_lookupOrInsert_of_ok hlookup
  · obtain ⟨n, -, hnone, -, hlookup⟩ := lookup_of_not_stored hi hhi hst
    rw [hf] at hlookup
    exact ⟨_, exec_lookupOrInsert_of_ok hlookup, congrArg (State.withResult · _) (insertAt_of_not_full hf),
      codeOf s.freeEnt, codeOf_toNat, stored_insertAt hnone⟩

/-- Settles O35: the code stored is `free_ent`, which is below 65536. -/
theorem insertAssignsTheNextCode : Obligations.InsertAssignsTheNextCode := by
  intro a p b s hf hm hlt
  exact ⟨_, _, rfl, congrArg (State.withResult · _) (insertAt_of_not_full hf), (read_insertAt a a).trans (if_pos rfl),
    rfl, rfl, codeOf_toNat (lt_65536_of_lt_two_pow hlt hm), fun a' ha => (read_insertAt a a').trans (if_neg ha)⟩

/-- Settles O36: a slot the emptied table does not list reads EMPTY. -/
theorem dictClearEmptiesTheTable : Obligations.DictClearEmptiesTheTable :=
  fun s => ⟨(dictClear s).withResult .unit, rfl, rfl, HashMem.read_allEmpty⟩

/-! ## HASH and PROBE_NEXT -/

section
variable (p : Code) (b : Byte)

/-- R151, bit by bit: the prefix, and the byte nine places up. -/
theorem getLsbD_hashIndex {i : Nat} (hi : i < 17) :
    (hashIndex p b).getLsbD i = ((decide (9 ≤ i) && b.getLsbD (i - 9)) ^^ p.getLsbD i) := by
  have hmask : (0x1FFFF#17 : HIdx) = BitVec.allOnes 17 := by decide
  rw [hashIndex, hmask, BitVec.and_allOnes]
  by_cases h9 : i < 9
  · simp [hi, h9, Nat.not_le.2 h9]
  · simp [hi, h9, Nat.not_lt.1 h9]

/-- Bits 8:0 of a hash index are those of the prefix (R151). -/
theorem hashIndex_low : (hashIndex p b).extractLsb' 0 9 = p.extractLsb' 0 9 := by
  ext i hi
  rw [BitVec.getElem_extractLsb', BitVec.getElem_extractLsb', getLsbD_hashIndex p b (by omega)]
  simp [Nat.not_le.2 hi]

/-- Bits 15:9 of a hash index mix the rest of the prefix with bits 6:0 of the byte (R151). -/
theorem hashIndex_mid : (hashIndex p b).extractLsb' 9 7 = b.extractLsb' 0 7 ^^^ p.extractLsb' 9 7 := by
  ext i hi
  rw [BitVec.getElem_extractLsb', getLsbD_hashIndex p b (by omega)]
  simp

/-- Bit 16 of a hash index is bit 7 of the byte (R151). -/
theorem hashIndex_high : (hashIndex p b).extractLsb' 16 1 = b.extractLsb' 7 1 := by
  ext i hi
  obtain rfl : i = 0 := by omega
  rw [BitVec.getElem_extractLsb', getLsbD_hashIndex p b (by omega)]
  simp

end

/-- An index is its three fields. -/
theorem hIdx_eq_iff_fields (h h' : HIdx) : h = h' ↔
    h.extractLsb' 16 1 = h'.extractLsb' 16 1 ∧ h.extractLsb' 0 9 = h'.extractLsb' 0 9 ∧
    h.extractLsb' 9 7 = h'.extractLsb' 9 7 := by
  refine ⟨fun e => e ▸ ⟨rfl, rfl, rfl⟩, fun ⟨hhigh, hlow, hmid⟩ => BitVec.eq_of_getLsbD_eq fun i hi => ?_⟩
  by_cases h9 : i < 9
  · simpa [h9] using congrArg (·.getLsbD i) hlow
  · by_cases h16 : i < 16
    · simpa [show i - 9 < 7 by omega, show 9 + (i - 9) = i by omega] using congrArg (·.getLsbD (i - 9)) hmid
    · obtain rfl : i = 16 := by omega
      simpa using congrArg (·.getLsbD 0) hhigh

theorem xor_eq_xor_iff {w : Nat} (x x' y y' : BitVec w) : x ^^^ y = x' ^^^ y' ↔ y ^^^ y' = x ^^^ x' := by
  rw [← BitVec.xor_eq_zero_iff, ← BitVec.xor_eq_zero_iff (x := y ^^^ y')]
  rw [show x ^^^ y ^^^ (x' ^^^ y') = y ^^^ y' ^^^ (x ^^^ x') by ac_rfl]

/-- Settles O31: two indices are equal exactly when their three fields are. -/
theorem hashMixesPrefixAndByte : Obligations.HashMixesPrefixAndByte := by
  refine ⟨fun p b s => ⟨_, rfl, hashIndex_toNat p b⟩, by decide, by decide, by decide, by decide, fun p p' b b' => ?_⟩
  rw [hIdx_eq_iff_fields, hashIndex_high, hashIndex_high, hashIndex_low, hashIndex_low, hashIndex_mid, hashIndex_mid,
    xor_eq_xor_iff]

/-- Settles O32: the stride is odd, so its multiples run through all remainders modulo 2^17. -/
theorem probeSequenceVisitsEverySlot : Obligations.ProbeSequenceVisitsEverySlot :=
  ⟨fun h b _ => ⟨_, rfl, probeNext_toNat h b⟩, stride_odd, fun _ _ _ _ => probeAt_injective, probeAt_surjective⟩

/-! ## The tables and the stack -/

/-- TAB_DEFINE while the code space lasts (R168). -/
theorem tabDefine_of_room {p : Code} {b : Byte} {s : State} (hm : s.maxbits ≤ 16) (h : s.freeEnt < 2 ^ s.maxbits) :
    tabDefine p b s = .ok { s with
      tabPrefix := Mem.put s.tabPrefix s.freeEnt p, tabSuffix := Mem.put s.tabSuffix s.freeEnt b
      freeEnt := s.freeEnt + 1 } := by
  have hdepth := lt_65536_of_lt_two_pow h hm
  rw [tabDefine, if_pos h, writeMem_ok hdepth, Res.ok_bind, writeMem_ok hdepth, Res.ok_bind]

/-- TAB_DEFINE with the code space exhausted (R168). -/
theorem tabDefine_of_exhausted {p : Code} {b : Byte} {s : State} (h : 2 ^ s.maxbits ≤ s.freeEnt) :
    tabDefine p b s = .ok s := if_neg (Nat.not_lt.2 h)

/-- Settles O37: TAB_SEED is two block writes, TAB_DEFINE two writes at `free_ent` or nothing. -/
theorem tablesAreSeededAndExtended : Obligations.TablesAreSeededAndExtended := by
  intro p b s
  refine ⟨⟨(tabSeed s).withResult .unit, rfl, rfl, fun i hi => ?_, fun i hi => ?_⟩, fun hm hlt => ?_, fun hge => ?_⟩
  · simp [get_tabSeed_tabSuffix, get_tabSeed_tabPrefix, hi]
  · simp [get_tabSeed_tabSuffix, get_tabSeed_tabPrefix, Nat.not_lt.2 hi]
  · exact ⟨_, congrArg doneUnit (tabDefine_of_room hm hlt), rfl, Mem.get_put_same _ _ _, Mem.get_put_same _ _ _,
      fun e he => ⟨Mem.get_put_ne _ _ _ he, Mem.get_put_ne _ _ _ he⟩⟩
  · exact congrArg doneUnit (tabDefine_of_exhausted hge)

/-- Settles O38: PUSH stacks one byte, and UNROLL the string from its end. -/
theorem unrollStacksTheStringReversed : Obligations.UnrollStacksTheStringReversed := by
  refine ⟨fun b s hsp => ?_, fun code str s hs hroom => ?_⟩
  · exact ⟨_, congrArg doneUnit (push_ok hsp), rfl, pushAll_pushed [b] s⟩
  · obtain ⟨first, hfirst, hunroll⟩ := unroll_ok hs hroom
    have hpushed := pushAll_pushed str.reverse s
    have hframe := pushAll_eq str.reverse s
    rw [← hpushed.1] at hframe
    exact ⟨_, first, congrArg (doneVal .byte) hunroll, hfirst, congrArg (State.withResult · _) hframe, hpushed⟩

/-- Settles O39: a code is below 65536, so its own bound is at most 65535 - 254. -/
theorem stringLengthIsBounded : Obligations.StringLengthIsBounded := by
  intro s e hi hd
  obtain ⟨str, hs, hlit, hent⟩ := hi.spells e.toNat e rfl hd
  refine ⟨str, hs, fun str' hs' => hs'.unique hs, hs.ne_nil, hlit, hent, ?_⟩
  obtain ⟨str', hs', hlen⟩ := hi.spells_of_defined hd
  have he := e.isLt
  rw [hs.unique hs']
  omega

end Sys2Proof.Machine
end

