-- ==== Sys2Proof/Proofs/CompressByteExact.lean ====
section
/-! PROOFS. Proofs/CompressByteExact.lean: what C_BYTE, C_GROW, D_GROW and C_RATIO leave, field by field (R186, R188,
R190, R240). -/

namespace Sys2Proof.Machine

/-! ## The growth steps -/

/-- C_GROW under its test, which is the one of `cWidens` (R188). -/
theorem cGrow_eq {s : State} (h : s.alignBase ≤ s.bitPosition) (hw : 0 < s.nBits) {grows : Bool} {pad : Nat}
    (hg : grows = decide (s.nBits < s.maxbits ∧ 2 ^ s.nBits < s.freeEnt))
    (hp : pad = if grows then padding s.bitPosition s.alignBase s.nBits else 0) :
    cGrow s = .ok { s with
      obits := s.obits + pad, bitPosition := s.bitPosition + pad
      nBits := if grows then s.nBits + 1 else s.nBits
      alignBase := if grows then originAfterGrowth (s.bitPosition + pad) s.alignBase else s.alignBase } := by
  subst hp hg
  by_cases hg : s.nBits < s.maxbits ∧ 2 ^ s.nBits < s.freeEnt
  · rw [cGrow_of_widens hg h hw, decide_eq_true hg]
    rfl
  · rw [cGrow_of_not_widens hg, decide_eq_false hg]
    rfl

/-- Settles O44: `cGrow_of_widens` and `dGrow_spec` say what each step leaves. -/
theorem growthStepsWidenByOne : Obligations.GrowthStepsWidenByOne := by
  intro s h h9 _
  have hw : 0 < s.nBits := by omega
  refine ⟨fun hg => ⟨_, rfl, congrArg doneUnit (cGrow_of_widens hg h hw)⟩,
    fun hg => congrArg doneUnit (cGrow_of_not_widens hg), fun hi => ?_⟩
  obtain ⟨t, e, hwidth, ht⟩ := dGrow_spec h hw hi
  exact ⟨t.withResult .unit, congrArg doneUnit e, congrArg (State.withResult · .unit) ht, hwidth⟩

/-! ## C_RATIO -/

theorem ratioDue_iff {s : State} :
    ratioDue s = true ↔ s.full = true ∧ s.blockMode = true ∧ s.checkpoint ≤ s.bytesIn := by
  simp [ratioDue, and_assoc]

theorem cRatio_of_not_due {s : State} (h : ratioDue s = false) : cRatio s = .ok s := by
  rw [cRatio, h]
  rfl

section
variable {s : State} (hdue : ratioDue s = true)
include hdue

/-- A ratio that has improved is recorded (R190). -/
theorem cRatio_of_improved (h : Config.RatioT.le (Config.ratio s.bytesIn (s.bitPosition / 8)) s.ratioPrev = false) :
    cRatio s = .ok { s with
      checkpoint := s.bytesIn + 10000, ratioPrev := Config.ratio s.bytesIn (s.bitPosition / 8) } := by
  rw [cRatio, if_pos hdue]
  exact if_neg (by rw [notImproved, bytesOut, h]; exact Bool.false_ne_true)

/-- A ratio that has not improved ends the epoch (R190). -/
theorem cRatio_of_not_improved
    (h : Config.RatioT.le (Config.ratio s.bytesIn (s.bitPosition / 8)) s.ratioPrev = true) :
    cRatio s = emitClear { s with checkpoint := s.bytesIn + 10000 } := by
  rw [cRatio, if_pos hdue]
  exact if_pos h

end

/-- Settles O45: the CLEAR branch is `emitClear_ok`. -/
theorem cRatioClearsWhenNotImproved : Obligations.CRatioClearsWhenNotImproved := by
  intro s h h9 _ hk hw ht
  dsimp only
  rw [← ratioDue_iff]
  refine ⟨fun hdue => ?_, fun hdue hle => ?_, fun hdue hle => ?_⟩
  · exact congrArg doneUnit (cRatio_of_not_due (Bool.eq_false_iff.2 hdue))
  · exact congrArg doneUnit (cRatio_of_improved hdue hle)
  · obtain ⟨t, e, heq, -, happ⟩ := emitClear_ok (s := { s with checkpoint := s.bytesIn + 10000 }) h h9 hk hw ht
    have hempty : t.hslot = HashMem.allEmpty := by rw [heq]
    refine ⟨t.withResult .unit, congrArg doneUnit ((cRatio_of_not_improved hdue hle).trans e), ?_, happ, fun a => ?_⟩
    · rw [State.withResult_hslot, hempty]
      exact congrArg (State.withResult · .unit) heq
    · rw [State.withResult_hslot, hempty]
      rfl

/-! ## C_BYTE -/

/-- Settles O41: a lookup of a stored pair changes nothing. -/
theorem cByteExtendsThePrefix : Obligations.CByteExtendsThePrefix := by
  refine fun c s => ⟨fun hph => congrArg doneUnit (cByte_of_first hph), fun hph hi _ code hst => ?_⟩
  exact congrArg doneUnit (cByte_of_hit hph (lookup_of_stored (hi.congr rfl rfl rfl) hst))

/-- LOOKUP_OR_INSERT of a pair that is not stored, field by field (R154, R155). -/
theorem CompCore.lookup_miss {s : State} (h : CompCore s) {p : Code} {b : Byte} (hst : ∀ c, ¬ Stored s.hslot p b c)
    {f : Nat} (hf : f = if s.full then s.freeEnt else s.freeEnt + 1) :
    ∃ t, Machine.lookupOrInsert p b s = .ok (.miss, t) ∧
      t = { s with hslot := t.hslot, freeEnt := f, full := decide (f = 2 ^ s.maxbits) } ∧
      ∀ p' b' c', Stored t.hslot p' b' c' ↔ Stored s.hslot p' b' c' ∨
        (s.full = false ∧ p' = p ∧ b' = b ∧ c' = BitVec.ofNat 16 s.freeEnt) := by
  have hmax : 2 ^ s.maxbits ≤ 2 ^ 16 := Nat.pow_le_pow_right (by omega) h.ranges.maxHi
  have hhi := h.ranges.freeHi
  have hfull := h.fullIff
  obtain ⟨n, -, hnone, -, e⟩ := lookup_of_not_stored h.hash (hhi.trans hmax) hst
  refine ⟨_, e, ?_⟩
  cases hs : s.full with
  | true =>
    rw [hs] at hf hfull
    subst hf
    refine ⟨?_, fun p' b' c' => by simp⟩
    show s = { s with full := exhausted s.maxbits s.freeEnt }
    rw [← hfull, ← hs]
  | false =>
    rw [hs, eq_comm, exhausted, decide_eq_false_iff_not] at hfull
    rw [hs] at hf
    subst hf
    refine ⟨insertAt_of_not_full hs, fun p' b' c' => ?_⟩
    simp only [Bool.false_eq_true, if_false, stored_insertAt hnone, codeOf_eq (show s.freeEnt < 65536 by omega),
      true_and]

/-! What the miss path of C_BYTE makes of the registers of `s` before its ratio check. -/

/-- `free_ent` after the insertion, which a full table does not make (R154, R155). -/
def State.freeAfterMiss (s : State) : Nat := if s.full then s.freeEnt else s.freeEnt + 1

/-- The width grows (R188). -/
def State.growsOnMiss (s : State) : Bool := decide (s.nBits < s.maxbits ∧ 2 ^ s.nBits < s.freeAfterMiss)

/-- The padding of the growth step (R136, R188). -/
def State.padOnMiss (s : State) : Nat :=
  if s.growsOnMiss then padding (s.bitPosition + s.nBits) s.alignBase s.nBits else 0

/-- `g` is `s` after C_BYTE's miss path up to the ratio check (R186, R188). -/
structure Grown (c : Byte) (s g : State) : Prop where
  byte : cByte c s = cRatio g
  core : CompCore g
  fits : Fits g
  eq : g = { s with
    bytesIn := s.bytesIn + 1, pfx := c.setWidth 16, hslot := g.hslot, freeEnt := s.freeAfterMiss
    full := decide (s.freeAfterMiss = 2 ^ s.maxbits), obuf := g.obuf, obits := g.obits
    bitPosition := s.bitPosition + s.nBits + s.padOnMiss, nBits := if s.growsOnMiss then s.nBits + 1 else s.nBits
    alignBase := if s.growsOnMiss then originAfterGrowth (s.bitPosition + s.nBits + s.padOnMiss) s.alignBase
      else s.alignBase }
  appended : Appended (s.nBits + s.padOnMiss) (fun j => decide (j < s.nBits) && s.pfx.getLsbD j) s g
  stored : ∀ p b c', Stored g.hslot p b c' ↔
    Stored s.hslot p b c' ∨ (s.full = false ∧ p = s.pfx ∧ b = c ∧ c' = BitVec.ofNat 16 s.freeEnt)
  room : g.full = true → g.obits = s.obits + s.nBits

/-- Appending looks at the staged output only. -/
theorem Appended.of_staged {n : Nat} {f : Nat → Bool} {s t s' t' : State} (h : Appended n f s t)
    (hs : s'.obits = s.obits ∧ s'.obuf = s.obuf) (ht : t'.obits = t.obits ∧ t'.obuf = t.obuf) :
    Appended n f s' t' := by
  rw [Appended, hs.1, hs.2, ht.1, ht.2]
  exact h

/-- `n` zero bits of padding. -/
theorem TailZero.appended {s : State} (h : TailZero s) (n : Nat) :
    Appended n (fun _ => false) s { s with obits := s.obits + n } := appended_padding h rfl rfl

/-- C_PUT of a code that fits, on a session that meets its invariants (R139). -/
theorem CompCore.cPut_appended {s : State} (h : CompCore s) {c : Code} (ho : s.obits / 8 + 2 < 32)
    (hc : c.toNat < 2 ^ s.nBits) :
    ∃ t, Machine.cPut c s.nBits s = .ok t ∧ CompCore t ∧ Appended s.nBits c.getLsbD s t ∧
      t = { s with obuf := t.obuf, obits := s.obits + s.nBits, bitPosition := s.bitPosition + s.nBits } := by
  obtain ⟨m, e, h1⟩ := h.cPut ho hc
  obtain ⟨m', e', -, ha⟩ := Machine.cPut_appended (code := c) (w := s.nBits) ho h.outWritten h.tail hc
  cases e.symm.trans e'
  exact ⟨_, e, h1, ha, rfl⟩

/-- The miss path of C_BYTE: insertion, emission, growth, and then the ratio check (R186). -/
theorem CompInv.grown {s : State} (h : CompInv s) (hph : s.cphase = .run) (ho : s.obits < 8) {c : Byte}
    (hst : ∀ code, ¬ Stored s.hslot s.pfx c code) : ∃ g, Grown c s g := by
  have h9 := h.ranges.bitsLo
  have h16 := h.ranges.bitsHi.trans h.ranges.maxHi
  have core : CompCore { s with bytesIn := s.bytesIn + 1 } := h.core.update
  have hp := h.core.lt_two_pow h.fits (h.pending hph)
  obtain ⟨u, e, heq, hstored⟩ := core.lookup_miss (b := c) hst (f := s.freeAfterMiss) rfl
  have hu : CompCore u ∧ u.freeEnt ≤ s.freeEnt + 1 := by
    rcases core.lookupOrInsert c (h.pending hph) with ⟨code, e', -⟩ | ⟨u', e', hu, hfree, -⟩
    · cases e.symm.trans e'
    · cases e.symm.trans e'
      exact ⟨hu, hfree⟩
  obtain ⟨hu, hfree⟩ := hu
  obtain ⟨v, e1, h1, ha, hv⟩ := hu.cPut_appended (c := s.pfx) (by rw [heq]; show s.obits / 8 + 2 < 32; omega)
    (by rw [heq]; exact hp)
  rw [heq] at hv ha
  have hn : NearlyFits { v with pfx := c.setWidth 16 } := by
    rw [hv]
    rw [heq] at hfree
    rcases h.fits with hf | hf
    · exact .inl (hfree.trans (Nat.succ_le_succ hf))
    · exact .inr hf
  obtain ⟨g, e2, h2, f2, -, -, hroom⟩ := (h1.update (p := c.setWidth 16)).cGrow hn
  have e2' := cGrow_eq (s := { v with pfx := c.setWidth 16 }) (grows := s.growsOnMiss) (pad := s.padOnMiss)
    h1.ranges.origin (by rw [hv]; show 0 < s.nBits; omega) (by rw [hv]; rfl) (by rw [hv]; rfl)
  cases e2.symm.trans e2'
  refine ⟨_, ?_, h2, f2, ?_, ?_, ?_, fun hfull => (hroom hfull).1.trans ?_⟩
  · rw [cByte_of_miss hph e, cMiss, show u.pfx = s.pfx by rw [heq], e1, Res.ok_bind, e2, Res.ok_bind]
  · dsimp only
    rw [hv]
  · refine ((ha.trans (ha.tailZero.appended s.padOnMiss)).congr fun j _ => ?_).of_staged ⟨rfl, rfl⟩ ⟨rfl, rfl⟩
    by_cases hj : j < s.nBits <;> simp [hj]
  · rw [hv]
    exact hstored
  · rw [hv]

/-- Settles O42: with no ratio check due C_BYTE ends where the growth step does. -/
theorem cByteMissEmitsThePrefix : Obligations.CByteMissEmitsThePrefix := by
  intro c s h hph ho hst f isFull grows pos pad hdue
  obtain ⟨g, hg⟩ := h.grown hph ho hst
  have hnot : ratioDue g = false := by
    rw [hg.eq]
    exact hdue
  exact ⟨g.withResult .unit, congrArg doneUnit (hg.byte.trans (cRatio_of_not_due hnot)),
    congrArg (State.withResult · .unit) hg.eq, hg.appended, hg.stored⟩

end Sys2Proof.Machine
end

