-- ==== Sys2Proof/Proofs/CompressSession.lean ====
section
/-! PROOFS. Proofs/CompressSession.lean: how a compress session begins, delivers and ends: the BEGIN commands, the drains
and FINISH_C, field by field (R180, R192, R198, R220, R248). -/

namespace Sys2Proof.Machine

/-! ## The BEGIN commands -/

theorem cfgLegal_iff {cfg : Byte} : cfgLegal cfg = true ↔
    cfg.extractLsb' 5 2 = 0#2 ∧ 9 ≤ (cfg.extractLsb' 0 5).toNat ∧ (cfg.extractLsb' 0 5).toNat ≤ 16 := by
  rw [cfgLegal, Bool.and_eq_true, Bool.and_eq_true, decide_eq_true_iff, decide_eq_true_iff, beq_iff_eq, and_assoc]
  rfl

theorem cfgBlock_eq (cfg : Byte) : cfgBlock cfg = cfg.getLsbD 7 := by
  revert cfg; decide

/-- The staging buffer of a new session past its header (R180). -/
theorem get_newObuf (cfg : Byte) {a : Nat} (h3 : 3 ≤ a) (ha : a < 32) :
    Mem.get (Mem.cellsFrom 0 ([Config.magic1, Config.magic2, cfg] ++ List.replicate 29 0#8)) a = some 0#8 := by
  rw [Mem.get_cellsFrom, if_pos (Nat.zero_le a), List.getElem?_append_right (by simp; omega), List.getElem?_replicate,
    if_pos (by simp; omega)]

/-- Settles O12: a legal `cfg` opens the session, any other raises; BEGIN_DECOMPRESS tests nothing. -/
theorem beginCommandsOpenASession : Obligations.BeginCommandsOpenASession := by
  refine ⟨fun cfg s hres hlo hhi => ?_, fun cfg s hcfg => ?_, fun s => ?_⟩
  · refine ⟨(openCompress cfg s).withResult (.response ⟨0, [], .cont⟩), ?_, ?_, fun _ => rfl, rfl, rfl, rfl,
      fun a => get_newObuf cfg⟩
    · show respond (beginCompress cfg s) = _
      rw [beginCompress, if_pos (cfgLegal_iff.2 ⟨hres, hlo, hhi⟩)]
      rfl
    · rw [← cfgBlock_eq]
      rfl
  · show respond (beginCompress cfg s) = _
    rw [beginCompress, if_neg (fun h => hcfg (cfgLegal_iff.1 h))]
    rfl
  · refine ⟨_, rfl, rfl, fun a ha => ?_⟩
    show Mem.get (Mem.cellsFrom 0 (List.replicate 4 0#8)) a = _
    rw [Mem.get_cellsFrom, if_pos (Nat.zero_le a), List.getElem?_replicate, if_pos (by omega)]

/-! ## The drains -/

theorem dDrain_ok {b : Byte} {s : State} (hb : Mem.get s.stack (s.sp - 1) = some b) (h0 : 0 < s.sp)
    (hsp : s.sp ≤ 65536) : dDrain s = .ok (b, { s with sp := s.sp - 1 }) := by
  obtain ⟨n, hn⟩ : ∃ n, s.sp = n + 1 := ⟨s.sp - 1, by omega⟩
  rw [hn, Nat.add_sub_cancel] at hb ⊢
  rw [dDrain, hn]
  dsimp only
  rw [readMem_ok (show n < 65536 by omega) hb, Res.ok_bind]

/-- Settles O47: C_DRAIN shifts `obuf` down by one, D_DRAIN lowers `sp`. -/
theorem drainsDeliverTheNextByte : Obligations.DrainsDeliverTheNextByte := by
  refine fun s => ⟨fun b hb ho => ?_, fun b h0 hsp hb => congrArg (doneVal .byte) (dDrain_ok hb h0 hsp)⟩
  refine ⟨_, congrArg (doneVal .byte) (cDrain_ok hb ho), rfl, fun a ha => ?_, ?_⟩
  · exact (Mem.get_shiftDown 32 0#8 s.obuf (by omega)).trans (if_pos (by omega))
  · exact Mem.get_shiftDown 32 0#8 s.obuf (by omega)

/-! ## FINISH_C -/

/-- The bits of the final code: a pending prefix is emitted (R198). -/
def State.finalBits (s : State) : Nat := if s.cphase = .run then s.nBits else 0

/-- The bits that make the staged output whole bytes, once (R198). -/
def State.finalPad (s : State) : Nat := if s.cphase = .finishing then 0 else (8 - (s.obits + s.finalBits) % 8) % 8

/-- `f` is what FINISH_C delivers from: `s` with its final code and its padding staged (R198). -/
structure Finishing (s f : State) : Prop where
  inv : CompInv f
  eq : f = { s with
    obuf := f.obuf, obits := s.obits + s.finalBits + s.finalPad
    bitPosition := s.bitPosition + s.finalBits + s.finalPad, cphase := .finishing }
  appended : Appended (s.finalBits + s.finalPad) (fun j => decide (j < s.finalBits) && s.pfx.getLsbD j) s f

/-- FINISH_C's first step, in the phases that have one (R198). -/
theorem CompInv.cFinal_exact {s : State} (h : CompInv s) (hph : s.cphase = .first ∨ s.cphase = .run) :
    ∃ f, Machine.cFinal s = .ok f ∧ Finishing s f := by
  have hroom := h.room hph
  rcases hph with hph | hph
  · have hbits : s.finalBits = 0 := if_neg (by simp [hph])
    have hpad : s.finalPad = padBits s.obits := by
      rw [State.finalPad, if_neg (by simp [hph]), hbits, Nat.add_zero, padBits]
    refine ⟨_, cFinal_of_first hph, h.core.finishing h.fits (by omega), ?_, ?_⟩
    · rw [hpad, hbits]
      rfl
    · rw [hpad, hbits, Nat.zero_add]
      exact ((h.tail.appended (padBits s.obits)).congr fun j _ => by simp).of_staged ⟨rfl, rfl⟩ ⟨rfl, rfl⟩
  · have h9 := h.ranges.bitsLo
    have hbits : s.finalBits = s.nBits := if_pos hph
    have hpad : s.finalPad = padBits (s.obits + s.nBits) := by
      rw [State.finalPad, if_neg (by simp [hph]), hbits, padBits]
    obtain ⟨v, e, h1, ha, hv⟩ := h.core.cPut_appended (by omega) (h.core.lt_two_pow h.fits (h.pending hph))
    have ho : v.obits = s.obits + s.nBits := ha.1
    have hfits : Fits v := by rw [hv]; exact h.fits
    refine ⟨_, ?_, h1.finishing hfits (ho ▸ hroom), ?_, ?_⟩
    · rw [cFinal_of_run hph, e, Res.ok_bind]
    · rw [hpad, hbits, ← ho]
      dsimp only
      rw [hv]
    · rw [hpad, hbits, ← ho]
      refine ((ha.trans (ha.tailZero.appended (padBits v.obits))).congr fun j _ => ?_).of_staged ⟨rfl, rfl⟩ ⟨rfl, rfl⟩
      by_cases hj : j < s.nBits <;> simp [hj]

/-- FINISH_C's delivery (R198). -/
theorem CompInv.cDeliver_exact {f : State} (h : CompInv f) (hph : f.cphase = .finishing) {cap steps : Nat}
    (hp : ¬ (steps = 0 ∧ cap = 0)) :
    ∃ out m, Machine.cDeliver cap steps f = .ok
        (⟨0, out, if f.obits / 8 ≤ cap then .streamEnd else .outputFull⟩,
          { f with
            obuf := m, obits := 8 * (f.obits / 8 - out.length)
            cphase := if f.obits / 8 ≤ cap then .done else .finishing }) ∧
      out.length = min (f.obits / 8) cap ∧
      ∀ i, i < f.obits →
        (if i < 8 * out.length then (out[i / 8]?.getD 0#8).getLsbD (i % 8) else bufBit m (i - 8 * out.length)) =
          bufBit f.obuf i := by
  obtain ⟨ho, hbyte⟩ := h.padded hph
  obtain ⟨out, m, e, hlen, -, -, hkept, hout⟩ := cDrainWhile_ok h (by omega) cap
  have hleft : f.obits - 8 * out.length = 8 * (f.obits / 8 - out.length) := by omega
  have hnp : noProgress (steps + out.length) cap = false := by
    simp only [noProgress, Bool.and_eq_false_iff, decide_eq_false_iff_not]
    omega
  refine ⟨out, m, ?_, hlen, fun i hi => ?_⟩
  · rw [Machine.cDeliver, e, Res.ok_bind]
    dsimp only
    rw [hnp, if_neg Bool.false_ne_true, hleft]
    by_cases hcap : f.obits / 8 ≤ cap
    · rw [if_pos (by omega), if_pos hcap, if_pos hcap]
    · rw [if_neg (by omega), if_neg hcap, if_neg hcap, ← hph]
  · split
    · exact hout i ‹_›
    · rw [hkept]
      congr 1
      omega

/-- FINISH_C is a delivery of what is staged once the stream is finished (R198). -/
theorem CompInv.finishC_eq {s : State} (h : CompInv s) (hd : s.cphase ≠ .done) {cap : Nat}
    (hp : ¬ (s.cphase = .finishing ∧ cap = 0)) :
    ∃ f steps, Finishing s f ∧ ¬ (steps = 0 ∧ cap = 0) ∧ Machine.finishC cap s = Machine.cDeliver cap steps f := by
  have start (hph : s.cphase = .first ∨ s.cphase = .run) :
      ∃ f steps, Finishing s f ∧ ¬ (steps = 0 ∧ cap = 0) ∧
        (do let s1 ← Machine.cFinal s; Machine.cDeliver cap 1 s1) = Machine.cDeliver cap steps f := by
    obtain ⟨f, e, hf⟩ := h.cFinal_exact hph
    exact ⟨f, 1, hf, by omega, by rw [e, Res.ok_bind]⟩
  unfold Machine.finishC
  cases hph : s.cphase with
  | done => exact absurd hph hd
  | first => exact start (.inl hph)
  | run => exact start (.inr hph)
  | finishing =>
    have hbits : s.finalBits = 0 := if_neg (by simp [hph])
    have hpad : s.finalPad = 0 := if_pos hph
    refine ⟨s, 0, ⟨h, ?_, ?_⟩, fun h0 => hp ⟨hph, h0.2⟩, rfl⟩
    · rw [hbits, hpad, ← hph]
      rfl
    · rw [hbits, hpad]
      exact (h.tail.appended 0).congr fun j hj => absurd hj (Nat.not_lt_zero j)

/-- Settles O50: the delivery of the finished stream, in the terms of the session before it. -/
theorem finishFlushesTheCompressor : Obligations.FinishFlushesTheCompressor := by
  intro cap s h hd hp code pad total
  obtain ⟨f, steps, hf, hsteps, e⟩ := h.finishC_eq hd hp
  have hphase : f.cphase = .finishing := by rw [hf.eq]
  have htotal : f.obits / 8 = total := by rw [hf.eq]; rfl
  obtain ⟨out, m, e', hlen, hbits⟩ := hf.inv.cDeliver_exact hphase hsteps
  have height : f.obits = 8 * total := by
    have := (hf.inv.padded hphase).2
    omega
  rw [htotal] at e' hlen
  have hexec := congrArg doneCmd (e.trans e')
  refine ⟨out, _, hexec, fun he hm => ?_, hlen, ?_, fun i hi => ?_⟩
  · exact (congrArg doneCmd (finishCmd_comp he hm)).trans hexec
  · rw [hf.eq]
    rfl
  · have hif : i < f.obits := by omega
    have hsum : s.obits + (s.finalBits + s.finalPad) = f.obits := hf.appended.1.symm
    refine (hbits i hif).trans ?_
    rw [hf.appended.2, hsum, if_pos hif]
    by_cases hs : i < s.obits
    · rw [if_pos hs, if_pos hs]
    · have hiff : i - s.obits < s.finalBits ↔ i < s.obits + code := by
        show _ ↔ i < s.obits + s.finalBits
        omega
      rw [if_neg hs, if_neg hs]
      simp only [hiff]

end Sys2Proof.Machine
end

