-- ==== Sys2Proof/Proofs/CompressLoop.lean ====
section
/-! PROOFS. Proofs/CompressLoop.lean: how C_LOOP ends (R184, R194), and that its input can be split where a command ended
with NeedMoreInput (R196). -/

namespace Sys2Proof.Machine

/-! ## How the loop ends -/

/-- The draining round of a session that can take input: `s1` is `s` with the drained bytes gone (R184). -/
theorem LiveComp.drainRound {s : State} (h : LiveComp s) (room : Nat) :
    ∃ bs s1, Machine.cDrainWhile room s = .ok (bs, s1) ∧ LiveComp s1 ∧ bs.length = min (s.obits / 8) room ∧
      s1.obits = s.obits - 8 * bs.length ∧ s1.bytesIn = s.bytesIn := by
  have ho := h.inv.obits_le h.phase
  obtain ⟨bs, m, e, hlen, hi, -⟩ := cDrainWhile_ok h.inv (by omega) room
  exact ⟨bs, _, e, ⟨h.err, h.mode, h.phase, hi⟩, hlen, rfl, rfl⟩

/-- What the loop has done agrees with its count of micro-operations, and keeps within the room (R184). -/
structure Counted (cap : Nat) (l : LoopOut) : Prop where
  steps : l.steps = l.consumed + l.out.length
  room : l.out.length ≤ cap

/-- The loop from `l` and `s` on has ended with `l'` and `t` (R184). -/
structure LoopEnds (inp : List Byte) (cap : Nat) (l : LoopOut) (s : State) (l' : LoopOut) (t : State) : Prop where
  live : LiveComp t
  taken : ∃ k, k ≤ inp.length ∧ l'.consumed = l.consumed + k ∧ t.bytesIn = s.bytesIn + k ∧
    (s.obits < 8 → inp ≠ [] → 0 < k) ∧
    ((l'.status = .outputFull ∧ 8 ≤ t.obits ∧ l'.out.length = cap) ∨
      (l'.status = .needMoreInput ∧ t.obits < 8 ∧ k = inp.length))
  counted : Counted cap l'

theorem LiveComp.loopEnds {s : State} (h : LiveComp s) (cap : Nat) (inp : List Byte) {l : LoopOut}
    (hl : Counted cap l) : ∃ l' t, Machine.cLoopFrom cap inp l s = .ok (l', t) ∧ LoopEnds inp cap l s l' t := by
  induction inp generalizing s l with
  | nil =>
    obtain ⟨bs, s1, e, h1, hlen, ho, hbytes⟩ := h.drainRound (cap - l.out.length)
    have hsteps := hl.steps
    have hroom := hl.room
    unfold Machine.cLoopFrom
    rw [e, Res.ok_bind]
    dsimp only
    split
    · refine ⟨_, _, rfl, h1, ⟨0, le_refl 0, rfl, hbytes, fun _ hne => absurd rfl hne, .inl ⟨rfl, ‹_›, ?_⟩⟩, ?_, ?_⟩
      all_goals simp only [List.length_append]; omega
    · refine ⟨_, _, rfl, h1, ⟨0, le_refl 0, rfl, hbytes, fun _ hne => absurd rfl hne,
        .inr ⟨rfl, by omega, rfl⟩⟩, ?_, ?_⟩
      all_goals simp only [List.length_append]; omega
  | cons c rest ih =>
    obtain ⟨bs, s1, e, h1, hlen, ho, hbytes⟩ := h.drainRound (cap - l.out.length)
    have hsteps := hl.steps
    have hroom := hl.room
    unfold Machine.cLoopFrom
    rw [e, Res.ok_bind]
    dsimp only
    split
    · refine ⟨_, _, rfl, h1, ⟨0, Nat.zero_le _, rfl, hbytes, fun _ _ => by omega, .inl ⟨rfl, ‹_›, ?_⟩⟩, ?_, ?_⟩
      all_goals simp only [List.length_append]; omega
    · obtain ⟨s2, e2, ht⟩ := cByte_ok c h1.inv h1.phase (by omega)
      have h2 : LiveComp s2 := ⟨ht.err.trans h1.err, ht.mode.trans h1.mode, .inr ht.cphase, ht.inv⟩
      rw [e2, Res.ok_bind]
      obtain ⟨l', t, e3, hlive, ⟨k, hk, hcons, hin, -, hend⟩, hcount⟩ := ih h2
        (l := { l with
          out := l.out ++ bs, steps := l.steps + bs.length + 1, consumed := l.consumed + 1 })
        ⟨by simp only [List.length_append]; omega, by simp only [List.length_append]; omega⟩
      have hbytes2 := ht.bytesIn
      refine ⟨l', t, e3, hlive, ⟨k + 1, Nat.succ_le_succ hk, by rw [hcons]; dsimp only; omega, by omega,
        fun _ _ => Nat.succ_pos k, ?_⟩, hcount⟩
      rcases hend with hend | ⟨hst, hobits, rfl⟩
      · exact .inl hend
      · exact .inr ⟨hst, hobits, rfl⟩

theorem counted_loopStart (cap : Nat) : Counted cap loopStart := ⟨rfl, Nat.zero_le cap⟩

/-- ADVANCE_C answers what its loop did, unless the loop did nothing and there was no room (R194). -/
theorem advanceEnd_of_progress {cap : Nat} {l : LoopOut} {s : State} (hst : ∀ k, l.status ≠ .error k)
    (hp : ¬ (l.steps = 0 ∧ cap = 0)) : advanceEnd cap l s = (⟨l.consumed, l.out, l.status⟩, s) := by
  have hnp : noProgress l.steps cap = false := by
    simp only [noProgress, Bool.and_eq_false_iff, decide_eq_false_iff_not]
    omega
  unfold advanceEnd
  split
  · exact absurd ‹_› (hst _)
  · rw [hnp]
    rfl

/-- Settles O48: `LoopEnds`, from a loop that has done nothing yet. -/
theorem advanceCRunsUntilInputOrRoomEnds : Obligations.AdvanceCRunsUntilInputOrRoomEnds := by
  intro inp cap s h
  obtain ⟨l, t, e, hlive, ⟨k, hk, hcons, hbytes, hsome, hend⟩, hcount⟩ := h.loopEnds cap inp (counted_loopStart cap)
  have hcons : l.consumed = k := hcons.trans (Nat.zero_add k)
  have hsteps := hcount.steps
  refine ⟨l, t, congrArg (doneVal .loop) e, hlive, by omega, by omega, hcount.room, hsteps, ?_, fun hp => ?_⟩
  · rwa [hcons]
  · have hadv : advanceC inp cap s = .ok (advanceEnd cap l t) := by
      rw [h.advanceC_eq, cLoop, e, Res.ok_bind]
    have hprogress : ¬ (l.steps = 0 ∧ cap = 0) := by
      rintro ⟨h0, hcap⟩
      refine hp ⟨hcap, ?_⟩
      by_contra hno
      rw [not_or, Nat.not_le] at hno
      have := hsome hno.1 hno.2
      omega
    rw [advanceEnd_of_progress (fun kind => ?_) hprogress] at hadv
    · exact congrArg doneCmd hadv
    · rcases hend with ⟨hst, -⟩ | ⟨hst, -⟩ <;> simp [hst]

/-! ## Splitting the input -/

/-- The loop as it goes on: `l` was done after `l₀`. -/
def LoopOut.after (l₀ l : LoopOut) : LoopOut :=
  { consumed := l₀.consumed + l.consumed, out := l₀.out ++ l.out, status := l.status, steps := l₀.steps + l.steps }

/-- With at least the room that let a draining round leave less than a byte, the round is the same. -/
theorem LiveComp.cDrainWhile_of_le {s s1 : State} {bs : List Byte} {room room' : Nat} (h : LiveComp s)
    (e : Machine.cDrainWhile room s = .ok (bs, s1)) (ho : s1.obits < 8) (hroom : room ≤ room') :
    Machine.cDrainWhile room' s = .ok (bs, s1) := by
  obtain ⟨bs', s1', e', -, hlen, hobits, -⟩ := h.drainRound room
  cases e.symm.trans e'
  rw [← e, Machine.cDrainWhile, Machine.cDrainWhile, show min (s.obits / 8) room' = min (s.obits / 8) room by omega]

/-- What a draining round adds to the loop's account (R184). -/
def LoopOut.drained (l : LoopOut) (bs : List Byte) : LoopOut :=
  { l with out := l.out ++ bs, steps := l.steps + bs.length }

theorem LoopOut.after_drained (l₀ l : LoopOut) (bs : List Byte) :
    (l₀.after l).drained bs = l₀.after (l.drained bs) := by
  simp only [LoopOut.after, LoopOut.drained, List.append_assoc, Nat.add_assoc]

/-- A loop whose first draining round leaves less than a byte goes on from there (R184). -/
theorem cLoopFrom_of_drained {s s1 : State} {bs : List Byte} {cap : Nat} {l : LoopOut}
    (e : cDrainWhile (cap - l.out.length) s = .ok (bs, s1)) (ho : s1.obits < 8) (inp : List Byte) :
    cLoopFrom cap inp l s = cLoopFrom cap inp (l.drained bs) s1 := by
  have e1 (room : Nat) : cDrainWhile room s1 = .ok ([], s1) := by
    rw [cDrainWhile, Nat.div_eq_of_lt ho, Nat.zero_min]
    rfl
  unfold cLoopFrom
  rw [e, e1, Res.ok_bind, Res.ok_bind]
  simp only [LoopOut.drained, List.append_nil, List.length_nil, Nat.add_zero]

/-- With less than a byte staged and no input the loop ends where it is (R184). -/
theorem cLoopFrom_nil_of_settled {s : State} (ho : s.obits < 8) (cap : Nat) (l : LoopOut) :
    cLoopFrom cap [] l s = .ok ({ l with status := .needMoreInput }, s) := by
  unfold cLoopFrom
  rw [cDrainWhile, Nat.div_eq_of_lt ho, Nat.zero_min, cDrains, Res.ok_bind]
  dsimp only
  rw [if_neg (by omega), List.append_nil, List.length_nil, Nat.add_zero]

/-- A loop that ended with NeedMoreInput is the beginning of every loop with more input and at least its room, whatever
was done before it (R196). -/
theorem LiveComp.cLoopFrom_append {s t : State} (h : LiveComp s) {a : List Byte} {cap : Nat} {l x : LoopOut}
    (e : Machine.cLoopFrom cap a l s = .ok (x, t)) (hx : x.status = .needMoreInput) (hl : l.status = .needMoreInput)
    (b : List Byte) (l₀ : LoopOut) {cap' : Nat} (hcap : l₀.out.length + cap ≤ cap') :
    Machine.cLoopFrom cap' (a ++ b) (l₀.after l) s = Machine.cLoopFrom cap' b (l₀.after x) t ∧ t.obits < 8 := by
  induction a generalizing s l with
  | nil =>
    obtain ⟨bs, s1, ed, -⟩ := h.drainRound (cap - l.out.length)
    unfold Machine.cLoopFrom at e
    rw [ed, Res.ok_bind] at e
    dsimp only at e
    split at e
    · cases e
      cases hx
    · rename_i ho
      cases e
      have ed' := h.cDrainWhile_of_le (room' := cap' - (l₀.after l).out.length) ed (by omega)
        (by simp only [LoopOut.after, List.length_append]; omega)
      rw [List.nil_append, cLoopFrom_of_drained ed' (by omega), LoopOut.after_drained, LoopOut.drained, ← hl]
      exact ⟨rfl, by omega⟩
  | cons c rest ih =>
    obtain ⟨bs, s1, ed, h1, -⟩ := h.drainRound (cap - l.out.length)
    unfold Machine.cLoopFrom at e
    rw [ed, Res.ok_bind] at e
    dsimp only at e
    split at e
    · cases e
      cases hx
    · rename_i ho
      obtain ⟨s2, e2, h2⟩ := h1.cByte c (by omega)
      rw [e2, Res.ok_bind] at e
      have ed' := h.cDrainWhile_of_le (room' := cap' - (l₀.after l).out.length) ed (by omega)
        (by simp only [LoopOut.after, List.length_append]; omega)
      obtain ⟨e3, ht⟩ := ih h2 e hl
      refine ⟨?_, ht⟩
      rw [← e3, List.cons_append]
      conv_lhs => unfold Machine.cLoopFrom
      rw [ed', Res.ok_bind]
      dsimp only
      rw [if_neg ho, e2, Res.ok_bind]
      simp only [LoopOut.after, List.append_assoc, Nat.add_assoc]

/-! ## The result is not looked at -/

section
variable {s t : State} (d : State)

theorem cLoopFrom_within {cap : Nat} {inp : List Byte} {l x : LoopOut} (h : cLoopFrom cap inp l s = .ok (x, t)) :
    cLoopFrom cap inp l (s.within d) = .ok (x, t.within d) := by
  induction inp generalizing s l with
  | nil =>
    unfold cLoopFrom at h ⊢
    obtain ⟨⟨bs, s1⟩, e, h⟩ := Res.bind_eq_ok.1 h
    refine Res.bind_eq_ok.2 ⟨_, cDrains_within d e, ?_⟩
    dsimp only at h ⊢
    rw [show (s1.within d).obits = s1.obits from rfl]
    split at h
    · cases h
      exact if_pos ‹_›
    · cases h
      exact if_neg ‹_›
  | cons c rest ih =>
    unfold cLoopFrom at h ⊢
    obtain ⟨⟨bs, s1⟩, e, h⟩ := Res.bind_eq_ok.1 h
    refine Res.bind_eq_ok.2 ⟨_, cDrains_within d e, ?_⟩
    dsimp only at h ⊢
    rw [show (s1.within d).obits = s1.obits from rfl]
    split at h
    · cases h
      exact if_pos ‹_›
    · obtain ⟨s2, e2, h⟩ := Res.bind_eq_ok.1 h
      exact (if_neg ‹_›).trans (Res.bind_eq_ok.2 ⟨_, cByte_within d e2, ih h⟩)

end

/-- What C_LOOP leaves in a state that differs in its result (R184). -/
theorem cLoop_of_withResult {s t : State} {r : Result} {cap : Nat} {inp : List Byte} {x : LoopOut}
    (h : cLoop inp cap (s.withResult r) = .ok (x, t)) : ∃ u, cLoop inp cap s = .ok (x, u) ∧ u.withResult r = t := by
  have hu : cLoop inp cap s = .ok (x, t.within s) := cLoopFrom_within (s := s.withResult r) s h
  have hsame : cLoop inp cap (s.withResult r) = .ok (x, t.within (s.withResult r)) :=
    cLoopFrom_within (s := s.withResult r) (s.withResult r) h
  exact ⟨_, hu, (Prod.mk.inj (Except.ok.inj (hsame.symm.trans h))).2⟩

theorem LiveComp.withResult {s : State} (h : LiveComp s) (r : Result) : LiveComp (s.withResult r) :=
  ⟨h.err, h.mode, h.phase, h.inv.withResult r⟩

/-- A C_LOOP that the instruction completed, but for the result (R184). -/
theorem cLoop_of_exec {s t : State} {cap : Nat} {inp : List Byte} {x : LoopOut} (h : LiveComp s)
    (e : exec (.cLoop inp cap) s = .next (t.withResult (.loop x))) :
    ∃ u, cLoop inp cap s = .ok (x, u) ∧ LiveComp u ∧ t = u.withResult t.result := by
  obtain ⟨⟨x', u⟩, e', hu⟩ := h.cLoop inp cap
  have hstate : t.withResult (.loop x) = u.withResult (.loop x') :=
    Host.Outcome.next.inj (e.symm.trans (congrArg (doneVal .loop) e'))
  cases show Result.loop x = .loop x' from congrArg State.result hstate
  refine ⟨u, e', hu, ?_⟩
  calc t = (t.withResult (.loop x)).withResult t.result := rfl
    _ = (u.withResult (.loop x)).withResult t.result := by rw [hstate]
    _ = u.withResult t.result := rfl

/-- Settles O49: the second loop goes on where the first ended, and in the larger room both end as they did. -/
theorem compressionIgnoresTheSplit : Obligations.CompressionIgnoresTheSplit := by
  intro a b capA capB s t u x y h ea hx eb hy
  obtain ⟨t', ea', ht', htt⟩ := cLoop_of_exec h ea
  rw [htt] at eb
  obtain ⟨u', eb', -, huu⟩ := cLoop_of_exec (ht'.withResult _) eb
  obtain ⟨v, ev, hv⟩ := cLoop_of_withResult eb'
  have hlen : x.out.length ≤ capA := by
    obtain ⟨l', _, e, hends⟩ := h.loopEnds capA a (counted_loopStart capA)
    cases ea'.symm.trans e
    exact hends.counted.room
  have first := (h.cLoopFrom_append ea' hx rfl b loopStart (cap' := capA + capB) (by simp [loopStart])).1
  obtain ⟨second, ho⟩ := ht'.cLoopFrom_append ev hy rfl [] x (cap' := capA + capB) (by omega)
  have hx₀ : loopStart.after x = x.after loopStart := by simp [LoopOut.after, loopStart, hx]
  have whole : cLoop (a ++ b) (capA + capB) s = .ok ({ x.after y with status := .needMoreInput }, v) := by
    rw [← cLoopFrom_nil_of_settled ho (capA + capB), ← second, List.append_nil, ← hx₀, ← first]
    rfl
  exact ⟨v, congrArg (doneVal .loop) whole, by rw [huu, ← hv]; rfl⟩

end Sys2Proof.Machine
end

