-- ==== Sys2Proof/Proofs/StreamBits.lean ====
section
/-! PROOFS. Proofs/StreamBits.lean: the bits of a byte stream as a list (R62), and the bits staged in the two buffers:
what appending, draining, advancing, realigning and taking a byte do to them. The round trip compares these lists. -/

namespace Sys2Proof.Machine

/-! ## Bits of bytes, of a buffer, of a code -/

/-- The bits of a byte stream, the least significant bit of each byte first (R62). -/
def bitsOf (z : List Byte) : List Bool := z.flatMap fun b => (List.range 8).map b.getLsbD

/-- `n` bits of a buffer from bit `off` on. -/
def segment (m : Mem Byte) (off n : Nat) : List Bool := (List.range n).map fun j => bufBit m (off + j)

/-- A code of `w` bits as it stands in the stream (R64). -/
def codeBits (c : Code) (w : Nat) : List Bool := (List.range w).map c.getLsbD

@[simp] theorem bitsOf_nil : bitsOf [] = [] := rfl

@[simp] theorem bitsOf_cons (b : Byte) (z : List Byte) : bitsOf (b :: z) = (List.range 8).map b.getLsbD ++ bitsOf z :=
  rfl

@[simp] theorem bitsOf_append (y z : List Byte) : bitsOf (y ++ z) = bitsOf y ++ bitsOf z := List.flatMap_append

@[simp] theorem length_bitsOf (z : List Byte) : (bitsOf z).length = 8 * z.length := by
  induction z with
  | nil => rfl
  | cons b z ih =>
    simp only [bitsOf_cons, List.length_append, List.length_map, List.length_range, List.length_cons, ih]
    omega

@[simp] theorem length_segment (m : Mem Byte) (off n : Nat) : (segment m off n).length = n := by simp [segment]

@[simp] theorem length_codeBits (c : Code) (w : Nat) : (codeBits c w).length = w := by simp [codeBits]

/-- Bits in a row of a list that is written as the values of a function. -/
theorem map_range_add (f : Nat → Bool) (a b : Nat) :
    (List.range (a + b)).map f = (List.range a).map f ++ (List.range b).map fun j => f (a + j) := by
  rw [List.range_add, List.map_append, List.map_map]
  rfl

theorem map_range_congr {f g : Nat → Bool} {n : Nat} (h : ∀ j, j < n → f j = g j) :
    (List.range n).map f = (List.range n).map g :=
  List.map_congr_left fun j hj => h j (List.mem_range.1 hj)

theorem map_range_false {f : Nat → Bool} {n : Nat} (h : ∀ j, j < n → f j = false) :
    (List.range n).map f = List.replicate n false := by
  rw [map_range_congr h, List.map_const', List.length_range]

theorem segment_add (m : Mem Byte) (off a b : Nat) :
    segment m off (a + b) = segment m off a ++ segment m (off + a) b := by
  rw [segment, map_range_add]
  simp only [segment, Nat.add_assoc]

theorem drop_segment (m : Mem Byte) (off : Nat) {n k : Nat} (hk : k ≤ n) :
    (segment m off n).drop k = segment m (off + k) (n - k) := by
  obtain ⟨d, rfl⟩ := Nat.exists_eq_add_of_le hk
  rw [segment_add, List.drop_left' (length_segment ..), Nat.add_sub_cancel_left]

theorem segment_congr {m m' : Mem Byte} {off off' n : Nat}
    (h : ∀ j, j < n → bufBit m (off + j) = bufBit m' (off' + j)) : segment m off n = segment m' off' n :=
  map_range_congr h

/-- Bytes whose bits are those of a buffer (R192). -/
theorem bitsOf_eq_segment {m : Mem Byte} {out : List Byte} {off : Nat}
    (h : ∀ i, i < 8 * out.length → (out[i / 8]?.getD 0#8).getLsbD (i % 8) = bufBit m (off + i)) :
    bitsOf out = segment m off (8 * out.length) := by
  induction out generalizing off with
  | nil => rfl
  | cons b out ih =>
    rw [List.length_cons] at h
    rw [List.length_cons, Nat.mul_succ, Nat.add_comm, segment_add, bitsOf_cons]
    congr 1
    · refine map_range_congr fun j hj => ?_
      have := h j (by omega)
      rwa [Nat.div_eq_of_lt hj, Nat.mod_eq_of_lt hj] at this
    · refine ih fun i hi => ?_
      have := h (8 + i) (by omega)
      rwa [show (8 + i) / 8 = i / 8 + 1 by omega, show (8 + i) % 8 = i % 8 by omega, List.getElem?_cons_succ,
        ← Nat.add_assoc] at this

/-- A code and the padding after it, as C_BYTE and FINISH append them (R136, R198). -/
theorem map_code_padding (c : Code) (w pad : Nat) :
    (List.range (w + pad)).map (fun j => decide (j < w) && c.getLsbD j) = codeBits c w ++ List.replicate pad false := by
  rw [map_range_add]
  congr 1
  · exact map_range_congr fun j hj => by simp [hj]
  · exact map_range_false fun j _ => by simp

/-- The CLEAR code and the padding after it (R190). -/
theorem map_clear_padding {w : Nat} (hw : 9 ≤ w) (pad : Nat) :
    (List.range (w + pad)).map (fun j => decide (j = 8)) = codeBits 256#16 w ++ List.replicate pad false := by
  rw [← map_code_padding]
  refine map_range_congr fun j _ => ?_
  by_cases h16 : j < 16
  · rw [show (256#16 : Code).getLsbD j = decide (j = 8) by interval_cases j <;> rfl]
    by_cases h8 : j = 8 <;> simp [h8]
    omega
  · rw [BitVec.getLsbD_of_ge _ _ (by omega), Bool.and_false, decide_eq_false_iff_not]
    omega

/-! ## The staged output -/

/-- The bits in `obuf` that are not delivered yet (R41). -/
def State.staged (s : State) : List Bool := segment s.obuf 0 s.obits

@[simp] theorem length_staged (s : State) : s.staged.length = s.obits := length_segment ..

theorem Appended.staged {n : Nat} {f : Nat → Bool} {s t : State} (h : Appended n f s t) :
    t.staged = s.staged ++ (List.range n).map f := by
  obtain ⟨ho, hb⟩ := h
  rw [State.staged, ho, segment_add]
  congr 1
  · exact segment_congr fun j hj => by rw [hb, if_pos (by omega)]
  · refine map_range_congr fun j hj => ?_
    rw [hb, if_neg (by omega), if_pos (by omega)]
    congr 1
    omega

/-- The drained bytes are the first of the staged bits (R192). -/
theorem staged_of_cDrains {s s1 : State} {n : Nat} {out : List Byte} (h : CompInv s) (ho : s.obits ≤ 256)
    (hn : 8 * n ≤ s.obits) (e : cDrains n s = .ok (out, s1)) :
    s.staged = bitsOf out ++ s1.staged ∧ out.length = n ∧
      s1 = { s with obuf := s1.obuf, obits := s.obits - 8 * n } := by
  obtain ⟨out', m, e', hlen, -, hkept, hout⟩ := cDrains_ok n hn ho h.outWritten h.tail
  cases e.symm.trans e'
  refine ⟨?_, hlen, rfl⟩
  rw [bitsOf_eq_segment (off := 0) (m := s.obuf) (by rw [hlen]; simpa using hout), hlen, State.staged,
    show s.obits = 8 * n + (s.obits - 8 * n) by omega, segment_add]
  congr 1
  rw [Nat.add_sub_cancel_left]
  refine segment_congr fun j _ => ?_
  dsimp only
  rw [hkept]
  congr 1
  omega

/-! ## The staged input -/

/-- The bits in `ibuf` that are not consumed yet (R49). -/
def State.buffered (s : State) : List Bool := segment s.ibuf s.ipos s.avail

/-- The bits from the cursor on: the buffered ones and those of the input still to be taken, less the padding still to
be skipped (R50). -/
def State.unread (s : State) (rest : List Byte) : List Bool := (s.buffered ++ bitsOf rest).drop s.iskip

@[simp] theorem length_buffered (s : State) : s.buffered.length = s.avail := length_segment ..

theorem length_unread (s : State) (rest : List Byte) :
    (s.unread rest).length = s.avail + 8 * rest.length - s.iskip := by
  simp [State.unread]

/-- What is buffered after the cursor moved on inside it (R141). -/
theorem Advanced.buffered {k : Nat} {s t : State} (h : Advanced k s t) (hk : s.ipos + k ≤ s.ibits)
    (hi : s.ibits ≤ 32) : t.buffered = s.buffered.drop k := by
  obtain ⟨hpos, hbits, hget⟩ := h
  have havail : t.avail = s.avail - k := by
    simp only [State.avail, hpos, hbits]
    omega
  rw [State.buffered, State.buffered, drop_segment _ _ (by unfold State.avail; omega), havail]
  refine segment_congr fun j hj => bufBit_congr ?_ (by omega)
  unfold State.avail at hj
  rw [hget _ (by omega), if_pos (by omega)]
  congr 1
  omega

/-- What is unread after `k` of the buffered bits were consumed: the rest of the padding goes with them (R142). -/
theorem Advanced.unread {k n : Nat} {s t : State} (h : Advanced k s t) (hle : s.ipos ≤ s.ibits) (hi : s.ibits ≤ 32)
    (hk : k ≤ s.avail) (hn : s.iskip + n = k + t.iskip) (rest : List Byte) :
    t.unread rest = (s.unread rest).drop n := by
  have hle' : s.ipos + k ≤ s.ibits := by
    unfold State.avail at hk
    omega
  rw [State.unread, State.unread, h.buffered hle' hi, List.drop_drop, hn,
    ← List.drop_append_of_le_length (by simpa using hk), List.drop_drop]

theorem DRealigned.unread {w : Nat} {s t : State} (h : DRealigned w s t) (hb : InBuf s) (rest : List Byte) :
    t.unread rest = (s.unread rest).drop (padding s.bitPosition s.alignBase w) := by
  obtain ⟨-, hskip, hadv⟩ := h
  exact hadv.unread hb.le (hb.hi.trans (by omega)) (Nat.min_le_right _ _) (by omega) rest

/-- The bits in front of the cursor are those of the code that D_GET answers (R64, R133). -/
theorem streamValue_eq {s : State} {rest : List Byte} {c : Code} {w : Nat} {bits : List Bool} (hw : w ≤ 16)
    (hc : c.toNat < 2 ^ w) (hskip : s.iskip = 0) (ha : w ≤ s.avail) (h : s.unread rest = codeBits c w ++ bits) :
    streamValue s.ibuf s.ipos w = c.toNat := by
  have hseg : segment s.ibuf s.ipos w = codeBits c w := by
    rw [State.unread, hskip, List.drop_zero, State.buffered, ← Nat.add_sub_of_le ha, segment_add,
      List.append_assoc] at h
    exact (List.append_inj h (by simp)).1
  refine (eq_bitsValue c _ w hw fun j _ => ?_).symm
  by_cases hj : j < w
  · have := congrArg (·[j]?) hseg
    simpa [segment, codeBits, hj, eq_comm] using this
  · simp [getLsbD_of_fits hc (Nat.not_lt.1 hj), hj]

/-- A byte taken goes from the input to the buffer (R143). -/
theorem unread_of_dTake {b : Byte} {s t : State} (h : DecompInv s) (h16 : s.ibits ≤ 16) (e : dTake b s = .ok t)
    (rest : List Byte) : t.unread rest = s.unread (b :: rest) := by
  have hle := h.iposLe
  have hbyte := h.ibitsByte
  rw [dTake_ok (by omega), dSkip_ok (by dsimp only; omega)] at e
  cases e
  generalize hu : ({ s with ibuf := Mem.put s.ibuf (s.ibits / 8) b, ibits := s.ibits + 8 } : State) = u
  have hbuf : u.buffered = s.buffered ++ (List.range 8).map b.getLsbD := by
    subst hu
    show segment _ s.ipos (s.ibits + 8 - s.ipos) = _
    rw [show s.ibits + 8 - s.ipos = s.avail + 8 by unfold State.avail; omega, segment_add]
    congr 1
    · refine segment_congr fun j hj => bufBit_congr (Mem.get_put_ne _ _ _ ?_) rfl
      unfold State.avail at hj
      omega
    · refine map_range_congr fun j hj => ?_
      unfold State.avail
      rw [show s.ipos + (s.ibits - s.ipos) + j = s.ibits + j by omega, bufBit_of_get (b := b)]
      · congr 1
        omega
      · rw [show (s.ibits + j) / 8 = s.ibits / 8 by omega]
        exact Mem.get_put_same _ _ _
  have hunread : u.unread rest = s.unread (b :: rest) := by
    rw [State.unread, hbuf, State.unread, bitsOf_cons, List.append_assoc, show u.iskip = s.iskip by rw [← hu]]
  have hadv : Advanced (min u.iskip u.avail) u (({ u with iskip := u.iskip - min u.iskip u.avail } : State).advance
      (min u.iskip u.avail)) := advance_advanced _ _
  rw [← hunread]
  refine hadv.unread (n := 0) ?_ ?_ (Nat.min_le_right _ _) ?_ rest
  · rw [← hu]
    dsimp only
    omega
  · rw [← hu]
    dsimp only
    omega
  · show u.iskip + 0 = min u.iskip u.avail + (u.iskip - min u.iskip u.avail)
    omega

end Sys2Proof.Machine
end

