-- ==== Sys2Proof/Proofs/CompressBits.lean ====
section
/-! PROOFS. Proofs/CompressBits.lean: the stream a compress session owes, as bits: those already staged, and those ahead
of its cursor, which are codes with their padding (R186, R188, R190, R198). -/

namespace Sys2Proof.Machine

/-! ## The ratio check -/

/-- `t` is `g` after a ratio check that emitted CLEAR (R190). -/
structure Cleared (g t : State) : Prop where
  block : g.blockMode = true
  full : g.full = true
  eq : t = { g with
    checkpoint := t.checkpoint, obuf := t.obuf, obits := t.obits
    bitPosition := g.bitPosition + g.nBits + padding (g.bitPosition + g.nBits) g.alignBase g.nBits
    alignBase := g.bitPosition + g.nBits + padding (g.bitPosition + g.nBits) g.alignBase g.nBits
    hslot := HashMem.allEmpty, freeEnt := 257, full := false, nBits := 9, ratioPrev := .zero }
  staged : t.staged = g.staged ++
    (codeBits 256#16 g.nBits ++ List.replicate (padding (g.bitPosition + g.nBits) g.alignBase g.nBits) false)

/-- The ratio check changes only its own registers, or ends the epoch (R190). -/
theorem CompCore.cRatio_cases {g t : State} (h : CompCore g) (ho : g.full = true → g.obits / 8 + 2 < 32)
    (e : Machine.cRatio g = .ok t) :
    (∃ k r, t = { g with checkpoint := k, ratioPrev := r }) ∨ Cleared g t := by
  by_cases hdue : ratioDue g = true
  · obtain ⟨hfull, hblock, -⟩ := ratioDue_iff.1 hdue
    cases hle : Config.RatioT.le (Config.ratio g.bytesIn (g.bitPosition / 8)) g.ratioPrev with
    | false =>
      rw [cRatio_of_improved hdue hle] at e
      cases e
      exact .inl ⟨_, _, rfl⟩
    | true =>
      rw [cRatio_of_not_improved hdue hle] at e
      obtain ⟨u, e', hu, -, happ⟩ := emitClear_ok (s := { g with checkpoint := g.bytesIn + 10000 }) h.ranges.origin
        h.ranges.bitsLo (ho hfull) h.outWritten h.tail
      cases e.symm.trans e'
      refine .inr ⟨hblock, hfull, ?_, ?_⟩
      · rw [hu]
      · rw [happ.staged, map_clear_padding h.ranges.bitsLo]
        rfl
  · rw [cRatio_of_not_due (Bool.eq_false_iff.2 hdue)] at e
    cases e
    exact .inl ⟨_, _, rfl⟩

theorem Grown.cRatio_cases {c : Byte} {s g t : State} (h : Grown c s g) (ho : s.obits < 8) (h16 : s.nBits ≤ 16)
    (e : cByte c s = .ok t) : (∃ k r, t = { g with checkpoint := k, ratioPrev := r }) ∨ Cleared g t :=
  h.core.cRatio_cases (fun hfull => by have := h.room hfull; omega) (h.byte.symm.trans e)

theorem Grown.staged {c : Byte} {s g : State} (h : Grown c s g) :
    g.staged = s.staged ++ (codeBits s.pfx s.nBits ++ List.replicate s.padOnMiss false) := by
  rw [h.appended.staged, map_code_padding]

/-! ## What C_BYTE does with a byte -/

/-- The three ways of C_BYTE (R186): the first byte, a stored pair, a pair that is not stored. -/
theorem LiveComp.cByte_cases {s t : State} (h : LiveComp s) (ho : s.obits < 8) {c : Byte}
    (e : Machine.cByte c s = .ok t) :
    (s.cphase = .first ∧ t = { s with bytesIn := s.bytesIn + 1, pfx := c.setWidth 16, cphase := .run }) ∨
    (s.cphase = .run ∧ ∃ code, Stored s.hslot s.pfx c code ∧ t = { s with bytesIn := s.bytesIn + 1, pfx := code }) ∨
    (s.cphase = .run ∧ ∃ g, Grown c s g) := by
  rcases h.phase with hph | hph
  · rw [cByte_of_first hph] at e
    cases e
    exact .inl ⟨hph, rfl⟩
  · by_cases hst : ∃ code, Stored s.hslot s.pfx c code
    · obtain ⟨code, hcode⟩ := hst
      rw [cByte_of_hit hph (lookup_of_stored (h.inv.hash.congr rfl rfl rfl) hcode)] at e
      cases e
      exact .inr (.inl ⟨hph, code, hcode, rfl⟩)
    · exact .inr (.inr ⟨hph, h.inv.grown hph ho (not_exists.1 hst)⟩)

theorem LiveComp.width_le {s : State} (h : LiveComp s) : s.nBits ≤ 16 :=
  h.inv.ranges.bitsHi.trans h.inv.ranges.maxHi

/-- C_BYTE only appends to what is staged (R132). -/
theorem LiveComp.staged_prefix_cByte {s t : State} (h : LiveComp s) (ho : s.obits < 8) {c : Byte}
    (e : Machine.cByte c s = .ok t) : s.staged <+: t.staged := by
  rcases h.cByte_cases ho e with ⟨-, rfl⟩ | ⟨-, code, -, rfl⟩ | ⟨-, g, hg⟩
  · exact List.prefix_rfl
  · exact List.prefix_rfl
  · have hsg : s.staged <+: g.staged := hg.staged ▸ List.prefix_append ..
    rcases hg.cRatio_cases ho h.width_le e with ⟨k, r, rfl⟩ | hclear
    · exact hsg
    · exact hsg.trans (hclear.staged ▸ List.prefix_append ..)

/-! ## The bits ahead -/

/-- The bits a session that owes `z` has not staged yet. -/
def State.ahead (s : State) (z : List Byte) : List Bool := (bitsOf z).drop s.obits

section
variable {inp z : List Byte} {s t : State}

/-- FINISH's bits come last: the final code, and zeros up to a whole byte (R198). -/
theorem Owes.bits_of_nil (h : Owes [] z s) (ho : s.obits < 8) :
    bitsOf z = s.staged ++ (codeBits s.pfx s.finalBits ++ List.replicate s.finalPad false) := by
  obtain ⟨d, hds, hz⟩ := h.settled ho
  obtain ⟨f, e, hz⟩ := Res.bind_eq_ok.1 hz
  obtain ⟨⟨z', u⟩, e1, hz⟩ := Res.bind_eq_ok.1 hz
  cases hz
  obtain ⟨f', ef, hf⟩ := h.live.inv.cFinal_exact h.live.phase
  have ef' := cFinal_within s e
  rw [hds] at ef'
  cases ef.symm.trans ef'
  obtain ⟨hle, hbyte⟩ := hf.inv.padded (by rw [hf.eq])
  obtain ⟨hstaged, -, hu⟩ := staged_of_cDrains hf.inv (by omega) (Nat.mul_div_le f.obits 8) (cDrains_within s e1)
  have hempty : (u.within s).staged = [] := by
    rw [← List.length_eq_zero_iff, length_staged, hu]
    change f.obits % 8 = 0 at hbyte
    show f.obits - 8 * (f.obits / 8) = 0
    omega
  rw [hempty, List.append_nil] at hstaged
  rw [← hstaged, hf.appended.staged, map_code_padding]

/-- All whole bytes delivered, the session owes the rest of the stream, with the same bits ahead (R192). -/
theorem Owes.drained (h : Owes inp z s) :
    ∃ out z' s1, z = out ++ z' ∧ Owes inp z' s1 ∧ s1.obits < 8 ∧ s.staged = bitsOf out ++ s1.staged ∧
      s1 = { s with obuf := s1.obuf, obits := s1.obits } := by
  obtain ⟨bs, d, z1, hd, hz, rfl⟩ := h.stream
  have ho := h.live.inv.obits_le h.live.phase
  obtain ⟨bs', d', hd', -, hlive, ho'⟩ := h.live.drained
  cases hd.symm.trans hd'
  obtain ⟨hstaged, -, heq⟩ := staged_of_cDrains h.live.inv (by omega) (by omega) hd
  refine ⟨bs, z1, d.within s, rfl, ⟨hlive, [], d, z1, ?_, hz, rfl⟩, ho', hstaged, ?_⟩
  · rw [Nat.div_eq_of_lt ho']
    rfl
  · rw [heq]

/-- The staged bits are the first of the bits owed. -/
theorem Owes.staged_prefix (h : Owes inp z s) : s.staged <+: bitsOf z := by
  induction inp generalizing z s with
  | nil =>
    obtain ⟨out, z', s1, rfl, h1, ho, hstaged, -⟩ := h.drained
    rw [hstaged, bitsOf_append, h1.bits_of_nil ho]
    exact List.prefix_append_right_inj _ |>.2 (List.prefix_append ..)
  | cons c rest ih =>
    obtain ⟨out, z', s1, rfl, h1, ho, hstaged, -⟩ := h.drained
    obtain ⟨t, e, ht⟩ := h1.byte ho
    rw [hstaged, bitsOf_append, List.prefix_append_right_inj]
    exact (h1.live.staged_prefix_cByte ho e).trans (ih ht)

theorem Owes.bits (h : Owes inp z s) : bitsOf z = s.staged ++ s.ahead z := by
  obtain ⟨bits, hbits⟩ := h.staged_prefix
  rw [State.ahead, ← hbits, List.drop_left' (length_staged s)]

/-- What was appended to the staged bits was ahead of them. -/
theorem Owes.ahead_of_staged (h : Owes inp z t) {bits : List Bool} (hst : t.staged = s.staged ++ bits) :
    s.ahead z = bits ++ t.ahead z := by
  rw [State.ahead, h.bits, hst, List.append_assoc, List.drop_left' (length_staged s)]

theorem Owes.ahead_of_nil (h : Owes [] z s) (ho : s.obits < 8) :
    s.ahead z = codeBits s.pfx s.finalBits ++ List.replicate s.finalPad false := by
  rw [State.ahead, h.bits_of_nil ho, List.drop_left' (length_staged s)]

theorem Owes.drained_ahead (h : Owes inp z s) :
    ∃ z' s1, Owes inp z' s1 ∧ s1.obits < 8 ∧ s1.ahead z' = s.ahead z ∧
      s1 = { s with obuf := s1.obuf, obits := s1.obits } := by
  obtain ⟨out, z', s1, rfl, h1, ho, hstaged, heq⟩ := h.drained
  refine ⟨z', s1, h1, ho, ?_, heq⟩
  have hbits := h.bits
  rw [hstaged, bitsOf_append, h1.bits, List.append_assoc, List.append_cancel_left_eq,
    List.append_cancel_left_eq] at hbits
  exact hbits

end

end Sys2Proof.Machine
end

