-- ==== Sys2Proof/Proofs/Mirror.lean ====
section
/-! PROOFS. Proofs/Mirror.lean: the two dictionaries in step (R203, R246). The decompressor is one entry behind the
compressor: it learns the last byte of the newest entry from the next code. `Mirror` says what the two sides share between
two codes, and what the decompressor does with the code the compressor emits next restores it. -/

namespace Sys2Proof.Machine

/-! ## What a code of the compressor spells -/

/-- The string a code denotes in the compressor's dictionary (R158, R166). -/
inductive HashSpells (t : HashMem) : Code → List Byte → Prop where
  | literal (c : Code) (h : c.toNat < 256) : HashSpells t c [c.setWidth 8]
  | entry (p c : Code) (b : Byte) (str : List Byte) (h : Stored t p b c) (hs : HashSpells t p str) :
      HashSpells t c (str ++ [b])

theorem hashSpells_byte (t : HashMem) (c : Byte) : HashSpells t (c.setWidth 16) [c] := by
  have := HashSpells.literal (t := t) (c.setWidth 16) (by rw [byte_toCode_toNat]; exact c.isLt)
  rwa [byte_toCode_toByte] at this

section
variable {E D : State} {p c : Code} {b : Byte} {w : List Byte}

theorem HashInv.code_range (hi : HashInv E) (h : Stored E.hslot p b c) :
    firstFree E.blockMode ≤ c.toNat ∧ c.toNat < E.freeEnt := by
  obtain ⟨a, ha⟩ := h
  exact hi.codeRange a _ ha

theorem HashInv.prefix_lt (hi : HashInv E) (h : Stored E.hslot p b c) : p.toNat < c.toNat := by
  obtain ⟨a, ha⟩ := h
  exact hi.older a _ ha

theorem HashSpells.ne_nil {t : HashMem} (h : HashSpells t c w) : w ≠ [] := by
  cases h <;> simp

/-- A string is no longer than the code's number allows (R170). -/
theorem HashSpells.length_le (hi : HashInv E) (h : HashSpells E.hslot c w) : w.length ≤ c.toNat + 1 := by
  induction h with
  | literal c h => exact Nat.succ_le_succ (Nat.zero_le _)
  | entry p c b str h hs ih =>
    have := hi.prefix_lt h
    rw [List.length_append, List.length_singleton]
    omega

/-- The code of a string is never CLEAR where CLEAR is a control code (R26). -/
theorem HashSpells.ne_clear (hi : HashInv E) (h : HashSpells E.hslot c w) (hb : E.blockMode = true) :
    c ≠ Config.clearCode := by
  rintro rfl
  cases h with
  | literal _ h => exact absurd h (by decide)
  | entry p _ b str h hs =>
    have := (hi.code_range h).1
    rw [hb] at this
    exact absurd this (by decide)

/-- The entries of the compressor below `n` stand in the decompressor's tables (R53). -/
def Tabled (E D : State) (n : Nat) : Prop := ∀ p b c, Stored E.hslot p b c → c.toNat < n →
  Mem.get D.tabPrefix c.toNat = some p ∧ Mem.get D.tabSuffix c.toNat = some b

/-- A code spells the same on both sides when its entries are shared. -/
theorem HashSpells.spells {n : Nat} (hi : HashInv E) (ht : Tabled E D n) (h : HashSpells E.hslot c w)
    (hc : c.toNat < n) : Spells D c w := by
  induction h with
  | literal c h => exact .literal c h
  | entry p c b str h hs ih =>
    obtain ⟨hp, hb⟩ := ht p b c h hc
    have h256 := firstFree_ge E.blockMode
    exact .entry c p b str (h256.trans (hi.code_range h).1) hp hb (ih ((hi.prefix_lt h).trans hc))

end

/-! ## The two sides between two codes -/

/-- The decompressor awaits the first code of an epoch, and no entry exists (R232, R234). -/
structure EpochStart (E D : State) : Prop where
  phase : D.dphase = .streamFirst ∨ D.dphase = .epochFirst
  free : D.freeEnt = firstFree E.blockMode
  noEntry : E.freeEnt = firstFree E.blockMode

/-- The decompressor is one entry behind, unless the code space is exhausted: the newest entry of the compressor is the
decompressor's previous code and the first byte of `w`, the string of the next code (R203, R246). -/
structure EpochRun (E D : State) (w : List Byte) : Prop where
  phase : D.dphase = .run
  free : E.freeEnt = min (D.freeEnt + 1) (2 ^ E.maxbits)
  newest : ∀ p b c, Stored E.hslot p b c → c.toNat = D.freeEnt → p = D.oldCode ∧ w.head? = some b

/-- The dictionaries of the two sides; `w` is the string of the compressor's pending prefix. -/
structure SameWords (E D : State) (w : List Byte) : Prop where
  maxbits : D.maxbits = E.maxbits
  blockMode : D.blockMode = E.blockMode
  spells : HashSpells E.hslot E.pfx w
  tables : Tabled E D D.freeEnt
  epoch : EpochStart E D ∨ EpochRun E D w

/-- The two sides between two codes: the same dictionaries, the same width and the same cursor (R203). -/
structure Mirror (E D : State) (w : List Byte) : Prop where
  words : SameWords E D w
  nBits : D.nBits = E.nBits
  bitPosition : D.bitPosition = E.bitPosition
  alignBase : D.alignBase = E.alignBase

/-! ## The decompressor on the emitted code -/

/-- `bytes` stand on the stack, the next to be delivered first (R248). -/
def Tops (D : State) (bytes : List Byte) : Prop :=
  D.sp = bytes.length ∧ ∀ i, i < bytes.length → bytes[i]? = Mem.get D.stack (D.sp - 1 - i)

theorem Pushed.tops {w : List Byte} {s t : State} (h : Pushed w.reverse s t) (hsp : s.sp = 0) : Tops t w := by
  obtain ⟨hlen, hin, -⟩ := h
  rw [List.length_reverse, hsp, Nat.zero_add] at hlen
  refine ⟨hlen, fun i hi => ?_⟩
  have := hin (w.length - 1 - i) (by rw [List.length_reverse]; omega)
  rw [hsp, Nat.zero_add, List.getElem?_reverse (by omega), show w.length - 1 - (w.length - 1 - i) = i by omega] at this
  rw [hlen, this]

/-- What the decompressor has done with the code of `w` that the compressor emits: its string is on the stack, and no
entry of the compressor is missing any more (R235). -/
structure Consumed (E D D' : State) (w : List Byte) : Prop where
  run : D'.dphase = .run
  old : D'.oldCode = E.pfx
  free : D'.freeEnt = E.freeEnt
  maxbits : D'.maxbits = D.maxbits
  blockMode : D'.blockMode = D.blockMode
  tables : Tabled E D' E.freeEnt
  width : WidthFollows D'.freeEnt D D'
  tops : Tops D' w

/-- A byte as the first code of a stream or of an epoch (R232, R234). -/
theorem interpret_of_literal_first {c : Code} {s : State} (hph : s.dphase = .streamFirst ∨ s.dphase = .epochFirst)
    (hc : c.toNat < 256) : interpret c s = firstLiteral c s := by
  rcases hph with hph | hph
  · rw [interpret_of_streamFirst hph, dFirst_of_lt hc]
  · rw [interpret_of_epochFirst hph (not_clear_of_lt hc), dFirst_of_lt hc]

section
variable {E D : State} {w : List Byte}

/-- The first code of an epoch is a byte (R232, R234). -/
theorem SameWords.consume_first (hw : SameWords E D w) (hs : EpochStart E D) (hi : HashInv E) (h9 : 9 ≤ D.nBits)
    (hsp : D.sp = 0) : ∃ D', interpret E.pfx D = .ok D' ∧ Consumed E D D' w := by
  have hnone : ∀ p b c, ¬ Stored E.hslot p b c := fun p b c h => by
    have := hi.code_range h
    have := hs.noEntry
    omega
  obtain ⟨hlit, rfl⟩ : E.pfx.toNat < 256 ∧ w = [E.pfx.setWidth 8] := by
    cases hw.spells with
    | literal _ h => exact ⟨h, rfl⟩
    | entry p _ b str h _ => exact absurd h (hnone p b _)
  have h512 : 2 ^ 9 ≤ 2 ^ D.nBits := Nat.pow_le_pow_right (by omega) h9
  have hfirst : firstFree E.blockMode ≤ 257 := by unfold firstFree; split <;> omega
  refine ⟨_, (interpret_of_literal_first hs.phase hlit).trans (firstLiteral_ok (by omega)), rfl, rfl,
    hs.free.trans hs.noEntry.symm, rfl, rfl, fun p b c h => absurd h (hnone p b c), ?_, ?_⟩
  · have hfree := hs.free
    rw [WidthFollows, if_neg (by dsimp only; omega)]
    exact ⟨rfl, rfl, rfl, rfl, rfl, rfl, rfl⟩
  · exact Pushed.tops (w := [E.pfx.setWidth 8]) (pushAll_pushed [E.pfx.setWidth 8] D) hsp

/-- A later code is one that the decompressor has, or the newest one: its string is output (R235, R236). -/
theorem SameWords.expanded (hw : SameWords E D w) (hr : EpochRun E D w) (hi : HashInv E)
    (hpfx : E.pfx.toNat < E.freeEnt) (hd : DecompInv D) (hsp : D.sp = 0) :
    ∃ first D', w.head? = some first ∧ interpret E.pfx D = .ok D' ∧
      Expanded E.pfx w.reverse first D (D'.withResult .unit) := by
  have ho := hd.opened (by rw [hr.phase]; simp)
  have h9 := ho.ranges.bitsLo
  have hlen := hw.spells.length_le hi
  have hlt := E.pfx.isLt
  have hfree := hr.free
  rw [interpret_of_run hr.phase fun h => hw.spells.ne_clear hi (hw.blockMode.symm.trans h.2) h.1]
  by_cases hc : E.pfx.toNat < D.freeEnt
  · obtain ⟨first, t, hfirst, e, he, -⟩ := expandCode_spec (incoming := E.pfx) (hw.spells.spells hi hw.tables hc)
      (by omega) ho.ranges.maxHi ho.ranges.origin (by omega) hd.iposLe
    exact ⟨first, t, hfirst, (dExpand_of_lt hc).trans e, he⟩
  · have hnew : E.pfx.toNat = D.freeEnt := by omega
    have h256 := (firstFree_ge D.blockMode).trans ho.ranges.freeLo
    rw [dExpand_of_eq hnew]
    have hspells := hw.spells
    generalize hp : E.pfx = code at hspells
    cases hspells with
    | literal _ h =>
      rw [← hp] at h
      omega
    | entry p _ b str h hs =>
      rw [← hp] at h
      obtain ⟨rfl, hhead⟩ := hr.newest p b _ h hnew
      have hold : Spells D D.oldCode str := hs.spells hi hw.tables (hnew ▸ hi.prefix_lt h)
      obtain ⟨str', hold', hlast⟩ := ho.lastFirst hr.phase
      rw [hold'.unique hold] at hlast
      have hb : b = D.lastChar := by
        rw [List.head?_append, hlast] at hhead
        exact (Option.some.inj hhead).symm
      subst hb
      rw [List.length_append, List.length_singleton] at hlen
      obtain ⟨first, t, hfirst, e, he, -⟩ := expandCode_spec (incoming := code)
        (s := { D with stack := Mem.put D.stack D.sp D.lastChar, sp := D.sp + 1 }) (hold.of_tables rfl rfl)
        (by dsimp only; omega) ho.ranges.maxHi ho.ranges.origin (by dsimp only; omega) hd.iposLe
      refine ⟨first, t, by rw [List.head?_append, hfirst]; rfl, ?_, ?_⟩
      · rw [expandKwkwk, push_ok (by omega), Res.ok_bind]
        exact e
      · rw [List.reverse_append]
        exact he.of_push

theorem Expanded.consumed {first : Byte} {D' : State} (he : Expanded E.pfx w.reverse first D (D'.withResult .unit))
    (hw : SameWords E D w) (hr : EpochRun E D w) (hhi : D.freeEnt ≤ 2 ^ D.maxbits)
    (hfirst : w.head? = some first) (hsp : D.sp = 0) : Consumed E D D' w := by
  obtain ⟨heq, hpush, hent, hwidth⟩ := he
  have hfree := hr.free
  have hmax := hw.maxbits
  have hE : D'.freeEnt = E.freeEnt ∧ Tabled E D' E.freeEnt := by
    rw [EntryCreated, hmax] at hent
    rw [hmax] at hhi
    split at hent
    · obtain ⟨hf, hpre, hsuf, hother⟩ := hent
      change D'.freeEnt = _ at hf
      refine ⟨by omega, fun p b c h hc => ?_⟩
      by_cases hnew : c.toNat = D.freeEnt
      · obtain ⟨rfl, hhead⟩ := hr.newest p b c h hnew
        cases hfirst.symm.trans hhead
        rw [hnew]
        exact ⟨hpre, hsuf⟩
      · obtain ⟨hp, hb⟩ := hw.tables p b c h (by omega)
        exact ⟨(hother _ hnew).1.trans hp, (hother _ hnew).2.trans hb⟩
    · obtain ⟨hf, hp, hs⟩ := hent
      change D'.freeEnt = _ at hf
      change D'.tabPrefix = _ at hp
      change D'.tabSuffix = _ at hs
      refine ⟨by omega, fun p b c h hc => ?_⟩
      rw [hp, hs]
      exact hw.tables p b c h (by omega)
  have hmaxbits : (D'.withResult .unit).maxbits = D.maxbits := by rw [heq]; rfl
  have hblock : (D'.withResult .unit).blockMode = D.blockMode := by rw [heq]; rfl
  exact ⟨(congrArg State.dphase heq).trans hr.phase, congrArg State.oldCode heq, hE.1, hmaxbits, hblock, hE.2, hwidth,
    hpush.tops hsp⟩

/-- The decompressor consumes the code that the compressor emits (R230). -/
theorem SameWords.consume (hw : SameWords E D w) (hi : HashInv E) (hpfx : E.pfx.toNat < E.freeEnt) (hd : DecompInv D)
    (hh : D.dphase ≠ .header) (hsp : D.sp = 0) : ∃ D', interpret E.pfx D = .ok D' ∧ Consumed E D D' w := by
  have hr := (hd.opened hh).ranges
  rcases hw.epoch with hs | hrun
  · exact hw.consume_first hs hi hr.bitsLo hsp
  · obtain ⟨first, D', hfirst, e, he⟩ := hw.expanded hrun hi hpfx hd hsp
    exact ⟨D', e, he.consumed hw hrun hr.freeHi hfirst hsp⟩

end

/-! ## The mirror after a code -/

/-- How far D_GROW moves the cursor on (R240). -/
def State.padOnGrowth (s : State) (f : Nat) : Nat :=
  if 2 ^ s.nBits - 1 < f ∧ s.nBits < s.maxbits then padding s.bitPosition s.alignBase s.nBits else 0

theorem WidthFollows.unread {f : Nat} {s t : State} (h : WidthFollows f s t) (hb : InBuf s) (rest : List Byte) :
    t.unread rest = (s.unread rest).drop (s.padOnGrowth f) := by
  unfold WidthFollows at h
  unfold State.padOnGrowth
  split at h
  · rw [if_pos ‹_›]
    exact h.2.1.unread hb rest
  · obtain ⟨-, -, -, hskip, hpos, hbits, hbuf⟩ := h
    rw [if_neg ‹_›, List.drop_zero, State.unread, State.unread, State.buffered, State.buffered, State.avail,
      State.avail, hskip, hpos, hbits, hbuf]

section
variable {E D D' g : State} {c : Byte} {w : List Byte}

/-- `free_ent` after a miss stops at the end of the code space (R156). -/
theorem CompCore.freeAfterMiss_eq (h : CompCore E) : E.freeAfterMiss = min (E.freeEnt + 1) (2 ^ E.maxbits) := by
  have hfull := h.fullIff
  have hhi := h.ranges.freeHi
  unfold State.freeAfterMiss
  cases hf : E.full with
  | true =>
    rw [hf, eq_comm, exhausted, decide_eq_true_eq] at hfull
    simp only [if_true]
    omega
  | false =>
    rw [hf, eq_comm, exhausted, decide_eq_false_iff_not] at hfull
    simp only [Bool.false_eq_true, if_false]
    omega

/-- The two growth tests agree, the decompressor's on a `free_ent` of one less (R246). -/
theorem CompCore.growsOnMiss_iff (h : CompCore E) :
    E.growsOnMiss = true ↔ 2 ^ E.nBits - 1 < E.freeEnt ∧ E.nBits < E.maxbits := by
  rw [State.growsOnMiss, decide_eq_true_eq, h.freeAfterMiss_eq]
  have hpos : 0 < 2 ^ E.nBits := Nat.two_pow_pos _
  constructor
  · rintro ⟨hlt, hgrow⟩
    exact ⟨by omega, hlt⟩
  · rintro ⟨hgrow, hlt⟩
    have : 2 ^ E.nBits < 2 ^ E.maxbits := Nat.pow_lt_pow_right (by omega) hlt
    exact ⟨hlt, by omega⟩

/-- After the compressor's miss with the byte `c` the newest entry is the emitted code and `c` (R203). -/
theorem Consumed.sameWords (h : Consumed E D D' w) (hw : SameWords E D w) (hc : CompCore E) (hg : Grown c E g) :
    SameWords g D' [c] := by
  have hmax : g.maxbits = E.maxbits := by rw [hg.eq]
  have hblock : g.blockMode = E.blockMode := by rw [hg.eq]
  have hpfx : g.pfx = c.setWidth 16 := by rw [hg.eq]
  have hfree : g.freeEnt = E.freeAfterMiss := by rw [hg.eq]
  have hnew : E.full = false → (BitVec.ofNat 16 E.freeEnt).toNat = E.freeEnt := fun hf => by
    have hfull := hc.fullIff
    have hhi := hc.ranges.freeHi
    rw [hf, eq_comm, exhausted, decide_eq_false_iff_not] at hfull
    rw [BitVec.toNat_ofNat]
    exact Nat.mod_eq_of_lt (lt_65536_of_lt_two_pow (lt_of_le_of_ne hhi hfull) hc.ranges.maxHi)
  refine ⟨h.maxbits.trans (hw.maxbits.trans hmax.symm), h.blockMode.trans (hw.blockMode.trans hblock.symm), ?_, ?_,
    .inr ⟨h.run, ?_, ?_⟩⟩
  · rw [hpfx]
    exact hashSpells_byte g.hslot c
  · intro p b code hst hlt
    rw [h.free] at hlt
    rcases (hg.stored p b code).1 hst with hst | ⟨hf, -, -, rfl⟩
    · exact h.tables p b code hst hlt
    · rw [hnew hf] at hlt
      exact absurd hlt (lt_irrefl _)
  · rw [hfree, h.free, hmax, hc.freeAfterMiss_eq]
  · intro p b code hst heq
    rw [h.free] at heq
    rcases (hg.stored p b code).1 hst with hst | ⟨-, rfl, rfl, -⟩
    · exact absurd heq (hc.hash.code_range hst).2.ne
    · exact ⟨h.old.symm, rfl⟩

/-- The decompressor's growth step follows the compressor's (R240, R246). -/
theorem Consumed.mirror (h : Consumed E D D' w) (hw : SameWords E D w) (hc : CompCore E) (hg : Grown c E g)
    (hn : D.nBits = E.nBits) (hp : D.bitPosition = E.bitPosition + E.nBits) (ha : D.alignBase = E.alignBase) :
    Mirror g D' [c] ∧ D.padOnGrowth D'.freeEnt = E.padOnMiss := by
  have hiff := hc.growsOnMiss_iff
  have horigin := hc.ranges.origin
  have h9 := hc.ranges.bitsLo
  have hwidth := h.width
  have hpad : D.padOnGrowth D'.freeEnt = E.padOnMiss := by
    rw [State.padOnGrowth, State.padOnMiss, hn, hp, ha, hw.maxbits, h.free]
    simp only [← hiff]
  have hbits : g.nBits = if E.growsOnMiss then E.nBits + 1 else E.nBits := by rw [hg.eq]
  have hpos : g.bitPosition = E.bitPosition + E.nBits + E.padOnMiss := by rw [hg.eq]
  have hbase : g.alignBase = if E.growsOnMiss then originAfterGrowth (E.bitPosition + E.nBits + E.padOnMiss) E.alignBase
    else E.alignBase := by rw [hg.eq]
  rw [WidthFollows, hn, hw.maxbits, h.free] at hwidth
  rw [State.padOnMiss] at hpos hbase
  by_cases hgrow : E.growsOnMiss = true
  · rw [if_pos (hiff.1 hgrow)] at hwidth
    obtain ⟨hbits', ⟨hpos', -⟩, hbase'⟩ := hwidth
    rw [hp, ha, ← add_padding (by omega) (by omega)] at hpos'
    rw [hpos', ha] at hbase'
    rw [hgrow] at hbits hpos hbase
    exact ⟨⟨h.sameWords hw hc hg, hbits'.trans hbits.symm, hpos'.trans hpos.symm, hbase'.trans hbase.symm⟩, hpad⟩
  · rw [if_neg (fun h => hgrow (hiff.2 h))] at hwidth
    obtain ⟨hbits', hpos', hbase', -⟩ := hwidth
    rw [Bool.eq_false_iff.2 hgrow] at hbits hpos hbase
    exact ⟨⟨h.sameWords hw hc hg, (hbits'.trans hn).trans hbits.symm, (hpos'.trans hp).trans hpos.symm,
      (hbase'.trans ha).trans hbase.symm⟩, hpad⟩

end

end Sys2Proof.Machine
end

