-- ==== Sys2Proof/Proofs/CodeStream.lean ====
section
/-! PROOFS. Proofs/CodeStream.lean: the bits ahead of a compress session, code by code: where its next code comes from, how
many bytes of input a code can stand for, and that the two sides look at few registers of each other (R184, R186, R203). -/

namespace Sys2Proof.Machine

/-! ## What the mirror looks at -/

/-- The registers of the compressor's dictionary. -/
def State.dictionary (s : State) : Nat × Bool × Nat × HashMem := (s.maxbits, s.blockMode, s.freeEnt, s.hslot)

/-- The decompressor's tables and the registers that go with them. -/
def State.tables (s : State) : Nat × Bool × Nat × DPhase × Code × Mem Code × Mem Byte :=
  (s.maxbits, s.blockMode, s.freeEnt, s.dphase, s.oldCode, s.tabPrefix, s.tabSuffix)

/-- The registers of the cursor, which both sides have. -/
def State.cursor (s : State) : Nat × Nat × Nat := (s.nBits, s.bitPosition, s.alignBase)

section
variable {E E' D D' : State} {w w' : List Byte}

/-- The pending prefix may grow at its end, which leaves its first byte. -/
theorem SameWords.of_eq (h : SameWords E D w) (hE : E'.dictionary = E.dictionary) (hD : D'.tables = D.tables)
    (hs : HashSpells E'.hslot E'.pfx w') (hhead : w'.head? = w.head?) : SameWords E' D' w' := by
  simp only [State.dictionary, State.tables, Prod.mk.injEq] at hE hD
  obtain ⟨e1, e2, e3, e4⟩ := hE
  obtain ⟨d1, d2, d3, d4, d5, d6, d7⟩ := hD
  refine ⟨by rw [d1, e1, h.maxbits], by rw [d2, e2, h.blockMode], hs, ?_, h.epoch.imp (fun he => ?_) fun hr => ?_⟩
  · rw [Tabled, e4, d3, d6, d7]
    exact h.tables
  · exact ⟨by rw [d4]; exact he.phase, by rw [d3, e2, he.free], by rw [e3, e2, he.noEntry]⟩
  · refine ⟨by rw [d4, hr.phase], by rw [e3, d3, e1, hr.free], ?_⟩
    rw [e4, d3, d5, hhead]
    exact hr.newest

theorem Mirror.of_eq (h : Mirror E D w) (hE : E'.dictionary = E.dictionary) (hEc : E'.cursor = E.cursor)
    (hD : D'.tables = D.tables) (hDc : D'.cursor = D.cursor) (hs : HashSpells E'.hslot E'.pfx w')
    (hhead : w'.head? = w.head?) : Mirror E' D' w' := by
  simp only [State.cursor, Prod.mk.injEq] at hEc hDc
  obtain ⟨e1, e2, e3⟩ := hEc
  obtain ⟨d1, d2, d3⟩ := hDc
  exact ⟨h.words.of_eq hE hD hs hhead, by rw [d1, e1, h.nBits], by rw [d2, e2, h.bitPosition],
    by rw [d3, e3, h.alignBase]⟩

end

/-! ## The next code -/

/-- A session whose next step is to emit its prefix, which spells `w`: there is no more input, or the next byte misses. -/
structure Poised (E : State) (inp z w : List Byte) : Prop where
  owes : Owes inp z E
  settled : E.obits < 8
  run : E.cphase = .run
  spells : HashSpells E.hslot E.pfx w
  next : inp = [] ∨ ∃ c rest g, inp = c :: rest ∧ Grown c E g

section
variable {E : State} {inp z w : List Byte}

/-- The hits in front of the next code move the prefix only (R186). -/
theorem Owes.poised_of_settled (h : Owes inp z E) (ho : E.obits < 8) (hrun : E.cphase = .run)
    (hs : HashSpells E.hslot E.pfx w) :
    ∃ E' inp' w', Poised E' inp' z w' ∧ w ++ inp = w' ++ inp' ∧ inp'.length ≤ inp.length ∧ w'.head? = w.head? ∧
      E' = { E with bytesIn := E'.bytesIn, pfx := E'.pfx } := by
  induction inp generalizing E w with
  | nil => exact ⟨E, [], w, ⟨h, ho, hrun, hs, .inl rfl⟩, rfl, le_refl _, rfl, rfl⟩
  | cons c rest ih =>
    obtain ⟨t, e, ht⟩ := h.byte ho
    rcases h.live.cByte_cases ho e with ⟨hfirst, -⟩ | ⟨-, code, hst, rfl⟩ | ⟨-, g, hg⟩
    · exact absurd (hrun.symm.trans hfirst) (by simp)
    · obtain ⟨E', inp', w', hp, hsplit, hle, hhead, heq⟩ := ih ht ho hrun (.entry _ code c w hst hs)
      refine ⟨E', inp', w', hp, by rw [← hsplit, List.append_assoc]; rfl, Nat.le_succ_of_le hle,
        hhead.trans ?_, heq⟩
      exact List.head?_append_of_ne_nil _ hs.ne_nil
    · exact ⟨E, c :: rest, w, ⟨h, ho, hrun, hs, .inr ⟨c, rest, g, rfl, hg⟩⟩, rfl, le_refl _, rfl, rfl⟩

/-- Every running session comes to its next code with its dictionary and its cursor as they are, and with the same bits
ahead: it has delivered what was whole, and the hits moved its prefix. -/
theorem Owes.poised (h : Owes inp z E) (hrun : E.cphase = .run) (hs : HashSpells E.hslot E.pfx w) :
    ∃ E' inp' z' w', Poised E' inp' z' w' ∧ w ++ inp = w' ++ inp' ∧ inp'.length ≤ inp.length ∧ w'.head? = w.head? ∧
      E'.ahead z' = E.ahead z ∧ E'.dictionary = E.dictionary ∧ E'.cursor = E.cursor := by
  obtain ⟨z', E1, h1, ho, hahead, heq⟩ := h.drained_ahead
  obtain ⟨E', inp', w', hp, hsplit, hle, hhead, heq'⟩ := h1.poised_of_settled (w := w) ho (by rw [heq]; exact hrun)
    (by rw [heq]; exact hs)
  exact ⟨E', inp', z', w', hp, hsplit, hle, hhead, .trans (by rw [heq']; rfl) hahead, by rw [heq', heq]; rfl,
    by rw [heq', heq]; rfl⟩

/-- The last code of a stream, and less than a byte of padding (R198). -/
theorem Poised.ahead_of_nil (h : Poised E [] z w) :
    ∃ k, k < 8 ∧ E.ahead z = codeBits E.pfx E.nBits ++ List.replicate k false := by
  refine ⟨E.finalPad, ?_, ?_⟩
  · unfold State.finalPad
    split <;> omega
  · rw [h.owes.ahead_of_nil h.settled, State.finalBits, if_pos h.run]

/-- A code that a miss emits, the padding of the growth, and the rest: with a CLEAR in front of it where the ratio check
ended the epoch (R186, R190). -/
theorem Poised.ahead_of_grown {c : Byte} {g : State} (h : Poised E (c :: inp) z w) (hg : Grown c E g) :
    ∃ t bits, Owes inp z t ∧ E.ahead z = codeBits E.pfx E.nBits ++ (List.replicate E.padOnMiss false ++ bits) ∧
      ((bits = t.ahead z ∧ ∃ k r, t = { g with checkpoint := k, ratioPrev := r }) ∨
        (Cleared g t ∧ bits = codeBits 256#16 g.nBits ++
          (List.replicate (padding (g.bitPosition + g.nBits) g.alignBase g.nBits) false ++ t.ahead z))) := by
  obtain ⟨t, e, ht⟩ := h.owes.byte h.settled
  rcases hg.cRatio_cases h.settled h.owes.live.width_le e with ⟨k, r, rfl⟩ | hclear
  · refine ⟨_, _, ht, ?_, .inl ⟨rfl, k, r, rfl⟩⟩
    rw [ht.ahead_of_staged (s := E) hg.staged, List.append_assoc]
  · refine ⟨t, _, ht, ?_, .inr ⟨hclear, rfl⟩⟩
    rw [ht.ahead_of_staged (s := E) (hclear.staged.trans (by rw [hg.staged, List.append_assoc]))]
    simp only [List.append_assoc]

theorem Grown.cphase {c : Byte} {g : State} (h : Grown c E g) : g.cphase = E.cphase := by rw [h.eq]

theorem Grown.pfx {c : Byte} {g : State} (h : Grown c E g) : g.pfx = c.setWidth 16 := by rw [h.eq]

/-- What is left of the session that emitted a code starts with the byte that missed (R186). -/
theorem Grown.next_run {c : Byte} {g t : State} (h : Grown c E g) (hrun : E.cphase = .run)
    (ht : (∃ k r, t = { g with checkpoint := k, ratioPrev := r }) ∨ Cleared g t) :
    t.cphase = .run ∧ t.pfx = c.setWidth 16 := by
  rcases ht with ⟨k, r, rfl⟩ | ht
  · exact ⟨h.cphase.trans hrun, h.pfx⟩
  · rw [ht.eq]
    exact ⟨h.cphase.trans hrun, h.pfx⟩

/-- A code is ahead of a running session. -/
theorem Owes.width_le_ahead (h : Owes inp z E) (hrun : E.cphase = .run) (hs : HashSpells E.hslot E.pfx w) :
    E.nBits ≤ (E.ahead z).length := by
  obtain ⟨E', inp', z', w', hp, -, -, -, hahead, -, hcursor⟩ := h.poised hrun hs
  rw [← hahead, show E.nBits = E'.nBits from (congrArg Prod.fst hcursor).symm]
  rcases hp.next with rfl | ⟨c, rest, g, rfl, hg⟩
  · obtain ⟨k, -, hbits⟩ := hp.ahead_of_nil
    simp [hbits]
  · obtain ⟨t, bits, -, hbits, -⟩ := hp.ahead_of_grown hg
    simp [hbits]

/-- Each code ahead stands for at most 65536 bytes, and has at least 9 bits (R170). -/
theorem Owes.length_le_ahead (h : Owes inp z E) (hrun : E.cphase = .run) (hs : HashSpells E.hslot E.pfx w) :
    9 * (w.length + inp.length) ≤ 65536 * (E.ahead z).length := by
  generalize hn : inp.length = n
  induction n using Nat.strong_induction_on generalizing E inp z w with
  | _ n ih =>
    obtain ⟨E', inp', z', w', hp, hsplit, hle, -, hahead, -⟩ := h.poised hrun hs
    have h9 := hp.owes.live.inv.ranges.bitsLo
    have hw := hp.spells.length_le hp.owes.live.inv.hash
    have hlt := E'.pfx.isLt
    have hsum := congrArg List.length hsplit
    rw [List.length_append, List.length_append] at hsum
    rw [← hn, hsum, ← hahead]
    rcases hp.next with rfl | ⟨c, rest, g, rfl, hg⟩
    · obtain ⟨k, -, hbits⟩ := hp.ahead_of_nil
      rw [hbits, List.length_append, length_codeBits, List.length_nil]
      omega
    · obtain ⟨t, bits, ht, hbits, hcases⟩ := hp.ahead_of_grown hg
      obtain ⟨htrun, htpfx⟩ := hg.next_run hp.run (hcases.imp (fun h => h.2) fun h => h.1)
      have hrest := ih rest.length (by rw [List.length_cons] at hle; omega) ht htrun
        (htpfx ▸ hashSpells_byte t.hslot c) rfl
      have hlen : (t.ahead z').length ≤ bits.length := by
        rcases hcases with ⟨rfl, -⟩ | ⟨-, rfl⟩
        · exact le_refl _
        · simp only [List.length_append]
          omega
      rw [hbits, List.length_append, length_codeBits, List.length_append, List.length_cons]
      rw [List.length_singleton] at hrest
      omega

end

end Sys2Proof.Machine
end

