-- ==== Sys2Proof/Proofs/Decoding.lean ====
section
/-! PROOFS. Proofs/Decoding.lean: a decompress session in front of the stream of a compressor. `Stage` says how far it has
come in that stream, and what it will still output; every step of D_LOOP goes on in it (R203, R224). -/

namespace Sys2Proof.Machine

/-! ## Where the decompressor stands in the stream -/

/-- `Stage D bits out`: `D` is in front of `bits`, which a compressor has written, and is to output `out` for them. The
header is still to come, or the next code, or a CLEAR, or no code any more. -/
inductive Stage (D : State) : List Bool → List Byte → Prop where
  | header (E : State) (cfg : Byte) (inp z : List Byte) (phase : D.dphase = .header) (legal : cfgLegal cfg = true)
      (opened : E = { openCompress cfg E with obuf := E.obuf, obits := 0 }) (owes : Owes inp z E) :
      Stage D (bitsOf [Config.magic1, Config.magic2, cfg] ++ E.ahead z) inp
  | code (E : State) (inp z w : List Byte) (owes : Owes inp z E) (run : E.cphase = .run) (mirror : Mirror E D w) :
      Stage D (E.ahead z) (w ++ inp)
  | clear (g E : State) (c : Byte) (inp z : List Byte) (owes : Owes inp z E) (cleared : Cleared g E)
      (run : E.cphase = .run) (pfx : E.pfx = c.setWidth 16) (mirror : Mirror g D [c]) (phase : D.dphase = .run) :
      Stage D (codeBits 256#16 g.nBits ++
        (List.replicate (padding (g.bitPosition + g.nBits) g.alignBase g.nBits) false ++ E.ahead z)) (c :: inp)
  | ended (bits : List Bool) (phase : D.dphase ≠ .header) (short : bits.length < 9) : Stage D bits []

/-- `D` is a live session that will output `out` when it is given `rest`. -/
structure Decoding (rest out : List Byte) (D : State) : Prop where
  live : LiveDecomp D
  stage : ∃ bytes later, out = bytes ++ later ∧ Tops D bytes ∧ Stage D (D.unread rest) later

section
variable {D D' : State} {bits : List Bool} {out rest : List Byte}

/-- The stage depends on the tables and the cursor only. -/
theorem Stage.of_eq (h : Stage D bits out) (ht : D'.tables = D.tables) (hc : D'.cursor = D.cursor) :
    Stage D' bits out := by
  have hph : D'.dphase = D.dphase := congrArg (·.2.2.2.1) ht
  cases h with
  | header E cfg inp z phase legal opened owes => exact .header E cfg out z (hph.trans phase) legal opened owes
  | code E inp z w owes run mirror =>
    exact .code E inp z w owes run (mirror.of_eq rfl rfl ht hc mirror.words.spells rfl)
  | clear g E c inp z owes cleared run pfx mirror phase =>
    exact .clear g E c inp z owes cleared run pfx (mirror.of_eq rfl rfl ht hc mirror.words.spells rfl) (hph.trans phase)
  | ended bits phase short => exact .ended bits (hph ▸ phase) short

/-- Between two codes the header is done with. -/
theorem SameWords.phase_ne_header {E : State} {w : List Byte} (h : SameWords E D w) : D.dphase ≠ .header := by
  rcases h.epoch with ⟨hph | hph, -⟩ | ⟨hph, -⟩ <;> simp [hph]

theorem Decoding.tops (h : Decoding rest out D) (hsp : D.sp = 0) : Stage D (D.unread rest) out := by
  obtain ⟨-, bytes, later, rfl, ⟨hlen, -⟩, hs⟩ := h
  obtain rfl := List.length_eq_zero_iff.1 (hlen.symm.trans hsp)
  exact hs

/-! ## Draining and taking -/

theorem Tops.drained {bytes : List Byte} (h : Tops D bytes) {n : Nat} (hn : n ≤ D.sp) :
    Tops { D with sp := D.sp - n } (bytes.drop n) := by
  obtain ⟨hlen, hget⟩ := h
  refine ⟨by rw [List.length_drop, ← hlen], fun i hi => ?_⟩
  rw [List.length_drop] at hi
  rw [List.getElem?_drop, hget _ (by omega)]
  congr 1
  dsimp only
  omega

/-- What D_DRAIN delivers is what was to be output first (R248). -/
theorem Decoding.dDrainWhile (h : Decoding rest out D) (room : Nat) :
    ∃ bs out' D', Machine.dDrainWhile room D = .ok (bs, D') ∧ out = bs ++ out' ∧ Decoding rest out' D' ∧
      (D'.sp = 0 ∨ bs.length = room) := by
  obtain ⟨hlive, bytes, later, rfl, htops, hs⟩ := h
  obtain ⟨bs, e, hlen, hget⟩ := dDrains_ok (min D.sp room) (Nat.min_le_left _ _) (hlive.inv.spHi.trans (by omega))
    hlive.inv.stackWritten
  have hbs : bs = bytes.take (min D.sp room) := by
    refine List.ext_getElem? fun i => ?_
    rw [List.getElem?_take]
    split
    · rw [hget i ‹_›, htops.2 i (by have := htops.1; omega)]
    · exact List.getElem?_eq_none (by omega)
  refine ⟨bs, bytes.drop (min D.sp room) ++ later, _, e, ?_, ⟨hlive.drained _, _, _, rfl,
    htops.drained (Nat.min_le_left _ _), hs.of_eq rfl rfl⟩, ?_⟩
  · rw [hbs, ← List.append_assoc, List.take_append_drop]
  · rw [hlen]
    dsimp only
    omega

/-- D_TAKE changes nothing of what is to be read and output (R143). -/
theorem Decoding.dTake {b : Byte} (h : Decoding (b :: rest) out D) (h16 : D.ibits ≤ 16) :
    ∃ D', Machine.dTake b D = .ok D' ∧ Decoding rest out D' := by
  obtain ⟨hlive, bytes, later, hout, htops, hs⟩ := h
  obtain ⟨D', e, hlive', -⟩ := dTake_live b hlive h16
  have hunread := unread_of_dTake hlive.inv h16 e rest
  have hle := hlive.inv.iposLe
  have heq := e
  rw [dTake_ok (by omega), dSkip_ok (by dsimp only; omega)] at heq
  cases heq
  exact ⟨_, e, hlive', bytes, later, hout, htops, hunread ▸ hs.of_eq rfl rfl⟩

/-! ## The header -/

/-- The bits of a stream are those of one byte sequence only. -/
theorem bitsOf_injective {y z : List Byte} (h : bitsOf y = bitsOf z) : y = z := by
  induction y generalizing z with
  | nil =>
    have := congrArg List.length h
    rw [length_bitsOf, length_bitsOf] at this
    exact (List.length_eq_zero_iff.1 (by simpa using this.symm)).symm
  | cons b y ih =>
    cases z with
    | nil => simp at h
    | cons c z =>
      obtain ⟨hb, hy⟩ := List.append_inj h (by simp)
      rw [ih hy]
      congr 1
      refine BitVec.eq_of_getLsbD_eq fun i hi => ?_
      have := congrArg (·[i]?) hb
      simpa [hi] using this

/-- The fields of the header that the compressor writes (R92, R93). -/
theorem hdr_of_cfg (cfg : Byte) : hdrMagicOk (windowOf Config.magic1 Config.magic2 cfg) = true ∧
    hdrBlock (windowOf Config.magic1 Config.magic2 cfg) = cfgBlock cfg ∧
    (hdrMaxbits (windowOf Config.magic1 Config.magic2 cfg)).toNat = cfgMaxbits cfg := by
  revert cfg; decide

/-- D_HEADER on the header of a legal `cfg` (R228). -/
theorem dHeader_of_cfg {cfg : Byte} (hcfg : cfgLegal cfg = true) (h0 : Mem.get D.ibuf 0 = some Config.magic1)
    (h1 : Mem.get D.ibuf 1 = some Config.magic2) (h2 : Mem.get D.ibuf 2 = some cfg) (h24 : 24 ≤ D.ibits) :
    dHeader D = .ok { D with
      maxbits := cfgMaxbits cfg, blockMode := cfgBlock cfg, nBits := 9, freeEnt := firstFree (cfgBlock cfg)
      bitPosition := 24, alignBase := 24, dphase := .streamFirst
      ipos := 0, ibits := D.ibits - 24, ibuf := dropMany 3 D.ibuf
      tabPrefix := (tabSeed D).tabPrefix, tabSuffix := (tabSeed D).tabSuffix } := by
  obtain ⟨hmagic, hblock, hmax⟩ := hdr_of_cfg cfg
  obtain ⟨-, hlo, hhi⟩ := cfgLegal_iff.1 hcfg
  unfold dHeader
  rw [readMem_ok (by decide) h0, Res.ok_bind, readMem_ok (by decide) h1, Res.ok_bind, readMem_ok (by decide) h2,
    Res.ok_bind, if_pos hmagic, hblock, hmax]
  exact acceptHeader_ok hlo hhi h24

/-- The three bytes of a buffered header that are followed in the stream by `bits`. -/
theorem header_of_unread {cfg : Byte} (hd : DecompInv D) (hph : D.dphase = .header) (h24 : 24 ≤ D.ibits)
    (h : D.unread rest = bitsOf [Config.magic1, Config.magic2, cfg] ++ bits) :
    Mem.get D.ibuf 0 = some Config.magic1 ∧ Mem.get D.ibuf 1 = some Config.magic2 ∧ Mem.get D.ibuf 2 = some cfg ∧
      bitsOf rest = bits := by
  obtain ⟨-, hskip, hpos⟩ := hd.header hph
  have hbits := hd.ibitsHi
  obtain ⟨b0, h0⟩ := Option.isSome_iff_exists.1 (hd.inWritten 0 (by decide))
  obtain ⟨b1, h1⟩ := Option.isSome_iff_exists.1 (hd.inWritten 1 (by decide))
  obtain ⟨b2, h2⟩ := Option.isSome_iff_exists.1 (hd.inWritten 2 (by decide))
  have hbuf : bitsOf [b0, b1, b2] = D.buffered := by
    rw [State.buffered, State.avail, hpos, show D.ibits - 0 = 24 by omega]
    refine bitsOf_eq_segment fun i hi => ?_
    rw [List.length_cons, List.length_cons, List.length_singleton] at hi
    rw [Nat.zero_add]
    by_cases i0 : i / 8 = 0
    · rw [bufBit_of_get (i0 ▸ h0), i0]
      rfl
    · by_cases i1 : i / 8 = 1
      · rw [bufBit_of_get (i1 ▸ h1), i1]
        rfl
      · have i2 : i / 8 = 2 := by omega
        rw [bufBit_of_get (i2 ▸ h2), i2]
        rfl
  rw [State.unread, hskip, List.drop_zero, ← hbuf] at h
  obtain ⟨hhdr, hrest⟩ := List.append_inj h (by simp)
  cases bitsOf_injective hhdr
  exact ⟨h0, h1, h2, hrest⟩

/-- The first stage of a session after its header: the first byte is the first prefix, or there is none (R182, R186). -/
theorem stage_after_header {E : State} {cfg : Byte} {inp z : List Byte}
    (opened : E = { openCompress cfg E with obuf := E.obuf, obits := 0 }) (owes : Owes inp z E)
    (hD : D.tables = (cfgMaxbits cfg, cfgBlock cfg, firstFree (cfgBlock cfg), .streamFirst, D.oldCode, D.tabPrefix,
      D.tabSuffix)) (hDc : D.cursor = (9, 24, 24)) : Stage D (E.ahead z) inp := by
  simp only [State.tables, State.cursor, Prod.mk.injEq] at hD hDc
  obtain ⟨d1, d2, d3, d4, -⟩ := hD
  obtain ⟨c1, c2, c3⟩ := hDc
  have hobits : E.obits < 8 := by rw [opened]; exact Nat.zero_lt_succ 7
  have hph : E.cphase = .first := by rw [opened]; rfl
  cases inp with
  | nil =>
    refine .ended _ (by rw [d4]; simp) ?_
    have hbits : E.finalBits = 0 := if_neg (by simp [hph])
    rw [owes.ahead_of_nil hobits, hbits, List.length_append, length_codeBits, List.length_replicate, State.finalPad]
    split <;> omega
  | cons c inp =>
    obtain ⟨t, e, ht⟩ := owes.byte hobits
    rw [cByte_of_first hph] at e
    cases e
    refine .code { E with bytesIn := E.bytesIn + 1, pfx := c.setWidth 16, cphase := .run } inp z [c] ht rfl
      ⟨⟨?_, ?_, hashSpells_byte _ c, ?_, .inl ⟨.inl d4, ?_, ?_⟩⟩, ?_, ?_, ?_⟩
    · rw [d1, opened]; rfl
    · rw [d2, opened]; rfl
    · intro p b code hst
      exfalso
      obtain ⟨a, ha⟩ := hst
      rw [opened] at ha
      cases ha
    · rw [d3, opened]; rfl
    · rw [opened]; rfl
    · rw [c1, opened]; rfl
    · rw [c2, opened]; rfl
    · rw [c3, opened]; rfl

theorem Decoding.dHeader (h : Decoding rest out D) (hr : headerReady D = true) :
    ∃ D', Machine.dHeader D = .ok D' ∧ Decoding rest out D' := by
  obtain ⟨hph, h24⟩ := headerReady_iff.1 hr
  obtain ⟨hsp, hskip, -⟩ := h.live.inv.header hph
  have hibits := h.live.inv.ibitsHi
  generalize hbits : D.unread rest = bits at *
  have hs := hbits ▸ h.tops hsp
  cases hs with
  | header E cfg inp z phase legal opened owes =>
    obtain ⟨h0, h1, h2, hrest⟩ := header_of_unread h.live.inv hph h24 hbits
    have e := dHeader_of_cfg legal h0 h1 h2 h24
    rcases dHeader_live h.live hph h24 with ⟨D', e', hlive, -⟩ | ⟨k, -, e'⟩
    · cases e.symm.trans e'
      refine ⟨_, e, hlive, [], out, rfl, ⟨hsp, nofun⟩, ?_⟩
      rw [State.unread, State.buffered, State.avail, hskip]
      dsimp only
      rw [show D.ibits - 24 - 0 = 0 by omega, List.drop_zero, hrest]
      exact stage_after_header opened owes rfl rfl
    · cases e.symm.trans e'
  | code E inp z w owes run mirror => exact absurd hph mirror.words.phase_ne_header
  | clear g E c inp z owes cleared run pfx mirror phase => exact absurd (hph.symm.trans phase) (by simp)
  | ended bits phase short => exact absurd hph phase

end

end Sys2Proof.Machine
end

