-- ==== Sys2Proof/Proofs/DecodeCode.lean ====
section
/-! PROOFS. Proofs/DecodeCode.lean: D_CODE in front of the stream of a compressor: it fetches the code that was emitted, and
goes on to the next stage of the stream (R203, R230). -/

namespace Sys2Proof.Machine

/-! ## The fetched code -/

/-- `D1` is `D` after a buffered code was fetched (R140). -/
structure Fetched (D D1 : State) : Prop where
  inv : DecompInv D1
  eq : D1 = { D with bitPosition := D.bitPosition + D.nBits, ipos := D1.ipos, ibits := D1.ibits, ibuf := D1.ibuf }

section
variable {D D1 D' : State} {c : Code} {bits : List Bool} {rest : List Byte}

theorem Fetched.tables (h : Fetched D D1) : D1.tables = D.tables := by rw [h.eq]; rfl

theorem Fetched.nBits (h : Fetched D D1) : D1.nBits = D.nBits := by rw [h.eq]

theorem Fetched.bitPosition (h : Fetched D D1) : D1.bitPosition = D.bitPosition + D.nBits := by rw [h.eq]

theorem Fetched.alignBase (h : Fetched D D1) : D1.alignBase = D.alignBase := by rw [h.eq]

theorem Fetched.dphase (h : Fetched D D1) : D1.dphase = D.dphase := by rw [h.eq]

theorem Fetched.sp (h : Fetched D D1) : D1.sp = D.sp := by rw [h.eq]

/-- D_CODE fetches the code that is in front of the cursor and interprets it (R230). -/
theorem LiveDecomp.fetch (h : LiveDecomp D) (hr : codeReady D = true) (hc : c.toNat < 2 ^ D.nBits)
    (hbits : D.unread rest = codeBits c D.nBits ++ bits) :
    ∃ D1, Machine.dCode D = Machine.interpret c D1 ∧ Fetched D D1 ∧ D1.unread rest = bits := by
  obtain ⟨hh, hskip, ha⟩ := codeReady_iff.1 hr
  obtain ⟨c', D1, e, hvalue, -, hinv, hadv, heq, -⟩ := dGet_decompInv h.inv hh hskip ha
  have hr := (h.inv.opened hh).ranges
  rw [streamValue_eq (hr.bitsHi.trans hr.maxHi) hc hskip ha hbits] at hvalue
  cases BitVec.eq_of_toNat_eq hvalue
  have hunread : D1.unread rest = (D.unread rest).drop D.nBits :=
    hadv.unread h.inv.iposLe (h.inv.ibitsHi.trans (by decide)) ha (by rw [heq, Nat.add_comm]) rest
  refine ⟨D1, ?_, ⟨hinv, heq⟩, ?_⟩
  · rw [Machine.dCode, e, Res.ok_bind]
  · rw [hunread, hbits, List.drop_left' (length_codeBits ..)]

theorem LiveDecomp.of_dCode (h : LiveDecomp D) (hr : codeReady D = true) (hsp : D.sp = 0)
    (e : Machine.dCode D = .ok D') : LiveDecomp D' := by
  rcases h.dCode hr hsp with ⟨t, et, ht, -⟩ | ⟨k, t, et⟩
  · cases e.symm.trans et
    exact ht
  · cases e.symm.trans et

end

/-! ## A code that spells a string -/

section
variable {E D : State} {inp z w rest : List Byte} {bits : List Bool}

/-- What D_CODE does with the pending prefix of a compressor (R230). -/
theorem Poised.consume (hp : Poised E inp z w) (hm : Mirror E D w) (h : LiveDecomp D) (hr : codeReady D = true)
    (hsp : D.sp = 0) (hbits : D.unread rest = codeBits E.pfx E.nBits ++ bits) :
    ∃ D1 D', Machine.dCode D = .ok D' ∧ Fetched D D1 ∧ SameWords E D1 w ∧ Consumed E D1 D' w ∧
      D'.unread rest = bits.drop (D1.padOnGrowth D'.freeEnt) := by
  have hinv := hp.owes.live.inv
  have hpfx := hinv.pending hp.run
  rw [← hm.nBits] at hbits
  obtain ⟨D1, e, hf, hunread⟩ := h.fetch hr (hm.nBits ▸ hinv.core.lt_two_pow hinv.fits hpfx) hbits
  have hw : SameWords E D1 w := hm.words.of_eq rfl hf.tables hp.spells rfl
  obtain ⟨D', e', hc⟩ := hw.consume hinv.hash hpfx hf.inv hw.phase_ne_header (hf.sp.trans hsp)
  refine ⟨D1, D', e.trans e', hf, hw, hc, ?_⟩
  rw [hc.width.unread hf.inv.inBuf, hunread]

/-- The last code of the stream (R198). -/
theorem Poised.dCode_last (hp : Poised E [] z w) (hm : Mirror E D w) (h : LiveDecomp D) (hr : codeReady D = true)
    (hsp : D.sp = 0) (hbits : D.unread rest = E.ahead z) :
    ∃ D', Machine.dCode D = .ok D' ∧ Tops D' w ∧ Stage D' (D'.unread rest) [] := by
  obtain ⟨k, hk, hahead⟩ := hp.ahead_of_nil
  obtain ⟨D1, D', e, -, -, hc, hunread⟩ := hp.consume hm h hr hsp (hbits.trans hahead)
  refine ⟨D', e, hc.tops, .ended _ (by simp [hc.run]) ?_⟩
  rw [hunread, List.length_drop, List.length_replicate]
  omega

/-- A code that a miss emitted (R186). -/
theorem Poised.dCode_grown {c : Byte} {g : State} (hp : Poised E (c :: inp) z w) (hg : Grown c E g) (hm : Mirror E D w)
    (h : LiveDecomp D) (hr : codeReady D = true) (hsp : D.sp = 0) (hbits : D.unread rest = E.ahead z) :
    ∃ D', Machine.dCode D = .ok D' ∧ Tops D' w ∧ Stage D' (D'.unread rest) (c :: inp) := by
  obtain ⟨t, bits, ht, hahead, hcases⟩ := hp.ahead_of_grown hg
  obtain ⟨D1, D', e, hf, hw, hc, hunread⟩ := hp.consume hm h hr hsp (hbits.trans hahead)
  obtain ⟨hg', hpad⟩ := hc.mirror hw hp.owes.live.inv.core hg (hf.nBits.trans hm.nBits)
    (by rw [hf.bitPosition, hm.bitPosition, hm.nBits]) (hf.alignBase.trans hm.alignBase)
  obtain ⟨hrun, hpfx⟩ := hg.next_run hp.run (hcases.imp (fun h => h.2) fun h => h.1)
  refine ⟨D', e, hc.tops, ?_⟩
  rw [hunread, hpad, List.drop_left' (List.length_replicate ..)]
  rcases hcases with ⟨rfl, k, r, rfl⟩ | ⟨hclear, rfl⟩
  · exact .code _ inp z [c] ht hrun (hg'.of_eq rfl rfl rfl rfl hg'.words.spells rfl)
  · exact .clear g t c inp z ht hclear hrun hpfx hg' hc.run

/-- D_CODE on the next code of a running compressor (R203, R230). -/
theorem Mirror.dCode (hm : Mirror E D w) (owes : Owes inp z E) (run : E.cphase = .run) (h : LiveDecomp D)
    (hr : codeReady D = true) (hsp : D.sp = 0) (hbits : D.unread rest = E.ahead z) :
    ∃ D' bytes later, Machine.dCode D = .ok D' ∧ w ++ inp = bytes ++ later ∧ Tops D' bytes ∧
      Stage D' (D'.unread rest) later := by
  obtain ⟨E', inp', z', w', hp, hsplit, -, hhead, hahead, hdict, hcur⟩ := owes.poised run hm.words.spells
  have hm' : Mirror E' D w' := hm.of_eq hdict hcur rfl rfl hp.spells hhead
  rw [← hahead] at hbits
  rcases hp.next with rfl | ⟨c, inp, g, rfl, hg⟩
  · obtain ⟨D', e, htops, hs⟩ := hp.dCode_last hm' h hr hsp hbits
    exact ⟨D', w', _, e, hsplit, htops, hs⟩
  · obtain ⟨D', e, htops, hs⟩ := hp.dCode_grown hg hm' h hr hsp hbits
    exact ⟨D', w', _, e, hsplit, htops, hs⟩

end

/-! ## CLEAR -/

section
variable {E g D : State} {inp z rest : List Byte} {bits : List Bool} {c : Byte}

/-- The two sides at the start of an epoch that a CLEAR began (R190, R233). -/
theorem Cleared.mirror {D' : State} (hclear : Cleared g E) (hpfx : E.pfx = c.setWidth 16) (hw : SameWords g D [c])
    (hpos : D'.bitPosition = g.bitPosition + g.nBits + padding (g.bitPosition + g.nBits) g.alignBase g.nBits)
    (heq : D' = { D with
      bitPosition := D'.bitPosition, alignBase := D'.bitPosition, freeEnt := 257, nBits := 9
      dphase := .epochFirst, iskip := D'.iskip, ipos := D'.ipos, ibits := D'.ibits, ibuf := D'.ibuf }) :
    Mirror E D' [c] := by
  have hE := hclear.eq
  have hslot : E.hslot = HashMem.allEmpty := by rw [hE]
  have hfirst : firstFree E.blockMode = 257 := by
    rw [show E.blockMode = g.blockMode by rw [hE], hclear.block]
    rfl
  refine ⟨⟨?_, ?_, ?_, ?_, .inl ⟨.inr ?_, ?_, ?_⟩⟩, ?_, ?_, ?_⟩
  · rw [heq, hE]
    exact hw.maxbits
  · rw [heq, hE]
    exact hw.blockMode
  · rw [hpfx]
    exact hashSpells_byte _ c
  · rintro p b code ⟨a, ha⟩
    rw [hslot] at ha
    cases ha
  · rw [heq]
  · rw [hfirst, heq]
  · rw [hfirst, hE]
  · rw [heq, hE]
  · rw [hpos, hE]
  · rw [heq, hE]
    exact hpos

/-- D_CODE on the CLEAR of a ratio check (R190, R233). -/
theorem Cleared.dCode (hclear : Cleared g E) (owes : Owes inp z E) (run : E.cphase = .run)
    (hpfx : E.pfx = c.setWidth 16) (hm : Mirror g D [c]) (phase : D.dphase = .run) (h : LiveDecomp D)
    (hr : codeReady D = true) (hsp : D.sp = 0)
    (hbits : D.unread rest = codeBits 256#16 g.nBits ++
      (List.replicate (padding (g.bitPosition + g.nBits) g.alignBase g.nBits) false ++ E.ahead z)) :
    ∃ D', Machine.dCode D = .ok D' ∧ Tops D' [] ∧ Stage D' (D'.unread rest) (c :: inp) := by
  have hranges := (h.inv.opened (by rw [phase]; nofun)).ranges
  have h9 := hranges.bitsLo
  have h512 : 2 ^ 9 ≤ 2 ^ D.nBits := Nat.pow_le_pow_right (by omega) h9
  rw [← hm.nBits] at hbits
  obtain ⟨D1, e, hf, hunread⟩ := h.fetch hr (c := 256#16) (by show 256 < _; omega) hbits
  have horigin := hranges.origin
  have hblock : D1.blockMode = true := by
    rw [show D1.blockMode = D.blockMode from congrArg (·.2.1) hf.tables, hm.words.blockMode, hclear.block]
  obtain ⟨D', e', hrealign, heq⟩ := dClear_spec (s := D1)
    (by rw [hf.alignBase, hf.bitPosition]; omega) (by rw [hf.nBits]; omega) hf.inv.iposLe
  have hcode : Machine.dCode D = .ok D' :=
    (e.trans (interpret_clear (.inr (hf.dphase.trans phase)) hblock)).trans e'
  have hpad : padding D1.bitPosition D1.alignBase D1.nBits = padding (g.bitPosition + g.nBits) g.alignBase g.nBits := by
    rw [hf.bitPosition, hf.alignBase, hf.nBits, hm.bitPosition, hm.alignBase, hm.nBits]
  have hpos : D'.bitPosition = g.bitPosition + g.nBits + padding (g.bitPosition + g.nBits) g.alignBase g.nBits := by
    rw [hrealign.1, ← add_padding (by rw [hf.alignBase, hf.bitPosition]; omega) (by rw [hf.nBits]; omega), hpad,
      hf.bitPosition, hm.bitPosition, hm.nBits]
  have hw : SameWords g D1 [c] := hm.words.of_eq rfl hf.tables hm.words.spells rfl
  refine ⟨D', hcode, ⟨?_, nofun⟩, ?_⟩
  · rw [heq]
    exact hf.sp.trans hsp
  · rw [hrealign.unread hf.inv.inBuf, hunread, hpad, hm.nBits, List.drop_left' (List.length_replicate ..)]
    exact .code E inp z [c] owes run (hclear.mirror hpfx hw hpos heq)

end

/-! ## Any code -/

/-- D_CODE with a whole code buffered (R203, R230). -/
theorem Decoding.dCode {D : State} {rest out : List Byte} (h : Decoding rest out D) (hr : codeReady D = true)
    (hsp : D.sp = 0) : ∃ D', Machine.dCode D = .ok D' ∧ Decoding rest out D' := by
  obtain ⟨hh, hskip, ha⟩ := codeReady_iff.1 hr
  have hlen := length_unread D rest
  have h9 := (h.live.inv.opened hh).ranges.bitsLo
  suffices ∃ D' bytes later, Machine.dCode D = .ok D' ∧ out = bytes ++ later ∧ Tops D' bytes ∧
      Stage D' (D'.unread rest) later by
    obtain ⟨D', bytes, later, e, hstage⟩ := this
    exact ⟨D', e, h.live.of_dCode hr hsp e, bytes, later, hstage⟩
  generalize hbits : D.unread rest = bits at hlen
  have hs := hbits ▸ h.tops hsp
  cases hs with
  | header E cfg inp z phase legal opened owes => exact absurd phase hh
  | code E inp z w owes run mirror => exact mirror.dCode owes run h.live hr hsp hbits
  | clear g E c inp z owes cleared run pfx mirror phase =>
    obtain ⟨D', e, htops, hs⟩ := cleared.dCode owes run pfx mirror phase h.live hr hsp hbits
    exact ⟨D', [], _, e, rfl, htops, hs⟩
  | ended bits phase short =>
    unfold State.avail at hlen
    omega

end Sys2Proof.Machine
end

