-- ==== Sys2Proof/Proofs/RoundTrip.lean ====
section
/-! PROOFS. Proofs/RoundTrip.lean: DECOMPRESS_ALL of what COMPRESS_ALL writes is the input (R203). The decompressor's
commands keep `Decoding`, and at the end of the stream nothing is left to be output. -/

namespace Sys2Proof.Machine

/-! ## D_LOOP -/

section
variable {D D' : State} {rest out : List Byte}

/-- With no more input and no code to fetch, fewer bits than a code are left (R224). -/
theorem LiveDecomp.length_unread_lt (h : LiveDecomp D) (hh : D.dphase ≠ .header) (hc : ¬ codeReady D = true) :
    (D.unread []).length < D.nBits := by
  have h9 := (h.inv.opened hh).ranges.bitsLo
  have hskip := h.inv.skip
  rw [codeReady_iff] at hc
  rw [length_unread, List.length_nil, State.avail]
  by_cases hk : D.iskip = 0
  · have : ¬ D.nBits ≤ D.ibits - D.ipos := fun ha => hc ⟨hh, hk, ha⟩
    omega
  · have := hskip (Nat.pos_of_ne_zero hk)
    omega

/-- Where D_LOOP can do nothing more, the stream has been read to its end (R224, R254). -/
theorem Decoding.at_end (h : Decoding [] out D) (hsp : D.sp = 0) (hh : ¬ headerReady D = true)
    (hc : ¬ codeReady D = true) : out = [] ∧ D.dphase ≠ .header := by
  have hlen := length_unread D []
  have hcode := h.live.length_unread_lt (hc := hc)
  rw [headerReady_iff, not_and] at hh
  generalize hbits : D.unread [] = bits at hlen hcode
  have hs := hbits ▸ h.tops hsp
  cases hs with
  | header E cfg inp z phase legal opened owes =>
    have h24 := hh phase
    rw [List.length_append, length_bitsOf, List.length_nil, State.avail] at hlen
    simp only [List.length_cons, List.length_nil] at hlen
    omega
  | code E inp z w owes run mirror =>
    have hlt := hcode mirror.words.phase_ne_header
    have hle := owes.width_le_ahead run mirror.words.spells
    rw [mirror.nBits] at hlt
    omega
  | clear g E c inp z owes cleared run pfx mirror phase =>
    have hlt := hcode (by rw [phase]; nofun)
    rw [List.length_append, length_codeBits, mirror.nBits] at hlt
    omega
  | ended bits phase short => exact ⟨rfl, phase⟩

/-- D_LOOP went from `l` to `l'` and `D'` before a compressor's stream, `out` being what it was to output (R224). -/
def LoopRead (cap : Nat) (rest out : List Byte) (l l' : LoopOut) (D' : State) : Prop :=
  ∃ k out', l'.consumed = l.consumed + k ∧ l.out ++ out = l'.out ++ out' ∧ Decoding (rest.drop k) out' D' ∧
    (l'.status = .needMoreInput ∧ k = rest.length ∧ out' = [] ∧ D'.dphase ≠ .header ∨
      l'.status = .outputFull ∧ cap ≤ l'.out.length ∧ out' ≠ [])

theorem Decoding.dLoopFrom {cap n : Nat} {l l' : LoopOut} (h : Decoding rest out D)
    (e : Machine.dLoopFrom cap n rest l D = .ok (l', D')) : LoopRead cap rest out l l' D' := by
  induction n generalizing rest out D l with
  | zero => cases e
  | succ n ih =>
    obtain ⟨bs, out1, D1, e1, rfl, h1, hend⟩ := h.dDrainWhile (cap - l.out.length)
    unfold Machine.dLoopFrom at e
    rw [e1, Res.ok_bind] at e
    dsimp only at e
    split at e
    · rename_i hsp
      cases e
      refine ⟨0, out1, rfl, (List.append_assoc ..).symm, h1, .inr ⟨rfl, ?_, ?_⟩⟩
      · rw [List.length_append]
        omega
      · rintro rfl
        obtain ⟨-, bytes, later, hnil, ⟨hlen, -⟩, -⟩ := h1
        obtain ⟨rfl, -⟩ := List.append_eq_nil_iff.1 hnil.symm
        rw [List.length_nil] at hlen
        omega
    · rename_i hsp
      replace hsp : D1.sp = 0 := by omega
      split at e
      · obtain ⟨D2, e2, h2⟩ := h1.dHeader ‹_›
        rw [e2] at e
        obtain ⟨k, out', hk, hout, hrest⟩ := ih h2 e
        exact ⟨k, out', hk, (List.append_assoc ..).symm.trans hout, hrest⟩
      · rename_i hhr
        split at e
        · obtain ⟨D2, e2, h2⟩ := h1.dCode ‹_› hsp
          rw [e2] at e
          obtain ⟨k, out', hk, hout, hrest⟩ := ih h2 e
          exact ⟨k, out', hk, (List.append_assoc ..).symm.trans hout, hrest⟩
        · rename_i hcr
          cases rest with
          | nil =>
            cases e
            obtain ⟨rfl, hh⟩ := h1.at_end hsp hhr hcr
            exact ⟨0, [], rfl, (List.append_assoc ..).symm, h1, .inl ⟨rfl, rfl, rfl, hh⟩⟩
          | cons b rest =>
            obtain ⟨D2, e2, h2⟩ := h1.dTake (h1.live.ibits_le hhr hcr)
            dsimp only at e
            rw [e2, Res.ok_bind] at e
            obtain ⟨k, out', hk, hout, h3, hend'⟩ := ih h2 e
            refine ⟨k + 1, out', hk.trans (Nat.add_right_comm ..), (List.append_assoc ..).symm.trans hout, h3,
              hend'.imp (fun ⟨hst, hlen, hfin⟩ => ⟨hst, congrArg Nat.succ hlen, hfin⟩) id⟩

theorem Decoding.dLoop (h : Decoding rest out D) (cap : Nat) :
    ∃ l D', Machine.dLoop rest cap D = .ok (l, D') ∧ LoopRead cap rest out loopStart l D' := by
  obtain ⟨⟨l, D'⟩, e, -⟩ := h.live.dLoop rest cap
  exact ⟨l, D', e, h.dLoopFrom e⟩

/-! ## The commands -/

/-- ADVANCE_D with some room (R250). -/
theorem Decoding.advanceD (h : Decoding rest out D) {cap : Nat} (hcap : 1 ≤ cap) :
    ∃ r out' D', Machine.advanceD rest cap D = .ok (r, D') ∧ out = r.out ++ out' ∧
      Decoding (rest.drop r.consumed) out' D' ∧
      (r.status = .needMoreInput ∧ r.consumed = rest.length ∧ out' = [] ∧ D'.dphase ≠ .header ∨
        r.status = .outputFull ∧ 0 < r.out.length) := by
  obtain ⟨l, D', e, k, out', hk, hout, h', hend⟩ := h.dLoop cap
  have hk' : l.consumed = k := hk.trans (Nat.zero_add k)
  subst hk'
  refine ⟨⟨l.consumed, l.out, l.status⟩, out', D', ?_, hout, h', hend.imp id fun ⟨hst, hfull, _⟩ =>
    ⟨hst, hcap.trans hfull⟩⟩
  have heq : Machine.advanceD rest cap D = .ok (advanceEnd cap l D') := by
    unfold Machine.advanceD
    simp [h.live.err, h.live.mode, h.live.phase, e, Res.ok_bind]
  rw [heq, advanceEnd_of_room hcap fun kind => ?_]
  rcases hend with ⟨hst, -⟩ | ⟨hst, -⟩ <;> simp [hst]

/-- The ADVANCE commands read the whole stream within any bound above the bytes to be output, since each but the last
outputs one (R118). -/
theorem Decoding.advanceAll (h : Decoding rest out D) {cap : Nat} (hcap : 1 ≤ cap) {n : Nat} (hn : out.length < n)
    (y : List Byte) :
    ∃ D', advanceAll (fun i => Machine.advanceD i cap) n rest y D = .ok (y ++ out, none, D') ∧ Decoding [] [] D' ∧
      D'.dphase ≠ .header := by
  induction n generalizing rest out D y with
  | zero => omega
  | succ n ih =>
    obtain ⟨⟨k, bs, st⟩, out', D1, e, rfl, h1, hend⟩ := h.advanceD hcap
    dsimp only at h1 hend hn
    unfold Machine.advanceAll
    rw [e, Res.ok_bind]
    dsimp only
    rcases hend with ⟨rfl, rfl, rfl, hh⟩ | ⟨rfl, hbs⟩
    · rw [List.drop_length] at h1
      exact ⟨D1, (if_pos ⟨rfl, rfl⟩).trans (by rw [List.append_nil]), h1, hh⟩
    · rw [List.length_append] at hn
      obtain ⟨D', e', hfin⟩ := ih h1 (by omega) (y ++ bs)
      exact ⟨D', (if_neg (by simp)).trans (by rw [e', List.append_assoc]), hfin⟩

/-- FINISH at the end of the stream (R254). -/
theorem Decoding.finishCmd (h : Decoding [] [] D) (cap : Nat) :
    ∃ D', finishCmd cap D = .ok (⟨0, [], .streamEnd⟩, D') := by
  obtain ⟨l, D1, e, k, out', -, hout, h1, hend⟩ := h.dLoop cap
  obtain ⟨hl, rfl⟩ := List.append_eq_nil_iff.1 hout.symm
  rcases hend with ⟨hst, -, -, hh⟩ | ⟨-, -, hne⟩
  · refine ⟨{ D1 with dphase := .done }, ?_⟩
    simp only [Machine.finishCmd, h.live.err, h.live.mode]
    unfold finishD
    rw [if_neg h.live.phase, e, Res.ok_bind]
    simp [hst, hl, dAtEnd, hh]
  · exact absurd rfl hne

theorem Decoding.decompressAll {z inp : List Byte} {s : State} (h : Decoding z inp (beginDecompress s).2)
    {cap : Nat} (hcap : 1 ≤ cap) (hn : inp.length < 65536 * (z.length + 1)) :
    ∃ t, Machine.decompressAll z cap s = .ok ((inp, .streamEnd), t) := by
  obtain ⟨D1, e1, h1, -⟩ := h.advanceAll hcap hn []
  obtain ⟨D2, e2⟩ := h1.finishCmd cap
  refine ⟨D2, ?_⟩
  rw [Machine.decompressAll, wholeStream, e1, Res.ok_bind,
    show 65536 * (z.length + 1) = 65536 * z.length + 65535 + 1 by omega]
  dsimp only
  rw [finishAll, e2, Res.ok_bind, List.nil_append]
  dsimp only
  rw [List.append_nil]

end

/-! ## The two sides together -/

section
variable {cfg : Byte} {inp z : List Byte} {cap : Nat} {s E : State}

/-- COMPRESS_ALL delivers what a new session owes (R118). -/
theorem Owes.compressAll (h : Owes inp z (openCompress cfg s)) (hcfg : cfgLegal cfg = true) (hcap : 1 ≤ cap)
    (hn : z.length < 20 * inp.length + 64) :
    ∃ t, Machine.compressAll cfg inp cap s = .ok ((z, .streamEnd), t) := by
  obtain ⟨out, z', s1, e1, rfl, h1, ho1⟩ := h.advanceAll hcap hn []
  obtain ⟨f, hf, efin⟩ := h1.finish ho1
  rw [List.length_append] at hn
  obtain ⟨t, e2⟩ := hf.finishAll (efin cap) hcap (n := 20 * inp.length + 64) (by omega) out
  refine ⟨t, ?_⟩
  rw [Machine.compressAll, wholeStream,
    show (beginCompress cfg s).2 = openCompress cfg s by rw [beginCompress, if_pos hcfg], e1, Res.ok_bind]
  exact e2

/-- A new session whose header was delivered, and what it owes then. -/
structure HeaderSent (cfg : Byte) (inp z : List Byte) (E : State) : Prop where
  opened : E = { openCompress cfg E with obuf := E.obuf, obits := 0 }
  owes : Owes inp z E

/-- Every input has a stream, which is the same from every state: the header and what is owed after it (R180, R182). -/
theorem exists_stream (hcfg : cfgLegal cfg = true) (inp : List Byte) :
    ∃ z E, HeaderSent cfg inp z E ∧ z.length ≤ 20 * inp.length + 22 ∧
      ∀ s, Owes inp ([Config.magic1, Config.magic2, cfg] ++ z) (openCompress cfg s) := by
  have live (s : State) : LiveComp (openCompress cfg s) := ⟨rfl, rfl, .inl rfl, compInv_openCompress s hcfg⟩
  obtain ⟨bs, d, hd, -, hlive, ho⟩ := (live State.reset).drained
  obtain ⟨d', hd'⟩ := cDrains_openCompress cfg State.reset
  cases hd.symm.trans hd'
  obtain ⟨z, hz, hlen⟩ := hlive.streamFrom ho inp
  obtain ⟨-, -, heq⟩ := staged_of_cDrains (n := 3) (live State.reset).inv (show 24 ≤ 256 by decide)
    (show 8 * 3 ≤ 24 by decide) (by rwa [show (openCompress cfg State.reset).obits = 24 from rfl] at hd)
  have howes : Owes inp z d := ⟨hlive, [], d, z, by rw [Nat.div_eq_of_lt ho]; rfl, hz, rfl⟩
  refine ⟨z, d, ⟨?_, howes⟩, hlen, fun s => ⟨live s, _, d, z, cDrains_within s hd, hz, rfl⟩⟩
  generalize d.obuf = m at heq
  subst heq
  rfl

/-- The bound of DECOMPRESS_ALL is above the input's length (R170). -/
theorem HeaderSent.length_lt (h : HeaderSent cfg inp z E) : inp.length < 65536 * (z.length + 1) := by
  obtain ⟨hopen, howes⟩ := h
  cases inp with
  | nil => exact Nat.mul_pos (by decide) (Nat.succ_pos _)
  | cons c rest =>
    obtain ⟨t, e, ht⟩ := howes.byte (by rw [hopen]; exact Nat.zero_lt_succ 7)
    rw [cByte_of_first (by rw [hopen]; rfl)] at e
    cases e
    have hle := ht.length_le_ahead rfl (hashSpells_byte _ c)
    rw [State.ahead, List.length_drop, length_bitsOf, List.length_singleton] at hle
    rw [List.length_cons]
    omega

/-- A new decompress session in front of the stream (R220). -/
theorem HeaderSent.decoding (h : HeaderSent cfg inp z E) (hcfg : cfgLegal cfg = true) (s : State) :
    Decoding ([Config.magic1, Config.magic2, cfg] ++ z) inp (beginDecompress s).2 := by
  obtain ⟨hopen, howes⟩ := h
  refine ⟨⟨rfl, rfl, nofun, decompInv_beginDecompress s⟩, [], inp, rfl, ⟨rfl, nofun⟩, ?_⟩
  have hahead : E.ahead z = bitsOf z := by
    rw [State.ahead, show E.obits = 0 by rw [hopen], List.drop_zero]
  have hstage := Stage.header (D := (beginDecompress s).2) E cfg inp z rfl hcfg hopen howes
  rw [hahead, ← bitsOf_append] at hstage
  exact hstage

/-- Settles O60: the decompressor keeps in step with the compressor, code by code, from the header on. -/
theorem roundTrip : Obligations.RoundTrip := by
  intro cfg inp cap cap' s s' hcfg hcap hcap'
  have hcfg := cfgLegal_of_cfgOk hcfg
  obtain ⟨z, E, hsent, hlen, howes⟩ := exists_stream hcfg inp
  have hlength := hsent.length_lt
  obtain ⟨t, e⟩ := (howes s).compressAll hcfg hcap (by
    simp only [List.length_append, List.length_cons, List.length_nil]
    omega)
  obtain ⟨t', e'⟩ := (hsent.decoding hcfg s').decompressAll hcap' (by
    simp only [List.length_append, List.length_cons, List.length_nil]
    omega)
  refine ⟨[Config.magic1, Config.magic2, cfg] ++ z, t, t', ?_, ?_⟩
  · exact congrArg (doneVal fun r => .stream r.1 r.2) e
  · exact congrArg (doneVal fun r => .stream r.1 r.2) e'

end

end Sys2Proof.Machine
end

