-- ==== Sys2Proof/Proofs/DecompressSteps.lean ====
section
/-! PROOFS. Proofs/DecompressSteps.lean: what D_HEADER, D_FIRST, D_CLEAR and D_EXPAND leave, field by field (R228, R232
to R242), and that HDR_READ and the code classes do the same. -/

namespace Sys2Proof.Machine

/-! ## The header -/

section
variable (b0 b1 b2 : Byte)

theorem hdrMagic1_windowOf : hdrMagic1 (windowOf b0 b1 b2) = b0 := BitVec.extractLsb'_append_eq_right

theorem hdrMagic2_windowOf : hdrMagic2 (windowOf b0 b1 b2) = b1 :=
  (BitVec.extractLsb'_append_eq_of_le (by decide)).trans BitVec.extractLsb'_append_eq_right

/-- The third byte stands in bits 23:16 of the window (R63). -/
theorem extractLsb'_windowOf_third (i n : Nat) :
    (windowOf b0 b1 b2).extractLsb' (i + 8 + 8) n = b2.extractLsb' i n :=
  (BitVec.extractLsb'_append_eq_of_le (Nat.le_add_left 8 (i + 8))).trans
    (BitVec.extractLsb'_append_eq_of_le (Nat.le_add_left 8 i))

theorem hdrMagicOk_windowOf_iff : hdrMagicOk (windowOf b0 b1 b2) = true ↔ b0 = 0x1F#8 ∧ b1 = 0x9D#8 := by
  rw [hdrMagicOk, hdrMagic1_windowOf, hdrMagic2_windowOf, Bool.and_eq_true, beq_iff_eq, beq_iff_eq]

theorem hdrMaxbits_windowOf : hdrMaxbits (windowOf b0 b1 b2) = b2.extractLsb' 0 5 :=
  extractLsb'_windowOf_third b0 b1 b2 0 5

theorem hdrBlock_windowOf : hdrBlock (windowOf b0 b1 b2) = b2.getLsbD 7 :=
  (congrArg (· == 1#1) (extractLsb'_windowOf_third b0 b1 b2 7 1)).trans (cfgBlock_eq b2)

end

section
variable {s : State} {b0 b1 b2 : Byte}

/-- D_HEADER on the three bytes of `ibuf` (R228). -/
theorem dHeader_eq (h0 : Mem.get s.ibuf 0 = some b0) (h1 : Mem.get s.ibuf 1 = some b1)
    (h2 : Mem.get s.ibuf 2 = some b2) :
    dHeader s = if b0 = 0x1F#8 ∧ b1 = 0x9D#8 then acceptHeader (b2.getLsbD 7) (b2.extractLsb' 0 5).toNat s
      else raiseHere .format s := by
  rw [dHeader, readMem_ok (by decide) h0, Res.ok_bind, readMem_ok (by decide) h1, Res.ok_bind,
    readMem_ok (by decide) h2, Res.ok_bind, hdrBlock_windowOf, hdrMaxbits_windowOf]
  simp only [hdrMagicOk_windowOf_iff]

/-- The width test of a header (R228). -/
theorem acceptHeader_of_illegal {k : Bool} {m : Nat} (h : ¬ (9 ≤ m ∧ m ≤ 16)) :
    acceptHeader k m s = raiseHere .width s :=
  if_neg (by rwa [maxbitsLegal, Bool.and_eq_true, decide_eq_true_iff, decide_eq_true_iff])

theorem acceptHeader_accepted {k : Bool} {m : Nat} (h9 : 9 ≤ m) (h16 : m ≤ 16) (hi : 24 ≤ s.ibits) :
    ∃ t, acceptHeader k m s = .ok t ∧ HeaderAccepted k m s (t.withResult .unit) := by
  refine ⟨_, acceptHeader_ok h9 h16 hi, rfl, get_dropMany 3 s.ibuf (by decide), fun a h1 h4 => ?_, fun i hi => ?_,
    fun i hi => ?_⟩
  · exact (get_dropMany 3 s.ibuf h4).trans (if_neg (by omega))
  · exact ⟨(get_tabSeed_tabSuffix s i).trans (if_pos hi), (get_tabSeed_tabPrefix s i).trans (if_pos hi)⟩
  · have hi := Nat.not_lt.2 hi
    exact ⟨(get_tabSeed_tabSuffix s i).trans (if_neg hi), (get_tabSeed_tabPrefix s i).trans (if_neg hi)⟩

end

/-- Settles O51: with the right magic D_HEADER is `acceptHeader` of the third byte's fields, which is HDR_READ. -/
theorem headerIsCheckedAndAccepted : Obligations.HeaderIsCheckedAndAccepted := by
  intro s b0 b1 b2 h0 h1 h2
  have hheader := congrArg doneUnit (dHeader_eq h0 h1 h2)
  have hread (e0 : b0 = 0x1F#8) (e1 : b1 = 0x9D#8) :
      exec .dHeader s = exec (.hdrRead (b2.getLsbD 7) (b2.extractLsb' 5 2) (b2.extractLsb' 0 5)) s :=
    hheader.trans (congrArg doneUnit (if_pos ⟨e0, e1⟩))
  have haccept (k : Bool) (r : BitVec 2) (m : BitVec 5) (h9 : 9 ≤ m.toNat) (h16 : m.toNat ≤ 16) (hi : 24 ≤ s.ibits) :
      ∃ t, exec (.hdrRead k r m) s = .next t ∧ HeaderAccepted k m.toNat s t := by
    obtain ⟨t, e, ht⟩ := acceptHeader_accepted (k := k) h9 h16 hi
    exact ⟨_, congrArg doneUnit e, ht⟩
  refine ⟨fun hmagic => hheader.trans (congrArg doneUnit (if_neg hmagic)), hread,
    fun k r m => ⟨fun hm => congrArg doneUnit (acceptHeader_of_illegal hm), haccept k r m⟩,
    fun e0 e1 h9 h16 hi => ?_⟩
  rw [hread e0 e1]
  exact haccept _ _ _ h9 h16 hi

/-! ## The first code -/

/-- The first literal, with what it pushes (R232, R234). -/
theorem firstLiteral_pushed {c : Code} {s : State} (h : s.sp < 65536) : ∃ t, firstLiteral c s = .ok t ∧
    t = { s with stack := t.stack, sp := t.sp, oldCode := c, lastChar := c.setWidth 8, dphase := .run } ∧
    Pushed [c.setWidth 8] s t :=
  ⟨_, firstLiteral_ok h, rfl, pushAll_pushed [c.setWidth 8] s⟩

/-- Settles O52: a code below 256 is the first literal, and the two classes are D_FIRST of their byte. -/
theorem firstCodeIsALiteral : Obligations.FirstCodeIsALiteral := by
  refine fun s => ⟨fun c hc => congrArg doneUnit (dFirst_of_ge hc s), fun c hc hsp => ?_, fun b => ?_⟩
  · obtain ⟨t, e, ht, hpushed⟩ := firstLiteral_pushed (c := c) hsp
    exact ⟨_, congrArg doneUnit ((dFirst_of_lt hc s).trans e), congrArg (State.withResult · .unit) ht, hpushed⟩
  · have hfirst := congrArg doneUnit (dFirst_of_lt (byte_toCode_lt b) s)
    refine ⟨hfirst.symm, hfirst.symm, fun hsp => ?_⟩
    obtain ⟨t, e, ht, hpushed⟩ := firstLiteral_pushed (c := b.setWidth 16) hsp
    have hexec := congrArg doneUnit e
    rw [byte_toCode_toByte] at ht hpushed
    exact ⟨_, hexec, hexec, congrArg State.dphase ht, congrArg State.oldCode ht, congrArg State.lastChar ht, hpushed⟩

/-! ## CLEAR -/

/-- Settles O53: `dClear_spec` says what D_CLEAR leaves, and the class CLEAR is D_CLEAR. -/
theorem clearStartsANewEpoch : Obligations.ClearStartsANewEpoch := by
  intro s horigin h9 _ hi
  obtain ⟨t, e, hrealigned, ht⟩ := dClear_spec horigin (by omega) hi
  have hexec := congrArg doneUnit e
  exact ⟨t.withResult .unit, hexec, hexec, congrArg (State.withResult · .unit) ht, hrealigned⟩

/-! ## D_EXPAND -/

section
variable {s : State} {c : Code} (hi : OpenInv s) (hsp : s.sp = 0) (hpos : s.ipos ≤ s.ibits)
include hi hsp hpos

/-- A defined code in an open session: its string is output (R235). -/
theorem OpenInv.expandCode (incoming : Code) (hd : Defined s c.toNat) :
    ∃ str first t, Spells s c str ∧ str.head? = some first ∧ expandCode incoming c s = .ok t ∧
      Expanded incoming str.reverse first s (t.withResult .unit) := by
  have h9 := hi.ranges.bitsLo
  have hlt := c.isLt
  obtain ⟨str, hs, hlen⟩ := hi.spells_of_defined hd
  obtain ⟨first, t, hfirst, e, he, -⟩ := expandCode_spec (incoming := incoming) hs (by omega) hi.ranges.maxHi
    hi.ranges.origin (by omega) hpos
  exact ⟨str, first, t, hs, hfirst, e, he⟩

/-- KwKwK in an open session: the previous string is output, and its first byte again (R236). -/
theorem OpenInv.expandKwkwk (incoming : Code) (hrun : s.dphase = .run) :
    ∃ str t, Spells s s.oldCode str ∧ str.head? = some s.lastChar ∧ expandKwkwk incoming s = .ok t ∧
      Expanded incoming (s.lastChar :: str.reverse) s.lastChar s (t.withResult .unit) := by
  have h9 := hi.ranges.bitsLo
  have hlt := s.oldCode.isLt
  obtain ⟨str, hs, hlen⟩ := hi.spells_of_defined (hi.old hrun)
  obtain ⟨str', hs', hlast⟩ := hi.lastFirst hrun
  rw [hs'.unique hs] at hlast
  obtain ⟨first, t, hfirst, e, he, -⟩ := expandCode_spec (incoming := incoming)
    (s := { s with stack := Mem.put s.stack s.sp s.lastChar, sp := s.sp + 1 }) (hs.of_tables rfl rfl)
    (by dsimp only; omega) hi.ranges.maxHi hi.ranges.origin (show 0 < s.nBits by omega) hpos
  cases hfirst.symm.trans hlast
  refine ⟨str, t, hs, hlast, ?_, he.of_push⟩
  rw [Machine.expandKwkwk, push_ok (by omega), Res.ok_bind]
  exact e

end

/-- Settles O54: LITERAL and DICTREF are the expansion of a defined code, KWKWK that of the previous code after its
first byte. -/
theorem expandOutputsTheString : Obligations.ExpandOutputsTheString := by
  intro s c hi hrun hsp hpos
  have hfree := (firstFree_ge s.blockMode).trans hi.ranges.freeLo
  refine ⟨fun hc => congrArg doneUnit (dExpand_of_gt hc), fun b => ?_, fun h256 hd => ?_, fun hc => ?_⟩
  · have hb := byte_toCode_lt b
    obtain ⟨str, first, t, hs, hfirst, e, he⟩ := hi.expandCode hsp hpos (c := b.setWidth 16) (b.setWidth 16) (.inl hb)
    have hstr := hs.unique (.literal _ hb)
    rw [byte_toCode_toByte] at hstr
    subst hstr
    cases hfirst
    exact ⟨_, congrArg doneUnit e, congrArg doneUnit ((dExpand_of_lt (hb.trans_le hfree)).trans e), he⟩
  · have hlt : c.toNat < s.freeEnt := hd.elim (fun h => by omega) And.right
    obtain ⟨str, first, t, hs, hfirst, e, he⟩ := hi.expandCode hsp hpos c hd
    exact ⟨str, first, _, hs, hfirst, congrArg doneUnit e, congrArg doneUnit ((dExpand_of_lt hlt).trans e), he⟩
  · obtain ⟨str, t, hs, hlast, e, he⟩ := hi.expandKwkwk hsp hpos c hrun
    exact ⟨str, _, hs, hlast, congrArg doneUnit e, congrArg doneUnit ((dExpand_of_eq hc).trans e), he⟩

end Sys2Proof.Machine
end

