-- ==== Sys2Proof/Proofs/DecompressLoop.lean ====
section
/-! PROOFS. Proofs/DecompressLoop.lean: what D_CODE does with an accepted and with any other code, how D_LOOP ends, and
what FINISH leaves where no code is buffered (R224, R230, R250, R254). -/

namespace Sys2Proof.Machine

/-! ## An accepted code -/

section
variable {s t : State} {c : Code}

/-- Outside `CLEAR` a code below `free_ent` is defined (R54). -/
theorem defined_of_lt (hlt : c.toNat < s.freeEnt) (hclear : ¬ (c = Config.clearCode ∧ s.blockMode = true)) :
    Defined s c.toNat := by
  by_cases h256 : c.toNat < 256
  · exact .inl h256
  · refine .inr ⟨?_, hlt⟩
    unfold firstFree
    split
    · have : c.toNat ≠ 256 := fun h => hclear ⟨eq_clearCode_iff.2 h, ‹_›⟩
      omega
    · omega

/-- An accepted code but CLEAR is the byte that begins an epoch, or a code of the dictionary or its next (R101). -/
theorem CodeAccepted.first_or_run (h : CodeAccepted s c.toNat) (hi : OpenInv s)
    (hclear : ¬ (c = Config.clearCode ∧ s.blockMode = true)) :
    ((s.dphase = .streamFirst ∨ s.dphase = .epochFirst) ∧ c.toNat < 256) ∨
      (s.dphase = .run ∧ c.toNat ≤ s.freeEnt) := by
  unfold CodeAccepted at h
  cases hph : s.dphase with
  | header => rw [hph] at h; exact h.elim
  | done => rw [hph] at h; exact h.elim
  | streamFirst => rw [hph] at h; exact .inl ⟨.inl rfl, h⟩
  | run => rw [hph] at h; exact .inr ⟨rfl, h⟩
  | epochFirst =>
    rw [hph] at h
    have : c.toNat ≠ 256 := fun e => hclear ⟨eq_clearCode_iff.2 e, hi.epoch hph⟩
    exact .inl ⟨.inr rfl, lt_of_le_of_ne h this⟩

/-- CLEAR is accepted at the beginning of an epoch and in one, not as the first code of the stream (R101). -/
theorem CodeAccepted.clear_phase (h : CodeAccepted s Config.clearCode.toNat) :
    s.dphase = .epochFirst ∨ s.dphase = .run := by
  unfold CodeAccepted at h
  cases hph : s.dphase with
  | header => rw [hph] at h; exact h.elim
  | done => rw [hph] at h; exact h.elim
  | streamFirst => rw [hph] at h; exact absurd (show 256 < 256 from h) (lt_irrefl _)
  | epochFirst => exact .inl rfl
  | run => exact .inr rfl

theorem DRealigned.cursor_le {w : Nat} (h : DRealigned w s t) (horigin : s.alignBase ≤ s.bitPosition) (hw : 0 < w) :
    s.bitPosition ≤ t.bitPosition := by
  obtain ⟨hpos, -⟩ := h
  exact hpos ▸ (realignTo_bounds horigin hw).1

theorem WidthFollows.cursor_le {f : Nat} (h : WidthFollows f s t) (horigin : s.alignBase ≤ s.bitPosition)
    (hw : 0 < s.nBits) : s.bitPosition ≤ t.bitPosition := by
  unfold WidthFollows at h
  split at h
  · obtain ⟨-, hrealigned, -⟩ := h
    exact hrealigned.cursor_le horigin hw
  · obtain ⟨-, hpos, -⟩ := h
    exact hpos.ge

/-- What an accepted code, once fetched, leaves of the session: the cursor went no way back, and bytes are waiting
unless the code was CLEAR (R230). -/
structure CodeProgress (c : Code) (s t : State) : Prop where
  phase : t.dphase ≠ .header
  cursor : s.bitPosition ≤ t.bitPosition
  maxbits : t.maxbits = s.maxbits
  blockMode : t.blockMode = s.blockMode
  output : 0 < t.sp ↔ ¬ (c = Config.clearCode ∧ s.blockMode = true)

theorem Expanded.progress {bytes : List Byte} {first : Byte} (h : Expanded c bytes first s (t.withResult .unit))
    (hr : Ranges s) (hrun : s.dphase = .run) (hne : bytes ≠ [])
    (hclear : ¬ (c = Config.clearCode ∧ s.blockMode = true)) : CodeProgress c s t := by
  obtain ⟨heq, ⟨hsp, -⟩, -, hwidth⟩ := h
  have h9 := hr.bitsLo
  have hlen := List.length_pos_of_ne_nil hne
  change t.sp = _ at hsp
  refine ⟨?_, hwidth.cursor_le hr.origin (by omega), (congrArg State.maxbits heq :),
    (congrArg State.blockMode heq :), iff_of_true (by omega) hclear⟩
  rw [show t.dphase = .run from (congrArg State.dphase heq).trans hrun]
  nofun

theorem LiveDecomp.interpret_progress (h : LiveDecomp s) (hh : s.dphase ≠ .header) (hsp : s.sp = 0)
    (hc : CodeAccepted s c.toNat) (e : Machine.interpret c s = .ok t) : CodeProgress c s t := by
  have hi := h.inv.opened hh
  have h9 := hi.ranges.bitsLo
  by_cases hclear : c = Config.clearCode ∧ s.blockMode = true
  · obtain ⟨rfl, hb⟩ := hclear
    rw [interpret_clear hc.clear_phase hb] at e
    obtain ⟨t', e', hrealigned, heq⟩ := dClear_spec hi.ranges.origin (by omega) h.inv.iposLe
    cases e.symm.trans e'
    refine ⟨by rw [heq]; nofun, hrealigned.cursor_le hi.ranges.origin (by omega), by rw [heq], by rw [heq], ?_⟩
    rw [show t.sp = 0 from (congrArg State.sp heq).trans hsp]
    exact iff_of_false (lt_irrefl 0) fun hn => hn ⟨rfl, hb⟩
  · rcases hc.first_or_run hi hclear with ⟨hph, hlt⟩ | ⟨hrun, hle⟩
    · rw [interpret_of_literal_first hph hlt, firstLiteral_ok (by omega)] at e
      cases e
      exact ⟨nofun, le_refl _, rfl, rfl, iff_of_true (Nat.succ_pos _) hclear⟩
    · rw [interpret_of_run hrun hclear] at e
      rcases Nat.lt_or_eq_of_le hle with hlt | heq
      · rw [dExpand_of_lt hlt] at e
        obtain ⟨str, first, t', hs, -, e', he⟩ := hi.expandCode hsp h.inv.iposLe c (defined_of_lt hlt hclear)
        cases e.symm.trans e'
        exact he.progress hi.ranges hrun (mt List.reverse_eq_nil_iff.1 hs.ne_nil) hclear
      · rw [dExpand_of_eq heq] at e
        obtain ⟨str, t', -, -, e', he⟩ := hi.expandKwkwk hsp h.inv.iposLe c hrun
        cases e.symm.trans e'
        exact he.progress hi.ranges hrun (List.cons_ne_nil _ _) hclear

end

/-! ## D_CODE -/

section
variable {s s1 : State}

theorem Fetched.live (hf : Fetched s s1) (h : LiveDecomp s) : LiveDecomp s1 :=
  ⟨by rw [hf.eq]; exact h.err, by rw [hf.eq]; exact h.mode, by rw [hf.dphase]; exact h.phase, hf.inv⟩

theorem Fetched.codeAccepted_iff (hf : Fetched s s1) (v : Nat) : CodeAccepted s1 v ↔ CodeAccepted s v := by
  unfold CodeAccepted
  rw [hf.dphase, show s1.freeEnt = s.freeEnt by rw [hf.eq]]

variable (h : LiveDecomp s) (hr : codeReady s = true)
include h hr

/-- D_CODE fetches the code at the cursor and interprets it (R230). -/
theorem LiveDecomp.dCode_eq : ∃ c s1, Machine.dCode s = Machine.interpret c s1 ∧
    c.toNat = streamValue s.ibuf s.ipos s.nBits ∧ Fetched s s1 ∧ Advanced s.nBits s s1 := by
  obtain ⟨hh, hk, ha⟩ := codeReady_iff.1 hr
  obtain ⟨c, s1, e, hc, -, hinv, hadv, heq, -⟩ := dGet_decompInv h.inv hh hk ha
  refine ⟨c, s1, ?_, hc, ⟨hinv, heq⟩, hadv⟩
  rw [Machine.dCode, e, Res.ok_bind]

/-- A code that is not accepted raises once it is fetched (R101, R230). -/
theorem LiveDecomp.dCode_of_not_accepted (hc : ¬ CodeAccepted s (streamValue s.ibuf s.ipos s.nBits)) :
    ∃ s1, Machine.dCode s = raiseHere .corrupt s1 ∧ Fetched s s1 ∧ Advanced s.nBits s s1 := by
  obtain ⟨hh, -⟩ := codeReady_iff.1 hr
  obtain ⟨c, s1, e, hv, hf, hadv⟩ := h.dCode_eq hr
  have h1 := hf.live h
  rw [← hv, ← hf.codeAccepted_iff] at hc
  exact ⟨s1, e.trans (interpret_of_not_accepted hf.inv (hf.dphase ▸ hh) h1.phase hc), hf, hadv⟩

/-- An accepted code takes its bits and keeps the session live (R101, R230). -/
theorem LiveDecomp.dCode_of_accepted (hsp : s.sp = 0) (hc : CodeAccepted s (streamValue s.ibuf s.ipos s.nBits)) :
    ∃ c s1 t, Machine.dCode s = .ok t ∧ c.toNat = streamValue s.ibuf s.ipos s.nBits ∧ Fetched s s1 ∧ LiveDecomp t ∧
      CodeProgress c s1 t := by
  obtain ⟨hh, -⟩ := codeReady_iff.1 hr
  obtain ⟨c, s1, e, hv, hf, -⟩ := h.dCode_eq hr
  have hacc : CodeAccepted s1 c.toNat := (hf.codeAccepted_iff _).2 (hv ▸ hc)
  have hh1 : s1.dphase ≠ .header := hf.dphase ▸ hh
  have hlt : c.toNat < 2 ^ s1.nBits := by
    rw [hv, hf.nBits]
    exact bitsValue_lt _ _
  obtain ⟨t, et, ht⟩ := (hf.live h).interpret hh1 (hf.sp.trans hsp) hacc hlt
  exact ⟨c, s1, t, e.trans et, hv, hf, ht.live, (hf.live h).interpret_progress hh1 (hf.sp.trans hsp) hacc et⟩

end

/-- Settles O55: the two outcomes of D_CODE, by whether the code is accepted. -/
theorem dCodeAcceptsOrRejects : Obligations.DCodeAcceptsOrRejects := by
  intro s h hh hsp hk ha
  have hr := codeReady_iff.2 ⟨hh, hk, ha⟩
  refine ⟨fun hc => ?_, fun hc => ?_⟩
  · obtain ⟨c, s1, t, e, hv, hf, hlive, hp⟩ := h.dCode_of_accepted hr hsp hc
    have hmax : s1.maxbits = s.maxbits := by rw [hf.eq]
    have hblock : s1.blockMode = s.blockMode := by rw [hf.eq]
    refine ⟨t.withResult .unit, congrArg doneUnit e, ⟨hlive.err, hlive.mode, hlive.phase, hlive.inv.withResult _⟩,
      hp.phase, hf.bitPosition ▸ hp.cursor, hp.maxbits.trans hmax, hp.blockMode.trans hblock, ?_⟩
    rw [← hv, ← eq_clearCode_iff, ← hblock]
    exact hp.output
  · obtain ⟨s1, e, hf, hadv⟩ := h.dCode_of_not_accepted hr hc
    exact ⟨raisedState .corrupt s1, congrArg doneUnit e, congrArg (raisedState .corrupt) hf.eq, hadv⟩

/-! ## One round of D_LOOP -/

/-- A header or a code is buffered and awaited (R224). -/
def Ready (s : State) : Prop := headerReady s = true ∨ codeReady s = true

theorem not_ready_iff {s : State} : ¬ Ready s ↔ headerReady s = false ∧ codeReady s = false := by
  rw [Ready, not_or, Bool.not_eq_true, Bool.not_eq_true]

/-- What D_LOOP does with what is buffered: the header, else the code (R224). -/
def fetchStep (s : State) : Res State := if headerReady s then dHeader s else dCode s

/-- What a round that drained `bs`, took `k` bytes of input and ran one more micro-operation adds to the loop's account
(R224). -/
def LoopOut.worked (l : LoopOut) (bs : List Byte) (k : Nat) : LoopOut :=
  { l with consumed := l.consumed + k, out := l.out ++ bs, steps := l.steps + bs.length + 1 }

/-- How D_LOOP goes on from the end of a fetch, in a round that drained `bs` (R224, R276). -/
def dLoopFetched (cap n : Nat) (inp : List Byte) (l : LoopOut) (bs : List Byte) : Res State → Res (LoopOut × State)
  | .ok t => dLoopFrom cap n inp (l.worked bs 0) t
  | .error (.raised k t) => .ok (loopRaised (l.drained bs) k t)
  | .error (.fault f) => stopWith f

section
variable {cap n : Nat} {inp bs : List Byte} {l : LoopOut} {s s1 t : State}
  (e : dDrainWhile (cap - l.out.length) s = .ok (bs, s1))
include e

theorem dLoopFrom_of_full (hsp : 0 < s1.sp) :
    dLoopFrom cap (n + 1) inp l s = .ok ({ l.drained bs with status := .outputFull }, s1) := by
  unfold dLoopFrom
  rw [e, Res.ok_bind]
  exact if_pos hsp

variable (hsp : s1.sp = 0)
include hsp

theorem dLoopFrom_of_ready (hr : Ready s1) :
    dLoopFrom cap (n + 1) inp l s = dLoopFetched cap n inp l bs (fetchStep s1) := by
  unfold dLoopFrom
  rw [e, Res.ok_bind]
  dsimp only
  rw [if_neg (by omega)]
  by_cases hhr : headerReady s1 = true
  · rw [if_pos hhr, fetchStep, if_pos hhr]
    rcases dHeader s1 with (_ | _) | _ <;> rfl
  · rw [if_neg hhr, if_pos (hr.resolve_left hhr), fetchStep, if_neg hhr]
    rcases dCode s1 with (_ | _) | _ <;> rfl

variable (hr : ¬ Ready s1)
include hr

theorem dLoopFrom_nil : dLoopFrom cap (n + 1) [] l s = .ok ({ l.drained bs with status := .needMoreInput }, s1) := by
  obtain ⟨hhr, hcr⟩ := not_or.1 hr
  unfold dLoopFrom
  rw [e, Res.ok_bind]
  dsimp only
  rw [if_neg (by omega), if_neg hhr, if_neg hcr]
  rfl

theorem dLoopFrom_cons {b : Byte} {rest : List Byte} (et : dTake b s1 = .ok t) :
    dLoopFrom cap (n + 1) (b :: rest) l s = dLoopFrom cap n rest (l.worked bs 1) t := by
  obtain ⟨hhr, hcr⟩ := not_or.1 hr
  conv_lhs => unfold dLoopFrom
  rw [e, Res.ok_bind]
  dsimp only
  rw [if_neg (by omega), if_neg hhr, if_neg hcr, et]
  rfl

end

/-! ## What a round leaves -/

/-- The most bytes a session can still output when `n` more bytes of input come: those on the stack, and a string for
each code, which takes at least a byte of the input (R170, R247). -/
def State.owed (s : State) (n : Nat) : Nat := s.sp + 65281 * (s.ibits / 8 + n)

/-- How the header or a code that `s` fetches ends: the session is live, with less buffered, or the data is in error. -/
inductive Fetches (s : State) : Res State → Prop where
  | ok {t : State} (live : LiveDecomp t) (shorter : t.ibits < s.ibits) (owed : ∀ n, t.owed n ≤ s.owed n) :
      Fetches s (.ok t)
  | raised {k : ErrKind} {t : State} (kind : k ≠ .usage) (mode : t.mode = .decomp) (empty : t.sp = 0)
      (owed : ∀ n, t.owed n ≤ s.owed n) : Fetches s (.error (.raised k t))

section
variable {s s1 t : State} (h : LiveDecomp s)

theorem owed_le_of_empty (hsp : t.sp = 0) (hle : t.ibits ≤ s.ibits) (n : Nat) : t.owed n ≤ s.owed n := by
  unfold State.owed
  omega

include h

theorem LiveDecomp.drainRound (room : Nat) :
    ∃ bs s1, Machine.dDrainWhile room s = .ok (bs, s1) ∧ LiveDecomp s1 ∧ bs.length = min s.sp room ∧
      s1 = { s with sp := s.sp - bs.length } ∧ ∀ i, i < bs.length → bs[i]? = Mem.get s.stack (s.sp - 1 - i) := by
  obtain ⟨bs, e, hlen, hget⟩ := dDrains_ok (min s.sp room) (Nat.min_le_left _ _) (h.inv.spHi.trans (by omega))
    h.inv.stackWritten
  rw [← hlen] at hget
  exact ⟨bs, _, e, h.drained _, hlen, by rw [hlen], hget⟩

/-- A byte of input that is taken can bring one more code (R143). -/
theorem LiveDecomp.dTakeRound (b : Byte) (hr : ¬ Ready s) :
    ∃ t, Machine.dTake b s = .ok t ∧ LiveDecomp t ∧ t.ibits ≤ s.ibits + 8 ∧ ∀ n, t.owed n ≤ s.owed (n + 1) := by
  obtain ⟨hhr, hcr⟩ := not_or.1 hr
  have h16 := h.ibits_le hhr hcr
  have hle := h.inv.iposLe
  obtain ⟨t, e, hlive, -, hibits⟩ := dTake_live b h h16
  have heq := e
  rw [dTake_ok (by omega), dSkip_ok (by dsimp only; omega)] at heq
  have hsp : t.sp = s.sp := by
    cases heq
    rfl
  refine ⟨t, e, hlive, hibits, fun n => ?_⟩
  unfold State.owed
  omega

theorem LiveDecomp.fetches_header (hr : headerReady s = true) : Fetches s (Machine.dHeader s) := by
  obtain ⟨hph, h24⟩ := headerReady_iff.1 hr
  obtain ⟨hsp, -⟩ := h.inv.header hph
  rcases dHeader_live h hph h24 with ⟨t, e, hlive, ht, hibits, -⟩ | ⟨k, hk, e⟩
  · rw [e]
    exact .ok hlive (by omega) (owed_le_of_empty ht (by omega))
  · rw [e]
    exact .raised hk h.mode hsp fun _ => le_refl _

/-- A code takes at least one byte of what is buffered, and its string is no longer than R170 says. -/
theorem LiveDecomp.fetches_code (hr : codeReady s = true) (hsp : s.sp = 0) : Fetches s (Machine.dCode s) := by
  by_cases hc : CodeAccepted s (streamValue s.ibuf s.ipos s.nBits)
  · obtain ⟨-, -, t, e, -, -, hlive, -⟩ := h.dCode_of_accepted hr hsp hc
    have hlt : t.ibits < s.ibits := by
      rcases h.dCode hr hsp with ⟨t', e', -, hlt⟩ | ⟨k, t', e'⟩
      · cases e.symm.trans e'
        exact hlt
      · cases e.symm.trans e'
    have hbyte := h.inv.ibitsByte
    have hbyte' := hlive.inv.ibitsByte
    have hmax := hlive.inv.spHi
    rw [e]
    refine .ok hlive hlt fun n => ?_
    unfold State.owed
    omega
  · obtain ⟨s1, e, hf, -, hibits, -⟩ := h.dCode_of_not_accepted hr hc
    have hempty := hf.sp.trans hsp
    rw [e]
    exact .raised (by decide) (hf.live h).mode hempty (owed_le_of_empty hempty (hibits.trans_le (Nat.sub_le _ _)))

theorem LiveDecomp.fetches (hr : Ready s) (hsp : s.sp = 0) : Fetches s (fetchStep s) := by
  unfold fetchStep
  split
  · exact h.fetches_header ‹_›
  · exact h.fetches_code (hr.resolve_left ‹_›) hsp

end

/-! ## How D_LOOP ends -/

/-- D_LOOP has ended with `n` bytes of its input left: the room is used up, the input is, or the data is in error
(R224). -/
def LoopEnded (cap n : Nat) (l : LoopOut) (t : State) : Prop :=
  (l.status = .outputFull ∧ LiveDecomp t ∧ 0 < t.sp ∧ l.out.length = cap) ∨
  (l.status = .needMoreInput ∧ LiveDecomp t ∧ t.sp = 0 ∧ n = 0 ∧ headerReady t = false ∧ codeReady t = false) ∨
  ∃ k, k ≠ .usage ∧ l.status = .error k ∧ t.err = some k ∧ t.mode = .decomp ∧ t.sp = 0

/-- D_LOOP can do nothing without room (R224, R250). -/
def Stalled (inp : List Byte) (s : State) : Prop :=
  0 < s.sp ∨ (inp = [] ∧ headerReady s = false ∧ codeReady s = false)

/-- The loop from `l` and `s` on has ended with `l'` and `t` (R224). -/
structure DLoopEnds (inp : List Byte) (cap : Nat) (l : LoopOut) (s : State) (l' : LoopOut) (t : State) : Prop where
  taken : ∃ n, n ≤ inp.length ∧ l.consumed + inp.length = l'.consumed + n ∧ LoopEnded cap n l' t ∧
    l'.out.length + t.owed n ≤ l.out.length + s.owed inp.length
  room : l'.out.length ≤ cap
  steps : l.steps ≤ l'.steps
  idle : l'.steps = l.steps → Stalled inp s ∨ ∃ k, l'.status = .error k

section
variable {inp inp1 bs : List Byte} {cap : Nat} {l l' : LoopOut} {s s1 t : State}

/-- A loop whose first round drained `bs`, took the bytes of `inp` before `inp1` and ran one more micro-operation. -/
theorem DLoopEnds.of_round {k : Nat} (h : DLoopEnds inp1 cap (l.worked bs k) s1 l' t)
    (hk : inp.length = inp1.length + k) (howed : bs.length + s1.owed inp1.length ≤ s.owed inp.length) :
    DLoopEnds inp cap l s l' t := by
  obtain ⟨⟨n, hn, hcons, hend, howed1⟩, hroom, hsteps, -⟩ := h
  simp only [LoopOut.worked, List.length_append] at hcons howed1 hsteps
  exact ⟨⟨n, by omega, by omega, hend, by omega⟩, hroom, by omega, fun h => by omega⟩

/-- A loop whose first round drained `bs` and was the last. -/
theorem dLoopEnds_drained {st : Status} (hend : LoopEnded cap inp.length { l.drained bs with status := st } t)
    (hroom : (l.out ++ bs).length ≤ cap) (howed : bs.length + t.owed inp.length ≤ s.owed inp.length)
    (hidle : Stalled inp s ∨ ∃ k, st = .error k) :
    DLoopEnds inp cap l s { l.drained bs with status := st } t := by
  refine ⟨⟨inp.length, le_refl _, rfl, hend, ?_⟩, ?_, Nat.le_add_right _ _, fun _ => hidle⟩
  · simp only [LoopOut.drained, List.length_append]
    omega
  · exact hroom

end

/-- D_LOOP ends before its bound, in one of the three ways (R224, R247). -/
theorem LiveDecomp.loopEnds {s : State} (h : LiveDecomp s) (cap n : Nat) (inp : List Byte) {l : LoopOut}
    (hroom : l.out.length ≤ cap) (hn : s.ibits + 9 * inp.length < n) :
    ∃ l' t, Machine.dLoopFrom cap n inp l s = .ok (l', t) ∧ DLoopEnds inp cap l s l' t := by
  induction n generalizing s inp l with
  | zero => omega
  | succ n ih =>
    obtain ⟨bs, s1, e, h1, hlen, heq, -⟩ := h.drainRound (cap - l.out.length)
    have hsp1 : s1.sp = s.sp - bs.length := by rw [heq]
    have hibits : s1.ibits = s.ibits := by rw [heq]
    have howed (k : Nat) : bs.length + s1.owed k = s.owed k := by unfold State.owed; omega
    have hroom1 : (l.out ++ bs).length ≤ cap := by rw [List.length_append]; omega
    by_cases hfull : 0 < s1.sp
    · have hend : LoopEnded cap inp.length { l.drained bs with status := .outputFull } s1 :=
        .inl ⟨rfl, h1, hfull, by rw [LoopOut.drained, List.length_append]; omega⟩
      exact ⟨_, _, dLoopFrom_of_full e hfull, dLoopEnds_drained hend hroom1 (howed _).le (.inl (.inl (by omega)))⟩
    have hsp : s1.sp = 0 := by omega
    by_cases hr : Ready s1
    · have hround := dLoopFrom_of_ready (n := n) (inp := inp) e hsp hr
      have hfetch := h1.fetches hr hsp
      generalize fetchStep s1 = r at hround hfetch
      cases hfetch with
      | ok live shorter owed =>
        obtain ⟨l', t, e', hends⟩ := ih live inp (l := l.worked bs 0) hroom1 (by omega)
        refine ⟨l', t, hround.trans e', hends.of_round rfl ?_⟩
        exact howed _ ▸ Nat.add_le_add_left (owed _) _
      | @raised k t kind mode empty owed =>
        have hend : LoopEnded cap inp.length { l.drained bs with status := .error k } { t with err := some k } :=
          .inr (.inr ⟨k, kind, rfl, rfl, mode, empty⟩)
        exact ⟨_, _, hround, dLoopEnds_drained hend hroom1
          (howed _ ▸ Nat.add_le_add_left (owed _) _) (.inr ⟨k, rfl⟩)⟩
    · cases inp with
      | nil =>
        have hidle := not_ready_iff.1 hr
        have hend : LoopEnded cap 0 { l.drained bs with status := .needMoreInput } s1 :=
          .inr (.inl ⟨rfl, h1, hsp, rfl, hidle⟩)
        rw [heq] at hidle
        exact ⟨_, _, dLoopFrom_nil e hsp hr, dLoopEnds_drained hend hroom1 (howed _).le (.inl (.inr ⟨rfl, hidle⟩))⟩
      | cons b rest =>
        obtain ⟨t, et, ht, hle, owed⟩ := h1.dTakeRound b hr
        rw [List.length_cons] at hn
        obtain ⟨l', t', e', hends⟩ := ih ht rest (l := l.worked bs 1) hroom1 (by omega)
        refine ⟨l', t', (dLoopFrom_cons e hsp hr et).trans e', hends.of_round rfl ?_⟩
        exact howed _ ▸ Nat.add_le_add_left (owed _) _

theorem LiveDecomp.dLoopEnds {s : State} (h : LiveDecomp s) (inp : List Byte) (cap : Nat) :
    ∃ l t, Machine.dLoop inp cap s = .ok (l, t) ∧ DLoopEnds inp cap loopStart s l t :=
  h.loopEnds cap _ inp (Nat.zero_le cap) (by unfold dLoopBound; omega)

theorem LiveDecomp.advanceD_eq {s t : State} {inp : List Byte} {cap : Nat} {l : LoopOut} (h : LiveDecomp s)
    (e : Machine.dLoop inp cap s = .ok (l, t)) : Machine.advanceD inp cap s = .ok (advanceEnd cap l t) := by
  unfold Machine.advanceD
  simp [h.err, h.mode, h.phase, e, Res.ok_bind]

/-- ADVANCE_D answers what its loop did, unless the loop did nothing, met no error, and there was no room (R250). -/
theorem DLoopEnds.advanceEnd_eq {inp : List Byte} {cap : Nat} {s t : State} {l : LoopOut}
    (h : DLoopEnds inp cap loopStart s l t) (hp : ¬ (cap = 0 ∧ Stalled inp s)) :
    advanceEnd cap l t = (⟨l.consumed, l.out, l.status⟩, t) := by
  by_cases hst : ∃ k, l.status = .error k
  · obtain ⟨k, hk⟩ := hst
    simp only [advanceEnd, hk]
  · refine advanceEnd_of_progress (not_exists.1 hst) fun ⟨h0, hcap⟩ => hp ⟨hcap, ?_⟩
    exact (h.idle h0).resolve_right hst

/-- Settles O56: `DLoopEnds`, from a loop that has done nothing yet. -/
theorem advanceDRunsUntilInputOrRoomEnds : Obligations.AdvanceDRunsUntilInputOrRoomEnds := by
  intro inp cap s h
  obtain ⟨l, t, e, hends⟩ := h.dLoopEnds inp cap
  obtain ⟨n, hn, hcons, hend, -⟩ := hends.taken
  replace hcons : inp.length = l.consumed + n := (Nat.zero_add _).symm.trans hcons
  refine ⟨l, t, congrArg (doneVal .loop) e, by omega, hends.room, ?_, fun hp => ?_⟩
  · refine hend.imp_right (Or.imp_left ?_)
    rintro ⟨hst, hlive, hsp, rfl, hidle⟩
    exact ⟨hst, hlive, hsp, hcons.symm, hidle⟩
  · have hadv := h.advanceD_eq e
    rw [hends.advanceEnd_eq hp] at hadv
    exact congrArg doneCmd hadv

/-! ## FINISH -/

section
variable {s : State} (h : LiveDecomp s) (hhr : headerReady s = false) (hcr : codeReady s = false)
include h hhr hcr

/-- D_LOOP of no input, with neither a header nor a code buffered, drains the stack (R224). -/
theorem LiveDecomp.dLoop_of_idle (cap : Nat) :
    ∃ out, out.length = min s.sp cap ∧ (∀ i, i < out.length → out[i]? = Mem.get s.stack (s.sp - 1 - i)) ∧
      Machine.dLoop [] cap s = .ok (⟨0, out, if cap < s.sp then .outputFull else .needMoreInput, out.length⟩,
        { s with sp := s.sp - out.length }) := by
  obtain ⟨out, s1, e, -, hlen, heq, hget⟩ := h.drainRound (cap - loopStart.out.length)
  change out.length = min s.sp cap at hlen
  have hsp : s1.sp = s.sp - out.length := by rw [heq]
  have hr : ¬ Ready s1 := by
    rw [heq]
    exact not_ready_iff.2 ⟨hhr, hcr⟩
  have hdrained : loopStart.drained out = { loopStart with out := out, steps := out.length } := by
    simp [LoopOut.drained, loopStart]
  refine ⟨out, hlen, hget, ?_⟩
  unfold Machine.dLoop dLoopBound
  by_cases hroom : cap < s.sp
  · rw [dLoopFrom_of_full e (by omega), hdrained, if_pos hroom, heq]
    rfl
  · rw [dLoopFrom_nil e (by omega) hr, hdrained, if_neg hroom, heq]
    rfl

/-- FINISH_D with neither a header nor a code buffered, and some room if bytes wait (R254). -/
theorem LiveDecomp.finishD_of_idle {cap : Nat} (hp : ¬ (cap = 0 ∧ 0 < s.sp)) :
    ∃ out, out.length = min s.sp cap ∧ (∀ i, i < out.length → out[i]? = Mem.get s.stack (s.sp - 1 - i)) ∧
      Machine.finishD cap s = .ok (if cap < s.sp then (⟨0, out, .outputFull⟩, { s with sp := s.sp - cap })
        else dAtEnd out { s with sp := 0 }) := by
  obtain ⟨out, hlen, hget, e⟩ := h.dLoop_of_idle hhr hcr cap
  refine ⟨out, hlen, hget, ?_⟩
  unfold Machine.finishD
  rw [if_neg h.phase, e, Res.ok_bind]
  by_cases hroom : cap < s.sp
  · have hnp : noProgress out.length cap = false := by
      simp only [noProgress, Bool.and_eq_false_iff, decide_eq_false_iff_not]
      omega
    simp only [if_pos hroom, hnp, if_true]
    rw [show out.length = cap by omega]
    rfl
  · simp only [if_neg hroom, show s.sp - out.length = 0 by omega]
    rfl

end

theorem finishCmd_decomp {s : State} {cap : Nat} (he : s.err = none) (hm : s.mode = .decomp) :
    finishCmd cap s = finishD cap s := by
  simp only [finishCmd, he, hm]

/-- Settles O57: the three outcomes of FINISH_D, by the room and the phase. -/
theorem finishDrainsTheDecompressor : Obligations.FinishDrainsTheDecompressor := by
  intro cap s h hhr hcr hp
  obtain ⟨out, hlen, hget, e⟩ := h.finishD_of_idle hhr hcr hp
  have hexec : exec (.finishD cap) s = doneCmd (finishD cap s) := rfl
  have hfinish : exec (.finish cap) s = exec (.finishD cap) s := congrArg doneCmd (finishCmd_decomp h.err h.mode)
  rw [hfinish, hexec, e]
  refine ⟨out, _, rfl, rfl, hlen, hget, fun hroom => ?_, fun hroom hph => ?_, fun hroom hph => ?_⟩
  · rw [if_pos hroom]
  · rw [if_neg (Nat.not_lt.2 hroom), dAtEnd, if_pos hph]
    rfl
  · rw [if_neg (Nat.not_lt.2 hroom), dAtEnd, if_neg hph]

end Sys2Proof.Machine
end

