-- ==== Sys2Proof/Proofs/DecompressAll.lean ====
section
/-! PROOFS. Proofs/DecompressAll.lean: DECOMPRESS_ALL comes to its end on every byte sequence (R118, R247). Each
ADVANCE_D but the last outputs a byte, and `State.owed` bounds the bytes that can still come. -/

namespace Sys2Proof.Machine

/-- A session that has been given all its input and has delivered all it made of it (R224). -/
structure Spent (s : State) : Prop where
  live : LiveDecomp s
  empty : s.sp = 0
  noHeader : headerReady s = false
  noCode : codeReady s = false

section
variable {s : State} {cap : Nat} (hcap : 1 ≤ cap)
include hcap

/-- ADVANCE_D with some room: the input is used up, or a data error met, or bytes were delivered and fewer are owed for
the input that is left (R250). -/
theorem LiveDecomp.advanceD (h : LiveDecomp s) (inp : List Byte) :
    ∃ r t, Machine.advanceD inp cap s = .ok (r, t) ∧
      ((r.status = .needMoreInput ∧ r.consumed = inp.length ∧ Spent t) ∨
        (∃ k, k ≠ .usage ∧ r.status = .error k) ∨
        (r.status = .outputFull ∧ LiveDecomp t ∧ t.owed (inp.drop r.consumed).length < s.owed inp.length)) := by
  obtain ⟨l, t, e, hends⟩ := h.dLoopEnds inp cap
  obtain ⟨n, hn, hcons, hend, howed⟩ := hends.taken
  have hadv := h.advanceD_eq e
  rw [hends.advanceEnd_eq (fun hp => by omega)] at hadv
  refine ⟨_, t, hadv, ?_⟩
  have hleft : inp.length = l.consumed + n := (Nat.zero_add _).symm.trans hcons
  rcases hend with ⟨hst, hlive, -, hlen⟩ | ⟨hst, hlive, hsp, rfl, hhr, hcr⟩ | ⟨k, hk, hst, -⟩
  · refine .inr (.inr ⟨hst, hlive, ?_⟩)
    rw [List.length_drop, show inp.length - l.consumed = n by omega]
    change l.out.length + t.owed n ≤ 0 + s.owed inp.length at howed
    omega
  · exact .inl ⟨hst, hleft.symm, hlive, hsp, hhr, hcr⟩
  · exact .inr (.inl ⟨k, hk, hst⟩)

/-- The ADVANCE commands end within any bound above the bytes owed (R118, R247). -/
theorem LiveDecomp.advanceAll (h : LiveDecomp s) {n : Nat} {inp : List Byte} (hn : s.owed inp.length < n)
    (z : List Byte) :
    ∃ out e t, Machine.advanceAll (fun i => Machine.advanceD i cap) n inp z s = .ok (out, e, t) ∧
      ((e = none ∧ Spent t) ∨ ∃ k, k ≠ .usage ∧ e = some k) := by
  induction n generalizing s inp z with
  | zero => omega
  | succ n ih =>
    obtain ⟨⟨consumed, out, st⟩, s1, e, hend⟩ := h.advanceD hcap inp
    dsimp only at hend
    unfold Machine.advanceAll
    rw [e, Res.ok_bind]
    dsimp only
    rcases hend with ⟨rfl, rfl, hfin⟩ | ⟨k, hk, rfl⟩ | ⟨rfl, h1, howed⟩
    · exact ⟨_, _, _, if_pos ⟨rfl, rfl⟩, .inl ⟨rfl, hfin⟩⟩
    · exact ⟨_, _, _, rfl, .inr ⟨k, hk, rfl⟩⟩
    · obtain ⟨out', e', t, eq, hfin⟩ := ih h1 (howed.trans_le (Nat.le_of_lt_succ hn)) (z ++ out)
      exact ⟨out', e', t, (if_neg (by simp)).trans eq, hfin⟩

end

/-- One FINISH ends a spent session (R254). -/
theorem Spent.finishAll {s : State} (h : Spent s) (cap n : Nat) (z : List Byte) :
    ∃ out st t, Machine.finishAll cap (n + 1) z s = .ok ((out, st), t) ∧ (st = .streamEnd ∨ st = .error .format) := by
  have hempty := h.empty
  obtain ⟨out, -, -, e⟩ := h.live.finishD_of_idle h.noHeader h.noCode (cap := cap) (by omega)
  unfold Machine.finishAll
  rw [finishCmd_decomp h.live.err h.live.mode, e, Res.ok_bind, if_neg (by omega)]
  by_cases hph : s.dphase = .header
  · rw [dAtEnd, if_pos hph]
    exact ⟨_, _, _, rfl, .inr rfl⟩
  · rw [dAtEnd, if_neg hph]
    exact ⟨_, _, _, rfl, .inl rfl⟩

theorem liveDecomp_beginDecompress (s : State) : LiveDecomp (beginDecompress s).2 :=
  ⟨rfl, rfl, nofun, decompInv_beginDecompress s⟩

theorem decompressAll_ends (z : List Byte) {cap : Nat} (hcap : 1 ≤ cap) (s : State) :
    ∃ out st t, decompressAll z cap s = .ok ((out, st), t) ∧ (st = .streamEnd ∨ ∃ k, k ≠ .usage ∧ st = .error k) := by
  have howed : (beginDecompress s).2.owed z.length = 0 + 65281 * (0 / 8 + z.length) := rfl
  have hbound : 65536 * (z.length + 1) = 65536 * z.length + 65535 + 1 := by omega
  obtain ⟨out, e, t, eadv, hend⟩ := (liveDecomp_beginDecompress s).advanceAll hcap (n := 65536 * (z.length + 1))
    (inp := z) (by omega) []
  unfold decompressAll wholeStream
  rw [eadv, Res.ok_bind]
  rcases hend with ⟨rfl, hfin⟩ | ⟨k, hk, rfl⟩
  · obtain ⟨out', st, t', efin, hst⟩ := hfin.finishAll cap (65536 * z.length + 65535) out
    exact ⟨out', st, t', by rw [hbound]; exact efin, hst.imp_right fun h => ⟨.format, by decide, h⟩⟩
  · exact ⟨out, _, t, rfl, .inr ⟨k, hk, rfl⟩⟩

/-- Settles O58: an error that is not UsageError is one of the three data errors. -/
theorem decompressAllEndsOnAnyInput : Obligations.DecompressAllEndsOnAnyInput := by
  intro z cap s hcap
  obtain ⟨out, st, t, e, hst⟩ := decompressAll_ends z hcap s
  refine ⟨out, st, t, congrArg (doneVal fun r : List Byte × Status => .stream r.1 r.2) e, hst.imp_right ?_⟩
  rintro ⟨k, hk, rfl⟩
  cases k with
  | usage => exact absurd rfl hk
  | format => exact .inl rfl
  | width => exact .inr (.inl rfl)
  | corrupt => exact .inr (.inr rfl)

end Sys2Proof.Machine
end

