-- ==== Sys2Proof/Proofs/Errors.lean ====
section
/-! PROOFS. Proofs/Errors.lean: the tests in front of a command's work (R194, R250, R271, R274): the sticky error, the
session, its phase; the calls without room that do nothing; and what ends an error (R277, R278). -/

namespace Sys2Proof.Machine

/-! ## A raise -/

/-- Settles O13: RAISE and the BADCODE classes are a raise that nothing catches. -/
theorem raiseWritesOnlyTheError : Obligations.RaiseWritesOnlyTheError := fun k _ s =>
  ⟨doneUnit_raiseHere k s, doneUnit_raiseHere .corrupt s, doneUnit_raiseHere .corrupt s,
    doneUnit_raiseHere .corrupt s⟩

section
variable {inp : List Byte} {cap : Nat} {s t : State}

/-! ## The sticky error -/

section
variable {k : ErrKind} (he : s.err = some k)
include he

theorem exec_advanceC_of_err : exec (.advanceC inp cap) s = .next (answered (.error k) s) := by
  change doneCmd (advanceC inp cap s) = _
  rw [advanceC, he]
  rfl

theorem exec_advanceD_of_err : exec (.advanceD inp cap) s = .next (answered (.error k) s) := by
  change doneCmd (advanceD inp cap s) = _
  rw [advanceD, he]
  rfl

theorem exec_finish_of_err : exec (.finish cap) s = .next (answered (.error k) s) := by
  change doneCmd (finishCmd cap s) = _
  rw [finishCmd, he]
  rfl

end

/-! ## The session and its phase -/

section
variable (he : s.err = none)
include he

theorem exec_advanceC_of_noSession (hm : s.mode ≠ .comp) :
    exec (.advanceC inp cap) s = .next (raisedState .usage s) := by
  change doneCmd (advanceC inp cap s) = _
  simp only [advanceC, he, if_pos hm, doneCmd_raiseError]

theorem exec_advanceD_of_noSession (hm : s.mode ≠ .decomp) :
    exec (.advanceD inp cap) s = .next (raisedState .usage s) := by
  change doneCmd (advanceD inp cap s) = _
  simp only [advanceD, he, if_pos hm, doneCmd_raiseError]

theorem exec_finish_of_idle (hm : s.mode = .idle) : exec (.finish cap) s = .next (raisedState .usage s) := by
  change doneCmd (finishCmd cap s) = _
  simp only [finishCmd, he, hm, doneCmd_raiseError]

theorem exec_finish_of_comp (hm : s.mode = .comp) : exec (.finish cap) s = exec (.finishC cap) s :=
  congrArg doneCmd (finishCmd_comp he hm)

theorem exec_finish_of_decomp (hm : s.mode = .decomp) : exec (.finish cap) s = exec (.finishD cap) s :=
  congrArg doneCmd (finishCmd_decomp he hm)

theorem exec_advanceC_of_finishing (hm : s.mode = .comp) (hph : s.cphase = .finishing) :
    exec (.advanceC inp cap) s = .next (raisedState .usage s) := by
  change doneCmd (advanceC inp cap s) = _
  simp [advanceC, he, hm, hph]

theorem exec_advanceC_of_done (hm : s.mode = .comp) (hph : s.cphase = .done) :
    exec (.advanceC inp cap) s = .next (answered .streamEnd s) := by
  change doneCmd (advanceC inp cap s) = _
  simp [advanceC, he, hm, hph, answered]

theorem exec_advanceD_of_done (hm : s.mode = .decomp) (hph : s.dphase = .done) :
    exec (.advanceD inp cap) s = .next (answered .streamEnd s) := by
  change doneCmd (advanceD inp cap s) = _
  simp [advanceD, he, hm, hph, answered]

end

theorem exec_finishC_of_done (hph : s.cphase = .done) : exec (.finishC cap) s = .next (answered .streamEnd s) := by
  change doneCmd (finishC cap s) = _
  rw [finishC, hph]
  rfl

theorem exec_finishD_of_done (hph : s.dphase = .done) : exec (.finishD cap) s = .next (answered .streamEnd s) := by
  change doneCmd (finishD cap s) = _
  rw [finishD, if_pos hph]
  rfl

/-! ## Calls without room -/

theorem cDrainWhile_zero (s : State) : cDrainWhile 0 s = .ok ([], s) := by
  rw [cDrainWhile, Nat.min_zero, cDrains]

theorem dDrainWhile_zero (s : State) : dDrainWhile 0 s = .ok ([], s) := by
  rw [dDrainWhile, Nat.min_zero, dDrains]

/-- C_LOOP without room does nothing if a whole byte waits or there is no input (R184). -/
theorem cLoop_stalled (h : 8 ≤ s.obits ∨ inp = []) :
    ∃ st, (∀ k, st ≠ .error k) ∧ cLoop inp 0 s = .ok ({ loopStart with status := st }, s) := by
  unfold cLoop cLoopFrom
  rw [Nat.zero_sub, cDrainWhile_zero, Res.ok_bind]
  by_cases hwait : 8 ≤ s.obits
  · exact ⟨.outputFull, nofun, if_pos hwait⟩
  · obtain rfl := h.resolve_left hwait
    exact ⟨.needMoreInput, nofun, if_neg hwait⟩

/-- D_LOOP without room does nothing if bytes are on the stack (R224). -/
theorem dLoop_of_waiting (hsp : 0 < s.sp) (inp : List Byte) :
    dLoop inp 0 s = .ok ({ loopStart with status := .outputFull }, s) :=
  dLoopFrom_of_full (by rw [Nat.zero_sub, dDrainWhile_zero]) hsp

/-- D_LOOP without room does nothing if it is stalled (R224). -/
theorem dLoop_stalled (h : Stalled inp s) :
    ∃ st, (∀ k, st ≠ .error k) ∧ dLoop inp 0 s = .ok ({ loopStart with status := st }, s) := by
  by_cases hsp : 0 < s.sp
  · exact ⟨.outputFull, nofun, dLoop_of_waiting hsp inp⟩
  · obtain ⟨rfl, hidle⟩ := h.resolve_left hsp
    exact ⟨.needMoreInput, nofun, dLoopFrom_nil (by rw [Nat.zero_sub, dDrainWhile_zero]) (by omega)
      (not_ready_iff.2 hidle)⟩

/-- The no-progress test (R194, R250). -/
theorem advanceEnd_of_noProgress {st : Status} (hst : ∀ k, st ≠ .error k) :
    advanceEnd 0 { loopStart with status := st } s = raiseError .usage 0 [] s := by
  cases st with
  | error k => exact absurd rfl (hst k)
  | cont | needMoreInput | outputFull | streamEnd => rfl

section
variable (he : s.err = none)
include he

theorem exec_advanceC_of_stalled (hm : s.mode = .comp) (hph : s.cphase = .first ∨ s.cphase = .run)
    (h : 8 ≤ s.obits ∨ inp = []) : exec (.advanceC inp 0) s = .next (raisedState .usage s) := by
  obtain ⟨st, hst, e⟩ := cLoop_stalled h
  change doneCmd (advanceC inp 0 s) = _
  rcases hph with hph | hph <;> simp [advanceC, he, hm, hph, e, advanceEnd_of_noProgress hst]

theorem exec_advanceD_of_stalled (hm : s.mode = .decomp) (hph : s.dphase ≠ .done) (h : Stalled inp s) :
    exec (.advanceD inp 0) s = .next (raisedState .usage s) := by
  obtain ⟨st, hst, e⟩ := dLoop_stalled h
  change doneCmd (advanceD inp 0 s) = _
  simp [advanceD, he, hm, hph, e, advanceEnd_of_noProgress hst]

end

/-- FINISH_C without room, after its first step, has nothing it can do (R198). -/
theorem exec_finishC_of_stalled (hph : s.cphase = .finishing) :
    exec (.finishC 0) s = .next (raisedState .usage s) := by
  change doneCmd (finishC 0 s) = _
  rw [finishC, hph]
  dsimp only
  rw [cDeliver, cDrainWhile_zero, Res.ok_bind]
  rfl

/-- FINISH_D without room cannot deliver what is on the stack (R254). -/
theorem exec_finishD_of_stalled (hph : s.dphase ≠ .done) (hsp : 0 < s.sp) :
    exec (.finishD 0) s = .next (raisedState .usage s) := by
  change doneCmd (finishD 0 s) = _
  rw [finishD, if_neg hph, dLoop_of_waiting hsp, Res.ok_bind]
  rfl

/-! ## The end of an error -/

/-- The requests that open a session: BEGIN_COMPRESS with a legal `cfg`, and BEGIN_DECOMPRESS (R180, R220). -/
def OpensSession (r : Request) : Prop :=
  (r.cmd = 1#3 ∧ r.cfg.extractLsb' 5 2 = 0#2 ∧ 9 ≤ (r.cfg.extractLsb' 0 5).toNat ∧
    (r.cfg.extractLsb' 0 5).toNat ≤ 16) ∨ r.cmd = 2#3

theorem err_ne_none_of_next {o : Host.Outcome State Fault Refusal} {u : State} {k : ErrKind} (e : o = .next u)
    (hu : u.err = some k) (h : o = .next t) : t.err ≠ none := by
  cases e.symm.trans h
  exact Option.ne_none_iff_exists'.2 ⟨k, hu⟩

/-- A command that opens no session leaves an error: it answers the one that stands, or raises (R272, R277). -/
theorem err_ne_none_of_not_opensSession {r : Request} (hr : ¬ OpensSession r) (he : s.err ≠ none)
    (h : exec (decodeRequest r) s = .next t) : t.err ≠ none := by
  obtain ⟨k, hk⟩ := Option.ne_none_iff_exists'.1 he
  obtain ⟨hcomp, hdecomp⟩ := not_or.1 hr
  obtain ⟨-, hrefused, -⟩ := beginCommandsOpenASession
  unfold decodeRequest at h
  rw [if_neg hdecomp] at h
  split_ifs at h with hcmd
  · exact err_ne_none_of_next (hrefused r.cfg s fun hcfg => hcomp ⟨hcmd, hcfg⟩) rfl h
  · exact err_ne_none_of_next (exec_advanceC_of_err hk) hk h
  · exact err_ne_none_of_next (exec_advanceD_of_err hk) hk h
  · exact err_ne_none_of_next (exec_finish_of_err hk) hk h
  · exact err_ne_none_of_next (respond_raiseError .usage s) rfl h
  · exact err_ne_none_of_next (respond_raiseError .usage s) rfl h
  · exact err_ne_none_of_next (respond_raiseError .usage s) rfl h

end

/-! ## The obligations -/

/-- Settles O9: an idle step leaves the error, and so does every command that opens no session. -/
theorem errorEndsOnlyWithBeginOrReset : Obligations.ErrorEndsOnlyWithBeginOrReset := by
  intro s t h he ht
  match hport : s.port with
  | [] =>
    cases (step_of_port_nil hport).symm.trans h
    exact absurd ht he
  | .resetLine :: rest => exact ⟨rest, .inl rfl⟩
  | .command r :: rest =>
    have hopens : OpensSession r := by
      by_contra hr
      rw [step_of_port_command hport] at h
      exact err_ne_none_of_not_opensSession (s := { s with port := rest }) hr he h ht
    exact ⟨rest, .inr ⟨r, rfl, hopens⟩⟩

/-- Settles O14, one lemma for each command. -/
theorem errorIsSticky : Obligations.ErrorIsSticky := fun _ _ _ _ he =>
  ⟨exec_advanceC_of_err he, exec_advanceD_of_err he, exec_finish_of_err he⟩

/-- Settles O15: the tests in front of each command's work. -/
theorem misusedCommandRaisesUsageError : Obligations.MisusedCommandRaisesUsageError := by
  refine fun inp cap s he => ⟨fun hm => ⟨?_, ?_, exec_finish_of_idle he hm⟩, fun hm => ?_, fun hm => ?_,
    exec_advanceC_of_finishing he⟩
  · exact exec_advanceC_of_noSession he (by simp [hm])
  · exact exec_advanceD_of_noSession he (by simp [hm])
  · exact exec_advanceC_of_noSession he (by simp [hm])
  · exact exec_advanceD_of_noSession he (by simp [hm])

/-- Settles O16: without room the drains and the work loops do nothing, and the no-progress test raises. -/
theorem noProgressRaisesUsageError : Obligations.NoProgressRaisesUsageError := fun _ _ he =>
  ⟨exec_advanceC_of_stalled he, fun hm hph => (exec_finish_of_comp he hm).trans (exec_finishC_of_stalled hph),
    exec_advanceD_of_stalled he,
    fun hm hph hsp => (exec_finish_of_decomp he hm).trans (exec_finishD_of_stalled hph hsp)⟩

/-- Settles O17: the phase test comes before any work. -/
theorem streamEndIsAbsorbing : Obligations.StreamEndIsAbsorbing := fun _ _ _ he =>
  ⟨fun hm hph => ⟨exec_advanceC_of_done he hm hph, (exec_finish_of_comp he hm).trans (exec_finishC_of_done hph),
      exec_finishC_of_done hph⟩,
    fun hm hph => ⟨exec_advanceD_of_done he hm hph, (exec_finish_of_decomp he hm).trans (exec_finishD_of_done hph),
      exec_finishD_of_done hph⟩⟩

/-- Settles O18, one lemma for each test. -/
theorem finishServesTheOpenSession : Obligations.FinishServesTheOpenSession := fun _ _ =>
  ⟨fun _ => exec_finish_of_err, exec_finish_of_idle, exec_finish_of_comp, exec_finish_of_decomp⟩

end Sys2Proof.Machine
end

