-- ==== Sys2Proof/Proofs/Reset.lean ====
section
/-! PROOFS. Proofs/Reset.lean: what the reset event leaves of the session and of the memories (R300, R58, log 9). -/

namespace Sys2Proof.Machine

/-- An unlisted slot of a table that has not been emptied since reset holds no value (R58, log 5). -/
theorem HashMem.read_of_not_cleared {t : HashMem} {h : HIdx} (hc : t.cleared = false)
    (hg : Mem.get t.cells h.toNat = none) : t.read h = .unwritten := by simp [HashMem.read, hg, hc]

theorem exec_reset (s : State) : exec .reset s = .next (hardwareReset s) := rfl

/-- The model's reset lists no slot and drops the mark that a session had emptied the table (log 9). -/
theorem read_hslot_hardwareReset (s : State) (h : HIdx) : (hardwareReset s).hslot.read h = .unwritten :=
  HashMem.read_of_not_cleared rfl (Mem.get_nil _)

/-- Settles O10: the five plain memories list nothing after reset, and no slot of the hash table reads as EMPTY. -/
theorem resetLeavesNoSession : Obligations.ResetLeavesNoSession := fun s =>
  ⟨hardwareReset s, exec_reset s, rfl, rfl, rfl,
    fun a => ⟨Mem.get_nil a, Mem.get_nil a, Mem.get_nil a, Mem.get_nil a, Mem.get_nil a⟩,
    read_hslot_hardwareReset s⟩

end Sys2Proof.Machine
end
